-- ==== Sys2Proof/Word.lean ====
section
/-!
DEFINITION. The plain types every other file speaks in: bytes, the index sets of 0.6.3 (heads, planes,
banks), pixel and drop values, lane grades, and reading and writing one place of a fixed-size table.
-/

namespace Sys2Proof

/-- One byte of a frame, a record or the configuration image (chapter 10). -/
abbrev Byte := BitVec 8

/-- A head h, 0..15; lane h serves head h (0.6.3). -/
abbrev Head := Fin 16

/-- A plane p, 0..3 (0.6.3). -/
abbrev Plane := Fin 4

/-- A bank number, 0 or 1 (R140). -/
abbrev BankId := Fin 2

/-- A pixel value or a drop value, 0..3 (R54, R94). -/
abbrev Dot := Fin 4

/-- The heads in increasing order. -/
def allHeads : List Head := [0, 1, 2, 3, 4, 5, 6, 7, 8, 9, 10, 11, 12, 13, 14, 15]

/-- The planes in increasing order. -/
def allPlanes : List Plane := [0, 1, 2, 3]

/-- The six lane grades of R116, slowest first. -/
inductive Grade where
  | a | b | c | d | e | f
  deriving DecidableEq, Repr

/-- The grades, lowest first. -/
def allGrades : List Grade := [.a, .b, .c, .d, .e, .f]

/-- The code of a grade in frames and notices: 1 to 6 for A to F (10.1, 10.3). -/
def Grade.code : Grade → Nat
  | .a => 1 | .b => 2 | .c => 3 | .d => 4 | .e => 5 | .f => 6

/-- The bits a grade sends per tick (R116). -/
def Grade.bitsPerTick : Grade → Nat
  | .a => 4 | .b => 8 | .c => 12 | .d => 16 | .e => 24 | .f => 32

/-- A fixed-size table with the value at one place replaced. -/
def put {α : Type} {n : Nat} (v : Vector α n) (i : Fin n) (x : α) : Vector α n :=
  v.set i.val x i.isLt

/-- A fixed-size table with a function applied at every place. -/
def mapAll {α β : Type} {n : Nat} (f : Fin n → α → β) (v : Vector α n) : Vector β n :=
  Vector.ofFn fun i => f i (v.get i)

end Sys2Proof
end

