-- ==== Sys2Proof/Syntax.lean ====
section
/-!
DEFINITION. The commands of the block, one constructor of `Instr` for each row of the table of operations
and events, with their operands. Numbers carried by frames are raw: the rule that owns the command rules on
a value outside its range.
-/

namespace Sys2Proof

/-- The levels of the sampled inputs at one tick: the encoder pair, the trigger input, HOLD and FAULT of
the sixteen lanes (0.2). High is `true`. -/
structure Levels where
  encA : Bool
  encB : Bool
  trigger : Bool
  hold : Vector Bool 16
  fault : Vector Bool 16
  deriving DecidableEq, Repr

/-- What the physical layer of the raster link delivers for one inbound frame: a report that the frame was
damaged, or the whole frame (8.2). -/
inductive Delivery where
  | damaged
  | whole (bytes : List Byte)
  deriving DecidableEq, Repr

/-- What the physical layer of a lane delivers for one record of the board: its report whether the record
was damaged, and the bytes it could read (R122, R189). -/
structure LaneDelivery where
  damaged : Bool
  bytes : List Byte
  deriving DecidableEq, Repr

/-- The fields of a job frame whose layout is right (10.1); `planes` are the planes of the plane set. -/
structure JobFields where
  id : Nat
  length : Nat
  planes : List Plane
  mode : Nat
  delay : Nat
  gap : Nat
  tag : Option Nat
  deriving DecidableEq, Repr

/-- The ten parameters of Set Position, each present or absent (R20). -/
structure PositionArgs where
  lineRatio : Option Nat
  avgExp : Option Nat
  encFilter : Option Nat
  invert : Option Nat
  kp : Option Nat
  ki : Option Nat
  ilim : Option Nat
  vmax : Option Nat
  slip : Option Nat
  stall : Option Nat
  deriving DecidableEq, Repr

/-- The four parameters of Set Trigger (R45). -/
structure TriggerArgs where
  polarity : Option Nat
  minOn : Option Nat
  dropout : Option Nat
  minOff : Option Nat
  deriving DecidableEq, Repr

/-- The plane number and the four stream parameters of Set Plane (R50). -/
structure PlaneArgs where
  plane : Nat
  width : Option Nat
  depth : Option Nat
  high : Option Nat
  low : Option Nat
  deriving DecidableEq, Repr

/-- The lane number and the eight settings of Set Lane (R131); the mask is the list of grade codes. -/
structure LaneArgs where
  lane : Nat
  mask : Option (List Nat)
  pulse : Option Nat
  filter : Option Nat
  mode : Option Nat
  degrade : Option Nat
  autoDown : Option Nat
  timeout : Option Nat
  hyst : Option Nat
  deriving DecidableEq, Repr

/-- The three notice settings of Set Notices (R184); the mask is the list of kind codes. -/
structure NoticesArgs where
  mask : Option (List Nat)
  level : Option Nat
  idle : Option Nat
  deriving DecidableEq, Repr

/-- The flags Clear Conditions names: all, or (kind code, index) pairs (R180, 10.1). -/
inductive FlagArgs where
  | all
  | some (flags : List (Nat × Nat))
  deriving DecidableEq, Repr

/-- The target of a table command: a head or a plane, by its number (R143). -/
inductive Target where
  | head (n : Nat)
  | plane (n : Nat)
  deriving DecidableEq, Repr

/-- The four table kinds (R143). -/
inductive TableKind where
  | nozzleRange | geometry | bands | dropMap
  deriving DecidableEq, Repr

/-- The body of a Write Table, with the fields of R144 as they stand in the frame. -/
inductive TableBody where
  | nozzleRange (first : Nat) (entries : List (BitVec 32))
  | geometry (plane nozzles offset reverse : Nat)
  | bands (bands : List (Nat × Nat))
  | dropMap (v0 v1 v2 v3 : Nat)
  deriving DecidableEq, Repr

/-- A Write Table whose layout is right (R143). -/
structure WriteArgs where
  target : Target
  body : TableBody
  deriving DecidableEq, Repr

/-- Read Table's selector (R146). -/
inductive Selector where
  | active | shadow
  deriving DecidableEq, Repr

/-- A Read Table whose layout is right (R146); `first` and `count` are read for NOZZLE_RANGE only. -/
structure ReadArgs where
  selector : Selector
  kind : TableKind
  target : Target
  first : Nat
  count : Nat
  deriving DecidableEq, Repr

/-- What a job frame or a control frame asks for, read from its body at the take (R160). A body of
Write Table or Read Table whose kind or layout is wrong is `none` (R143, R146, case 1), as is a job frame's
(R28, case 1). `unknown` is a command code that names no command, or a body that does not fit its command;
it carries the code that was read, 0xFF for an empty body (10.1). -/
inductive Request where
  | job (fields : Option JobFields)
  | setPosition (a : PositionArgs)
  | positionOn
  | positionOff
  | printOn
  | printOff
  | abortJob (id : Nat)
  | queryJob (id : Nat)
  | setTrigger (a : TriggerArgs)
  | softTrigger
  | setPlane (a : PlaneArgs)
  | streamReset
  | headOn (n : Nat)
  | headOff (n : Nat)
  | setLane (a : LaneArgs)
  | laneUp (n : Nat)
  | laneDown (n : Nat)
  | laneResume (n : Nat)
  | writeTable (a : Option WriteArgs)
  | readTable (a : Option ReadArgs)
  | commitBank
  | setNotices (a : NoticesArgs)
  | clearConditions (a : FlagArgs)
  | readStatus
  | readCounters (group : Nat)
  | clearCounters (group : Nat)
  | reloadConfig
  | unknown (code : Nat)
  deriving DecidableEq, Repr

/-- The commands of the block: one constructor for each row of the table. The rows that the Control Unit
takes from the control queue carry the tag and the fields of the frame taken (log 5). -/
inductive Instr where
  | powerOnReset (levels : Levels)
  | noMemoryTimeout
  | loaderDeadlineExpiry
  | loadingComplete (image : List Byte)
  | forwardCount
  | backwardCount
  | stallExpiry
  | advance
  | firePulseEnd (lane : Head)
  | transmissionEnd (lane : Head)
  | lineFrame (d : Delivery)
  | frameDiscarded (d : Delivery)
  | controlFrameArrival (d : Delivery)
  | jobFrame (tag : Byte) (fields : Option JobFields)
  | triggerInputActive
  | triggerInputInactive
  | minOnElapsed
  | dropoutExpiry
  | minOffExpiry
  | setPosition (tag : Byte) (a : PositionArgs)
  | positionOn (tag : Byte)
  | positionOff (tag : Byte)
  | printOn (tag : Byte)
  | printOff (tag : Byte)
  | abortJob (tag : Byte) (id : Nat)
  | queryJob (tag : Byte) (id : Nat)
  | setTrigger (tag : Byte) (a : TriggerArgs)
  | softTrigger (tag : Byte)
  | setPlane (tag : Byte) (a : PlaneArgs)
  | streamReset (tag : Byte)
  | headOn (tag : Byte) (n : Nat)
  | headOff (tag : Byte) (n : Nat)
  | setLane (tag : Byte) (a : LaneArgs)
  | laneUp (tag : Byte) (n : Nat)
  | laneDown (tag : Byte) (n : Nat)
  | laneResume (tag : Byte) (n : Nat)
  | writeTable (tag : Byte) (a : Option WriteArgs)
  | readTable (tag : Byte) (a : Option ReadArgs)
  | commitBank (tag : Byte)
  | setNotices (tag : Byte) (a : NoticesArgs)
  | clearConditions (tag : Byte) (a : FlagArgs)
  | readStatus (tag : Byte)
  | readCounters (tag : Byte) (group : Nat)
  | clearCounters (tag : Byte) (group : Nat)
  | reloadConfig (tag : Byte)
  | unknownCommand (tag : Byte) (code : Nat)
  | capsQuerySent (lane : Head)
  | capsRecord (lane : Head) (d : LaneDelivery)
  | negotiationTimeout (lane : Head)
  | trainRecordSent (lane : Head)
  | echoRecord (lane : Head) (d : LaneDelivery)
  | echoTimeout (lane : Head)
  | damagedLaneRecord (lane : Head) (d : LaneDelivery)
  | boardStatusRecord (lane : Head) (d : LaneDelivery)
  | statusTimeout (lane : Head)
  | holdActive (lane : Head)
  | holdInactive (lane : Head)
  | faultActive (lane : Head)
  | faultInactive (lane : Head)
  | copyComplete
  | linkUp
  | linkDown
  | outboundComplete
  | idleTimerExpiry
  | tick (levels : Levels)
  | encoderReferenceUpdate (a b : Bool)
  deriving DecidableEq, Repr

end Sys2Proof
end

