-- ==== Sys2Proof/Decode.lean ====
section
/-!
DEFINITION. The commands that a word spells by the table's bits. The table of this block gives bits to no
row: its commands are events, frames and records, whose layouts are read in Machine/Operands.lean.
-/

namespace Sys2Proof

/-- The command that a word of the table spells: none, since no row has bits (log 32). -/
def decodeTableWord (_nbits _w : Nat) : Option Instr := none

end Sys2Proof
end

