-- ==== Sys2Proof/Config.lean ====
section
/-!
DEFINITION. What is fixed for the part: the limits and times the rules state, and the free values, the
values the manual leaves open. A free value is an opaque constant: nothing can be proved about which value
it is, so a theorem about it holds whatever the part does.
-/

namespace Sys2Proof.Config

/-- S saturates here (R8). -/
def sMax : Nat := 2 ^ 72 - 1
/-- M saturates at -2^55 and 2^55 - 1 (R4). -/
def mMin : Int := -(2 ^ 55)
def mMax : Int := 2 ^ 55 - 1
/-- A period saturates here (R5). -/
def periodMax : Nat := 16777215
/-- The error used in PI arithmetic is clamped to this size (R12). -/
def errorClamp : Int := 1048576
/-- The job queue's capacity (R28). -/
def maxJobs : Nat := 32
/-- The longest job (R25). -/
def maxLength : Nat := 1048575
/-- The greatest trigger delay (R25). -/
def maxDelay : Nat := 16777215
/-- The number of line numbers of a plane (R27). -/
def lineLimit : Nat := 2 ^ 32
/-- The store's total number of slots (R49). -/
def storeDepth : Nat := 32768
/-- The defaults of the stream parameters (R49). -/
def defaultDepth : Nat := 8192
def defaultHigh : Nat := 6144
def defaultLow : Nat := 2048
/-- The entries of a nozzle map (R96). -/
def mapEntries : Nat := 2048
/-- The qualifier's filter setting (R42). -/
def triggerFilter : Nat := 4
/-- The control queue's and the answer queue's capacity (R154). -/
def controlQueueMax : Nat := 8
def answerQueueMax : Nat := 8
/-- The longest body of a raster-link frame (R156). -/
def maxBody : Nat := 4224
/-- The notice queue's capacity and the largest batch (R181, R182). -/
def noticeQueueMax : Nat := 64
def batchMax : Nat := 16
/-- The lost count and the counters saturate here (R181, R185). -/
def lostMax : Nat := 255
def counterMax : Nat := 2 ^ 32 - 1
/-- One unit of the idle setting in ticks (R183). -/
def idleUnit : Nat := 1250
/-- The times of the loader in ticks (R170). -/
def noMemoryTicks : Nat := 25000
def loaderDeadline : Nat := 6250000
/-- The time of a copy in ticks (R151). -/
def copyTicks : Nat := 37500
/-- The lane's negotiation and echo timeouts in ticks (R119, R121). -/
def negotiationTicks : Nat := 50000
def echoTicks : Nat := 5000
/-- Ticks per millisecond and per microsecond (0.6.2). -/
def ticksPerMs : Nat := 25000
def ticksPerUs : Nat := 25

/-- FREE VALUE (log 17). The payload of the BAD_VALUE answer to a Set Plane whose plane number is outside
0..3: R50 says that a refusal's payload carries the values in force, and such a plane has none. -/
opaque badPlanePayload : Nat → List Byte

/-- FREE VALUE (log 18). The sixth byte of the failure that an INVALID_TABLES answer names: 10.1 gives the
failure 6 bytes and names fields that fill 5. -/
opaque failureByte : Byte

/-- FREE VALUE (log 39). The three bytes, head and nozzle or band, that follow VALID in the check result of CONFIG_LOADED:
10.3 gives the field 4 bytes, and no failure names a head or an item for them. -/
opaque validCheck : Nat → Byte

/-- FREE VALUE (log 19). A drop value of the bank image outside 0..3: R153 gives no adjustment. -/
opaque imageDrop : Nat → Dot

/-- FREE VALUE (log 19). A waveform id of the bank image outside 0..15: R153 gives no adjustment. -/
opaque imageWaveform : Nat → Fin 16

/-- FREE VALUE (log 19). A two-valued field of the image whose byte names neither value (the reverse flag,
direction invert, auto-downshift and the enable flag): no rule gives an adjustment. -/
opaque imageReverse : Nat → Bool
opaque imageInvert : Nat → Bool
opaque imageAutoDownshift : Nat → Bool
opaque imageEnable : Nat → Bool

/-- FREE VALUE (log 19). Whether a grade belongs to a part grade mask of the image whose codes are no set
of grades: no rule gives an adjustment. -/
opaque imageGrade : List Nat → Grade → Bool

end Sys2Proof.Config
end

