-- ==== Sys2Proof/Machine/State.lean ====
section
/-!
DEFINITION. The state of the part, block by block, as plain data, the reasons a step can stop, and the state
right after reset. Every field names the rule that gives it.
-/

namespace Sys2Proof.Machine

/-- What stops the part with a fault: nothing. No rule of the manual stops the part; trouble is reported by
answers, notices, conditions and counters, and the part goes on. -/
inductive Fault where
  deriving DecidableEq, Repr

/-- What the model refuses. -/
inductive Refusal where
  /-- Raised by `exec` alone, for a command that has no meaning yet (safe: nothing is claimed of it). -/
  | notModelled (mnemonic : String)
  deriving DecidableEq, Repr

/-! ## Sparse addressed contents -/

/-- Addressed contents that are mostly at one default: the entries that differ from it, by rising address.
An address that is not listed reads as the default. -/
abbrev Sparse (α : Type) := List (Nat × α)

/-! ## Position Tracking Unit (R1) -/

/-- A filtered input (R2, R42, R125): the level the filter has taken, the level the block has ruled on (they
differ only between the tick that takes a level and the event that rules on it, log 2), and the count of
consecutive samples that differ from the taken level. -/
structure Input where
  taken : Bool
  seen : Bool
  progress : Nat
  deriving DecidableEq, Repr

/-- The five PTU states (R1). -/
inductive PtuState where
  | off | stopped | acquiring | tracking | holding
  deriving DecidableEq, Repr

/-- The ten parameters of Set Position (R20). -/
structure PtuParams where
  lineRatio : Nat
  avgExp : Nat
  encFilter : Nat
  invert : Bool
  kp : Nat
  ki : Nat
  ilim : Nat
  vmax : Nat
  slip : Nat
  stallTimeout : Nat
  deriving DecidableEq, Repr

/-- The quantities of R1. `stall` is the stall timer, absent when stopped. `presented` is the model's own: the
position in position units last presented to the Head Scheduler (R9, log 10). -/
structure Ptu where
  params : PtuParams
  state : PtuState
  m : Int
  s : Nat
  v : Nat
  i : Int
  vff : Nat
  history : List Nat
  mark : Option Nat
  stall : Option Nat
  encA : Input
  encB : Input
  presented : Nat
  deriving DecidableEq, Repr

/-! ## Trigger Qualifier (R42) -/

inductive TrigState where
  | idle | candidate | dropout | qualified | releasing
  deriving DecidableEq, Repr

/-- The four qualifier parameters (R42, R45). -/
structure TrigParams where
  activeLow : Bool
  minOn : Nat
  dropout : Nat
  minOff : Nat
  deriving DecidableEq, Repr

/-- Which timer of the qualifier runs (R42). -/
inductive TrigTimer where
  | dropout | minOff
  deriving DecidableEq, Repr

/-- The items of R42. The running timer is kept with the tick at which it expires (R45). -/
structure Qualifier where
  state : TrigState
  params : TrigParams
  input : Input
  p : Option Nat
  t0 : Option Nat
  timer : Option (TrigTimer × Nat)
  newParams : Option TrigParams
  deriving DecidableEq, Repr

/-! ## Job Queue (R25 to R32) -/

inductive StartMode where
  | triggered | chained
  deriving DecidableEq, Repr

/-- A plane a job uses, with the first line of its range there (R27). -/
structure JobPlane where
  plane : Plane
  first : Nat
  deriving DecidableEq, Repr

/-- The fields of a record that are set at activation (R25, R35). -/
structure Activation where
  t : Nat
  bank : BankId
  takers : List (Plane × List Head)
  progress : Nat
  fired : Nat
  shortfall : Nat
  deriving DecidableEq, Repr

/-- A job record (R25). It is QUEUED while `active` is absent and ACTIVE while it is present. -/
structure JobRec where
  id : Nat
  length : Nat
  planes : List JobPlane
  mode : StartMode
  delay : Nat
  gap : Nat
  tag : Option Nat
  active : Option Activation
  deriving DecidableEq, Repr

/-- The Job Queue: the list of records, oldest first (R26), the next-line counters (R27), the last-activation
registers (R32) and the print state (R30). -/
structure JobQueue where
  records : List JobRec
  next : Vector Nat 4
  lastT : Option Nat
  lastL : Option Nat
  print : Bool
  deriving DecidableEq, Repr

/-! ## Line Store (R49, R54, R61, R67) -/

/-- The three slot states; the data is present in READY only (R54, R55). -/
inductive SlotState where
  | expected
  | ready (pixels : List Dot)
  | spent
  deriving DecidableEq, Repr

/-- A slot's record (R54); its line number is its address, and its slot number is that modulo the depth. -/
structure Slot where
  state : SlotState
  takers : Option (List Head)
  rendered : Bool
  deriving DecidableEq, Repr

/-- A slot re-formed for a line that no ACTIVE job holds (R61): what an unlisted line of the window reads as. -/
def Slot.fresh : Slot := { state := .expected, takers := none, rendered := false }

/-- One plane of the Line Store: its stream parameters (R49), base line (R65), slots by line number (R54),
paused flag (R67) and the heads' reach (R61). fill_p is the number of READY slots (R55, log 14). -/
structure PlaneStore where
  width : Nat
  depth : Nat
  high : Nat
  low : Nat
  base : Nat
  slots : Sparse Slot
  paused : Bool
  reach : Vector (Option Nat) 16
  deriving DecidableEq, Repr

/-! ## Head Scheduler (R71) -/

inductive HeadState where
  | idle | waitingLine | loading | loaded | discarding | void
  deriving DecidableEq, Repr

inductive Fate where
  | keep | discard
  deriving DecidableEq, Repr

/-- A head's cursor: a job id and a line index (R71). -/
structure Cursor where
  job : Nat
  index : Nat
  deriving DecidableEq, Repr

/-- The transmission in flight of a head: the line whose record it is, and its fate (R71). -/
structure InFlight where
  line : Cursor
  fate : Fate
  deriving DecidableEq, Repr

structure HeadRec where
  enabled : Bool
  cursor : Option Cursor
  state : HeadState
  inFlight : Option InFlight
  deriving DecidableEq, Repr

/-! ## Head Lanes (R115) -/

inductive LaneState where
  | down | negotiating | training | up | faulted
  deriving DecidableEq, Repr

/-- The eight settings of Set Lane (R131); `latch` is the fault mode LATCH. -/
structure LaneSettings where
  mask : List Grade
  pulse : Nat
  filter : Nat
  latch : Bool
  degrade : Nat
  autoDown : Bool
  timeout : Nat
  hyst : Nat
  deriving DecidableEq, Repr

/-- A fire record's fields (R111). -/
structure FireRecord where
  head : Head
  line : Nat
  job : Nat
  waveform : Nat
  nozzles : Nat
  values : List Nat
  deriving DecidableEq, Repr

/-- The records the part sends on a lane (10.4). -/
inductive LaneRecord where
  | fire (r : FireRecord)
  | capsQuery
  | train (seq : Nat)
  deriving DecidableEq, Repr

/-- A record in transmission: its bytes on the wire and its ticks remaining (R115). -/
structure LaneTx where
  record : LaneRecord
  bytes : List Byte
  remaining : Nat
  deriving DecidableEq, Repr

/-- FIRE (R115, R130): low, high with its ticks remaining, or low for the one tick between two pulses. -/
inductive FireLine where
  | low
  | gap
  | high (remaining : Nat)
  deriving DecidableEq, Repr

/-- The items of R115. `timer` is the negotiation or echo timer; the status timer is `status`. `waiting` is a
record that waits for the one being sent (R116, log 13). `lastTrain` is the sequence of the train record last
sent (R121). -/
structure Lane where
  state : LaneState
  grade : Option Grade
  gradeSet : Option (List Grade)
  ceiling : Option Grade
  trial : Option (List Grade)
  progress : Option Nat
  hold : Input
  fault : Input
  band : Option Nat
  badCount : Option Nat
  faultCode : Option Nat
  downshift : Bool
  status : Option Nat
  timer : Option Nat
  fire : FireLine
  tx : Option LaneTx
  waiting : Option LaneRecord
  lastTrain : Option Nat
  enable : Bool
  settings : LaneSettings
  deriving DecidableEq, Repr

/-! ## Table Banks (R94 to R98, R140 to R142) -/

/-- A nozzle map entry, with the fields its kind carries (R97). -/
inductive NozzleEntry where
  | off
  | pixel (c : Nat)
  | stitchLow (c s : Nat)
  | stitchHigh (c s : Nat)
  | dead (c k : Nat) (boost : Bool)
  deriving DecidableEq, Repr

/-- A band: its upper bound and its waveform id (R98). -/
structure Band where
  bound : Nat
  waveform : Nat
  deriving DecidableEq, Repr

/-- A head's tables in one bank (R95). An entry of the nozzle map that is not listed is OFF. -/
structure HeadTables where
  plane : Option Plane
  nozzles : Nat
  offset : Nat
  reverse : Bool
  map : Sparse NozzleEntry
  bands : List Band
  deriving DecidableEq, Repr

/-- The tables of one bank (R140). -/
structure Tables where
  drops : Vector (Vector Dot 4) 4
  heads : Vector HeadTables 16
  deriving DecidableEq, Repr

structure Bank where
  tables : Tables
  bound : Nat
  deriving DecidableEq, Repr

/-- The state of the bank that is not ACTIVE (R141); a copy runs with its elapsed ticks (R151). -/
inductive OtherBank where
  | shadow
  | draining
  | copying (elapsed : Nat)
  deriving DecidableEq, Repr

/-- The two banks. One is ACTIVE, and the other is SHADOW, DRAINING or COPYING: no other pair exists (R141). -/
structure Banks where
  active : BankId
  other : OtherBank
  banks : Vector Bank 2
  deriving DecidableEq, Repr

/-! ## Notice Unit (R175 to R187) -/

/-- The 19 notice kinds (R177). -/
inductive NoticeKind where
  | jobStarted | jobDone | jobAborted | triggerRefused | glitch | ptuState | stall | laneState | boardCode
  | bankReady | configLoaded | shortfall | lineRefused | slip | degraded | statusLost | linkErrors
  | controlDropped | configDefaulted
  deriving DecidableEq, Repr

/-- The reasons of PTU_STATE (R19); a negative slip carries e. -/
inductive PtuReason where
  | command | loading | firstCount | acquired | reverse | negativeSlip (e : Int) | caughtUp | stall
  deriving DecidableEq, Repr

/-- The reasons of LANE_STATE (R118). -/
inductive LaneReason where
  | command | config | retrain | caps | noBoard | trained | trainFailed | resume | fault | downshift
  deriving DecidableEq, Repr

/-- The results of a delivered trigger other than an activation (R31). -/
inductive TrigRefusal where
  | ignored | notTracking | orphan | early
  deriving DecidableEq, Repr

/-- The reasons of LINE_REFUSED (R59). -/
inductive LineReason where
  | malformed | noJob | late | ahead
  deriving DecidableEq, Repr

/-- The reasons of LINK_ERRORS (R155, R156). -/
inductive LinkReason where
  | syncLost | badCheck | badLength | badKind
  deriving DecidableEq, Repr

/-- The reasons of CONFIG_DEFAULTED (R171). -/
inductive DefaultReason where
  | noMemory | badHeader | badCheck
  deriving DecidableEq, Repr

/-- The due outcomes (R81). -/
inductive DueOutcome where
  | missedFault | missedDown | missedHold | fired | late | underrun
  deriving DecidableEq, Repr

/-- The cause of loading (R154). -/
inductive LoadCause where
  | powerOn | reload
  deriving DecidableEq, Repr

/-- The reason codes of the table checks (R148). -/
inductive CheckReason where
  | geometry | column | substitute | stitch | bands | spread
  deriving DecidableEq, Repr

/-- The first failure of a table check: its reason, the bank, the head, and the nozzle or band if one is
named (R148). -/
structure Failure where
  reason : CheckReason
  bank : BankId
  head : Head
  item : Option Nat
  deriving DecidableEq, Repr

/-- A notice: its kind with its subject and detail (R177). -/
inductive Notice where
  | jobStarted (job t : Nat) (bank : BankId) (tag : Option Nat)
  | jobDone (job fired shortfall : Nat) (tag : Option Nat)
  | jobAborted (job : Nat) (active : Bool) (fired shortfall : Nat) (tag : Option Nat)
  | triggerRefused (reason : TrigRefusal) (p : Nat) (early : Option (Nat × Nat))
  | glitch (p : Nat)
  | ptuState (state : PtuState) (reason : PtuReason)
  | stall (left : PtuState)
  | laneState (lane : Head) (state : LaneState) (grade : Option Grade) (reason : LaneReason)
  | boardCode (lane : Head) (previous : Option Nat) (code : Nat)
  | bankReady (bank : BankId)
  | configLoaded (cause : LoadCause) (fromImage : Bool) (check : Option Failure)
  | shortfall (head : Head) (outcome : DueOutcome) (job index : Nat)
  | lineRefused (plane : Plane) (reason : LineReason) (line : Nat)
  | slip (e : Int)
  | degraded (lane : Head) (delta : Nat) (grade : Option Grade)
  | statusLost (lane : Head) (band : Option Nat)
  | linkErrors (reason : LinkReason)
  | controlDropped (kind tag : Byte)
  | configDefaulted (reason : DefaultReason)
  deriving DecidableEq, Repr

/-- A notice entry: the notice, its position stamp and the lost count it carries, if any (R176). -/
structure Entry where
  notice : Notice
  stamp : Nat
  lost : Option Nat
  deriving DecidableEq, Repr

/-- The items of R175. `conditions` holds the 56 flags in the order of their codes, `counters` the 146
counters in the order of R185's table. -/
structure NoticeUnit where
  queue : List Entry
  lost : Nat
  mask : List NoticeKind
  level : Nat
  idle : Nat
  idleTimer : Option Nat
  releaseDue : Bool
  batchWaiting : Bool
  conditions : Vector Bool 56
  counters : Vector Nat 146
  deriving DecidableEq, Repr

/-! ## Link Port and Control Unit (R154) -/

/-- A job frame or control frame in the inbound control queue. -/
structure Frame where
  job : Bool
  tag : Byte
  body : List Byte
  deriving DecidableEq, Repr

/-- The result codes (R161). -/
inductive ResultCode where
  | ok | busy | badValue | wrongState | notReady | bankBusy | invalidTables | queueFull | duplicate | noSuchJob
  | malformed
  deriving DecidableEq, Repr

/-- An answer frame's content (R160, 10.1). -/
structure Answer where
  tag : Byte
  code : Nat
  result : ResultCode
  payload : List Byte
  deriving DecidableEq, Repr

inductive OutKind where
  | flow | answer | notice
  deriving DecidableEq, Repr

/-- The frame in transmission outbound, with its bytes on the wire (R162). -/
structure Outbound where
  kind : OutKind
  bytes : List Byte
  deriving DecidableEq, Repr

/-- The loader state, with the loading cause and the ticks since loading began (R154, R170). -/
inductive Loader where
  | idle
  | loading (cause : LoadCause) (elapsed : Nat)
  deriving DecidableEq, Repr

structure LinkPort where
  up : Bool
  inbound : List Frame
  answers : List Answer
  flowPending : Bool
  batch : Option (List Entry)
  outbound : Option Outbound
  loader : Loader
  deriving DecidableEq, Repr

/-! ## The part -/

/-- The state of the part. `now` is the current tick of the timebase, counted from reset (R5, R43); `pending`
is the queue of commands that wait, first in first out (log 1). -/
structure State where
  now : Nat
  ptu : Ptu
  trig : Qualifier
  jobs : JobQueue
  store : Vector PlaneStore 4
  heads : Vector HeadRec 16
  lanes : Vector Lane 16
  banks : Banks
  notices : NoticeUnit
  link : LinkPort
  pending : List Instr
  deriving DecidableEq, Repr

/-! ## Power-on values -/

/-- A filtered input right after reset: the level present is the taken level (R1, R42, R115). -/
def Input.atLevel (x : Bool) : Input := { taken := x, seen := x, progress := 0 }

/-- The defaults of R20. -/
def PtuParams.default : PtuParams :=
  { lineRatio := 65536, avgExp := 3, encFilter := 2, invert := false, kp := 256, ki := 16, ilim := 2 ^ 20,
    vmax := 2 ^ 31, slip := 262144, stallTimeout := 2500000 }

def Ptu.powerOn (a b : Bool) : Ptu :=
  { params := PtuParams.default, state := .off, m := 0, s := 0, v := 0, i := 0, vff := 0, history := [],
    mark := none, stall := none, encA := Input.atLevel a, encB := Input.atLevel b, presented := 0 }

/-- The defaults of R42. -/
def TrigParams.default : TrigParams := { activeLow := false, minOn := 500, dropout := 100, minOff := 2000 }

def Qualifier.powerOn (x : Bool) : Qualifier :=
  { state := .idle, params := TrigParams.default, input := Input.atLevel x, p := none, t0 := none,
    timer := none, newParams := none }

def JobQueue.powerOn : JobQueue :=
  { records := [], next := Vector.replicate 4 0, lastT := none, lastL := none, print := false }

def PlaneStore.powerOn : PlaneStore :=
  { width := 0, depth := Config.defaultDepth, high := Config.defaultHigh, low := Config.defaultLow, base := 0,
    slots := [], paused := false, reach := Vector.replicate 16 none }

def HeadRec.powerOn : HeadRec := { enabled := false, cursor := none, state := .idle, inFlight := none }

/-- The defaults of R131. -/
def LaneSettings.default : LaneSettings :=
  { mask := allGrades, pulse := 4, filter := 4, latch := true, degrade := 0, autoDown := false, timeout := 20,
    hyst := 2 }

def Lane.powerOn (hold fault : Bool) : Lane :=
  { state := .down, grade := none, gradeSet := none, ceiling := none, trial := none, progress := none,
    hold := Input.atLevel hold, fault := Input.atLevel fault, band := none, badCount := none, faultCode := none,
    downshift := false, status := none, timer := none, fire := .low, tx := none, waiting := none,
    lastTrain := none, enable := false, settings := LaneSettings.default }

/-- The identity drop map (R94). -/
def dropIdentity : Vector Dot 4 := Vector.ofFn fun i => i

/-- The default band table: one band, bound 255, waveform 0 (R98). -/
def defaultBands : List Band := [{ bound := 255, waveform := 0 }]

/-- A head's default tables (R95). -/
def HeadTables.default : HeadTables :=
  { plane := none, nozzles := 64, offset := 0, reverse := false, map := [], bands := defaultBands }

/-- A bank's default tables (R140). -/
def Tables.default : Tables :=
  { drops := Vector.replicate 4 dropIdentity, heads := Vector.replicate 16 HeadTables.default }

def Banks.powerOn : Banks :=
  { active := 0, other := .shadow, banks := Vector.replicate 2 { tables := Tables.default, bound := 0 } }

def NoticeUnit.powerOn : NoticeUnit :=
  { queue := [], lost := 0, mask := [.glitch], level := 8, idle := 20, idleTimer := none, releaseDue := false,
    batchWaiting := false, conditions := Vector.replicate 56 false, counters := Vector.replicate 146 0 }

/-- Power-on values, with loading begun by cause POWER_ON (R154, R170). -/
def LinkPort.powerOn : LinkPort :=
  { up := false, inbound := [], answers := [], flowPending := false, batch := none, outbound := none,
    loader := .loading .powerOn 0 }

/-- Every block at its power-on values, for the input levels present when the reset input releases. -/
def State.powerOn (l : Levels) : State :=
  { now := 0, ptu := Ptu.powerOn l.encA l.encB, trig := Qualifier.powerOn l.trigger, jobs := JobQueue.powerOn,
    store := Vector.replicate 4 PlaneStore.powerOn, heads := Vector.replicate 16 HeadRec.powerOn,
    lanes := Vector.ofFn fun h => Lane.powerOn (l.hold.get h) (l.fault.get h), banks := Banks.powerOn,
    notices := NoticeUnit.powerOn, link := LinkPort.powerOn, pending := [] }

/-- All inputs low. -/
def Levels.low : Levels :=
  { encA := false, encB := false, trigger := false, hold := Vector.replicate 16 false,
    fault := Vector.replicate 16 false }

/-- The part right after reset, with every input low when the reset input released (log 6). -/
def State.reset : State := State.powerOn Levels.low

end Sys2Proof.Machine
end

