-- ==== Sys2Proof/Machine/Bytes.lean ====
section
/-!
DEFINITION. Bytes: fields stored least significant byte first (chapter 10), and the CRC-32 of R189.
-/

namespace Sys2Proof.Machine

/-- A number in `w` bytes, least significant byte first; higher bits are dropped. -/
def leBytes : Nat → Nat → List Byte
  | 0, _ => []
  | w + 1, n => BitVec.ofNat 8 n :: leBytes w (n / 256)

/-- The number that bytes hold, least significant byte first. -/
def leNat : List Byte → Nat
  | [] => 0
  | b :: rest => b.toNat + 256 * leNat rest

/-- A signed number in `w` bytes, two's complement. -/
def leSigned (w : Nat) (n : Int) : List Byte := leBytes w (n % (256 ^ w : Nat)).toNat

/-- One byte. -/
def byte (n : Nat) : Byte := BitVec.ofNat 8 n

/-- One bit of the CRC-32 (R189, step 3). -/
def crcBit (r : BitVec 32) (b : Bool) : BitVec 32 :=
  if b != r.getLsbD 0 then (r >>> 1) ^^^ 0xEDB88320#32 else r >>> 1

/-- One byte of the CRC-32, its bits least significant first (R189, step 2). -/
def crcByte (r : BitVec 32) (b : Byte) : BitVec 32 :=
  [0, 1, 2, 3, 4, 5, 6, 7].foldl (fun r i => crcBit r (b.getLsbD i)) r

/-- The CRC-32 of R189. -/
def crc32 (bs : List Byte) : BitVec 32 := ~~~ (bs.foldl crcByte 0xFFFFFFFF#32)

/-- The check of the bytes, stored least significant byte first. -/
def crcBytes (bs : List Byte) : List Byte := leBytes 4 (crc32 bs).toNat

/-- The bytes closed with their check. -/
def closed (bs : List Byte) : List Byte := bs ++ crcBytes bs

/-- Whether the last four bytes are the check of the bytes before them. -/
def checkOk (bs : List Byte) : Bool :=
  decide (4 ≤ bs.length) && bs.drop (bs.length - 4) == crcBytes (bs.take (bs.length - 4))

end Sys2Proof.Machine
end

