-- ==== Sys2Proof/Machine/Encode.lean ====
section
/-!
DEFINITION. What the part sends: the codes of chapter 10's enumerated fields, the notice entry, the answer,
flow and notice frames, and the lane records.
-/

namespace Sys2Proof.Machine

/-! ## Codes -/

/-- A value of a rule's list of two: the first named has code 0 (10, log 15). -/
def firstIf (b : Bool) : Nat := if b then 0 else 1

def PtuState.code : PtuState → Nat
  | .off => 0 | .stopped => 1 | .acquiring => 2 | .tracking => 3 | .holding => 4

def TrigState.code : TrigState → Nat
  | .idle => 0 | .candidate => 1 | .dropout => 2 | .qualified => 3 | .releasing => 4

def HeadState.code : HeadState → Nat
  | .idle => 0 | .waitingLine => 1 | .loading => 2 | .loaded => 3 | .discarding => 4 | .void => 5

def LaneState.code : LaneState → Nat
  | .down => 0 | .negotiating => 1 | .training => 2 | .up => 3 | .faulted => 4

/-- The codes of the bank states, in the order of R141's table. -/
def bankStateCode : Option OtherBank → Nat
  | none => 0 | some .shadow => 1 | some .draining => 2 | some (.copying _) => 3

/-- The codes of the notice kinds (10.3). -/
def NoticeKind.code : NoticeKind → Nat
  | .jobStarted => 1 | .jobDone => 2 | .jobAborted => 3 | .triggerRefused => 4 | .glitch => 5 | .ptuState => 6
  | .stall => 7 | .laneState => 8 | .boardCode => 9 | .bankReady => 10 | .configLoaded => 11 | .shortfall => 12
  | .lineRefused => 13 | .slip => 14 | .degraded => 15 | .statusLost => 16 | .linkErrors => 17
  | .controlDropped => 18 | .configDefaulted => 19

/-- The kinds in the order of R177's table. -/
def allKinds : List NoticeKind :=
  [.jobStarted, .jobDone, .jobAborted, .triggerRefused, .glitch, .ptuState, .stall, .laneState, .boardCode,
   .bankReady, .configLoaded, .shortfall, .lineRefused, .slip, .degraded, .statusLost, .linkErrors,
   .controlDropped, .configDefaulted]

/-- The reasons of PTU_STATE in the order R19's table first names them (log 30). -/
def PtuReason.code : PtuReason → Nat
  | .command => 0 | .loading => 1 | .firstCount => 2 | .acquired => 3 | .reverse => 4 | .negativeSlip _ => 5
  | .caughtUp => 6 | .stall => 7

/-- The reasons of LANE_STATE in the order R118's table first names them (log 30). -/
def LaneReason.code : LaneReason → Nat
  | .command => 0 | .config => 1 | .retrain => 2 | .caps => 3 | .noBoard => 4 | .trained => 5 | .trainFailed => 6
  | .resume => 7 | .fault => 8 | .downshift => 9

def TrigRefusal.code : TrigRefusal → Nat
  | .ignored => 0 | .notTracking => 1 | .orphan => 2 | .early => 3

def LineReason.code : LineReason → Nat
  | .malformed => 0 | .noJob => 1 | .late => 2 | .ahead => 3

def LinkReason.code : LinkReason → Nat
  | .syncLost => 0 | .badCheck => 1 | .badLength => 2 | .badKind => 3

def DefaultReason.code : DefaultReason → Nat
  | .noMemory => 0 | .badHeader => 1 | .badCheck => 2

/-- The due outcomes in the order of R81's table (log 30). -/
def DueOutcome.code : DueOutcome → Nat
  | .missedFault => 0 | .missedDown => 1 | .missedHold => 2 | .fired => 3 | .late => 4 | .underrun => 5

def LoadCause.code : LoadCause → Nat
  | .powerOn => 0 | .reload => 1

/-- The reason codes of the check result: 0 is VALID (10.3). -/
def CheckReason.code : CheckReason → Nat
  | .geometry => 1 | .column => 2 | .substitute => 3 | .stitch => 4 | .bands => 5 | .spread => 6

/-- The result codes in the order of R161's table (10.1). -/
def ResultCode.code : ResultCode → Nat
  | .ok => 0 | .busy => 1 | .badValue => 2 | .wrongState => 3 | .notReady => 4 | .bankBusy => 5
  | .invalidTables => 6 | .queueFull => 7 | .duplicate => 8 | .noSuchJob => 9 | .malformed => 10

/-- A grade or none: 0 for none (10.3). -/
def gradeCode : Option Grade → Nat
  | none => 0
  | some g => g.code

/-- A band index, 0xFF for unknown (10.3). -/
def bandCode : Option Nat → Nat
  | none => 255
  | some i => i

/-! ## Fields -/

/-- An item that may be absent: one byte, then the item if present (10.1). -/
def optField (w : Nat) : Option Nat → List Byte
  | none => [byte 0]
  | some n => byte 1 :: leBytes w n

/-- A set of one-byte members: its count, then the members (10.1). -/
def setField (members : List Nat) : List Byte := byte members.length :: members.map byte

/-- The nozzle or band of a failure, 0xFFFF where none is named (10.1). -/
def itemField : Option Nat → List Byte
  | none => leBytes 2 65535
  | some n => leBytes 2 n

/-- The check result of CONFIG_LOADED, 4 bytes (R153, R177, 10.3): the reason, the head, and the nozzle or band. DESIGN
CHOICE (unsafe, log 39): what stands behind VALID is a free value, and a failure that names no nozzle carries 0xFFFF, which
10.1 says of INVALID_TABLES alone. -/
def checkField : Option Failure → List Byte
  | none => byte 0 :: (List.range 3).map Config.validCheck
  | some f => byte f.reason.code :: byte f.head.val :: itemField f.item

/-- The failure of an INVALID_TABLES answer, 6 bytes (10.1, log 18). -/
def failureField (f : Failure) : List Byte :=
  byte f.reason.code :: byte f.bank.val :: byte f.head.val :: (itemField f.item ++ [Config.failureByte])

/-! ## The nozzle map entry (10.2) -/

/-- The 32 bits of an entry, with the fields its kind does not carry 0. -/
def NozzleEntry.word : NozzleEntry → Nat
  | .off => 0
  | .pixel c => 1 + c * 16
  | .stitchLow c s => 2 + c * 16 + s * 2 ^ 18
  | .stitchHigh c s => 3 + c * 16 + s * 2 ^ 18
  | .dead c k b => 4 + (if b then 8 else 0) + c * 16 + k * 2 ^ 18

/-! ## The notice entry (10.3) -/

def Notice.kind : Notice → NoticeKind
  | .jobStarted .. => .jobStarted
  | .jobDone .. => .jobDone
  | .jobAborted .. => .jobAborted
  | .triggerRefused .. => .triggerRefused
  | .glitch .. => .glitch
  | .ptuState .. => .ptuState
  | .stall .. => .stall
  | .laneState .. => .laneState
  | .boardCode .. => .boardCode
  | .bankReady .. => .bankReady
  | .configLoaded .. => .configLoaded
  | .shortfall .. => .shortfall
  | .lineRefused .. => .lineRefused
  | .slip .. => .slip
  | .degraded .. => .degraded
  | .statusLost .. => .statusLost
  | .linkErrors .. => .linkErrors
  | .controlDropped .. => .controlDropped
  | .configDefaulted .. => .configDefaulted

/-- The subject (R177); `none` where the kind has none. -/
def Notice.subject : Notice → Option Nat
  | .jobStarted j .. => some j
  | .jobDone j .. => some j
  | .jobAborted j .. => some j
  | .triggerRefused _ _ early => early.map Prod.fst
  | .laneState h .. => some h.val
  | .boardCode h .. => some h.val
  | .bankReady b => some b.val
  | .shortfall h .. => some h.val
  | .lineRefused p .. => some p.val
  | .degraded h .. => some h.val
  | .statusLost h .. => some h.val
  | .glitch .. | .ptuState .. | .stall .. | .configLoaded .. | .slip .. | .linkErrors .. | .controlDropped ..
  | .configDefaulted .. => none

/-- A field that takes no bytes when absent (10.3). -/
def presentField (w : Nat) : Option Nat → List Byte
  | none => []
  | some n => leBytes w n

/-- The detail's bytes, in the order of the kind's row in R177 and the widths of 10.3. DEDUCED (unsafe, log 40): the job
id of SHORTFALL takes 2 bytes, the width a job id has in 10.1 and as a subject. -/
def Notice.detail : Notice → List Byte
  | .jobStarted _ t b tag => leBytes 6 t ++ [byte b.val] ++ presentField 4 tag
  | .jobDone _ f s tag => leBytes 4 f ++ leBytes 4 s ++ presentField 4 tag
  | .jobAborted _ a f s tag => [byte (if a then 1 else 0)] ++ leBytes 4 f ++ leBytes 4 s ++ presentField 4 tag
  | .triggerRefused r p early => [byte r.code] ++ leBytes 6 p ++ presentField 6 (early.map Prod.snd)
  | .glitch p => leBytes 6 p
  | .ptuState st r => [byte st.code, byte r.code] ++
      (match r with
       | .negativeSlip e => leSigned 8 e
       | .command | .loading | .firstCount | .acquired | .reverse | .caughtUp | .stall => [])
  | .stall st => [byte st.code]
  | .laneState _ st g r => [byte st.code, byte (gradeCode g), byte r.code]
  | .boardCode _ prev c => [byte (bandCode prev), byte c]
  | .bankReady _ => []
  | .configLoaded c img chk => [byte c.code, byte (firstIf img)] ++ checkField chk
  | .shortfall _ o j n => [byte o.code] ++ leBytes 2 j ++ leBytes 4 n
  | .lineRefused _ r n => [byte r.code] ++ leBytes 4 n
  | .slip e => leSigned 8 e
  | .degraded _ d g => leBytes 2 d ++ [byte (gradeCode g)]
  | .statusLost _ b => [byte (bandCode b)]
  | .linkErrors r => [byte r.code]
  | .controlDropped k t => [k, t]
  | .configDefaulted r => [byte r.code]

/-- The bytes of a notice entry (10.3). -/
def Entry.bytes (e : Entry) : List Byte :=
  [byte e.notice.kind.code, byte e.notice.detail.length, byte (e.lost.getD 0), byte 0] ++
    leBytes 2 (e.notice.subject.getD 65535) ++ leBytes 5 e.stamp ++ [byte 0] ++ e.notice.detail

/-! ## Outbound frames (10.1) -/

/-- A frame in its envelope, closed with its check. -/
def frameBytes (kind tag : Byte) (body : List Byte) : List Byte :=
  closed (kind :: tag :: (leBytes 2 body.length ++ body))

def answerFrame (a : Answer) : List Byte :=
  frameBytes 0x81 a.tag (byte a.code :: byte a.result.code :: a.payload)

/-- The flow frame of the four paused flags (R163). -/
def flowFrame (p0 p1 p2 p3 : Bool) : List Byte :=
  frameBytes 0x82 0 [byte ((if p0 then 1 else 0) + (if p1 then 2 else 0) + (if p2 then 4 else 0) +
    (if p3 then 8 else 0))]

def noticeFrame (batch : List Entry) : List Byte :=
  frameBytes 0x83 0 (byte batch.length :: batch.flatMap Entry.bytes)

/-! ## Lane records (10.4) -/

/-- Nozzle values packed four to a byte, the first in bits 1..0 (10.4). -/
def packValues : List Nat → List Byte
  | a :: b :: c :: d :: rest => byte (a + b * 4 + c * 16 + d * 64) :: packValues rest
  | _ => []

/-- Byte i of the train record of sequence s, for i from 2 to 27 (10.4). -/
def trainByte (s i : Nat) : Byte := byte ((i - 2) * 59) ^^^ byte (s * 85)

/-- Bytes 1 to 27 of the train record of sequence s (10.4). -/
def trainBody (s : Nat) : List Byte := byte s :: (List.range 26).map fun k => trainByte s (k + 2)

/-- The bytes of a record the part sends. -/
def LaneRecord.bytes : LaneRecord → List Byte
  | .fire r => closed ([0x01, byte r.head.val, byte r.waveform, 0] ++ leBytes 2 r.line ++ leBytes 2 r.job ++
      leBytes 2 r.nozzles ++ List.replicate 6 0 ++ packValues r.values)
  | .capsQuery => closed (0x02 :: List.replicate 27 0)
  | .train s => closed (0x03 :: trainBody s)

/-- The transmission time in whole ticks at a grade: the size in bits over the bits per tick, rounded up
(R116). -/
def transmissionTicks (g : Grade) (bytes : List Byte) : Nat :=
  (8 * bytes.length + g.bitsPerTick - 1) / g.bitsPerTick

end Sys2Proof.Machine
end

