-- ==== Sys2Proof/Machine/Sparse.lean ====
section
/-!
DEFINITION. Sparse addressed contents: the slots of a plane by line number (R54) and the entries of a nozzle map
by nozzle index (R96). One canonical form: addresses strictly rising, and no entry equal to the default that an
unlisted address reads as.
-/

namespace Sys2Proof.Machine

/-- What an address reads as. -/
def sparseRead {α : Type} (d : α) : Sparse α → Nat → α
  | [], _ => d
  | (a, x) :: rest, k => if a = k then x else sparseRead d rest k

/-- The contents with the entry at an address removed. -/
def sparseErase {α : Type} : Sparse α → Nat → Sparse α
  | [], _ => []
  | (a, x) :: rest, k => if a = k then rest else (a, x) :: sparseErase rest k

/-- The contents with an entry placed at an address, in its place by rising address. -/
def sparseInsert {α : Type} : Sparse α → Nat → α → Sparse α
  | [], k, v => [(k, v)]
  | (a, x) :: rest, k, v =>
    if a = k then (k, v) :: rest
    else if k < a then (k, v) :: (a, x) :: rest
    else (a, x) :: sparseInsert rest k v

/-- A write: writing the default removes the entry. -/
def sparseWrite {α : Type} [DecidableEq α] (d : α) (m : Sparse α) (k : Nat) (v : α) : Sparse α :=
  if v = d then sparseErase m k else sparseInsert m k v

/-- The canonical form. -/
abbrev sparseWf {α : Type} [DecidableEq α] (d : α) (m : Sparse α) : Prop :=
  (m.map Prod.fst).Pairwise (· < ·) ∧ ∀ e ∈ m, e.2 ≠ d

/-- A run of writes at successive addresses. -/
def sparseWriteRun {α : Type} [DecidableEq α] (d : α) (m : Sparse α) (k : Nat) : List α → Sparse α
  | [] => m
  | v :: vs => sparseWriteRun d (sparseWrite d m k v) (k + 1) vs

/-- The contents a list of values gives from an address on. -/
def sparseOfList {α : Type} [DecidableEq α] (d : α) : Nat → List α → Sparse α
  | _, [] => []
  | k, v :: vs => if v = d then sparseOfList d (k + 1) vs else (k, v) :: sparseOfList d (k + 1) vs

end Sys2Proof.Machine
end

