-- ==== Sys2Proof/Machine/Ops.lean ====
section
/-!
DEFINITION. The named operations every block shares: reading and replacing one head, lane, plane or block of the
state, the position of the part, filtering a sampled input, and the outbound arbiter.
-/

namespace Sys2Proof.Machine

/-! ## Parts of the state -/

def State.head (s : State) (h : Head) : HeadRec := s.heads.get h
def State.lane (s : State) (h : Head) : Lane := s.lanes.get h
def State.plane (s : State) (p : Plane) : PlaneStore := s.store.get p

def State.setPtu (s : State) (x : Ptu) : State := { s with ptu := x }
def State.setTrig (s : State) (x : Qualifier) : State := { s with trig := x }
def State.setJobs (s : State) (x : JobQueue) : State := { s with jobs := x }
def State.setStore (s : State) (x : Vector PlaneStore 4) : State := { s with store := x }
def State.setHeads (s : State) (x : Vector HeadRec 16) : State := { s with heads := x }
def State.setLanes (s : State) (x : Vector Lane 16) : State := { s with lanes := x }
def State.setBanks (s : State) (x : Banks) : State := { s with banks := x }
def State.setNotices (s : State) (x : NoticeUnit) : State := { s with notices := x }
def State.setLink (s : State) (x : LinkPort) : State := { s with link := x }
def State.setHead (s : State) (h : Head) (x : HeadRec) : State := s.setHeads (put s.heads h x)
def State.setLane (s : State) (h : Head) (x : Lane) : State := s.setLanes (put s.lanes h x)
def State.setPlane (s : State) (p : Plane) (x : PlaneStore) : State := s.setStore (put s.store p x)

/-- The state after a change for each member of a list, in its order. -/
def forEach {α : Type} (l : List α) (f : α → State → State) (s : State) : State :=
  l.foldl (fun s a => f a s) s

/-! ## The position of the part (R9) -/

/-- The position in position units, floor(S / 2^24). -/
def State.position (s : State) : Nat := s.ptu.s / 2 ^ 24

/-- The whole-line position, floor(S / 2^32). -/
def State.linePosition (s : State) : Nat := s.ptu.s / 2 ^ 32

/-! ## Clamps and filters -/

/-- A number replaced by the nearer end of a range it lies outside (0.6.1). -/
def clampNat (lo hi x : Nat) : Nat := max lo (min x hi)
def clampInt (lo hi x : Int) : Int := max lo (min x hi)

/-- One sample of an input through a filter of setting f: a level is taken at the f + 1st consecutive sample
that shows it, and a sample at the taken level resets the progress (R2, R42, R125). -/
def Input.sample (f : Nat) (x : Bool) (i : Input) : Input :=
  if x = i.taken then { i with progress := 0 }
  else if f ≤ i.progress then { i with taken := x, progress := 0 }
  else { i with progress := i.progress + 1 }

/-- An input whose level has been taken and ruled on. -/
def Input.settled (i : Input) : Bool := i.taken == i.seen

/-- The input as the filter leaves it when it has just taken a level, and the block rules on it. -/
def Input.take (x : Bool) (i : Input) : Input :=
  { taken := x, seen := x, progress := if i.taken = x then i.progress else 0 }

/-- The input with its filter progress 0, as a change of the filter setting leaves it (R2, R125). -/
def Input.restart (i : Input) : Input := { i with progress := 0 }

/-- A code of 0, 2, 4, 8 or 16 ticks, rounded up (R20). -/
def roundEncFilter (x : Nat) : Nat :=
  if x = 0 then 0 else if x ≤ 2 then 2 else if x ≤ 4 then 4 else if x ≤ 8 then 8 else 16

/-- A code of 0, 4, 8 or 16 ticks, rounded up (R131). -/
def roundSideFilter (x : Nat) : Nat :=
  if x = 0 then 0 else if x ≤ 4 then 4 else if x ≤ 8 then 8 else 16

/-- A trigger level of 1, 4, 8 or 16 entries, rounded up (R184). -/
def roundLevel (x : Nat) : Nat :=
  if x ≤ 1 then 1 else if x ≤ 4 then 4 else if x ≤ 8 then 8 else 16

/-! ## The outbound arbiter (R162) -/

/-- The frame the arbiter takes first of those present: a flow frame, the oldest answer, the notice batch. -/
def State.nextOutbound (s : State) : Option Outbound :=
  if s.link.flowPending then
    some { kind := .flow, bytes := flowFrame (s.plane 0).paused (s.plane 1).paused (s.plane 2).paused (s.plane 3).paused }
  else match s.link.answers with
    | a :: _ => some { kind := .answer, bytes := answerFrame a }
    | [] => s.link.batch.map fun b => { kind := .notice, bytes := noticeFrame b }

/-- The arbiter's choice: made when the link is UP and nothing is being sent (R162). A flow frame clears the
flow-frame-pending flag as it is chosen (R163). -/
def arbitrate (s : State) : State :=
  if s.link.up && s.link.outbound.isNone then
    match s.nextOutbound with
    | none => s
    | some o => s.setLink { s.link with outbound := some o, flowPending := s.link.flowPending && o.kind != .flow }
  else s

/-- The flow-frame-pending flag set, and the arbiter's test (R68, R162). -/
def setFlowPending (s : State) : State :=
  arbitrate (s.setLink { s.link with flowPending := true })

/-- An answer placed at the newest end of the answer queue, and the arbiter's test (R159, R162). -/
def placeAnswer (a : Answer) (s : State) : State :=
  arbitrate (s.setLink { s.link with answers := s.link.answers ++ [a] })

/-! ## What a command does (R160, R161) -/

/-- The ruling on a frame taken: the state after it, the result code and payload of its answer, and whether the
loader then starts with cause RELOAD (R173). -/
structure Reply where
  state : State
  result : ResultCode
  payload : List Byte
  reloads : Bool
  deriving DecidableEq, Repr

/-- An OK answer. -/
def Reply.ok (payload : List Byte) (s : State) : Reply :=
  { state := s, result := .ok, payload := payload, reloads := false }

/-- A refusal without a payload: it changes no state (R161). -/
def Reply.refuse (r : ResultCode) (s : State) : Reply :=
  { state := s, result := r, payload := [], reloads := false }

/-- A command for the head or lane of a number, refused BAD_VALUE outside 0..15. -/
def withHead (n : Nat) (f : Head → State → Reply) (s : State) : Reply :=
  if h : n < 16 then f ⟨n, h⟩ s else Reply.refuse .badValue s

end Sys2Proof.Machine
end

