-- ==== Sys2Proof/Machine/Flags.lean ====
section
/-!
DEFINITION. The Notice Unit (chapter 9): counters, sticky conditions, the notice queue, its batches and its idle
timer. Every block submits through `bump`, `submit` and `submitCondition`.
-/

namespace Sys2Proof.Machine

/-! ## Counters (R185) -/

/-- The seven counters of a head. -/
inductive HeadCounter where
  | fired | underrun | late | missedHold | missedFault | missedDown | skipped
  deriving DecidableEq, Repr

/-- The six counters of a plane. -/
inductive PlaneCounter where
  | stored | replaced | refusedLate | refusedAhead | refusedNoJob | refusedMalformed
  deriving DecidableEq, Repr

/-- The four link counters. -/
inductive LinkCounter where
  | framesOk | framesBad | controlDropped | linesDiscardedLoading
  deriving DecidableEq, Repr

/-- The six trigger counters. -/
inductive TrigCounter where
  | delivered | ignored | notTracking | orphan | early | glitch
  deriving DecidableEq, Repr

/-- A counter by name. -/
inductive CounterName where
  | head (c : HeadCounter) (h : Head)
  | plane (c : PlaneCounter) (p : Plane)
  | link (c : LinkCounter)
  | trigger (c : TrigCounter)
  deriving DecidableEq, Repr

def HeadCounter.row : HeadCounter → Fin 7
  | .fired => 0 | .underrun => 1 | .late => 2 | .missedHold => 3 | .missedFault => 4 | .missedDown => 5
  | .skipped => 6

def PlaneCounter.row : PlaneCounter → Fin 6
  | .stored => 0 | .replaced => 1 | .refusedLate => 2 | .refusedAhead => 3 | .refusedNoJob => 4
  | .refusedMalformed => 5

def LinkCounter.row : LinkCounter → Fin 4
  | .framesOk => 0 | .framesBad => 1 | .controlDropped => 2 | .linesDiscardedLoading => 3

def TrigCounter.row : TrigCounter → Fin 6
  | .delivered => 0 | .ignored => 1 | .notTracking => 2 | .orphan => 3 | .early => 4 | .glitch => 5

/-- A counter's place: the groups HEADS, PLANES, LINK, TRIGGER in order, and in each every instance of the
first counter, then of the next (R185, R186). -/
def CounterName.index : CounterName → Fin 146
  | .head c h => ⟨c.row.val * 16 + h.val, by have := c.row.isLt; have := h.isLt; omega⟩
  | .plane c p => ⟨112 + c.row.val * 4 + p.val, by have := c.row.isLt; have := p.isLt; omega⟩
  | .link c => ⟨136 + c.row.val, by have := c.row.isLt; omega⟩
  | .trigger c => ⟨140 + c.row.val, by have := c.row.isLt; omega⟩

/-- A counter's value. -/
def State.counter (s : State) (c : CounterName) : Nat := s.notices.counters.get c.index

/-- One increment of a counter, which saturates (R185). -/
def bump (c : CounterName) (s : State) : State :=
  s.setNotices { s.notices with
    counters := put s.notices.counters c.index (min Config.counterMax (s.notices.counters.get c.index + 1)) }

/-! ## Conditions (R179) -/

/-- A condition flag by name. -/
inductive CondName where
  | shortfall (h : Head)
  | lineRefused (p : Plane)
  | slip
  | degraded (h : Head)
  | statusLost (h : Head)
  | linkErrors
  | controlDropped
  | configDefaulted
  deriving DecidableEq, Repr

/-- A flag's place, in the order of the kinds' codes and then of the index. -/
def CondName.index : CondName → Fin 56
  | .shortfall h => ⟨h.val, by omega⟩
  | .lineRefused p => ⟨16 + p.val, by omega⟩
  | .slip => 20
  | .degraded h => ⟨21 + h.val, by omega⟩
  | .statusLost h => ⟨37 + h.val, by omega⟩
  | .linkErrors => 53
  | .controlDropped => 54
  | .configDefaulted => 55

/-- A flag's encoding: the kind's code, then the index, 0 for a kind without one (10.1). -/
def CondName.codes : CondName → Nat × Nat
  | .shortfall h => (12, h.val)
  | .lineRefused p => (13, p.val)
  | .slip => (14, 0)
  | .degraded h => (15, h.val)
  | .statusLost h => (16, h.val)
  | .linkErrors => (17, 0)
  | .controlDropped => (18, 0)
  | .configDefaulted => (19, 0)

/-- All 56 flags, in increasing order of their encodings. -/
def allConditions : List CondName :=
  allHeads.map .shortfall ++ allPlanes.map .lineRefused ++ [.slip] ++ allHeads.map .degraded ++
    allHeads.map .statusLost ++ [.linkErrors, .controlDropped, .configDefaulted]

/-- Whether a flag is set. -/
def State.condition (s : State) (c : CondName) : Bool := s.notices.conditions.get c.index

/-- The flag a submission names: the one of the notice's kind and index (R179); `none` for an event kind. -/
def Notice.condition : Notice → Option CondName
  | .shortfall h .. => some (.shortfall h)
  | .lineRefused p .. => some (.lineRefused p)
  | .slip _ => some .slip
  | .degraded h .. => some (.degraded h)
  | .statusLost h _ => some (.statusLost h)
  | .linkErrors _ => some .linkErrors
  | .controlDropped .. => some .controlDropped
  | .configDefaulted _ => some .configDefaulted
  | .jobStarted .. | .jobDone .. | .jobAborted .. | .triggerRefused .. | .glitch .. | .ptuState .. | .stall ..
  | .laneState .. | .boardCode .. | .bankReady .. | .configLoaded .. => none

/-! ## Batches (R182) -/

/-- Whether a release is wanted (R182). -/
def NoticeUnit.releaseWanted (u : NoticeUnit) : Bool :=
  decide (u.level ≤ u.queue.length) || u.releaseDue

/-- A release: the oldest entries, at most 16, become the batch at the arbiter, and the arbiter tests (R182,
R165). -/
def releaseBatch (s : State) : State :=
  let u := s.notices
  let rest := u.queue.drop Config.batchMax
  let s := s.setNotices { u with
    queue := rest, batchWaiting := true, releaseDue := false,
    idleTimer := if rest.isEmpty then none else u.idleTimer }
  arbitrate (s.setLink { s.link with batch := some (u.queue.take Config.batchMax) })

/-- The test whether a release is made (R182). -/
def testRelease (s : State) : State :=
  if !s.notices.batchWaiting && s.notices.releaseWanted && !s.notices.queue.isEmpty then releaseBatch s else s

/-- The idle timer started from 0, where the idle setting lets it run (R183). -/
def NoticeUnit.startIdle (u : NoticeUnit) : NoticeUnit :=
  { u with idleTimer := if u.idle = 0 then none else some 0 }

/-- An entry offered to the queue: it joins, taking the lost count and restarting the idle timer, or it is
dropped and counted as lost (R181, R183). -/
def offer (n : Notice) (s : State) : State :=
  let u := s.notices
  if u.queue.length < Config.noticeQueueMax then
    let e : Entry := { notice := n, stamp := s.linePosition, lost := if u.lost = 0 then none else some u.lost }
    testRelease (s.setNotices { u with queue := u.queue ++ [e], lost := 0 }.startIdle)
  else s.setNotices { u with lost := min Config.lostMax (u.lost + 1) }

/-- A notice of an event kind submitted: queued unless its kind is masked (R178). -/
def submit (n : Notice) (s : State) : State :=
  if n.kind ∈ s.notices.mask then s else offer n s

/-- A condition submitted with its notice: a clear flag is set and its notice offered unless masked, and a set
flag stays (R179). -/
def submitCondition (c : CondName) (n : Notice) (s : State) : State :=
  if s.condition c then s
  else submit n (s.setNotices { s.notices with conditions := put s.notices.conditions c.index true })

/-- The idle timer's expiry (R183). -/
def idleExpire (s : State) : State :=
  let s := s.setNotices { s.notices with idleTimer := none }
  if s.notices.batchWaiting then s.setNotices { s.notices with releaseDue := true }
  else if s.notices.queue.isEmpty then s
  else
    let s := releaseBatch s
    if s.notices.queue.isEmpty then s else s.setNotices s.notices.startIdle

/-- Whether the idle timer has reached the idle setting (R183). -/
def NoticeUnit.idleDue (u : NoticeUnit) : Bool :=
  match u.idleTimer with
  | none => false
  | some e => u.idle != 0 && decide (u.idle * Config.idleUnit ≤ e)

/-- The report that the batch's notice frame has completed (R182). -/
def batchDone (s : State) : State :=
  let u := { s.notices with batchWaiting := false }
  let s := s.setNotices (if u.queue.isEmpty then u else u.startIdle)
  testRelease s

/-! ## Notice settings (R184) -/

/-- A new trigger level, and the test it brings (R184). -/
def takeLevel (x : Nat) (s : State) : State :=
  testRelease (s.setNotices { s.notices with level := roundLevel x })

/-- A new idle setting, and its effect on the timer (R184). -/
def takeIdle (x : Nat) (s : State) : State :=
  let x := min x 255
  let u := { s.notices with idle := x }
  if x = 0 then s.setNotices { u with idleTimer := none }
  else match u.idleTimer with
    | some _ => if u.idleDue then idleExpire (s.setNotices u) else s.setNotices u
    | none => if u.queue.isEmpty then s.setNotices u else s.setNotices u.startIdle

/-- A new mask. -/
def takeMask (m : List NoticeKind) (s : State) : State := s.setNotices { s.notices with mask := m }

/-- The kind of a code, if it names one. -/
def kindOfCode (c : Nat) : Option NoticeKind := allKinds.find? fun k => k.code == c

/-- The flag of an encoding, if it names one (R180). DESIGN CHOICE (unsafe, log 45): a kind without an index names its flag
only with the index byte 0. -/
def condOfCodes (c : Nat × Nat) : Option CondName := allConditions.find? fun x => x.codes == c

/-- The codes of the set flags, as the payloads carry them (10.1). -/
def flagsField (s : State) : List Byte :=
  let on := allConditions.filter s.condition
  byte on.length :: on.flatMap fun c => [byte c.codes.1, byte c.codes.2]

end Sys2Proof.Machine
end

