-- ==== Sys2Proof/Machine/LaneOps.lean ====
section
/-!
DEFINITION. What the Head Lanes do for the other blocks (chapter 6): sending a record, the strobe, entering
NEGOTIATING, leaving UP, and a pending downshift. These act on lanes, and on a head only where it is IDLE.
-/

namespace Sys2Proof.Machine

/-- A change of one lane. -/
def changeLane (h : Head) (f : Lane → Lane) (s : State) : State := s.setLane h (f (s.lane h))

/-- The LANE_STATE notice of a lane as it stands after a change (R118). -/
def laneNotice (h : Head) (r : LaneReason) (s : State) : State :=
  submit (.laneState h (s.lane h).state (s.lane h).grade r) s

/-! ## Sending (R116) -/

/-- The grade at which a record is sent: A for a caps query, else the lane's grade (R117, R119, R121). -/
def LaneRecord.gradeOn (r : LaneRecord) (l : Lane) : Grade :=
  match r with
  | .capsQuery => .a
  | .fire _ | .train _ => l.grade.getD .a

/-- A record's transmission begun (R116, R121). -/
def Lane.begin (l : Lane) (r : LaneRecord) : Lane :=
  { l with
    tx := some { record := r, bytes := r.bytes, remaining := transmissionTicks (r.gradeOn l) r.bytes }
    lastTrain := match r with
      | .train n => some n
      | .fire _ | .capsQuery => l.lastTrain }

/-- A record to be sent: begun at once, or waiting while another is being sent (R116, log 13). DESIGN CHOICE (unsafe,
log 42): a fire record handed over at entry to UP, while the lane still sends a train record, waits too. -/
def Lane.send (l : Lane) (r : LaneRecord) : Lane :=
  if l.tx.isNone then l.begin r else { l with waiting := some r }

/-- The lane after a transmission has ended in full: a waiting record begins (R116, log 13). -/
def Lane.ended (l : Lane) : Lane :=
  let l := { l with tx := none }
  match l.waiting with
  | none => l
  | some r => { l with waiting := none }.begin r

/-- The lane with any transmission cut off (R117). -/
def Lane.cutOff (l : Lane) : Lane := { l with tx := none, waiting := none }

/-! ## FIRE (R130) -/

/-- The ticks of a pulse of w steps: w times 12.5, rounded up (R130). -/
def pulseTicks (w : Nat) : Nat := (25 * w + 1) / 2

/-- A strobe request: FIRE goes high, after one tick low where a pulse is still high (R130, log 25). -/
def Lane.strobe (l : Lane) : Lane :=
  { l with fire := match l.fire with
      | .low => .high (pulseTicks l.settings.pulse)
      | .gap | .high _ => .gap }

/-! ## Changes of state -/

/-- Entry to NEGOTIATING (R119). -/
def enterNegotiating (h : Head) (r : LaneReason) (s : State) : State :=
  laneNotice h r (changeLane h (fun l =>
    { l with state := .negotiating, grade := none, gradeSet := none, timer := none }.send .capsQuery) s)

/-- The lane as entry to DOWN leaves it, by Lane Down or a downshift (R124, R136). -/
def Lane.down (l : Lane) : Lane :=
  { l.cutOff with
    state := .down, grade := none, gradeSet := none, trial := none, progress := none, faultCode := none,
    downshift := false, status := none, timer := none }

/-- Entry to DOWN from NEGOTIATING or TRAINING when no board answers or no grade trains (R119, R121). -/
def failDown (h : Head) (r : LaneReason) (s : State) : State :=
  laneNotice h r (changeLane h (fun l =>
    { l with state := .down, grade := none, trial := none, progress := none, faultCode := none, timer := none,
             waiting := none }) s)

/-- The highest grade of a set below a grade (R136). -/
def lowerGrade (set : List Grade) (g : Grade) : Option Grade :=
  (allGrades.reverse.filter fun x => decide (x ∈ set ∧ x.code < g.code)).head?

/-- The next grade of a lane's grade set below its grade. -/
def Lane.nextLower (l : Lane) : Option Grade :=
  match l.gradeSet, l.grade with
  | some set, some g => lowerGrade set g
  | _, _ => none

/-- A pending downshift carried out when the head is IDLE and the lane UP (R136). The head's DISCARD transmission,
if one is in flight, is cut off (R80). -/
def testDownshift (h : Head) (s : State) : State :=
  let l := s.lane h
  if l.downshift && l.state == .up && (s.head h).state == .idle then
    let s := s.setLane h { l.down with ceiling := l.nextLower }
    let s := s.setHead h { s.head h with inFlight := none }
    enterNegotiating h .retrain (laneNotice h .downshift s)
  else s

/-- Whether a lane takes a preload: UP, with filtered HOLD inactive (R77). -/
def Lane.takesPreload (l : Lane) : Bool := l.state == .up && !l.hold.seen

end Sys2Proof.Machine
end

