-- ==== Sys2Proof/Machine/Operands.lean ====
section
/-!
DEFINITION. Reading what arrives: the envelope of a raster-link frame (R156), the bodies of job and control frames
(10.1, R190), nozzle map entries (10.2), the board's records (10.4), and the configuration image (R169, R189).
-/

namespace Sys2Proof.Machine

/-! ## Reading fields -/

/-- A field of `w` bytes at the front. -/
def readNum (w : Nat) (bs : List Byte) : Option (Nat × List Byte) :=
  if bs.length < w then none else some (leNat (bs.take w), bs.drop w)

/-- A field that is present when its bit of the presence mask is set (10.1). -/
def readOpt (mask bit w : Nat) (bs : List Byte) : Option (Option Nat × List Byte) :=
  if mask.testBit bit then (readNum w bs).map fun r => (some r.1, r.2) else some (none, bs)

/-- A set: the number of members, then the members of one byte (10.1). -/
def readSet (bs : List Byte) : Option (List Nat × List Byte) :=
  match bs with
  | [] => none
  | n :: rest =>
    if rest.length < n.toNat then none
    else some ((rest.take n.toNat).map BitVec.toNat, rest.drop n.toNat)

/-- A set whose members stand in increasing order (10.1). -/
def readOrderedSet (bs : List Byte) : Option (List Nat × List Byte) :=
  match readSet bs with
  | none => none
  | some (l, rest) => if l.Pairwise (· < ·) then some (l, rest) else none

/-- A set present when its bit of the presence mask is set. -/
def readOptSet (mask bit : Nat) (bs : List Byte) : Option (Option (List Nat) × List Byte) :=
  if mask.testBit bit then (readOrderedSet bs).map fun r => (some r.1, r.2) else some (none, bs)

/-- `n` fields of one kind. -/
def readMany {α : Type} (read : List Byte → Option (α × List Byte)) : Nat → List Byte → Option (List α × List Byte)
  | 0, bs => some ([], bs)
  | n + 1, bs =>
    match read bs with
    | none => none
    | some (x, bs) =>
      match readMany read n bs with
      | none => none
      | some (xs, bs) => some (x :: xs, bs)

/-- Two one-byte fields. -/
def readPair (bs : List Byte) : Option ((Nat × Nat) × List Byte) :=
  match bs with
  | a :: b :: rest => some ((a.toNat, b.toNat), rest)
  | _ => none

/-- A 32-bit field. -/
def readWord (bs : List Byte) : Option (BitVec 32 × List Byte) :=
  (readNum 4 bs).map fun r => (BitVec.ofNat 32 r.1, r.2)

/-- The value read, when nothing is left over: the fields fill the body exactly (R190). -/
def exactly {α : Type} (r : Option (α × List Byte)) : Option α :=
  match r with
  | some (x, []) => some x
  | _ => none

/-! ## The nozzle map entry (10.2, R190) -/

/-- An entry read from its word: the bits of fields its kind does not carry are ignored. `none` where the kind
code names no kind, or a stitch entry has share 0. -/
def entryOfWord (w : BitVec 32) : Option NozzleEntry :=
  let n := w.toNat
  let c := n / 16 % 2 ^ 14
  let s := n / 2 ^ 18 % 16
  let k := n / 2 ^ 18 % 2 ^ 11
  match n % 8 with
  | 0 => some .off
  | 1 => some (.pixel c)
  | 2 => if s = 0 then none else some (.stitchLow c s)
  | 3 => if s = 0 then none else some (.stitchHigh c s)
  | 4 => some (.dead c k (n.testBit 3))
  | _ => none

/-! ## Job frames (10.1, R190) -/

/-- A job frame's fields, or `none` where the layout is wrong: a body that is not 20 bytes, a plane set with a bit
above 3, or a user-tag-present byte other than 0 and 1 (R190). -/
def parseJob (bs : List Byte) : Option JobFields :=
  if bs.length ≠ 20 then none
  else
    let at' (i w : Nat) : Nat := leNat ((bs.drop i).take w)
    let set := at' 6 1
    let present := at' 14 1
    if 16 ≤ set ∨ 2 ≤ present then none
    else some
      { id := at' 0 2, length := at' 2 4, planes := allPlanes.filter fun p => set.testBit p.val,
        mode := at' 7 1, delay := at' 8 4, gap := at' 12 2,
        tag := if present = 1 then some (at' 16 4) else none }

/-! ## Control frames (10.1) -/

def readPosition (mask : Nat) (bs : List Byte) : Option (PositionArgs × List Byte) := do
  let (r, bs) ← readOpt mask 0 3 bs
  let (a, bs) ← readOpt mask 1 1 bs
  let (f, bs) ← readOpt mask 2 1 bs
  let (d, bs) ← readOpt mask 3 1 bs
  let (kp, bs) ← readOpt mask 4 2 bs
  let (ki, bs) ← readOpt mask 5 2 bs
  let (il, bs) ← readOpt mask 6 4 bs
  let (vm, bs) ← readOpt mask 7 4 bs
  let (q, bs) ← readOpt mask 8 4 bs
  let (st, bs) ← readOpt mask 9 3 bs
  some ({ lineRatio := r, avgExp := a, encFilter := f, invert := d, kp := kp, ki := ki, ilim := il, vmax := vm,
          slip := q, stall := st }, bs)

def readTrigger (mask : Nat) (bs : List Byte) : Option (TriggerArgs × List Byte) := do
  let (p, bs) ← readOpt mask 0 1 bs
  let (a, bs) ← readOpt mask 1 2 bs
  let (b, bs) ← readOpt mask 2 2 bs
  let (c, bs) ← readOpt mask 3 2 bs
  some ({ polarity := p, minOn := a, dropout := b, minOff := c }, bs)

def readPlane (plane mask : Nat) (bs : List Byte) : Option (PlaneArgs × List Byte) := do
  let (w, bs) ← readOpt mask 0 2 bs
  let (d, bs) ← readOpt mask 1 2 bs
  let (h, bs) ← readOpt mask 2 2 bs
  let (l, bs) ← readOpt mask 3 2 bs
  some ({ plane := plane, width := w, depth := d, high := h, low := l }, bs)

/-- The settings of Set Lane after the part grade mask (R131). -/
def readLaneRest (lane mask : Nat) (g : Option (List Nat)) (bs : List Byte) : Option (LaneArgs × List Byte) := do
  let (w, bs) ← readOpt mask 1 1 bs
  let (f, bs) ← readOpt mask 2 1 bs
  let (m, bs) ← readOpt mask 3 1 bs
  let (t, bs) ← readOpt mask 4 1 bs
  let (a, bs) ← readOpt mask 5 1 bs
  let (o, bs) ← readOpt mask 6 1 bs
  let (h, bs) ← readOpt mask 7 1 bs
  some ({ lane := lane, mask := g, pulse := w, filter := f, mode := m, degrade := t, autoDown := a,
          timeout := o, hyst := h }, bs)

def readLane (lane mask : Nat) (bs : List Byte) : Option (LaneArgs × List Byte) := do
  let (g, bs) ← readOptSet mask 0 bs
  readLaneRest lane mask g bs

def readNotices (mask : Nat) (bs : List Byte) : Option (NoticesArgs × List Byte) := do
  let (m, bs) ← readOptSet mask 0 bs
  let (l, bs) ← readOpt mask 1 1 bs
  let (i, bs) ← readOpt mask 2 1 bs
  some ({ mask := m, level := l, idle := i }, bs)

/-- A presence mask of `w` bytes with no bit at or above `n`, then the present parameters, which fill the body
exactly (10.1, R190). -/
def masked {α : Type} (w n : Nat) (read : Nat → List Byte → Option (α × List Byte)) (bs : List Byte) : Option α :=
  match readNum w bs with
  | none => none
  | some (mask, bs) => if mask < 2 ^ n then exactly (read mask bs) else none

/-- A presence mask after one byte that the command always carries. -/
def maskedAfter {α : Type} (n : Nat) (read : Nat → Nat → List Byte → Option (α × List Byte)) (bs : List Byte) :
    Option α :=
  match bs with
  | x :: rest => masked 1 n (read x.toNat) rest
  | [] => none

/-- The flags named by Clear Conditions: a count of 255 with no members is ALL (10.1). DESIGN CHOICE (unsafe, log 43): a
count of 255 that does carry members is no body of the command, and the answer is MALFORMED. -/
def parseFlags (bs : List Byte) : Option FlagArgs :=
  match bs with
  | [] => none
  | n :: rest =>
    if n.toNat = 255 then (if rest.isEmpty then some .all else none)
    else match exactly (readMany readPair n.toNat rest) with
      | none => none
      | some l => if (l.map fun f => f.1 * 256 + f.2).Pairwise (· < ·) then some (.some l) else none

def kindOfByte (n : Nat) : Option TableKind :=
  match n with
  | 0 => some .nozzleRange
  | 1 => some .geometry
  | 2 => some .bands
  | 3 => some .dropMap
  | _ => none

/-- A target: its form, 0 head or 1 plane, then its number (10.1). -/
def readTarget (bs : List Byte) : Option (Target × List Byte) :=
  match bs with
  | f :: n :: rest =>
    if f.toNat = 0 then some (.head n.toNat, rest)
    else if f.toNat = 1 then some (.plane n.toNat, rest) else none
  | _ => none

/-- A Write Table's body for its kind (R144, 10.2). -/
def parseTableBody (k : TableKind) (bs : List Byte) : Option TableBody :=
  match k with
  | .nozzleRange => do
    let (f, bs) ← readNum 2 bs
    let (m, bs) ← readNum 2 bs
    let es ← exactly (readMany readWord m bs)
    some (.nozzleRange f es)
  | .geometry => do
    let (p, bs) ← readNum 1 bs
    let (n, bs) ← readNum 2 bs
    let (o, bs) ← readNum 3 bs
    let r ← exactly (readNum 1 bs)
    some (.geometry p n o r)
  | .bands => do
    let (n, bs) ← readNum 1 bs
    let l ← exactly (readMany readPair n bs)
    some (.bands l)
  | .dropMap =>
    match bs with
    | [a, b, c, d] => some (.dropMap a.toNat b.toNat c.toNat d.toNat)
    | _ => none

/-- A Write Table's fields: the kind, the target, the body (R143). -/
def parseWrite (bs : List Byte) : Option WriteArgs := do
  let (k, bs) ← readNum 1 bs
  let kind ← kindOfByte k
  let (t, bs) ← readTarget bs
  let body ← parseTableBody kind bs
  some { target := t, body := body }

/-- A Read Table's fields: the selector, the kind, the target, and for NOZZLE_RANGE the first nozzle and the count
(R146). -/
def parseRead (bs : List Byte) : Option ReadArgs := do
  let (s, bs) ← readNum 1 bs
  let sel ← (if s = 0 then some Selector.active else if s = 1 then some Selector.shadow else none)
  let (k, bs) ← readNum 1 bs
  let kind ← kindOfByte k
  let (t, bs) ← readTarget bs
  match kind with
  | .nozzleRange => do
    let (f, bs) ← readNum 2 bs
    let m ← exactly (readNum 2 bs)
    some { selector := sel, kind := kind, target := t, first := f, count := m }
  | .geometry | .bands | .dropMap =>
    if bs.isEmpty then some { selector := sel, kind := kind, target := t, first := 0, count := 0 } else none

/-- The request of a control frame whose command code is `code` and whose fields are `bs`; `none` where the code
names no command or the fields do not fit it (10.1). -/
def parseCommand (code : Nat) (bs : List Byte) : Option Request :=
  let plain (r : Request) : Option Request := if bs.isEmpty then some r else none
  let one (w : Nat) (r : Nat → Request) : Option Request := (exactly (readNum w bs)).map r
  match code with
  | 1 => (masked 2 10 readPosition bs).map .setPosition
  | 2 => plain .positionOn
  | 3 => plain .positionOff
  | 4 => plain .printOn
  | 5 => plain .printOff
  | 6 => one 2 .abortJob
  | 7 => one 2 .queryJob
  | 8 => (masked 1 4 readTrigger bs).map .setTrigger
  | 9 => plain .softTrigger
  | 10 => (maskedAfter 4 readPlane bs).map .setPlane
  | 11 => plain .streamReset
  | 12 => one 1 .headOn
  | 13 => one 1 .headOff
  | 14 => (maskedAfter 8 readLane bs).map .setLane
  | 15 => one 1 .laneUp
  | 16 => one 1 .laneDown
  | 17 => one 1 .laneResume
  | 18 => some (.writeTable (parseWrite bs))
  | 19 => some (.readTable (parseRead bs))
  | 20 => plain .commitBank
  | 21 => (masked 1 3 readNotices bs).map .setNotices
  | 22 => (parseFlags bs).map .clearConditions
  | 23 => plain .readStatus
  | 24 => one 1 .readCounters
  | 25 => one 1 .clearCounters
  | 26 => plain .reloadConfig
  | _ => none

/-- The request of a control frame's body; an empty body has the code 0xFF (10.1, R160). -/
def parseControl (body : List Byte) : Request :=
  match body with
  | [] => .unknown 255
  | c :: bs => (parseCommand c.toNat bs).getD (.unknown c.toNat)

/-- The request of a frame in the inbound control queue (R160). -/
def Frame.request (f : Frame) : Request :=
  if f.job then .job (parseJob f.body) else parseControl f.body

/-- The command code of a frame's answer: JOB = 0 for a job frame, else the code read from the body (R160, 10.1). -/
def Frame.code (f : Frame) : Nat :=
  if f.job then 0 else match f.body with
    | [] => 255
    | c :: _ => c.toNat

/-! ## The envelope of an inbound frame (R156) -/

/-- A frame that passed the envelope checks: a line frame, or a job or control frame. -/
inductive Inbound where
  | line (plane : Plane) (n : Nat) (pixels : List Dot)
  | control (f : Frame)
  deriving DecidableEq, Repr

/-- The four pixels of a byte, the first in bits 1..0 (10.1). -/
def dotsOfByte (b : Byte) : List Dot :=
  [Fin.ofNat 4 b.toNat, Fin.ofNat 4 (b.toNat / 4), Fin.ofNat 4 (b.toNat / 16), Fin.ofNat 4 (b.toNat / 64)]

/-- The line frame of a body of at least 8 bytes: the plane from bits 1..0 of byte 0, the line number from bytes
4..7, four pixels to a byte from byte 8 (10.1, R190). -/
def lineOfBody (body : List Byte) : Inbound :=
  .line (Fin.ofNat 4 (leNat (body.take 1))) (leNat ((body.drop 4).take 4)) ((body.drop 8).flatMap dotsOfByte)

/-- The envelope checks of R156, in order; the first failure gives the reason of LINK_ERRORS. The check is over
bytes 0..3 + length (R189); a frame too short to hold them does not match it (log 34). -/
def checkEnvelope (d : Delivery) : Except LinkReason Inbound :=
  match d with
  | .damaged => .error .badCheck
  | .whole bs =>
    let len := leNat ((bs.drop 2).take 2)
    let covered := bs.take (4 + len)
    let body := bs.drop 4 |>.take len
    if covered.length ≠ 4 + len ∨ (bs.drop (4 + len)).take 4 ≠ crcBytes covered then .error .badCheck
    else if bs.length ≠ 8 + len ∨ Config.maxBody < len then .error .badLength
    else match leNat (bs.take 1) with
      | 1 => if body.length < 8 then .error .badLength else .ok (lineOfBody body)
      | 2 => .ok (.control { job := true, tag := byte (leNat ((bs.drop 1).take 1)), body := body })
      | 3 => .ok (.control { job := false, tag := byte (leNat ((bs.drop 1).take 1)), body := body })
      | _ => .error .badKind

/-! ## The board's records (10.4, R189, R190) -/

/-- A record of the board as the lane rules on it: intact, damaged and taken as an echo record, or damaged and
discarded. -/
inductive BoardRecord where
  | caps (mask : List Grade)
  | echo (body : List Byte)
  | status (temperature count code : Nat)
  | damagedEcho
  | damagedOther
  deriving DecidableEq, Repr

/-- The grades of a grade mask, bit 0 for A to bit 5 for F (10.4, R190). -/
def gradesOfMask (m : Nat) : List Grade := allGrades.filter fun g => m.testBit (g.code - 1)

/-- A delivered record: damaged where the physical layer says so, the check does not match, the type is not one of
the board's, or the size is not its type's (R189). A damaged record whose type reads as a status or caps record is
discarded, and any other is taken as an echo record (R122, log 8). -/
def LaneDelivery.read (d : LaneDelivery) : BoardRecord :=
  let ty := leNat (d.bytes.take 1)
  let size := if ty = 0x13 then 32 else 12
  let at' (i w : Nat) : Nat := leNat ((d.bytes.drop i).take w)
  if d.damaged || decide (d.bytes.length ≠ size) || !checkOk d.bytes || decide (ty ≠ 0x11 ∧ ty ≠ 0x12 ∧ ty ≠ 0x13) then
    if ty = 0x11 ∨ ty = 0x12 then .damagedOther else .damagedEcho
  else if ty = 0x11 then .status (at' 1 1) (at' 2 2) (at' 4 1 % 16)
  else if ty = 0x12 then .caps (gradesOfMask (at' 1 1))
  else .echo ((d.bytes.drop 1).take 27)

/-! ## The configuration image (R169, R189) -/

/-- A head's tables as the image carries them (R189). -/
structure ImageHead where
  plane : Nat
  nozzles : Nat
  offset : Nat
  reverse : Nat
  entries : List (BitVec 32)
  bandCount : Nat
  bands : List (Nat × Nat)
  deriving DecidableEq, Repr

/-- The lane settings and the enable flag as the image carries them. -/
structure ImageLane where
  settings : LaneArgs
  enable : Nat
  deriving DecidableEq, Repr

/-- The sections of an image, as carried (R169). -/
structure Image where
  mask : List Nat
  level : Nat
  idle : Nat
  planes : List PlaneArgs
  drops : List (List Nat)
  heads : List ImageHead
  position : PositionArgs
  trigger : TriggerArgs
  lanes : List ImageLane
  deriving DecidableEq, Repr

def readDrops (bs : List Byte) : Option (List Nat × List Byte) :=
  readMany (readNum 1) 4 bs

def readImageHead (bs : List Byte) : Option (ImageHead × List Byte) := do
  let (p, bs) ← readNum 1 bs
  let (n, bs) ← readNum 2 bs
  let (o, bs) ← readNum 3 bs
  let (r, bs) ← readNum 1 bs
  let (es, bs) ← readMany readWord Config.mapEntries bs
  let (bc, bs) ← readNum 1 bs
  let (bands, bs) ← readMany readPair 4 bs
  some ({ plane := p, nozzles := n, offset := o, reverse := r, entries := es, bandCount := bc, bands := bands }, bs)

/-- A lane's section of the image (R169, R189). DESIGN CHOICE (unsafe, log 38): the part grade mask is read as a set
whatever the order of its members. -/
def readImageLane (bs : List Byte) : Option (ImageLane × List Byte) := do
  let (g, bs) ← readSet bs
  let (a, bs) ← readLaneRest 0 255 (some g) bs
  let (e, bs) ← readNum 1 bs
  some ({ settings := a, enable := e }, bs)

/-- The sections after the header, in the order of R169, without padding; what follows them is ignored (R189).
`none` where they run past the image's end. DESIGN CHOICE (unsafe, log 38): the notice mask is read as a set whatever the
order of its members. -/
def readImage (bs : List Byte) : Option Image := do
  let (m, bs) ← readSet bs
  let (lv, bs) ← readNum 1 bs
  let (idle, bs) ← readNum 1 bs
  let (planes, bs) ← readMany (readPlane 0 15) 4 bs
  let (drops, bs) ← readMany readDrops 4 bs
  let (heads, bs) ← readMany readImageHead 16 bs
  let (pos, bs) ← readPosition 1023 bs
  let (trg, bs) ← readTrigger 15 bs
  let (lanes, _) ← readMany readImageLane 16 bs
  some { mask := m, level := lv, idle := idle, planes := planes, drops := drops, heads := heads, position := pos,
         trigger := trg, lanes := lanes }

/-- What the loader makes of the bytes the memory gave before the read ended: a usable image, or the reason it is
unusable (R170, R171). The header is 12 bytes: the format mark, the image length, the check over every byte after
the header (R189). Bytes beyond the image length are not read. -/
def loadImage (bs : List Byte) : Except DefaultReason Image :=
  let mark : List Byte := [0x4E, 0x42, 0x01, 0x00]
  let len := leNat ((bs.drop 4).take 4)
  let body := (bs.take len).drop 12
  if bs.length < 12 then .error (if bs.take 4 = mark.take bs.length then .badCheck else .badHeader)
  else if bs.take 4 ≠ mark ∨ len < 64 ∨ 262144 < len then .error .badHeader
  else if bs.length < len ∨ (bs.drop 8).take 4 ≠ crcBytes body then .error .badCheck
  else match readImage body with
    | none => .error .badCheck
    | some i => .ok i

end Sys2Proof.Machine
end

