-- ==== Sys2Proof/Machine/Banks.lean ====
section
/-!
DEFINITION. The Table Banks (chapter 7): reading the tables of a bank, binding and unbinding, the table checks of R52
and R148, and the tables a configuration image gives.
-/

namespace Sys2Proof.Machine

/-! ## Banks (R140 to R142) -/

def Banks.tables (b : Banks) (i : BankId) : Tables := (b.banks.get i).tables
def Banks.bound (b : Banks) (i : BankId) : Nat := (b.banks.get i).bound

/-- The bank that is not ACTIVE. -/
def Banks.otherId (b : Banks) : BankId := if b.active = 0 then 1 else 0

/-- The bank that is SHADOW, if one is (R141). -/
def Banks.shadow (b : Banks) : Option BankId :=
  match b.other with
  | .shadow => some b.otherId
  | .draining | .copying _ => none

/-- The state of a bank, with `none` for ACTIVE. -/
def Banks.stateOf (b : Banks) (i : BankId) : Option OtherBank := if i = b.active then none else some b.other

def Banks.setBank (b : Banks) (i : BankId) (x : Bank) : Banks := { b with banks := put b.banks i x }
def Banks.setTables (b : Banks) (i : BankId) (t : Tables) : Banks :=
  b.setBank i { tables := t, bound := b.bound i }
def Banks.setBound (b : Banks) (i : BankId) (n : Nat) : Banks :=
  b.setBank i { tables := b.tables i, bound := n }

/-- An activation bound to the ACTIVE bank (R35, R142). -/
def bindBank (s : State) : State :=
  s.setBanks (s.banks.setBound s.banks.active (s.banks.bound s.banks.active + 1))

/-- A job unbound from its bank; a DRAINING bank whose count reaches 0 begins its copy (R142, R150). -/
def unbindBank (i : BankId) (s : State) : State :=
  let b := s.banks.setBound i (s.banks.bound i - 1)
  s.setBanks (if b.other = .draining ∧ i = b.otherId ∧ b.bound i = 0 then { b with other := .copying 0 } else b)

/-- Both bound counts 0, and a DRAINING bank entering COPYING, at a stream reset (R152). -/
def resetBanks (s : State) : State :=
  let b := (s.banks.setBound 0 0).setBound 1 0
  s.setBanks (if b.other = .draining then { b with other := .copying 0 } else b)

/-- A copy's completion: the COPYING bank holds the ACTIVE bank's tables and is SHADOW (R151). -/
def finishCopy (b : Banks) : Banks := { b.setTables b.otherId (b.tables b.active) with other := .shadow }

/-! ## A head's tables -/

/-- Entry j of a nozzle map (R96). -/
def HeadTables.entry (t : HeadTables) (j : Nat) : NozzleEntry := sparseRead .off t.map j

/-- The in-use entries that are not OFF, by rising nozzle (R96). -/
def HeadTables.inUse (t : HeadTables) : Sparse NozzleEntry := t.map.filter fun e => decide (e.1 < t.nozzles)

/-- The column an entry names (R97). -/
def NozzleEntry.column : NozzleEntry → Option Nat
  | .off => none
  | .pixel c => some c
  | .stitchLow c _ => some c
  | .stitchHigh c _ => some c
  | .dead c _ _ => some c

/-- Whether an entry may stand as a substitute: of kind PIXEL or a stitch kind (R106, R148). -/
def NozzleEntry.canSubstitute : NozzleEntry → Bool
  | .pixel _ | .stitchLow _ _ | .stitchHigh _ _ => true
  | .off | .dead _ _ _ => false

/-- Whether two entries are of the two stitch kinds with the same column and share (R99). -/
def NozzleEntry.matches : NozzleEntry → NozzleEntry → Bool
  | .stitchLow c s, .stitchHigh c' s' => c == c' && s == s'
  | .stitchHigh c s, .stitchLow c' s' => c == c' && s == s'
  | _, _ => false

def NozzleEntry.isStitch : NozzleEntry → Bool
  | .stitchLow _ _ | .stitchHigh _ _ => true
  | .off | .pixel _ | .dead _ _ _ => false

/-- Whether a DEAD entry j of a head substitutes a nozzle that may stand in for it (R107, R148). -/
def HeadTables.substituteOk (t : HeadTables) (j k : Nat) : Bool :=
  decide (k < t.nozzles ∧ k ≠ j) && (t.entry k).canSubstitute

/-- A head's tables in a bank. -/
def Tables.head (t : Tables) (h : Head) : HeadTables := t.heads.get h

/-- The heads a bank assigns to a plane, in increasing order. -/
def Tables.assigned (t : Tables) (p : Plane) : List Head := allHeads.filter fun h => (t.head h).plane == some p

/-! ## The checks (R52, R148) -/

/-- A head, with the nozzle or band where one is named: where a check fails. -/
abbrev Place := Head × Option Nat

/-- The first in-use entry of a head whose column fails against a width. -/
def columnFails (width : Nat) (t : HeadTables) : Option Nat :=
  (t.inUse.find? fun e => match e.2.column with
    | some c => decide (width ≤ c)
    | none => false).map Prod.fst

/-- GEOMETRY of R148 for one head. -/
def geometryFails (store : Vector PlaneStore 4) (t : HeadTables) : Bool :=
  decide (t.nozzles % 64 ≠ 0 ∨ t.nozzles < 64 ∨ 2048 < t.nozzles) ||
    match t.plane with
    | some p => (store.get p).width == 0
    | none => false

/-- SUBSTITUTE of R148 for one head: its first DEAD entry that fails. -/
def substituteFails (t : HeadTables) : Option Nat :=
  (t.inUse.find? fun e => match e.2 with
    | .dead _ k _ => !t.substituteOk e.1 k
    | .off | .pixel _ | .stitchLow _ _ | .stitchHigh _ _ => false).map Prod.fst

/-- The number of partners of an entry of head h, assigned to plane p (R99). -/
def partners (t : Tables) (h : Head) (p : Plane) (e : NozzleEntry) : Nat :=
  (((t.assigned p).filter fun g => g != h).map fun g =>
    ((t.head g).inUse.filter fun x => e.matches x.2).length).sum

/-- STITCH of R148 for one head: its first entry without exactly one partner. -/
def stitchFails (t : Tables) (h : Head) : Option Nat :=
  match (t.head h).plane with
  | none => none
  | some p => ((t.head h).inUse.find? fun e => e.2.isStitch && partners t h p e.2 != 1).map Prod.fst

/-- BANDS of R148 for one head, from band i on: the first band whose bound is not above the one before. -/
def bandsFail : Nat → List Band → Option Nat
  | i, a :: b :: rest => if b.bound ≤ a.bound then some (i + 1) else bandsFail (i + 1) (b :: rest)
  | _, _ => none

/-- The head of largest offset among heads, the first among equals. -/
def largestOffset (t : Tables) : List Head → Option Head
  | [] => none
  | h :: rest =>
    match largestOffset t rest with
    | none => some h
    | some g => if (t.head g).offset ≤ (t.head h).offset then some h else some g

/-- SPREAD for one plane under a depth (R52, R148). -/
def spreadFails (t : Tables) (p : Plane) (depth : Nat) : Option Head :=
  let hs := t.assigned p
  let ds := hs.map fun h => (t.head h).offset
  match largestOffset t hs with
  | none => none
  | some h =>
    let least := ds.foldl min (t.head h).offset
    if depth < ((t.head h).offset - least + 255) / 256 + 2 then some h else none

/-- A failure's place under a reason. -/
def failAt (r : CheckReason) (b : BankId) (x : Place) : Failure :=
  { reason := r, bank := b, head := x.1, item := x.2 }

/-- The first of two results. -/
def orElse {α : Type} (a b : Option α) : Option α :=
  match a with
  | some x => some x
  | none => b

/-- The checks of R148 on a bank, in their order: the first failure. -/
def validate (store : Vector PlaneStore 4) (t : Tables) (b : BankId) : Option Failure :=
  let each (r : CheckReason) (f : Head → Option Nat) : Option Failure :=
    (allHeads.findSome? fun h => (f h).map fun j => (h, some j)).map (failAt r b)
  orElse ((allHeads.find? fun h => geometryFails store (t.head h)).map fun h => failAt .geometry b (h, none)) <|
  orElse (each .column fun h => match (t.head h).plane with
    | some p => columnFails (store.get p).width (t.head h)
    | none => none) <|
  orElse (each .substitute fun h => substituteFails (t.head h)) <|
  orElse (each .stitch (stitchFails t)) <|
  orElse (each .bands fun h => bandsFail 0 (t.head h).bands) <|
  (allPlanes.findSome? fun p => spreadFails t p (store.get p).depth).map fun h => failAt .spread b (h, none)

/-- The checks of R52 on a bank against one plane's adjusted width and depth: the first failure. -/
def checkPlane (p : Plane) (width depth : Nat) (t : Tables) (b : BankId) : Option Failure :=
  let hs := t.assigned p
  orElse (if width = 0 then hs.head?.map fun h => failAt .geometry b (h, none) else none) <|
  orElse ((hs.findSome? fun h => (columnFails width (t.head h)).map fun j => (h, some j)).map
    (failAt .column b)) <|
  (spreadFails t p depth).map fun h => failAt .spread b (h, none)

/-- The checks of R52 against the ACTIVE bank, then against the SHADOW bank if one bank is SHADOW. -/
def checkPlaneBanks (p : Plane) (width depth : Nat) (b : Banks) : Option Failure :=
  orElse (checkPlane p width depth (b.tables b.active) b.active) <|
  match b.shadow with
  | some i => checkPlane p width depth (b.tables i) i
  | none => none

/-! ## Writing (R144, R145) -/

/-- The last bound of a band table is 255 (R98). -/
def closeBands : List Band → List Band
  | [] => []
  | [x] => [{ x with bound := 255 }]
  | x :: rest => x :: closeBands rest

/-- Whether every field of a body lies in its range (R144). A reverse flag names set or clear (log 16). -/
def bodyInRange : TableBody → Bool
  | .nozzleRange f es =>
    decide (f ≤ 2047 ∧ 1 ≤ es.length ∧ es.length ≤ 256 ∧ f + es.length ≤ 2048) &&
      es.all fun w => (entryOfWord w).isSome
  | .geometry p n o r => decide (p ≤ 4 ∧ 64 ≤ n ∧ n ≤ 2048 ∧ n % 64 = 0 ∧ o ≤ 16777215 ∧ r ≤ 1)
  | .bands l => decide (1 ≤ l.length ∧ l.length ≤ 4) && l.all fun b => decide (b.1 ≤ 255 ∧ b.2 ≤ 15)
  | .dropMap a b c d => decide (a ≤ 3 ∧ b ≤ 3 ∧ c ≤ 3 ∧ d ≤ 3)

/-- A plane assignment's code: 0..3, or none (10, R189). -/
def planeOfCode (n : Nat) : Option Plane := if h : n < 4 then some ⟨n, h⟩ else none

/-- A body written to a head's tables (R145). -/
def writeHead (b : TableBody) (t : HeadTables) : HeadTables :=
  match b with
  | .nozzleRange f es =>
    { t with map := sparseWriteRun .off t.map f (es.map fun w => (entryOfWord w).getD .off) }
  | .geometry p n o r => { t with plane := planeOfCode p, nozzles := n, offset := o, reverse := r == 0 }
  | .bands l => { t with bands := closeBands (l.map fun x => { bound := x.1, waveform := x.2 }) }
  | .dropMap _ _ _ _ => t

/-- The four drop values of a DROP_MAP body. -/
def bodyDropMap : TableBody → Option (Vector Dot 4)
  | .dropMap a b c d => some (Vector.ofFn fun i =>
      Fin.ofNat 4 (match i with | 0 => a | 1 => b | 2 => c | 3 => d))
  | .nozzleRange _ _ | .geometry _ _ _ _ | .bands _ => none

/-- The heads a target reaches (R145). -/
def targetHeads (t : Tables) : Target → List Head
  | .head n => if h : n < 16 then [⟨n, h⟩] else []
  | .plane n => if h : n < 4 then t.assigned ⟨n, h⟩ else []

/-- A body written to a target of a bank's tables (R145). -/
def Tables.write (t : Tables) (target : Target) (b : TableBody) : Tables :=
  match bodyDropMap b, target with
  | some d, .plane n => if h : n < 4 then { t with drops := put t.drops ⟨n, h⟩ d } else t
  | some _, .head _ => t
  | none, _ =>
    let hs := targetHeads t target
    { t with heads := mapAll (fun h x => if h ∈ hs then writeHead b x else x) t.heads }

/-! ## The bank image (R153) -/

/-- A nozzle count rounded down to a multiple of 64 and clamped. -/
def adjustNozzles (n : Nat) : Nat := clampNat 64 2048 (n / 64 * 64)

/-- A drop value of the image; outside 0..3 the manual gives no adjustment (log 19). -/
def imageDropValue (n : Nat) : Dot := if h : n < 4 then ⟨n, h⟩ else Config.imageDrop n

/-- A waveform id of the image; outside 0..15 the manual gives no adjustment (log 19). -/
def imageWaveformId (n : Nat) : Nat := if n < 16 then n else (Config.imageWaveform n).val

/-- A two-valued code of the image, true for code 0; another code has no stated adjustment (log 19). -/
def imageFlag (other : Nat → Bool) (n : Nat) : Bool := if n = 0 then true else if n = 1 then false else other n

/-- A head's tables as an image gives them, adjusted field by field (R153). -/
def ImageHead.tables (i : ImageHead) : HeadTables :=
  { plane := planeOfCode i.plane, nozzles := adjustNozzles i.nozzles, offset := i.offset,
    reverse := imageFlag Config.imageReverse i.reverse,
    map := sparseOfList .off 0 (i.entries.map fun w => (entryOfWord w).getD .off),
    bands := if 1 ≤ i.bandCount ∧ i.bandCount ≤ 4 then
        closeBands ((i.bands.take i.bandCount).map fun x => { bound := x.1, waveform := imageWaveformId x.2 })
      else defaultBands }

/-- The tables an image gives both banks. -/
def Image.tables (i : Image) : Tables :=
  { drops := Vector.ofFn fun p => Vector.ofFn fun k => imageDropValue ((i.drops.getD p.val []).getD k.val 0),
    heads := Vector.ofFn fun h => match i.heads[h.val]? with
      | some x => x.tables
      | none => HeadTables.default }

/-- Both banks with the same tables and both bound counts 0, their states kept (R153). -/
def loadBanks (t : Tables) (b : Banks) : Banks := { b with banks := Vector.replicate 2 { tables := t, bound := 0 } }

/-! ## Reading (R146) -/

/-- The bytes of a table of a bank, as Read Table gives them. -/
def readPayload (t : Tables) (a : ReadArgs) : List Byte :=
  match a.kind, a.target with
  | .nozzleRange, .head n =>
    if h : n < 16 then (List.range a.count).flatMap fun i => leBytes 4 ((t.head ⟨n, h⟩).entry (a.first + i)).word
    else []
  | .geometry, .head n =>
    if h : n < 16 then
      let x := t.head ⟨n, h⟩
      [byte (match x.plane with | some p => p.val | none => 4)] ++ leBytes 2 x.nozzles ++ leBytes 3 x.offset ++
        [byte (firstIf x.reverse)]
    else []
  | .bands, .head n =>
    if h : n < 16 then
      let x := t.head ⟨n, h⟩
      byte x.bands.length :: x.bands.flatMap fun b => [byte b.bound, byte b.waveform]
    else []
  | .dropMap, .plane n =>
    if h : n < 4 then allPlanes.map fun k => byte ((t.drops.get ⟨n, h⟩).get k).val else []
  | _, _ => []

/-- Whether the target, and the range of NOZZLE_RANGE, are ones Read Table takes (R146, case 3). -/
def readInRange (a : ReadArgs) : Bool :=
  match a.kind, a.target with
  | .nozzleRange, .head n =>
    decide (n < 16 ∧ a.first ≤ 2047 ∧ 1 ≤ a.count ∧ a.count ≤ 256 ∧ a.first + a.count ≤ 2048)
  | .geometry, .head n => decide (n < 16)
  | .bands, .head n => decide (n < 16)
  | .dropMap, .plane n => decide (n < 4)
  | _, _ => false

end Sys2Proof.Machine
end

