-- ==== Sys2Proof/Machine/Store.lean ====
section
/-!
DEFINITION. The Line Store (chapter 3): the window and its slots, the ruling on a line frame, binding, takes, giving
up a range, the base line and the watermark rule. It reads the Job Queue's records and next-line counters, and
changes slots, base lines, reach and paused flags.
-/

namespace Sys2Proof.Machine

/-! ## Slots and the window (R54) -/

/-- The slot of a line of the window. -/
def PlaneStore.slot (x : PlaneStore) (n : Nat) : Slot := sparseRead Slot.fresh x.slots n

/-- A slot replaced. -/
def PlaneStore.setSlot (x : PlaneStore) (n : Nat) (v : Slot) : PlaneStore :=
  { x with slots := sparseWrite Slot.fresh x.slots n v }

/-- Whether a line lies in the window base_p..base_p + DEPTH_p - 1. -/
def PlaneStore.inWindow (x : PlaneStore) (n : Nat) : Bool := decide (x.base ≤ n ∧ n < x.base + x.depth)

/-- The data of a slot that is READY. -/
def Slot.data (v : Slot) : Option (List Dot) :=
  match v.state with
  | .ready px => some px
  | .expected | .spent => none

/-- fill_p, the number of READY slots (R55). -/
def PlaneStore.fill (x : PlaneStore) : Nat := (x.slots.filter fun e => e.2.data.isSome).length

/-- The data of a line that is READY in the window. -/
def PlaneStore.readyData (x : PlaneStore) (n : Nat) : Option (List Dot) :=
  if x.inWindow n then (x.slot n).data else none

/-! ## Records by line (R27, R61) -/

/-- Whether a record's range of a plane holds a line. -/
def JobRec.holds (r : JobRec) (p : Plane) (n : Nat) : Bool :=
  r.planes.any fun x => x.plane == p && decide (x.first ≤ n ∧ n < x.first + r.length)

/-- The takers of a plane that an activation bound. -/
def Activation.takersOf (a : Activation) (p : Plane) : List Head :=
  match a.takers.find? fun x => x.1 == p with
  | some x => x.2
  | none => []

/-- Whether a head's reach is n or more. -/
def reached (n : Nat) : Option Nat → Bool
  | none => false
  | some m => decide (n ≤ m)

/-- The slot re-formed for a line that enters the window (R61). -/
def reformSlot (q : JobQueue) (p : Plane) (x : PlaneStore) (n : Nat) : Slot :=
  if q.next.get p ≤ n then Slot.fresh
  else match q.records.find? fun r => r.holds p n with
    | none => { state := .spent, takers := none, rendered := false }
    | some r =>
      match r.active with
      | none => Slot.fresh
      | some a =>
        let ts := (a.takersOf p).filter fun h => !reached n (x.reach.get h)
        { state := if ts.isEmpty then .spent else .expected, takers := some ts, rendered := false }

/-! ## The base line (R65) -/

/-- The base line moved up by one: the slot of the line that leaves is re-formed for the line that enters. -/
def baseStep (q : JobQueue) (p : Plane) (x : PlaneStore) : PlaneStore :=
  let y := { x with base := x.base + 1, slots := sparseErase x.slots x.base }
  y.setSlot (x.base + x.depth) (reformSlot q p x (x.base + x.depth))

/-- The base line advanced over SPENT lines, up to next_p. -/
def advanceBase (q : JobQueue) (p : Plane) : Nat → PlaneStore → PlaneStore
  | 0, x => x
  | k + 1, x =>
    if (x.slot x.base).state = .spent ∧ x.base < q.next.get p then advanceBase q p k (baseStep q p x) else x

/-! ## The watermark rule (R67) -/

/-- The watermark rule, applied once when fill_p is no longer what it was before. -/
def PlaneStore.watermark (before : Nat) (x : PlaneStore) : PlaneStore :=
  if x.fill = before then x
  else if !x.paused && decide (x.high ≤ x.fill) then { x with paused := true }
  else if x.paused && decide (x.fill ≤ x.low) then { x with paused := false }
  else x

/-- A plane replaced; a change of its paused flag sets the flow-frame-pending flag (R68). -/
def putPlane (p : Plane) (x : PlaneStore) (s : State) : State :=
  if x.paused = (s.plane p).paused then s.setPlane p x else setFlowPending (s.setPlane p x)

/-- One change of a plane's slots: the change, the watermark rule, then the base line (R64, R65, R67). -/
def storeChange (p : Plane) (f : PlaneStore → PlaneStore) (s : State) : State :=
  let x := s.plane p
  let y := (f x).watermark x.fill
  putPlane p (advanceBase s.jobs p (s.jobs.next.get p - y.base) y) s

/-! ## Runs of lines -/

/-- A change of `count` slots from line n on. -/
def changeRun (f : Slot → Slot) : Nat → Nat → PlaneStore → PlaneStore
  | 0, _, x => x
  | k + 1, n, x => changeRun f k (n + 1) (x.setSlot n (f (x.slot n)))

/-- A change of every slot of the window whose line lies in a range of `length` lines from `first` on. -/
def changeRange (f : Slot → Slot) (first length : Nat) (x : PlaneStore) : PlaneStore :=
  let lo := max first x.base
  changeRun f (min (first + length) (x.base + x.depth) - lo) lo x

/-! ## Binding, giving up and taking (R60, R62, R64, R66) -/

/-- A slot bound to takers: it receives the set, or becomes SPENT where the set is empty (R60). -/
def bindSlot (ts : List Head) (v : Slot) : Slot :=
  { v with takers := some ts, state := if ts.isEmpty then .spent else v.state }

/-- The takers of one plane bound to a job's range (R60). -/
def bindRange (p : Plane) (ts : List Head) (first length : Nat) (s : State) : State :=
  storeChange p (changeRange (bindSlot ts) first length) s

/-- A slot given up: SPENT, its takers emptied or left absent (R66). -/
def giveUpSlot (v : Slot) : Slot := { v with state := .spent, takers := v.takers.map fun _ => [] }

/-- Every line of a record's range in the window given up, in every plane the record uses (R66). -/
def giveUpRecord (r : JobRec) (s : State) : State :=
  forEach r.planes (fun x s => storeChange x.plane (changeRange giveUpSlot x.first r.length) s) s

/-- A slot from which a head takes the line: the head leaves the takers, and the last one to leave makes the slot
SPENT; a take by render sets the rendered flag (R62, R64). -/
def takeSlot (h : Head) (byRender : Bool) (v : Slot) : Slot :=
  let ts := v.takers.map fun l => l.filter fun x => x != h
  { state := if ts = some [] then .spent else v.state, takers := ts, rendered := v.rendered || byRender }

/-- A take of line n of plane p by head h: the reach is set, and the slot changes where the line lies in the
window (R61, R62). -/
def takeLine (h : Head) (p : Plane) (n : Nat) (byRender : Bool) (s : State) : State :=
  storeChange p (fun x =>
    let y := { x with reach := put x.reach h (some n) }
    if y.inWindow n then y.setSlot n (takeSlot h byRender (y.slot n)) else y) s

/-! ## Line frames (R56) -/

/-- The ruling on a line frame. -/
inductive LineRuling where
  | refused (r : LineReason)
  | stored
  | replaced
  deriving DecidableEq, Repr

/-- The rows of R56 in their order. -/
def rulingOf (next : Nat) (x : PlaneStore) (n : Nat) (pixels : List Dot) : LineRuling :=
  if x.width = 0 ∨ pixels.length ≠ x.width then .refused .malformed
  else if next ≤ n then .refused .noJob
  else if n < x.base ∨ (x.inWindow n ∧ (x.slot n).state = .spent) then .refused .late
  else if x.base + x.depth ≤ n then .refused .ahead
  else match (x.slot n).data with
    | none => .stored
    | some _ => if (x.slot n).rendered then .refused .late else .replaced

/-- The slot that a stored or replaced line leaves: READY with the frame's pixels (R57, R58). -/
def fillSlot (pixels : List Dot) (v : Slot) : Slot := { v with state := .ready pixels }

/-- A line frame's pixels placed in its slot, with the watermark rule (R57, R58). -/
def storeData (p : Plane) (n : Nat) (pixels : List Dot) (s : State) : State :=
  let x := s.plane p
  putPlane p ((x.setSlot n (fillSlot pixels (x.slot n))).watermark x.fill) s

/-! ## Stream parameters (R49 to R53) -/

/-- The adjustments of R51, in their order, with an absent value taken from the value in force. -/
def PlaneStore.adjusted (x : PlaneStore) (width depth high low : Option Nat) : PlaneStore :=
  let w := match width with
    | none => x.width
    | some v => clampNat 0 16384 (v / 64 * 64)
  let d := match depth with
    | none => x.depth
    | some v => clampNat 16 16384 v
  let hw := clampNat 2 d (high.getD x.high)
  let lw := clampNat 1 (hw - 1) (low.getD x.low)
  { x with width := w, depth := d, high := hw, low := lw }

/-- A plane's slots re-formed for the window at its base line: every slot EXPECTED, without takers (R53). -/
def PlaneStore.reformed (x : PlaneStore) : PlaneStore := { x with slots := [] }

/-- The sum of the depths of the four planes. -/
def depthSum (v : Vector PlaneStore 4) : Nat := (allPlanes.map fun p => (v.get p).depth).sum

/-- A plane at a stream reset (R70). -/
def PlaneStore.cleared (x : PlaneStore) : PlaneStore :=
  { x with base := 0, slots := [], paused := false, reach := Vector.replicate 16 none }

/-- The Line Store at a stream reset: every line given up, and the flow-frame-pending flag set once where a plane
was paused (R70). -/
def resetStore (s : State) : State :=
  let paused := allPlanes.any fun p => (s.plane p).paused
  let s := s.setStore (mapAll (fun _ x => x.cleared) s.store)
  if paused then setFlowPending s else s

end Sys2Proof.Machine
end

