-- ==== Sys2Proof/Machine/Render.lean ====
section
/-!
DEFINITION. The Render Engine (chapter 5): from a line's pixels and a head's tables to the fire record, step by
step, and where a head's line of an ACTIVE job lies.
-/

namespace Sys2Proof.Machine

/-- The mapped value of a column: the drop map entry for its pixel, or 0 at or beyond the width (R101, R107). -/
def mappedValue (drops : Vector Dot 4) (pixels : List Dot) (c : Nat) : Nat :=
  if c < pixels.length then (drops.get (pixels.getD c 0)).val else 0

/-- The stitch threshold of column c on plane line n (R103). -/
def stitchThreshold (n c : Nat) : Nat := (n + 7 * c) % 16

/-- The base output of a nozzle from its entry, on plane line n (R102). -/
def baseOutput (v : Nat → Nat) (n : Nat) : NozzleEntry → Nat
  | .off => 0
  | .pixel c => v c
  | .stitchLow c s => if stitchThreshold n c < s then v c else 0
  | .stitchHigh c s => if s ≤ stitchThreshold n c then v c else 0
  | .dead _ _ _ => 0

/-- The effect of one in-use entry's substitution on the outputs (R105, R107). -/
def substitute (t : HeadTables) (v : Nat → Nat) (j : Nat) (e : NozzleEntry) (out : List Nat) : List Nat :=
  match e with
  | .dead c k b =>
    if 1 ≤ v c ∧ t.substituteOk j k = true then
      out.set k (max (out.getD k 0) (min 3 (v c + if b then 1 else 0)))
    else out
  | .off | .pixel _ | .stitchLow _ _ | .stitchHigh _ _ => out

/-- The outputs of the in-use nozzles: base outputs, then substitution (R102, R105). -/
def outputs (t : HeadTables) (v : Nat → Nat) (n : Nat) : List Nat :=
  t.inUse.foldl (fun out e => substitute t v e.1 e.2 out)
    ((List.range t.nozzles).map fun j => baseOutput v n (t.entry j))

/-- The nozzle values in the order the record carries them (R108). -/
def nozzleValues (t : HeadTables) (drops : Vector Dot 4) (pixels : List Dot) (n : Nat) : List Nat :=
  let out := outputs t (mappedValue drops pixels) n
  if t.reverse then out.reverse else out

/-- The waveform id of a band table at a band index (R109). -/
def waveformOf (bands : List Band) (index : Option Nat) : Nat :=
  match bands[min (index.getD 0) (bands.length - 1)]? with
  | some b => b.waveform
  | none => 0

/-! ## A head's line of a job -/

/-- What a head's line of an ACTIVE job is read from: the record, its activation, the bound bank's tables, and the
plane of the head in the job with the first line there (R71, R73). -/
structure JobView where
  job : JobRec
  act : Activation
  tables : Tables
  plane : Plane
  first : Nat
  deriving DecidableEq, Repr

/-- The record of an id. -/
def JobQueue.find (q : JobQueue) (id : Nat) : Option JobRec := q.records.find? fun r => r.id == id

/-- A head's view of a job: `none` where no ACTIVE record has the id, or its bound bank gives the head no plane of
the job. -/
def State.jobView (s : State) (h : Head) (id : Nat) : Option JobView :=
  match s.jobs.find id with
  | none => none
  | some r =>
    match r.active with
    | none => none
    | some a =>
      let t := s.banks.tables a.bank
      match (t.head h).plane with
      | none => none
      | some p =>
        (r.planes.find? fun x => x.plane == p).map fun x =>
          { job := r, act := a, tables := t, plane := p, first := x.first }

/-- The due position of line n of a job for a head (R73). -/
def JobView.due (v : JobView) (h : Head) (n : Nat) : Nat := v.act.t + (v.tables.head h).offset + 256 * n

/-- The plane line of line n of a job. -/
def JobView.line (v : JobView) (n : Nat) : Nat := v.first + n

/-- The fire record of a head for line n of a job (R100, R111). -/
def fireRecord (h : Head) (v : JobView) (n : Nat) (pixels : List Dot) (band : Option Nat) : FireRecord :=
  let t := v.tables.head h
  { head := h, line := v.line n % 65536, job := v.job.id, waveform := waveformOf t.bands band,
    nozzles := t.nozzles, values := nozzleValues t (v.tables.drops.get v.plane) pixels (v.line n) }

end Sys2Proof.Machine
end

