-- ==== Sys2Proof/Machine/Heads.lean ====
section
/-!
DEFINITION. The Head Scheduler (chapter 4), with the Job Queue's rulings on its reports (R37, R38): arrivals,
preloads, due events and their outcomes, skips, and what a lane event does to its head.
-/

namespace Sys2Proof.Machine

/-! ## Reports to the Job Queue (R37, R38) -/

/-- A record replaced in the list. -/
def JobQueue.update (q : JobQueue) (id : Nat) (f : JobRec → JobRec) : JobQueue :=
  { q with records := q.records.map fun r => if r.id = id then f r else r }

/-- A record removed from the list (R26). -/
def JobQueue.remove (q : JobQueue) (id : Nat) : JobQueue :=
  { q with records := q.records.filter fun r => r.id != id }

/-- A job's retirement (R38). -/
def retire (id : Nat) (s : State) : State :=
  match s.jobs.find id with
  | none => s
  | some r =>
    match r.active with
    | none => s
    | some a =>
      submit (.jobDone r.id a.fired a.shortfall r.tag) (unbindBank a.bank (s.setJobs (s.jobs.remove id)))

/-- An activation with one result added to its totals; the last line's result ends the head's part (R37). -/
def Activation.reported (a : Activation) (fired last : Bool) : Activation :=
  { a with
    fired := a.fired + if fired then 1 else 0
    shortfall := a.shortfall + if fired then 0 else 1
    progress := a.progress - if last then 1 else 0 }

/-- A report for line n of a job; a report for a job that has left the queue is dropped (R37). A job whose progress
reaches 0 retires, except while Abort Job makes its skips (R40, log 23). -/
def report (job n : Nat) (fired retires : Bool) (s : State) : State :=
  match s.jobs.find job with
  | none => s
  | some r =>
    match r.active with
    | none => s
    | some a =>
      let last := n + 1 == r.length
      let b := a.reported fired last
      let s := s.setJobs (s.jobs.update job fun r => { r with active := some b })
      if last && b.progress == 0 && retires then retire job s else s

/-! ## Taking a line (R62, R83) -/

/-- A take of a head's line of a job, where the job is in the queue (R62, R83). -/
def takeOf (h : Head) (c : Cursor) (byRender : Bool) (s : State) : State :=
  match s.jobView h c.job with
  | none => s
  | some v => takeLine h v.plane (v.line c.index) byRender s

/-! ## Preload (R77, R78) -/

/-- The data of a head's cursor line, when it is READY in the Line Store. -/
def State.cursorData (s : State) (h : Head) (c : Cursor) : Option (JobView × List Dot) :=
  match s.jobView h c.job with
  | none => none
  | some v => ((s.plane v.plane).readyData (v.line c.index)).map fun px => (v, px)

/-- A preload of a cursor line where the slot is READY and the lane takes it: render, take by render, transmission,
LOADING (R77, R78). `x` is the head's record as it comes to the line; `none` where a condition is false. -/
def startPreload (h : Head) (x : HeadRec) (c : Cursor) (s : State) : Option State :=
  if !(s.lane h).takesPreload then none
  else match s.cursorData h c with
    | none => none
    | some (v, px) =>
      let record := fireRecord h v c.index px (s.lane h).band
      let s := takeOf h c true s
      let s := changeLane h (fun l => l.send (.fire record)) s
      some (s.setHead h { x with cursor := some c, state := .loading, inFlight := some { line := c, fate := .keep } })

/-- The test of R77 at an event other than an arrival: a head in WAITING_LINE starts its preload if it may. -/
def tryPreload (h : Head) (s : State) : State :=
  match (s.head h).state, (s.head h).cursor with
  | .waitingLine, some c => (startPreload h (s.head h) c s).getD s
  | _, _ => s

/-! ## Arrival and due events (R74 to R76, R81, R82) -/

/-- Steps 1 and 2 of an arrival on a line (R75), for a head whose record is `x` as it comes to the line. A transmission
then in flight is a DISCARD (R79). -/
def arriveOn (h : Head) (x : HeadRec) (c : Cursor) (s : State) : State :=
  match x.inFlight with
  | some _ => s.setHead h { x with cursor := some c, state := .discarding }
  | none => (startPreload h x c s).getD (s.setHead h { x with cursor := some c, state := .waitingLine })

/-- The head without a cursor and IDLE, reported to its lane (R72, R74). -/
def becomeIdle (h : Head) (x : HeadRec) (s : State) : State :=
  testDownshift h (s.setHead h { x with cursor := none, state := .idle })

/-- Whether a record is ACTIVE with a head among its takers of some plane. -/
def JobRec.takenBy (r : JobRec) (h : Head) : Bool :=
  match r.active with
  | none => false
  | some a => a.takers.any fun x => x.2.contains h

/-- The records after a job in the list. -/
def JobQueue.after (q : JobQueue) (id : Nat) : List JobRec := (q.records.dropWhile fun r => r.id != id).drop 1

/-- Line 0 of the first record after a job that is ACTIVE and has the head among its takers (R74). -/
def State.nextJob (s : State) (h : Head) (id : Nat) : Option Cursor :=
  ((s.jobs.after id).find? fun r => r.takenBy h).map fun r => { job := r.id, index := 0 }

/-- The line a head goes to when it leaves its cursor line (R74). -/
def State.nextLine (s : State) (h : Head) (c : Cursor) : Option Cursor :=
  match s.jobs.find c.job with
  | none => none
  | some r => if c.index + 1 < r.length then some { c with index := c.index + 1 } else s.nextJob h c.job

/-- The head on its next line, or IDLE (R74), without the due of step 3 of R75; `x` is its record as it leaves. -/
def goTo (h : Head) (x : HeadRec) (c : Option Cursor) (s : State) : State :=
  match c with
  | some c => arriveOn h x c s
  | none => becomeIdle h x s

/-- The due outcome of a head, from its lane and its own state, by the rows of R81. -/
def dueOutcome (l : Lane) (st : HeadState) : DueOutcome :=
  if l.state = .faulted ∨ l.fault.seen = true then .missedFault
  else if l.state = .down ∨ l.state = .negotiating ∨ l.state = .training then .missedDown
  else if l.hold.seen = true then .missedHold
  else match st with
    | .loaded => .fired
    | .loading | .discarding | .void => .late
    | .waitingLine | .idle => .underrun

/-- The counter an outcome increments (R84). -/
def DueOutcome.counter : DueOutcome → HeadCounter
  | .missedFault => .missedFault | .missedDown => .missedDown | .missedHold => .missedHold | .fired => .fired
  | .late => .late | .underrun => .underrun

/-- The counter and the condition of a due outcome (R84). -/
def countOutcome (h : Head) (o : DueOutcome) (c : Cursor) (s : State) : State :=
  let s := bump (.head o.counter h) s
  if o = .fired then s else submitCondition (.shortfall h) (.shortfall h o c.job c.index) s

/-- The effect of the head's state at its due on the record in flight (R82). -/
def HeadRec.leaveLine (x : HeadRec) : HeadRec :=
  match x.state with
  | .loading => { x with inFlight := x.inFlight.map fun f => { f with fate := .discard } }
  | .idle | .waitingLine | .loaded | .discarding | .void => x

/-- Whether the line is taken at the due, or by a skip: the head has not rendered it (R82, R83). -/
def HeadState.unrendered : HeadState → Bool
  | .waitingLine | .discarding => true
  | .idle | .loading | .loaded | .void => false

/-- The due event of a head's cursor line: outcome, reports, strobe, and on to the next line (R76, R81 to R85). -/
def dueEvent (h : Head) (c : Cursor) (s : State) : State :=
  let st := (s.head h).state
  let o := dueOutcome (s.lane h) st
  let next := s.nextLine h c
  let s := countOutcome h o c s
  let s := if st.unrendered then takeOf h c false s else s
  let s := report c.job c.index (o == .fired) true s
  let s := if o = .fired then changeLane h Lane.strobe s else s
  goTo h (s.head h).leaveLine next s

/-- The cursor of a head whose due position is reached (R76). -/
def State.reachedDue (s : State) (h : Head) : Option Cursor :=
  match (s.head h).cursor with
  | none => none
  | some c =>
    match s.jobView h c.job with
    | none => none
    | some v => if v.due h c.index ≤ s.position then some c else none

/-- The due events of a head taken in a run, until its due lies beyond the position or it is IDLE (R76). -/
def runDues (h : Head) : Nat → State → State
  | 0, s => s
  | k + 1, s =>
    match s.reachedDue h with
    | none => s
    | some c => runDues h k (dueEvent h c s)

/-- More due events than a head can have in one run: each leaves a line of a job for good (R73). -/
def State.dueBound (s : State) : Nat := (s.jobs.records.map fun r => r.length).sum + 1

/-- An arrival on a line, with its dues (R75). -/
def arrive (h : Head) (x : HeadRec) (c : Cursor) (s : State) : State :=
  let s := arriveOn h x c s
  runDues h s.dueBound s

/-- An advance presented to the Head Scheduler: every head's due events that it reaches (R9, R76, log 9). -/
def presentAdvance (s : State) : State :=
  let s := s.setPtu { s.ptu with presented := s.position }
  forEach allHeads (fun h s => runDues h s.dueBound s) s

/-! ## The lane's reports (R79, R80) -/

/-- A fire record's transmission has ended in full (R79). -/
def transmissionEnded (h : Head) (s : State) : State :=
  let x := s.head h
  match x.inFlight with
  | none => s
  | some f =>
    let gone : HeadRec := { x with inFlight := none }
    match f.fate, x.state, x.cursor with
    | .keep, .loading, _ => s.setHead h { gone with state := .loaded }
    | .discard, .discarding, some c => arrive h gone c s
    | _, _, _ => s.setHead h gone

/-- The lane of a head has left UP (R80). -/
def laneLeftUp (h : Head) (s : State) : State :=
  let x := s.head h
  match x.state, x.cursor with
  | .loading, _ => s.setHead h { x with state := .void, inFlight := none }
  | .loaded, _ => s.setHead h { x with state := .void }
  | .discarding, some c => arrive h { x with inFlight := none } c s
  | .idle, _ => s.setHead h { x with inFlight := none }
  | .waitingLine, _ | .void, _ | .discarding, none => s

/-! ## Skips (R83, R89, R91) -/

/-- One line skipped: counted, taken unless the head has rendered it, and reported (R83, R84). -/
def skipLine (h : Head) (c : Cursor) (taken retires : Bool) (s : State) : State :=
  let s := bump (.head .skipped h) s
  let s := if taken then takeOf h c false s else s
  report c.job c.index false retires s

/-- A run of lines of a job skipped, in increasing order (R89). -/
def skipRun (h : Head) (retires : Bool) : Nat → Cursor → Bool → State → State
  | 0, _, _, s => s
  | k + 1, c, taken, s =>
    skipRun h retires k { c with index := c.index + 1 } true (skipLine h c taken retires s)

/-- The cursor line and every later line of the cursor job skipped (R89 step 1, R91). -/
def skipCursorJob (h : Head) (c : Cursor) (length : Nat) (retires : Bool) (s : State) : State :=
  skipRun h retires (length - c.index) c (s.head h).state.unrendered s

/-- All lines of a job skipped (R89 step 2, R91). -/
def skipJob (h : Head) (job length : Nat) (retires : Bool) (s : State) : State :=
  skipRun h retires length { job := job, index := 0 } true s

/-- The fate of a transmission in flight made DISCARD (R89 step 3, R92). -/
def HeadRec.discarded (x : HeadRec) : HeadRec :=
  { x with inFlight := x.inFlight.map fun f => { f with fate := .discard } }

/-- The ACTIVE jobs after a job that have the head among their takers, with their lengths (R89 step 2). -/
def State.laterJobs (s : State) (h : Head) (id : Nat) : List (Nat × Nat) :=
  ((s.jobs.after id).filter fun r => r.takenBy h).map fun r => (r.id, r.length)

/-- The length of a record in the queue, 0 where none has the id. -/
def JobQueue.lengthOf (q : JobQueue) (id : Nat) : Nat :=
  match q.find id with
  | some r => r.length
  | none => 0

/-- The lines a head with a cursor still has to take: the rest of its cursor job, and all of the later jobs. -/
def State.linesLeft (s : State) (h : Head) : Nat :=
  match (s.head h).cursor with
  | none => 0
  | some c => (s.jobs.lengthOf c.job - c.index) + ((s.laterJobs h c.job).map Prod.snd).sum

/-- The lines a head still has to take given up, its record discarded, and the head IDLE (R89, steps 1 to 4). DESIGN CHOICE
(unsafe, log 46): a preload that the end of a DISCARD transmission has just started stays in flight as DISCARD. -/
def giveUpHead (h : Head) (s : State) : State :=
  match (s.head h).cursor with
  | none => s
  | some c =>
    let later := s.laterJobs h c.job
    let s := skipCursorJob h c (s.jobs.lengthOf c.job) true s
    let s := forEach later (fun j s => skipJob h j.1 j.2 true s) s
    becomeIdle h (s.head h).discarded s

/-- Whether one job stands before another in the list. -/
def JobQueue.before (q : JobQueue) (a b : Nat) : Bool :=
  (q.records.takeWhile fun r => r.id != b).any fun r => r.id == a

/-- A taker's part in an aborted job (R91). -/
def abortPart (h : Head) (id length : Nat) (s : State) : State :=
  match (s.head h).cursor with
  | none => s
  | some c =>
    if c.job = id then
      let next := s.nextJob h id
      let s := skipCursorJob h c length false s
      let s := goTo h (s.head h).discarded next s
      runDues h s.dueBound s
    else if s.jobs.before c.job id then skipJob h id length false s
    else s

/-- Every head IDLE at a stream reset (R92); the downshift tests follow when the reset is whole (R139). -/
def resetHeads (s : State) : State :=
  s.setHeads (mapAll (fun _ x => { x.discarded with cursor := none, state := .idle }) s.heads)

/-! ## A line that becomes ready (R57) -/

/-- The Head Scheduler told that a line of a plane is ready: the takers whose cursor waits on it start their
preloads if they may (R57, R77). -/
def lineReady (p : Plane) (n : Nat) (takers : List Head) (s : State) : State :=
  forEach takers (fun h s =>
    match (s.head h).cursor with
    | none => s
    | some c =>
      match s.jobView h c.job with
      | none => s
      | some v => if v.plane = p ∧ v.line c.index = n then tryPreload h s else s) s

end Sys2Proof.Machine
end

