-- ==== Sys2Proof/Machine/Lanes.lean ====
section
/-!
DEFINITION. The Head Lanes (chapter 6): entries to UP, FAULTED and DOWN, negotiation and training, the sidebands,
board status, and the commands of a lane.
-/

namespace Sys2Proof.Machine

/-! ## Leaving and entering UP -/

/-- The lane moves from UP to FAULTED (R128): the notice is queued at the move. -/
def enterFaulted (h : Head) (s : State) : State :=
  let s := changeLane h (fun l => { l.cutOff with state := .faulted, status := none, downshift := false }) s
  laneLeftUp h (laneNotice h .fault s)

/-- The lane as an entry to UP leaves it (R123, steps 1 to 3). -/
def Lane.raised (l : Lane) : Lane :=
  { l with
    state := .up, band := none, badCount := none, downshift := false, status := some 0, timer := none, trial := none,
    progress := none }

/-- Entry to UP (R123). -/
def enterUp (h : Head) (r : LaneReason) (s : State) : State :=
  let s := tryPreload h (laneNotice h r (changeLane h Lane.raised s))
  if (s.lane h).settings.latch && (s.lane h).fault.seen then enterFaulted h s else s

/-! ## Negotiation and training (R119 to R122) -/

/-- The grade set of a caps record: the intersection of the masks, or A alone where it is empty (R120). -/
def gradeSetOf (part board : List Grade) : List Grade :=
  let part := if part.isEmpty then [Grade.a] else part
  let both := allGrades.filter fun g => decide (g ∈ part ∧ g ∈ board)
  if both.isEmpty then [.a] else both

/-- The trial list of a grade set under a ceiling, highest first (R120). -/
def trialOf (set : List Grade) (ceiling : Option Grade) : List Grade :=
  let below := allGrades.reverse.filter fun g => decide (g ∈ set) &&
    match ceiling with
    | none => true
    | some top => decide (g.code ≤ top.code)
  if below.isEmpty then [.a] else below

/-- Entry to a grade of the trial list: train record 0 is sent at it (R121). -/
def Lane.tryGrade (l : Lane) (trial : List Grade) : Lane :=
  { l with trial := some trial, grade := trial.head?, progress := some 0, timer := none }.send (.train 0)

/-- A caps record taken in NEGOTIATING (R120). -/
def takeCaps (h : Head) (board : List Grade) (s : State) : State :=
  laneNotice h .caps (changeLane h (fun l =>
    let set := gradeSetOf l.settings.mask board
    { l with state := .training, gradeSet := some set, timer := none }.tryGrade (trialOf set l.ceiling)) s)

/-- The grade under trial fails (R121): the next grade of the trial list, or DOWN with TRAIN_FAILED. -/
def gradeFails (h : Head) (s : State) : State :=
  match ((s.lane h).trial.getD []).drop 1 with
  | [] => failDown h .trainFailed s
  | g :: rest => changeLane h (fun l => l.tryGrade (g :: rest)) s

/-- An intact identical echo (R121): the next train record, or UP where the progress is 3. -/
def echoMatches (h : Head) (s : State) : State :=
  let p := (s.lane h).progress.getD 0
  if p < 3 then changeLane h (fun l => { l with progress := some (p + 1), timer := none }.send (.train (p + 1))) s
  else enterUp h .trained s

/-- Whether an echo's bytes 1..27 equal those of the train record last sent (R121, R190). DESIGN CHOICE (unsafe, log 37):
before any train record has begun there is none to compare with, and no echo is identical. -/
def Lane.echoes (l : Lane) (body : List Byte) : Bool :=
  match l.lastTrain with
  | none => false
  | some n => body == trainBody n

/-- An intact echo record, taken in TRAINING only (R121, R122). -/
def takeEcho (h : Head) (body : List Byte) (s : State) : State :=
  if (s.lane h).state ≠ .training then s
  else if (s.lane h).echoes body then echoMatches h s else gradeFails h s

/-! ## Board status (R132 to R137) -/

/-- The band index moved up while the temperature lies above its bound (R133). -/
def bandUp (bands : List Band) (temp : Nat) : Nat → Nat → Nat
  | 0, i => i
  | k + 1, i =>
    match bands[i]? with
    | some b => if i + 1 < bands.length ∧ b.bound < temp then bandUp bands temp k (i + 1) else i
    | none => i

/-- The band index moved down while the temperature lies H codes or more at or below the bound beneath (R133). -/
def bandDown (bands : List Band) (temp hyst : Nat) : Nat → Nat
  | 0 => 0
  | i + 1 =>
    match bands[i]? with
    | some b => if temp + hyst ≤ b.bound then bandDown bands temp hyst i else i + 1
    | none => i + 1

/-- The band index after a status record (R133). -/
def moveBand (bands : List Band) (temp hyst : Nat) (index : Option Nat) : Nat :=
  match index with
  | none => (bands.takeWhile fun b => decide (b.bound < temp)).length
  | some i =>
    let i := min i (bands.length - 1)
    let up := bandUp bands temp bands.length i
    if i < up then up else bandDown bands temp hyst i

/-- The board fault code compared and stored (R137). -/
def takeCode (h : Head) (code : Nat) (s : State) : State :=
  let old := (s.lane h).faultCode
  let s := if (match old with | none => code != 0 | some x => x != code) then submit (.boardCode h old code) s else s
  changeLane h (fun l => { l with faultCode := some code }) s

/-- The bad-record count compared and stored, with DEGRADED and a downshift made pending (R135, R136). -/
def takeCount (h : Head) (count : Nat) (s : State) : State :=
  let l := s.lane h
  let s := s.setLane h { l with badCount := some count }
  match l.badCount with
  | none => s
  | some old =>
    let delta := (count + 65536 - old) % 65536
    if l.settings.degrade ≠ 0 ∧ l.settings.degrade ≤ delta then
      let s := submitCondition (.degraded h) (.degraded h delta l.grade) s
      if l.state = .up ∧ l.settings.autoDown = true ∧ l.nextLower.isSome = true then
        changeLane h (fun l => { l with downshift := true }) s
      else s
    else s

/-- A board status record, taken in UP and FAULTED (R122, R132). The downshift test follows the whole record
(log 24). -/
def takeStatus (h : Head) (temp count code : Nat) (s : State) : State :=
  let l := s.lane h
  if l.state ≠ .up ∧ l.state ≠ .faulted then s
  else
    let bands := ((s.banks.tables s.banks.active).head h).bands
    let s := s.setLane h { l with
      band := some (moveBand bands temp l.settings.hyst l.band)
      status := if l.state = .up then some 0 else l.status }
    testDownshift h (takeCode h code (takeCount h count s))

/-- A record delivered by the board, ruled on by the lane's state (R122, R189). -/
def boardRecord (h : Head) (d : LaneDelivery) (s : State) : State :=
  match LaneDelivery.read d with
  | .caps mask => if (s.lane h).state = .negotiating then takeCaps h mask s else s
  | .echo body => takeEcho h body s
  | .status t n c => takeStatus h t n c s
  | .damagedEcho => if (s.lane h).state = .training then gradeFails h s else s
  | .damagedOther => s

/-- Whether the status timer has reached the status timeout (R134). -/
def Lane.statusDue (l : Lane) : Bool :=
  match l.status with
  | none => false
  | some e => decide (l.settings.timeout * Config.ticksPerMs ≤ e)

/-- The status timer's expiry (R134). -/
def statusExpire (h : Head) (s : State) : State :=
  submitCondition (.statusLost h) (.statusLost h (s.lane h).band) (changeLane h (fun l => { l with status := none }) s)

/-! ## Ends and timers -/

/-- Whether the record being sent has been sent whole: its ticks have run out. -/
def Lane.sent (l : Lane) : Option LaneRecord :=
  match l.tx with
  | none => none
  | some t => if t.remaining = 0 then some t.record else none

/-- A fire record's transmission ended in full: reported to the Head Scheduler (R79, R117). -/
def fireSent (h : Head) (s : State) : State := transmissionEnded h (changeLane h Lane.ended s)

/-- A caps query sent: in NEGOTIATING, with nothing else to send, the negotiation timer starts (R119, log 13). -/
def capsSent (h : Head) (s : State) : State :=
  changeLane h (fun l =>
    let waits := l.waiting.isSome
    let l := l.ended
    if l.state = .negotiating ∧ waits = false then { l with timer := some 0 } else l) s

/-- A train record sent: in TRAINING, with nothing else to send, the echo timer starts (R121, log 13). -/
def trainSent (h : Head) (s : State) : State :=
  changeLane h (fun l =>
    let waits := l.waiting.isSome
    let l := l.ended
    if l.state = .training ∧ waits = false then { l with timer := some 0 } else l) s

/-- Whether the negotiation timer has run out (R119). -/
def Lane.negotiationDue (l : Lane) : Bool :=
  l.state == .negotiating && match l.timer with
    | none => false
    | some e => decide (Config.negotiationTicks ≤ e)

/-- Whether the echo timer has run out (R121). -/
def Lane.echoDue (l : Lane) : Bool :=
  l.state == .training && match l.timer with
    | none => false
    | some e => decide (Config.echoTicks ≤ e)

/-- Whether the FIRE pulse has reached its width (R130). -/
def Lane.pulseDue (l : Lane) : Bool := l.fire == .high 0

/-! ## Sidebands (R125 to R128) -/

/-- A filtered HOLD level taken (R126). -/
def holdLevel (h : Head) (x : Bool) (s : State) : State :=
  let s := changeLane h (fun l => { l with hold := l.hold.take x }) s
  if !x && (s.lane h).state == .up then tryPreload h s else s

/-- A filtered FAULT level taken (R127, R128). -/
def faultLevel (h : Head) (x : Bool) (s : State) : State :=
  let s := changeLane h (fun l => { l with fault := l.fault.take x }) s
  if x && (s.lane h).settings.latch && (s.lane h).state == .up then enterFaulted h s else s

/-- A HOLD or FAULT level taken that is not the one already taken. -/
def newHoldLevel (h : Head) (x : Bool) (s : State) : State := if x = (s.lane h).hold.seen then s else holdLevel h x s
def newFaultLevel (h : Head) (x : Bool) (s : State) : State :=
  if x = (s.lane h).fault.seen then s else faultLevel h x s

/-! ## Settings (R131) -/

/-- The grades that the codes of a mask name; `none` where one names no grade (10.1, log 16). -/
def gradesOfCodes (l : List Nat) : Option (List Grade) :=
  if l.all fun c => decide (1 ≤ c ∧ c ≤ 6) then some (allGrades.filter fun g => l.contains g.code) else none

/-- The settings after the adjustments of R131; an absent one keeps its value. -/
def LaneSettings.adjusted (q : LaneSettings) (mask : Option (List Grade)) (autoDown : Option Bool) (a : LaneArgs) :
    LaneSettings :=
  { mask := mask.getD q.mask
    pulse := (a.pulse.map fun x => clampNat 1 16 x).getD q.pulse
    filter := (a.filter.map roundSideFilter).getD q.filter
    latch := (a.mode.map fun x => x == 1).getD q.latch
    degrade := (a.degrade.map fun x => min x 255).getD q.degrade
    autoDown := autoDown.getD q.autoDown
    timeout := (a.timeout.map fun x => clampNat 1 255 x).getD q.timeout
    hyst := (a.hyst.map fun x => min x 7).getD q.hyst }

/-- A lane with new settings: the sideband filters restart where their setting changes, and turning auto-downshift
off clears a pending downshift (R125, R131). -/
def Lane.withSettings (l : Lane) (q : LaneSettings) : Lane :=
  let l' := if q.filter = l.settings.filter then l else { l with hold := l.hold.restart, fault := l.fault.restart }
  { l' with settings := q, downshift := l.downshift && q.autoDown }

/-- Settings taken; where the status timeout is carried, a running status timer is compared at once (R134). -/
def takeSettings (h : Head) (q : LaneSettings) (timeout : Bool) (s : State) : State :=
  let s := changeLane h (fun l => l.withSettings q) s
  if timeout && (s.lane h).statusDue then statusExpire h s else s

/-- The payload of Set Lane: the eight settings in force (R131). -/
def LaneSettings.payload (q : LaneSettings) : List Byte :=
  setField ((allGrades.filter fun g => q.mask.contains g).map Grade.code) ++
    [byte q.pulse, byte q.filter, byte (if q.latch then 1 else 0), byte q.degrade, byte (firstIf q.autoDown),
     byte q.timeout, byte q.hyst]

/-- Whether a Set Lane carries a value it refuses: a fault mode that is neither of the two, or, as a field that names
none of its values, an auto-downshift code or a grade code (R131, log 16). -/
def laneArgsBad (a : LaneArgs) : Bool :=
  (match a.mode with | some x => decide (2 ≤ x) | none => false) ||
    (match a.autoDown with | some x => decide (2 ≤ x) | none => false) ||
    (match a.mask with | some l => (gradesOfCodes l).isNone | none => false)

/-- Set Lane (R131): fault mode code 0 is AUTO_RESTORE and 1 is LATCH; auto-downshift code 0 is on. -/
def cmdSetLane (a : LaneArgs) (s : State) : Reply :=
  withHead a.lane (fun h s =>
    if laneArgsBad a then Reply.refuse .badValue s
    else
      let q := (s.lane h).settings.adjusted (a.mask.bind gradesOfCodes) (a.autoDown.map fun x => x == 0) a
      Reply.ok q.payload (takeSettings h q a.timeout.isSome s)) s

/-- Lane Up (R119). -/
def cmdLaneUp (n : Nat) (s : State) : Reply :=
  withHead n (fun h s =>
    if (s.lane h).state = .down then Reply.ok [] (enterNegotiating h .command s) else Reply.refuse .wrongState s) s

/-- Lane Down of a lane that is not DOWN (R124). -/
def laneDown (h : Head) (s : State) : State :=
  let wasUp := (s.lane h).state == .up
  let s := changeLane h (fun l => { l.down with ceiling := none }) s
  laneNotice h .command (if wasUp then laneLeftUp h s else s)

/-- Lane Down (R124). -/
def cmdLaneDown (n : Nat) (s : State) : Reply :=
  withHead n (fun h s =>
    if (s.lane h).state = .down then Reply.ok [] (changeLane h (fun l => { l with ceiling := none }) s)
    else Reply.ok [] (laneDown h s)) s

/-- Lane Resume (R129). -/
def cmdLaneResume (n : Nat) (s : State) : Reply :=
  withHead n (fun h s =>
    if (s.lane h).state = .faulted ∧ (s.lane h).fault.seen = false then Reply.ok [] (enterUp h .resume s)
    else Reply.refuse .wrongState s) s

/-! ## Head On and Head Off (R88, R89) -/

/-- Head On (R88). -/
def cmdHeadOn (n : Nat) (s : State) : Reply :=
  withHead n (fun h s => Reply.ok [] (s.setHead h { s.head h with enabled := true })) s

/-- Head Off (R89); the payload is the number of lines skipped. -/
def cmdHeadOff (n : Nat) (s : State) : Reply :=
  withHead n (fun h s =>
    Reply.ok (leBytes 4 (s.linesLeft h)) (giveUpHead h (s.setHead h { s.head h with enabled := false }))) s

end Sys2Proof.Machine
end

