-- ==== Sys2Proof/Machine/Ptu.lean ====
section
/-!
DEFINITION. The Position Tracking Unit (chapter 1): the decoder, the count stages, the stall, and the commands Set
Position, Position On and Position Off.
-/

namespace Sys2Proof.Machine

/-! ## The stages -/

/-- M moved by one count of the line ratio, saturating (R4). -/
def Ptu.count (u : Ptu) (forward : Bool) : Ptu :=
  { u with m := clampInt Config.mMin Config.mMax (if forward then u.m + u.params.lineRatio else u.m - u.params.lineRatio) }

/-- M × 2^16 as a position in clock units, 0 where M is negative. -/
def Ptu.measured (u : Ptu) : Nat := (u.m * 2 ^ 16).toNat

/-- The raise S ← max(S, M × 2^16) (R8). -/
def Ptu.raise (u : Ptu) : Ptu := { u with s := max u.s (min Config.sMax u.measured) }

/-- The number of periods averaged, N = 2^A (R5). -/
def Ptu.depth (u : Ptu) : Nat := 2 ^ u.params.avgExp

/-- The history cleared (R5). -/
def Ptu.clearHistory (u : Ptu) : Ptu := { u with history := [], mark := none }

/-- A period appended to a history of at most n entries (R5). -/
def pushPeriod (n : Nat) (l : List Nat) (p : Nat) : List Nat :=
  let l := l ++ [p]
  if n < l.length then l.drop 1 else l

/-- The period stage at a forward count taken at a tick (R5). P is at least 1 (R5, log 21). -/
def Ptu.period (u : Ptu) (now : Nat) : Ptu :=
  match u.mark with
  | none => { u with mark := some now }
  | some t =>
    { u with history := pushPeriod u.depth u.history (min Config.periodMax (max 1 (now - t))), mark := some now }

/-- Whether the history holds N entries. -/
def Ptu.full (u : Ptu) : Bool := u.history.length == u.depth

/-- The feed-forward stage: V_ff, where the history holds N entries (R6). -/
def Ptu.feedForward (u : Ptu) : Ptu :=
  if u.full then { u with vff := u.params.lineRatio * 65536 / (u.history.sum / u.depth) } else u

/-- V set from a velocity, clamped to 0..Vmax (R12, R13). -/
def Ptu.setV (u : Ptu) (x : Int) : Ptu := { u with v := (clampInt 0 u.params.vmax x).toNat }

/-- I set, clamped to -Ilim..+Ilim (R12, R13). -/
def Ptu.setI (u : Ptu) (x : Int) : Ptu := { u with i := clampInt (-u.params.ilim) u.params.ilim x }

/-- The tracking error e = M - floor(S / 2^16) (R10). -/
def Ptu.error (u : Ptu) : Int := u.m - (u.s / 2 ^ 16 : Nat)

/-- A PI update from the error (R12); division by 256 rounds toward minus infinity. -/
def Ptu.piUpdate (u : Ptu) (e : Int) : Ptu :=
  let ec := clampInt (-Config.errorClamp) Config.errorClamp e
  let u := u.setI (u.i + (u.params.ki * ec).fdiv 256)
  u.setV (u.vff + ((u.params.kp * ec).fdiv 256 + u.i))

/-- The forward slip (R11). -/
def Ptu.slip (u : Ptu) : Ptu := ({ u with s := min Config.sMax u.measured, i := 0 }).setV u.vff

/-- V and I at 0, the history cleared and the stall timer stopped, in a new state (R16 to R18). -/
def Ptu.halt (u : Ptu) (st : PtuState) : Ptu :=
  { u.clearHistory with v := 0, i := 0, stall := none, state := st }

/-- Entry to ACQUIRING: the stall timer starts from 0 and S is raised (R15, R17). -/
def Ptu.acquire (u : Ptu) : Ptu := { u with state := .acquiring, stall := some 0 }.raise

/-! ## Notices and advances -/

/-- A PTU_STATE notice of the state the PTU is now in (R19). -/
def ptuNotice (r : PtuReason) (s : State) : State := submit (.ptuState s.ptu.state r) s

/-- The advance of a count that has moved S, presented within its step (R9, log 10). -/
def advanceNow (s : State) : State :=
  if s.ptu.presented < s.position then presentAdvance s else s

/-! ## Counts (R15 to R17) -/

/-- A count in TRACKING after its feed-forward stage: correction (R10). -/
def correct (s : State) : State :=
  let u := s.ptu
  let e := u.error
  if (u.params.slip : Int) < e then submitCondition .slip (.slip e) (advanceNow (s.setPtu u.slip))
  else if e < -(u.params.slip : Int) then ptuNotice (.negativeSlip e) (s.setPtu (u.halt .holding))
  else s.setPtu (u.piUpdate e)

/-- The test that a count in HOLDING makes (R17). -/
def catchUp (u : Ptu) (s : State) : State :=
  if (u.s : Int) ≤ u.m * 2 ^ 16 then ptuNotice .caughtUp (advanceNow (s.setPtu u.acquire)) else s.setPtu u

/-- A forward count (R15, R16, R17). -/
def forwardCount (s : State) : State :=
  let u := s.ptu.count true
  match u.state with
  | .off => s
  | .stopped => ptuNotice .firstCount (advanceNow (s.setPtu (u.period s.now).acquire))
  | .acquiring =>
    let u := ({ u with stall := some 0 }.period s.now).raise
    if u.full then
      let u := u.feedForward
      ptuNotice .acquired (advanceNow (s.setPtu ({ u with i := 0, state := .tracking }.setV u.vff)))
    else advanceNow (s.setPtu u)
  | .tracking => correct (s.setPtu ({ u with stall := some 0 }.period s.now).feedForward)
  | .holding => catchUp (if (u.s : Int) ≤ u.m * 2 ^ 16 then u.period s.now else u) s

/-- A backward count (R15, R16, R17). -/
def backwardCount (s : State) : State :=
  let u := s.ptu.count false
  match u.state with
  | .off => s
  | .stopped => s.setPtu u
  | .acquiring | .tracking => ptuNotice .reverse (s.setPtu (u.halt .holding))
  | .holding => catchUp u s

/-! ## The decoder (R3) -/

/-- The forward neighbour of a pair, then the backward neighbour. -/
def forwardPair : Bool × Bool → Bool × Bool
  | (false, false) => (true, false)
  | (true, false) => (true, true)
  | (true, true) => (false, true)
  | (false, true) => (false, false)

def backwardPair : Bool × Bool → Bool × Bool
  | (false, false) => (false, true)
  | (false, true) => (true, true)
  | (true, true) => (true, false)
  | (true, false) => (false, false)

/-- The reference pair: the levels the decoder has ruled on. -/
def Ptu.reference (u : Ptu) : Bool × Bool := (u.encA.seen, u.encB.seen)

/-- Whether the loader runs. -/
def State.loading (s : State) : Bool :=
  match s.link.loader with
  | .idle => false
  | .loading _ _ => true

/-- A new pair of taken levels: it becomes the reference, and a step to a neighbour is a count, outside OFF and
outside loading (R3). -/
def decodePair (new : Bool × Bool) (s : State) : State :=
  let old := s.ptu.reference
  let s := s.setPtu { s.ptu with encA := s.ptu.encA.take new.1, encB := s.ptu.encB.take new.2 }
  if s.ptu.state = .off ∨ s.loading = true then s
  else if new = forwardPair old then (if s.ptu.params.invert then backwardCount s else forwardCount s)
  else if new = backwardPair old then (if s.ptu.params.invert then forwardCount s else backwardCount s)
  else s

/-! ## The stall (R18) -/

/-- Whether the stall timer has reached the stall timeout. -/
def Ptu.stallDue (u : Ptu) : Bool :=
  match u.stall with
  | none => false
  | some e => decide (u.params.stallTimeout ≤ e)

/-- The stall expiry: STALL, then PTU_STATE (R18, R19). -/
def stallExpire (s : State) : State :=
  let left := s.ptu.state
  ptuNotice .stall (submit (.stall left) (s.setPtu (s.ptu.halt .stopped)))

/-! ## Commands -/

/-- Entry to OFF from another state; the advance not yet presented is dropped (R14, log 10). -/
def enterOff (r : PtuReason) (s : State) : State :=
  if s.ptu.state = .off then s
  else ptuNotice r (s.setPtu { s.ptu with state := .off, v := 0, stall := none, presented := s.position })

/-- The parameters after the adjustments of R20; an absent one keeps its value. -/
def PtuParams.adjusted (q : PtuParams) (a : PositionArgs) : PtuParams :=
  { lineRatio := a.lineRatio.getD q.lineRatio
    avgExp := (a.avgExp.map fun x => min x 5).getD q.avgExp
    encFilter := (a.encFilter.map roundEncFilter).getD q.encFilter
    invert := (a.invert.map fun x => x == 0).getD q.invert
    kp := (a.kp.map fun x => min x 65535).getD q.kp
    ki := (a.ki.map fun x => min x 65535).getD q.ki
    ilim := (a.ilim.map fun x => min x (2 ^ 31 - 1)).getD q.ilim
    vmax := (a.vmax.map fun x => clampNat 1 (2 ^ 32 - 1) x).getD q.vmax
    slip := (a.slip.map fun x => clampNat 65536 16777216 x).getD q.slip
    stallTimeout := (a.stall.map fun x => clampNat 25000 16777215 x).getD q.stallTimeout }

/-- Parameters taken: V re-clamped where Vmax is carried and I where Ilim is, and the filter progress reset where the
filter setting changes (R2, R13). -/
def Ptu.withParams (u : Ptu) (q : PtuParams) (a : PositionArgs) : Ptu :=
  let u' := if q.encFilter = u.params.encFilter then u
    else { u with encA := u.encA.restart, encB := u.encB.restart }
  let u' := { u' with params := q }
  let u' := if a.vmax.isSome then u'.setV u.v else u'
  if a.ilim.isSome then u'.setI u.i else u'

/-- Parameters taken; where the stall timeout is carried, a running stall timer is compared at once (R18, R20). -/
def takeParams (q : PtuParams) (a : PositionArgs) (s : State) : State :=
  let s := s.setPtu (s.ptu.withParams q a)
  if a.stall.isSome && s.ptu.stallDue then stallExpire s else s

/-- The payload of Set Position: the ten values in force (R20). -/
def PtuParams.payload (q : PtuParams) : List Byte :=
  leBytes 3 q.lineRatio ++ [byte q.avgExp, byte q.encFilter, byte (firstIf q.invert)] ++ leBytes 2 q.kp ++
    leBytes 2 q.ki ++ leBytes 4 q.ilim ++ leBytes 4 q.vmax ++ leBytes 4 q.slip ++ leBytes 3 q.stallTimeout

/-- Whether a Set Position carries one of the four parameters taken in OFF only (R20). -/
def offOnly (a : PositionArgs) : Bool :=
  a.lineRatio.isSome || a.avgExp.isSome || a.encFilter.isSome || a.invert.isSome

/-- Whether a line ratio lies in its range (R20). -/
def ratioOk (r : Nat) : Bool := decide (256 ≤ r ∧ r ≤ 4194304)

/-- Set Position (R20). A direction invert code that names neither value is refused (log 16). -/
def cmdSetPosition (a : PositionArgs) (s : State) : Reply :=
  if s.ptu.state ≠ .off ∧ offOnly a = true then Reply.refuse .wrongState s
  else if (match a.lineRatio with | some r => !ratioOk r | none => false) ||
      (match a.invert with | some x => decide (2 ≤ x) | none => false) then Reply.refuse .badValue s
  else
    let q := s.ptu.params.adjusted a
    Reply.ok q.payload (takeParams q a s)

/-- Position On (R21). -/
def cmdPositionOn (s : State) : Reply :=
  if s.ptu.state ≠ .off then Reply.refuse .wrongState s
  else Reply.ok [] (ptuNotice .command (s.setPtu { s.ptu.clearHistory with state := .stopped, i := 0, v := 0 }))

/-- Position Off (R22). -/
def cmdPositionOff (s : State) : Reply := Reply.ok [] (enterOff .command s)

end Sys2Proof.Machine
end

