-- ==== Sys2Proof/Machine/Link.lean ====
section
/-!
DEFINITION. The Link Port (chapter 8): frames received, the line frame's way to the Line Store, the link's loss and
return, the completion of an outbound frame.
-/

namespace Sys2Proof.Machine

/-! ## Line frames (R56 to R59, R157) -/

/-- The counter of a refusal (R56). -/
def LineReason.counter : LineReason → PlaneCounter
  | .malformed => .refusedMalformed | .noJob => .refusedNoJob | .late => .refusedLate | .ahead => .refusedAhead

/-- A line frame at the Line Store (R56 to R59). -/
def lineFrame (p : Plane) (n : Nat) (pixels : List Dot) (s : State) : State :=
  match rulingOf (s.jobs.next.get p) (s.plane p) n pixels with
  | .refused r => submitCondition (.lineRefused p) (.lineRefused p r n) (bump (.plane r.counter p) s)
  | .replaced => storeData p n pixels (bump (.plane .replaced p) s)
  | .stored =>
    let s := storeData p n pixels (bump (.plane .stored p) s)
    match ((s.plane p).slot n).takers with
    | none => s
    | some ts => lineReady p n ts s

/-! ## Reception (R156 to R158) -/

/-- A discarded frame (R156). -/
def frameBad (r : LinkReason) (s : State) : State :=
  submitCondition .linkErrors (.linkErrors r) (bump (.link .framesBad) s)

/-- The kind byte of a job or control frame (10.1). -/
def Frame.kindByte (f : Frame) : Byte := if f.job then 2 else 3

/-- A job or control frame joins the inbound control queue, or is dropped (R158). -/
def joinQueue (f : Frame) (s : State) : State :=
  if s.link.inbound.length < Config.controlQueueMax then s.setLink { s.link with inbound := s.link.inbound ++ [f] }
  else submitCondition .controlDropped (.controlDropped f.kindByte f.tag) (bump (.link .controlDropped) s)

/-- A frame that passed the envelope checks, dispatched by its kind (R157). -/
def dispatch (f : Inbound) (s : State) : State :=
  match f with
  | .line p n pixels =>
    if s.loading then bump (.link .linesDiscardedLoading) s else lineFrame p n pixels s
  | .control f => joinQueue f s

/-- A frame delivered by the physical layer (R156). -/
def receive (d : Delivery) (s : State) : State :=
  match checkEnvelope d with
  | .error r => frameBad r s
  | .ok f => dispatch f (bump (.link .framesOk) s)

/-! ## The link (R155, R162 to R168) -/

/-- The link becomes UP (R168). -/
def linkUp (s : State) : State := arbitrate (s.setLink { s.link with up := true, flowPending := true })

/-- The link becomes DOWN, with any outbound transmission cut off (R155, R167). -/
def linkDown (s : State) : State :=
  submitCondition .linkErrors (.linkErrors .syncLost) (s.setLink { s.link with up := false, outbound := none })

/-- The completion of the outbound transmission: an answer or a batch leaves, and the arbiter chooses (R162, R164,
R165). DESIGN CHOICE (unsafe, log 44): at an answer's completion the arbiter chooses before the Control Unit takes the frame
that the answer makes room for. -/
def outboundDone (o : Outbound) (s : State) : State :=
  let s := s.setLink { s.link with outbound := none }
  match o.kind with
  | .flow => arbitrate s
  | .answer => arbitrate (s.setLink { s.link with answers := s.link.answers.drop 1 })
  | .notice => arbitrate (batchDone (s.setLink { s.link with batch := none }))

end Sys2Proof.Machine
end

