-- ==== Sys2Proof/Machine/Jobs.lean ====
section
/-!
DEFINITION. The Job Queue (chapter 2): accepting a job frame, activation and its chain, triggers, the print state,
aborting and querying a job, and the queue at a stream reset.
-/

namespace Sys2Proof.Machine

/-! ## Accepting a job frame (R28, R29) -/

/-- The start mode of a code (10.1). -/
def startMode (n : Nat) : Option StartMode := if n = 0 then some .triggered else if n = 1 then some .chained else none

def StartMode.code : StartMode → Nat
  | .triggered => 0 | .chained => 1

/-- Whether the fields of a job frame are in range (R28, case 4). -/
def jobInRange (s : State) (f : JobFields) : Bool :=
  decide (1 ≤ f.length ∧ f.length ≤ Config.maxLength) && !f.planes.isEmpty &&
    f.planes.all (fun p => decide ((s.plane p).width ≠ 0)) && (startMode f.mode).isSome &&
    decide (f.gap ≤ 65535 ∧ f.delay ≤ Config.maxDelay) &&
    f.planes.all fun p => decide (s.jobs.next.get p + f.length ≤ Config.lineLimit)

/-- The record an accepted job frame gives, its first lines taken from the next-line counters (R27, R29). -/
def JobQueue.newRecord (q : JobQueue) (f : JobFields) : JobRec :=
  { id := f.id, length := f.length, planes := f.planes.map fun p => { plane := p, first := q.next.get p },
    mode := (startMode f.mode).getD .triggered, delay := f.delay, gap := f.gap, tag := f.tag, active := none }

/-- A record appended, and the next-line counters of its planes advanced (R26, R27). -/
def JobQueue.append (q : JobQueue) (r : JobRec) : JobQueue :=
  { q with
    records := q.records ++ [r]
    next := mapAll (fun p n => if (r.planes.any fun x => x.plane == p) then n + r.length else n) q.next }

/-- The payload of an accepted job frame (R29, 10.1). -/
def firstLines (r : JobRec) : List Byte :=
  leBytes 2 r.id ++ [byte r.planes.length, byte 0] ++
    r.planes.flatMap fun x => byte x.plane.val :: leBytes 4 x.first

/-! ## Activation (R33, R35, R36) -/

/-- The oldest QUEUED record (R26). -/
def JobQueue.oldestQueued (q : JobQueue) : Option JobRec := q.records.find? fun r => r.active.isNone

/-- The predecessor of the oldest QUEUED record, if it is ACTIVE: the last of the run of ACTIVE records before it
(R26). -/
def JobQueue.activePredecessor (q : JobQueue) : Option JobRec :=
  (q.records.takeWhile fun r => r.active.isSome).getLast?

/-- The record that the chain condition activates, with its start position (R33). -/
def JobQueue.chainReady (q : JobQueue) : Option (Nat × Nat) :=
  match q.print, q.oldestQueued, q.activePredecessor with
  | true, some r, some before =>
    match r.mode, before.active with
    | .chained, some a => some (r.id, a.t + (before.length + r.gap) * 256)
    | _, _ => none
  | _, _, _ => none

/-- The takers of a plane at an activation: the heads enabled and assigned to it in the ACTIVE bank (R35). -/
def State.takersFor (s : State) (p : Plane) : List Head :=
  ((s.banks.tables s.banks.active).assigned p).filter fun h => (s.head h).enabled

/-- The fields of R35 for a record that activates at T. -/
def State.activationOf (s : State) (r : JobRec) (t : Nat) : Activation :=
  let takers := r.planes.map fun x => (x.plane, s.takersFor x.plane)
  { t := t, bank := s.banks.active, takers := takers, progress := (takers.map fun x => x.2.length).sum, fired := 0,
    shortfall := 0 }

/-- The heads an activation hands a job to, in increasing order (R36 step 4). -/
def Activation.heads (a : Activation) : List Head := allHeads.filter fun h => a.takers.any fun x => x.2.contains h

/-- The Head Scheduler receives a job: each taker that is IDLE makes it its cursor job at line 0 (R36 step 4). -/
def handToHeads (id : Nat) (hs : List Head) (s : State) : State :=
  forEach hs (fun h s =>
    if (s.head h).state = .idle then arrive h (s.head h) { job := id, index := 0 } s else s) s

/-- Steps 1 to 4 of an activation of a record (R35, R36). -/
def activateRecord (r : JobRec) (t : Nat) (s : State) : State :=
  let a := s.activationOf r t
  let s := bindBank (s.setJobs (s.jobs.update r.id fun r => { r with active := some a }))
  let s := forEach r.planes (fun x s => bindRange x.plane (a.takersOf x.plane) x.first r.length s) s
  let s := s.setJobs { s.jobs with lastT := some t, lastL := some r.length }
  handToHeads r.id a.heads (submit (.jobStarted r.id t a.bank r.tag) s)

/-- Step 6 of R36: a job without takers retires at once. -/
def retireIfEmpty (id : Nat) (s : State) : State :=
  match s.jobs.find id with
  | none => s
  | some r =>
    match r.active with
    | none => s
    | some a => if a.progress = 0 then retire id s else s

/-- An activation, with the cascade of chained records behind it (R33, R36). DESIGN CHOICE (unsafe, log 36): a job whose
takers all pass their last line in step 4, its dues being reached already, retires there, so the chain test of step 5 no
longer finds it as the predecessor. -/
def activate : Nat → Nat → Nat → State → State
  | 0, _, _, s => s
  | k + 1, id, t, s =>
    match s.jobs.find id with
    | none => s
    | some r =>
      let s := activateRecord r t s
      let s := match s.jobs.chainReady with
        | some (id', t') => activate k id' t' s
        | none => s
      retireIfEmpty id s

/-- The test of the chain condition (R33). -/
def testChain (s : State) : State :=
  match s.jobs.chainReady with
  | some (id, t) => activate (s.jobs.records.length + 1) id t s
  | none => s

/-! ## Triggers (R31, R32) -/

/-- The ruling on a trigger. -/
inductive TrigResult where
  | activated (job t : Nat)
  | refused (r : TrigRefusal) (early : Option (Nat × Nat))
  deriving DecidableEq, Repr

/-- The candidate start position of a record for a trigger with capture P (R32). -/
def candidateT (r : JobRec) (p : Nat) : Nat :=
  match r.mode with
  | .triggered => p + r.delay
  | .chained => p

/-- Whether a candidate passes the spacing test (R32). -/
def JobQueue.spaced (q : JobQueue) (r : JobRec) (t : Nat) : Bool :=
  match q.lastT, q.lastL with
  | some lt, some ll => decide (lt + (ll + r.gap) * 256 ≤ t)
  | _, _ => true

/-- The cases of R31 in their order. -/
def State.triggerRuling (s : State) (p : Nat) : TrigResult :=
  if !s.jobs.print then .refused .ignored none
  else if s.ptu.state ≠ .tracking then .refused .notTracking none
  else match s.jobs.oldestQueued with
    | none => .refused .orphan none
    | some r =>
      if r.mode = .chained ∧ s.jobs.activePredecessor.isSome = true then .refused .orphan none
      else if s.jobs.spaced r (candidateT r p) then .activated r.id (candidateT r p)
      else .refused .early (some (r.id, candidateT r p))

/-- The counter that names a refusal (R31). -/
def TrigRefusal.counter : TrigRefusal → TrigCounter
  | .ignored => .ignored | .notTracking => .notTracking | .orphan => .orphan | .early => .early

/-- A trigger with capture P delivered to the Job Queue (R31). -/
def deliverTrigger (p : Nat) (s : State) : State :=
  match s.triggerRuling p with
  | .refused r early => submit (.triggerRefused r p early) (bump (.trigger r.counter) s)
  | .activated id t => activate (s.jobs.records.length + 1) id t (bump (.trigger .delivered) s)

/-! ## Aborting (R39, R40) -/

/-- Abort Job of a QUEUED record (R39). -/
def abortQueued (r : JobRec) (s : State) : State :=
  let s := giveUpRecord r (s.setJobs (s.jobs.remove r.id))
  testChain (submit (.jobAborted r.id false 0 0 r.tag) s)

/-- Abort Job of an ACTIVE record (R40): the totals are those the skips of its takers leave. -/
def abortActive (r : JobRec) (a : Activation) (s : State) : State :=
  let s := giveUpRecord r (forEach a.heads (fun h s => abortPart h r.id r.length s) s)
  match (s.jobs.find r.id).bind JobRec.active with
  | none => s
  | some b =>
    submit (.jobAborted r.id true b.fired b.shortfall r.tag) (unbindBank b.bank (s.setJobs (s.jobs.remove r.id)))

/-! ## Querying (R41) -/

/-- The place of a record in the list, 0 for the oldest. -/
def JobQueue.placeOf (q : JobQueue) (id : Nat) : Nat := (q.records.takeWhile fun r => r.id != id).length

/-- The payload of Query Job (R41, log 28). -/
def queryPayload (q : JobQueue) (r : JobRec) : List Byte :=
  [byte (q.placeOf r.id), byte (if r.active.isNone then 0 else 1)] ++ leBytes 3 r.length ++ [byte r.mode.code] ++
    leBytes 3 r.delay ++ leBytes 2 r.gap ++ optField 4 r.tag ++
    (r.planes.flatMap fun x => byte x.plane.val :: leBytes 4 x.first) ++
    match r.active with
    | none => []
    | some a =>
      leBytes 6 a.t ++ [byte a.bank.val] ++ (a.takers.flatMap fun x => setField (x.2.map fun h => h.val)) ++
        [byte a.progress] ++ leBytes 4 a.fired ++ leBytes 4 a.shortfall

/-! ## Stream reset (R47) -/

/-- The Job Queue at a stream reset (R47). -/
def JobQueue.cleared (q : JobQueue) : JobQueue :=
  { q with records := [], next := Vector.replicate 4 0, lastT := none, lastL := none, print := false }

/-! ## Commands -/

/-- A job frame taken (R28, R29). -/
def cmdJob (fields : Option JobFields) (s : State) : Reply :=
  match fields with
  | none => Reply.refuse .malformed s
  | some f =>
    if Config.maxJobs ≤ s.jobs.records.length then Reply.refuse .queueFull s
    else if s.jobs.records.any fun r => r.id == f.id then Reply.refuse .duplicate s
    else if !jobInRange s f then Reply.refuse .badValue s
    else
      let r := s.jobs.newRecord f
      Reply.ok (firstLines r) (testChain (s.setJobs (s.jobs.append r)))

/-- Print On (R30). -/
def cmdPrintOn (s : State) : Reply :=
  Reply.ok [] (if s.jobs.print then s else testChain (s.setJobs { s.jobs with print := true }))

/-- Print Off (R30). -/
def cmdPrintOff (s : State) : Reply := Reply.ok [] (s.setJobs { s.jobs with print := false })

/-- Abort Job (R39, R40). -/
def cmdAbortJob (id : Nat) (s : State) : Reply :=
  match s.jobs.find id with
  | none => Reply.refuse .noSuchJob s
  | some r => Reply.ok [] (match r.active with
    | none => abortQueued r s
    | some a => abortActive r a s)

/-- Query Job (R41). -/
def cmdQueryJob (id : Nat) (s : State) : Reply :=
  match s.jobs.find id with
  | none => Reply.refuse .noSuchJob s
  | some r => Reply.ok (queryPayload s.jobs r) s

/-- The payload of Soft Trigger: P and the result (R46, log 28). -/
def softPayload (p : Nat) (r : TrigResult) : List Byte :=
  leBytes 6 p ++ match r with
    | .activated id t => byte 0 :: (leBytes 2 id ++ leBytes 6 t)
    | .refused why _ => [byte 1, byte why.code]

/-- Soft Trigger (R46). -/
def cmdSoftTrigger (s : State) : Reply :=
  Reply.ok (softPayload s.position (s.triggerRuling s.position)) (deliverTrigger s.position s)

end Sys2Proof.Machine
end

