-- ==== Sys2Proof/Machine/Trigger.lean ====
section
/-!
DEFINITION. The Trigger Qualifier (R42 to R45): input levels, its timers, and Set Trigger.
-/

namespace Sys2Proof.Machine

/-- The parameters that the next input level taken comes under: the pending set, if one is present (R45). -/
def Qualifier.nextParams (t : Qualifier) : TrigParams := t.newParams.getD t.params

/-- The level that reads as active under parameters (R42). -/
def TrigParams.activeLevel (q : TrigParams) : Bool := !q.activeLow

/-- The trigger of the candidate delivered, and QUALIFIED (R43). -/
def qualify (s : State) : State :=
  deliverTrigger (s.trig.p.getD 0) (s.setTrig { s.trig with state := .qualified, timer := none })

/-- Whether min_on has elapsed since t0 (R43). -/
def State.minOnElapsed (s : State) : Bool :=
  match s.trig.t0 with
  | none => false
  | some t => decide (s.trig.params.minOn * Config.ticksPerUs ≤ s.now - t)

/-- The qualifier back in IDLE with P and t0 absent (R43). -/
def Qualifier.toIdle (t : Qualifier) : Qualifier := { t with state := .idle, p := none, t0 := none, timer := none }

/-- The dropout timer's expiry: GLITCH, and IDLE (R43). -/
def dropoutExpire (s : State) : State :=
  let p := s.trig.p.getD 0
  submit (.glitch p) (bump (.trigger .glitch) (s.setTrig s.trig.toIdle))

/-- The min_off timer's expiry (R43). -/
def minOffExpire (s : State) : State := s.setTrig s.trig.toIdle

/-- The event input goes active (R43). -/
def goesActive (s : State) : State :=
  match s.trig.state with
  | .idle => s.setTrig { s.trig with state := .candidate, p := some s.position, t0 := some s.now }
  | .dropout =>
    let s := s.setTrig { s.trig with state := .candidate, timer := none }
    if s.minOnElapsed then qualify s else s
  | .releasing => s.setTrig { s.trig with state := .qualified, timer := none }
  | .candidate | .qualified => s

/-- The event input goes inactive (R43); a timer of 0 expires as it starts. -/
def goesInactive (s : State) : State :=
  match s.trig.state with
  | .candidate =>
    let d := s.trig.params.dropout
    let s := s.setTrig { s.trig with state := .dropout, timer := some (.dropout, s.now + d * Config.ticksPerUs) }
    if d = 0 then dropoutExpire s else s
  | .qualified =>
    let d := s.trig.params.minOff
    let s := s.setTrig { s.trig with state := .releasing, timer := some (.minOff, s.now + d * Config.ticksPerUs) }
    if d = 0 then minOffExpire s else s
  | .idle | .dropout | .releasing => s

/-- A level taken by the filter: a pending set comes into force, and the level is read under it (R42, R45). -/
def triggerLevel (x : Bool) (s : State) : State :=
  let q := s.trig.nextParams
  let s := s.setTrig { s.trig with params := q, newParams := none, input := s.trig.input.take x }
  if x = q.activeLevel then goesActive s else goesInactive s

/-- A level taken that is not the one already taken. -/
def newTriggerLevel (x : Bool) (s : State) : State :=
  if x = s.trig.input.seen then s else triggerLevel x s

/-- Whether a candidate's min_on has elapsed (R43). -/
def State.minOnDue (s : State) : Bool := s.trig.state == .candidate && s.minOnElapsed

/-- Whether a timer of the qualifier has reached its expiry. -/
def State.trigTimerDue (s : State) (k : TrigTimer) : Bool :=
  match s.trig.timer with
  | none => false
  | some (j, t) => j == k && decide (t ≤ s.now)

/-- Whether the dropout timer expires: in DROPOUT, with its time reached. -/
def State.dropoutDue (s : State) : Bool := s.trig.state == .dropout && s.trigTimerDue .dropout

/-- Whether the min_off timer expires: in RELEASING, with its time reached. -/
def State.minOffDue (s : State) : Bool := s.trig.state == .releasing && s.trigTimerDue .minOff

/-! ## Set Trigger (R45) -/

/-- The full set a Set Trigger leaves pending: clamped, with absent fields filled from the values in force (R45). -/
def TrigParams.adjusted (q : TrigParams) (a : TriggerArgs) : TrigParams :=
  { activeLow := (a.polarity.map fun x => x == 1).getD q.activeLow
    minOn := (a.minOn.map fun x => clampNat 1 65535 x).getD q.minOn
    dropout := (a.dropout.map fun x => min x 65535).getD q.dropout
    minOff := (a.minOff.map fun x => min x 65535).getD q.minOff }

/-- The payload of Set Trigger: the four values that will be in force (R45). -/
def TrigParams.payload (q : TrigParams) : List Byte :=
  byte (if q.activeLow then 1 else 0) :: (leBytes 2 q.minOn ++ leBytes 2 q.dropout ++ leBytes 2 q.minOff)

/-- Set Trigger (R45): polarity code 0 is ACTIVE_HIGH and 1 is ACTIVE_LOW. -/
def cmdSetTrigger (a : TriggerArgs) (s : State) : Reply :=
  if (match a.polarity with | some x => decide (2 ≤ x) | none => false) then Reply.refuse .badValue s
  else
    let q := s.trig.params.adjusted a
    Reply.ok q.payload (s.setTrig { s.trig with newParams := some q })

/-- The qualifier at a stream reset: IDLE, with parameters and pending set kept (R47). -/
def resetQualifier (s : State) : State := s.setTrig s.trig.toIdle

end Sys2Proof.Machine
end

