-- ==== Sys2Proof/Machine/Loader.lean ====
section
/-!
DEFINITION. The configuration loader (8.7): its start, and the one event in which the sections of an image, or the
defaults, are applied (R170 to R172).
-/

namespace Sys2Proof.Machine

/-- The start of loading: the loader LOADING and the PTU OFF (R170). DESIGN CHOICE (unsafe, log 47): the notice settings in
force at a Reload Config stay in force until the completion of loading. -/
def startLoading (c : LoadCause) (s : State) : State :=
  enterOff .loading (s.setLink { s.link with loader := .loading c 0 })

/-! ## The sections as the image or the defaults give them -/

/-- The kinds that a list of codes names, in the order of the codes (R188). DESIGN CHOICE (unsafe, log 38): the members of
the image's mask may stand in any order and may repeat. -/
def kindsOf (l : List Nat) : List NoticeKind := allKinds.filter fun k => l.contains k.code

/-- Step 1 of R171: the notice settings (R188). -/
def loadNotices (mask : List NoticeKind) (level idle : Nat) (s : State) : State :=
  takeIdle idle (takeLevel level (takeMask mask s))

/-- A plane's parameters as carried values give them, adjusted (R51), and its slots re-formed (R53). -/
def loadPlane (a : PlaneArgs) (x : PlaneStore) : PlaneStore := (x.adjusted a.width a.depth a.high a.low).reformed

/-- The defaults of R49 as carried values. -/
def defaultPlaneArgs : PlaneArgs :=
  { plane := 0, width := some 0, depth := some Config.defaultDepth, high := some Config.defaultHigh,
    low := some Config.defaultLow }

/-- Step 2 of R171: the stream parameters. Where the four depths sum to more than the store, every plane takes the
default depth, and its watermarks are adjusted against it (R53). DESIGN CHOICE (unsafe, log 41): the depths summed are
those that the clamps of R51 leave. -/
def loadPlanes (args : List PlaneArgs) (v : Vector PlaneStore 4) : Vector PlaneStore 4 :=
  let arg (p : Plane) : PlaneArgs := args.getD p.val defaultPlaneArgs
  let w := mapAll (fun p x => loadPlane (arg p) x) v
  if depthSum w ≤ Config.storeDepth then w
  else mapAll (fun p x => loadPlane { arg p with depth := some Config.defaultDepth } x) v

/-- The defaults of R20 as carried values. -/
def defaultPosition : PositionArgs :=
  { lineRatio := some 65536, avgExp := some 3, encFilter := some 2, invert := some 1, kp := some 256, ki := some 16,
    ilim := some (2 ^ 20), vmax := some (2 ^ 31), slip := some 262144, stall := some 2500000 }

/-- Step 4 of R171: the PTU's parameters. A line ratio out of range is the default (R24); a direction invert code that
names neither value has no stated adjustment (log 19). -/
def loadPosition (a : PositionArgs) (s : State) : State :=
  let ratio := match a.lineRatio with
    | some r => if ratioOk r then r else 65536
    | none => 65536
  let q := s.ptu.params.adjusted { a with lineRatio := some ratio }
  let q := { q with invert := match a.invert with
    | some x => imageFlag Config.imageInvert x
    | none => q.invert }
  takeParams q a s

/-- Step 5 of R171: the trigger parameters become the pending set (R48); a polarity outside the two codes is
ACTIVE_HIGH. -/
def loadTrigger (q : TrigParams) (s : State) : State := s.setTrig { s.trig with newParams := some q }

/-- A lane's settings as the image carries them, adjusted (R138). A fault mode that is neither of the two is LATCH; an
auto-downshift code, and grade codes, that name no value have no stated adjustment (log 19). DESIGN CHOICE (unsafe,
log 38): the members of the part grade mask may stand in any order and may repeat. -/
def imageSettings (q : LaneSettings) (i : ImageLane) : LaneSettings :=
  let a := i.settings
  let codes := a.mask.getD []
  let mask := (gradesOfCodes codes).getD (allGrades.filter (Config.imageGrade codes))
  let auto := (a.autoDown.map (imageFlag Config.imageAutoDownshift)).getD false
  let a := { a with mode := a.mode.map fun x => if x = 0 then 0 else 1 }
  q.adjusted (some mask) (some auto) a

/-- A lane's enable flag as the image carries it: 0 clear, 1 set (R189, log 19). -/
def imageEnable (n : Nat) : Bool := if n = 0 then false else if n = 1 then true else Config.imageEnable n

/-- Step 6 of R171 for one lane: settings, enable flag, and negotiation where it is DOWN and enabled (R138). -/
def loadLane (h : Head) (q : LaneSettings) (enable : Bool) (s : State) : State :=
  let s := changeLane h (fun l => { l with enable := enable }) (takeSettings h q true s)
  if (s.lane h).state = .down ∧ enable = true then enterNegotiating h .config s else s

/-! ## The completion (R171, R172) -/

/-- Steps 7 to 9 of R171. -/
def finishLoading (why : Option DefaultReason) (check : Option Failure) (s : State) : State :=
  match s.link.loader with
  | .idle => s
  | .loading cause _ =>
    let s := match why with
      | some r => submitCondition .configDefaulted (.configDefaulted r) s
      | none => s
    let s := submit (.configLoaded cause why.isNone check) s
    s.setLink { s.link with loader := .idle }

/-- Step 3 of R171: both banks receive the tables (R153). -/
def loadTables (t : Tables) (s : State) : State := s.setBanks (loadBanks t s.banks)

/-- The check of step 3 of R171, on the ACTIVE bank (R153). -/
def State.bankCheck (s : State) : Option Failure :=
  validate s.store (s.banks.tables s.banks.active) s.banks.active

/-- The completion with a usable image (R171). -/
def applyImage (i : Image) (s : State) : State :=
  let s := loadNotices (kindsOf i.mask) i.level i.idle s
  let s := s.setStore (loadPlanes i.planes s.store)
  let s := loadTables i.tables s
  let check := s.bankCheck
  let s := loadPosition i.position s
  let s := loadTrigger (TrigParams.default.adjusted i.trigger) s
  let s := forEach allHeads (fun h s => match i.lanes[h.val]? with
    | some l => loadLane h (imageSettings LaneSettings.default l) (imageEnable l.enable) s
    | none => s) s
  finishLoading none check s

/-- The completion with the defaults (R171, R172). -/
def applyDefaults (why : DefaultReason) (s : State) : State :=
  let s := loadNotices [.glitch] 8 20 s
  let s := s.setStore (loadPlanes [] s.store)
  let s := loadTables Tables.default s
  let check := s.bankCheck
  let s := loadPosition defaultPosition s
  let s := loadTrigger TrigParams.default s
  let s := forEach allHeads (fun h s => loadLane h LaneSettings.default false s) s
  finishLoading (some why) check s

/-- The completion of loading (R171), while the loader runs. -/
def completeLoading (r : Except DefaultReason Image) (s : State) : State :=
  if s.loading then (match r with
    | .ok i => applyImage i s
    | .error why => applyDefaults why s)
  else s

/-- The ticks since loading began; `none` where the loader is IDLE. -/
def State.loadElapsed (s : State) : Option Nat :=
  match s.link.loader with
  | .idle => none
  | .loading _ e => some e

/-- Whether a loader time has been reached. -/
def State.loaderDue (s : State) (ticks : Nat) : Bool :=
  match s.loadElapsed with
  | none => false
  | some e => decide (ticks ≤ e)

end Sys2Proof.Machine
end

