-- ==== Sys2Proof/Machine/Tables.lean ====
section
/-!
DEFINITION. The commands of the Line Store, the Table Banks and the Notice Unit: Set Plane, Stream Reset, Write
Table, Read Table, Commit Bank, Set Notices, Clear Conditions, Read Status and the counters.
-/

namespace Sys2Proof.Machine

/-! ## Set Plane and Stream Reset (R50, R69) -/

/-- The four stream parameters in force of a plane (R50). -/
def PlaneStore.payload (x : PlaneStore) : List Byte :=
  leBytes 2 x.width ++ leBytes 2 x.depth ++ leBytes 2 x.high ++ leBytes 2 x.low

/-- Whether a Set Plane carries no parameter. -/
def planeArgsEmpty (a : PlaneArgs) : Bool := a.width.isNone && a.depth.isNone && a.high.isNone && a.low.isNone

/-- A refused Set Plane: the values in force, then the failure where the tables fail (R50, log 17). -/
def planeRefused (r : ResultCode) (x : PlaneStore) (f : List Byte) (s : State) : Reply :=
  { state := s, result := r, payload := x.payload ++ f, reloads := false }

/-- Set Plane (R50 to R53). -/
def cmdSetPlane (a : PlaneArgs) (s : State) : Reply :=
  if h : a.plane < 4 then
    let p : Plane := ⟨a.plane, h⟩
    let x := s.plane p
    let y := x.adjusted a.width a.depth a.high a.low
    if planeArgsEmpty a then Reply.ok (byte p.val :: x.payload) s
    else if !s.jobs.records.isEmpty then planeRefused .wrongState x [] s
    else if Config.storeDepth < depthSum (put s.store p y) then planeRefused .badValue x [] s
    else match checkPlaneBanks p y.width y.depth s.banks with
      | some f => planeRefused .invalidTables x (failureField f) s
      | none => Reply.ok (byte p.val :: y.payload) (s.setPlane p y.reformed)
  else { state := s, result := .badValue, payload := Config.badPlanePayload a.plane, reloads := false }

/-- A stream reset in every block (R47, R69, R70, R92, R139, R152). -/
def streamReset (s : State) : State :=
  let s := resetStore (resetQualifier (resetBanks (s.setJobs s.jobs.cleared)))
  forEach allHeads testDownshift (resetHeads s)

/-- Stream Reset (R69). -/
def cmdStreamReset (s : State) : Reply := Reply.ok [] (streamReset s)

/-! ## Write Table, Read Table and Commit Bank (R143 to R149) -/

/-- Whether the target of a Write Table is one it takes (R143, case 3). -/
def targetOk (a : WriteArgs) : Bool :=
  match a.target with
  | .head n => decide (n < 16) && (bodyDropMap a.body).isNone
  | .plane n => decide (n < 4)

/-- The payload of Write Table: the bank written, and the target set, or the plane for DROP_MAP (R145). -/
def writePayload (i : BankId) (t : Tables) (a : WriteArgs) : List Byte :=
  byte i.val :: match bodyDropMap a.body, a.target with
    | some _, .plane n => [byte n]
    | _, _ => setField ((targetHeads t a.target).map fun h => h.val)

/-- Write Table (R143, R145). -/
def cmdWriteTable (a : Option WriteArgs) (s : State) : Reply :=
  match a with
  | none => Reply.refuse .malformed s
  | some a =>
    match s.banks.shadow with
    | none => Reply.refuse .bankBusy s
    | some i =>
      let t := s.banks.tables i
      if targetOk a && bodyInRange a.body then
        Reply.ok (writePayload i t a) (s.setBanks (s.banks.setTables i (t.write a.target a.body)))
      else Reply.refuse .badValue s

/-- The bank a selector names, if one has that state (R146). -/
def selected (b : Banks) : Selector → Option BankId
  | .active => some b.active
  | .shadow => b.shadow

/-- Read Table (R146). -/
def cmdReadTable (a : Option ReadArgs) (s : State) : Reply :=
  match a with
  | none => Reply.refuse .malformed s
  | some a =>
    match selected s.banks a.selector with
    | none => Reply.refuse .bankBusy s
    | some i =>
      if readInRange a then Reply.ok (byte i.val :: readPayload (s.banks.tables i) a) s
      else Reply.refuse .badValue s

/-- The banks after a commit: the SHADOW bank ACTIVE, the former ACTIVE bank DRAINING or COPYING (R149). -/
def committed (b : Banks) : Banks :=
  { b with active := b.otherId, other := if 0 < b.bound b.active then .draining else .copying 0 }

/-- The payload of an accepted Commit Bank (R149). -/
def commitPayload (b : Banks) : List Byte :=
  [byte b.active.val, byte (bankStateCode (some b.other)), byte (b.bound b.otherId)]

/-- Commit Bank (R147, R149). -/
def cmdCommitBank (s : State) : Reply :=
  match s.banks.shadow with
  | none => Reply.refuse .bankBusy s
  | some i =>
    match validate s.store (s.banks.tables i) i with
    | some f => { state := s, result := .invalidTables, payload := failureField f, reloads := false }
    | none => Reply.ok (commitPayload (committed s.banks)) (s.setBanks (committed s.banks))

/-! ## Notices, conditions and counters (R180, R184, R186, R187) -/

/-- The codes of the mask, in increasing order. -/
def maskField (m : List NoticeKind) : List Byte := setField ((allKinds.filter fun k => m.contains k).map NoticeKind.code)

/-- The payload of Set Notices: the three settings in force (R184). -/
def settingsPayload (u : NoticeUnit) : List Byte := maskField u.mask ++ [byte u.level, byte u.idle]

/-- Set Notices (R184). -/
def cmdSetNotices (a : NoticesArgs) (s : State) : Reply :=
  if (match a.mask with | some l => l.any fun c => (kindOfCode c).isNone | none => false) then
    Reply.refuse .badValue s
  else
    let s := match a.mask with | some l => takeMask (kindsOf l) s | none => s
    let s := match a.level with | some x => takeLevel x s | none => s
    let s := match a.idle with | some x => takeIdle x s | none => s
    Reply.ok (settingsPayload s.notices) s

/-- Flags cleared (R180). -/
def clearFlags (l : List CondName) (s : State) : State :=
  forEach l (fun c s => s.setNotices { s.notices with conditions := put s.notices.conditions c.index false }) s

/-- Clear Conditions (R180). -/
def cmdClearConditions (a : FlagArgs) (s : State) : Reply :=
  match a with
  | .all =>
    let s := clearFlags allConditions s
    Reply.ok (flagsField s) s
  | .some l =>
    if l.any fun c => (condOfCodes c).isNone then Reply.refuse .badValue s
    else
      let s := clearFlags (l.filterMap condOfCodes) s
      Reply.ok (flagsField s) s

/-- The places of the counters of a group, from the first to before the last: HEADS, PLANES, LINK, TRIGGER, ALL
(R185, R186). -/
def groupRange (g : Nat) : Option (Nat × Nat) :=
  match g with
  | 0 => some (0, 112)
  | 1 => some (112, 136)
  | 2 => some (136, 140)
  | 3 => some (140, 146)
  | 4 => some (0, 146)
  | _ => none

/-- Read Counters (R186). -/
def cmdReadCounters (g : Nat) (s : State) : Reply :=
  match groupRange g with
  | none => Reply.refuse .badValue s
  | some (lo, hi) => Reply.ok (((s.notices.counters.toList.drop lo).take (hi - lo)).flatMap (leBytes 4)) s

/-- Clear Counters (R186). -/
def cmdClearCounters (g : Nat) (s : State) : Reply :=
  match groupRange g with
  | none => Reply.refuse .badValue s
  | some (lo, hi) =>
    Reply.ok [] (s.setNotices { s.notices with
      counters := mapAll (fun i x => if lo ≤ i.val ∧ i.val < hi then 0 else x) s.notices.counters })

/-- The part of Read Status of the PTU (R1, R187). -/
def ptuStatus (u : Ptu) : List Byte :=
  byte u.state.code :: (leBytes 5 (u.s / 2 ^ 32) ++ leBytes 4 u.v ++ leSigned 4 u.i ++ leSigned 7 u.m)

/-- The part of Read Status of the Job Queue (R26, R30, R187). -/
def jobStatus (q : JobQueue) : List Byte :=
  [byte (firstIf q.print), byte q.records.length] ++ optField 2 (q.records.head?.map fun r => r.id) ++
    [byte (q.records.filter fun r => r.active.isSome).length]

/-- The part of Read Status of the Line Store, item by item (R187, log 26). -/
def storeStatus (s : State) : List Byte :=
  (allPlanes.flatMap fun p => leBytes 5 (s.plane p).base) ++ (allPlanes.flatMap fun p => leBytes 5 (s.jobs.next.get p)) ++
    (allPlanes.flatMap fun p => leBytes 2 (s.plane p).fill) ++
    allPlanes.map fun p => byte (if (s.plane p).paused then 1 else 0)

/-- A cursor, or its absence. -/
def cursorField : Option Cursor → List Byte
  | none => [byte 0]
  | some c => byte 1 :: (leBytes 2 c.job ++ leBytes 3 c.index)

/-- The part of Read Status of the Head Scheduler (R71, R187). -/
def headStatus (s : State) : List Byte :=
  (allHeads.map fun h => byte (firstIf (s.head h).enabled)) ++ (allHeads.map fun h => byte (s.head h).state.code) ++
    allHeads.flatMap fun h => cursorField (s.head h).cursor

/-- The part of Read Status of the Head Lanes (R115, R187). -/
def laneStatus (s : State) : List Byte :=
  (allHeads.map fun h => byte (s.lane h).state.code) ++ (allHeads.map fun h => byte (gradeCode (s.lane h).grade)) ++
    (allHeads.map fun h => byte (bandCode (s.lane h).band)) ++
    (allHeads.map fun h => byte (firstIf (s.lane h).hold.seen)) ++
    allHeads.map fun h => byte (firstIf (s.lane h).fault.seen)

/-- The part of Read Status of the Table Banks (R141, R187). -/
def bankStatus (b : Banks) : List Byte :=
  [byte (bankStateCode (b.stateOf 0)), byte (bankStateCode (b.stateOf 1)), byte (b.bound 0), byte (b.bound 1)]

/-- The part of Read Status of the Notice Unit (R175, R187). -/
def noticeStatus (s : State) : List Byte :=
  flagsField s ++ [byte s.notices.queue.length, byte s.notices.lost, byte (firstIf s.notices.batchWaiting)]

/-- The payload of Read Status (R187, log 26). -/
def statusPayload (s : State) : List Byte :=
  ptuStatus s.ptu ++ [byte s.trig.state.code] ++ jobStatus s.jobs ++ storeStatus s ++ headStatus s ++ laneStatus s ++
    bankStatus s.banks ++ noticeStatus s

/-- Read Status (R187). -/
def cmdReadStatus (s : State) : Reply := Reply.ok (statusPayload s) s

end Sys2Proof.Machine
end

