-- ==== Sys2Proof/Machine/Control.lean ====
section
/-!
DEFINITION. The Control Unit (R158 to R160, R173): taking the oldest frame of the inbound control queue, executing it
and placing its answer.
-/

namespace Sys2Proof.Machine

/-- Reload Config (R173): the loading it starts follows its answer. -/
def cmdReloadConfig (s : State) : Reply :=
  if !s.jobs.records.isEmpty then Reply.refuse .busy s
  else if s.banks.other ≠ .shadow then Reply.refuse .busy s
  else { state := s, result := .ok, payload := [], reloads := true }

/-- A command code that names no command, or a body that does not fit it (R160). -/
def cmdUnknown (s : State) : Reply := Reply.refuse .malformed s

/-- A request executed by the block that owns it (R160). -/
def runRequest (r : Request) (s : State) : Reply :=
  match r with
  | .job f => cmdJob f s
  | .setPosition a => cmdSetPosition a s
  | .positionOn => cmdPositionOn s
  | .positionOff => cmdPositionOff s
  | .printOn => cmdPrintOn s
  | .printOff => cmdPrintOff s
  | .abortJob id => cmdAbortJob id s
  | .queryJob id => cmdQueryJob id s
  | .setTrigger a => cmdSetTrigger a s
  | .softTrigger => cmdSoftTrigger s
  | .setPlane a => cmdSetPlane a s
  | .streamReset => cmdStreamReset s
  | .headOn n => cmdHeadOn n s
  | .headOff n => cmdHeadOff n s
  | .setLane a => cmdSetLane a s
  | .laneUp n => cmdLaneUp n s
  | .laneDown n => cmdLaneDown n s
  | .laneResume n => cmdLaneResume n s
  | .writeTable a => cmdWriteTable a s
  | .readTable a => cmdReadTable a s
  | .commitBank => cmdCommitBank s
  | .setNotices a => cmdSetNotices a s
  | .clearConditions a => cmdClearConditions a s
  | .readStatus => cmdReadStatus s
  | .readCounters g => cmdReadCounters g s
  | .clearCounters g => cmdClearCounters g s
  | .reloadConfig => cmdReloadConfig s
  | .unknown _ => cmdUnknown s

/-- The answer to a frame (R160). -/
def Frame.answer (f : Frame) (r : ResultCode) (payload : List Byte) : Answer :=
  { tag := f.tag, code := f.code, result := r, payload := payload }

/-- A frame taken, with the queue's rest, executed by a command and answered (R159, R160). While the loader runs it is
answered NOT_READY. -/
def takeFrame (f : Frame) (rest : List Frame) (cmd : State → Reply) (s : State) : State :=
  let s := s.setLink { s.link with inbound := rest }
  if s.loading then placeAnswer (f.answer .notReady []) s
  else
    let r := cmd s
    let s := placeAnswer (f.answer r.result r.payload) r.state
    if r.reloads then startLoading .reload s else s

/-- The frame that the Control Unit may take, with the rest of the queue (R159). -/
def State.takeable (s : State) : Option (Frame × List Frame) :=
  match s.link.inbound with
  | [] => none
  | f :: rest => if s.link.answers.length < Config.answerQueueMax then some (f, rest) else none

/-- The take of a frame of a given tag and request: it is made when that is the frame to be taken, and otherwise the
command is void (log 5). -/
def takeWith (tag : Byte) (r : Request) (cmd : State → Reply) (s : State) : State :=
  match s.takeable with
  | none => s
  | some (f, rest) => if f.tag = tag ∧ f.request = r then takeFrame f rest cmd s else s

/-- The oldest frame taken, if one can be (R159). -/
def takeOldest (s : State) : State :=
  match s.takeable with
  | none => s
  | some (f, rest) => takeFrame f rest (runRequest f.request) s

end Sys2Proof.Machine
end

