-- ==== Sys2Proof/Machine/Commands.lean ====
section
/-!
DEFINITION. The meanings of the frames that the Control Unit takes: each executes when the oldest frame of the inbound
control queue is the one of its tag and its request, with room for its answer, and is otherwise void (R159, R160,
log 5).
-/

namespace Sys2Proof.Machine

/-- JOB_FRAME (R28, R29, R160). -/
def execJobFrame (tag : Byte) (fields : Option JobFields) (s : State) : Host.Outcome State Fault Refusal :=
  .next (takeWith tag (.job fields) (cmdJob fields) s)

/-- SET_POSITION (R20). -/
def execSetPosition (tag : Byte) (a : PositionArgs) (s : State) : Host.Outcome State Fault Refusal :=
  .next (takeWith tag (.setPosition a) (cmdSetPosition a) s)

/-- POSITION_ON (R21). -/
def execPositionOn (tag : Byte) (s : State) : Host.Outcome State Fault Refusal :=
  .next (takeWith tag .positionOn cmdPositionOn s)

/-- POSITION_OFF (R22). -/
def execPositionOff (tag : Byte) (s : State) : Host.Outcome State Fault Refusal :=
  .next (takeWith tag .positionOff cmdPositionOff s)

/-- PRINT_ON (R30). -/
def execPrintOn (tag : Byte) (s : State) : Host.Outcome State Fault Refusal :=
  .next (takeWith tag .printOn cmdPrintOn s)

/-- PRINT_OFF (R30). -/
def execPrintOff (tag : Byte) (s : State) : Host.Outcome State Fault Refusal :=
  .next (takeWith tag .printOff cmdPrintOff s)

/-- ABORT_JOB (R39, R40). -/
def execAbortJob (tag : Byte) (id : Nat) (s : State) : Host.Outcome State Fault Refusal :=
  .next (takeWith tag (.abortJob id) (cmdAbortJob id) s)

/-- QUERY_JOB (R41). -/
def execQueryJob (tag : Byte) (id : Nat) (s : State) : Host.Outcome State Fault Refusal :=
  .next (takeWith tag (.queryJob id) (cmdQueryJob id) s)

/-- SET_TRIGGER (R45). -/
def execSetTrigger (tag : Byte) (a : TriggerArgs) (s : State) : Host.Outcome State Fault Refusal :=
  .next (takeWith tag (.setTrigger a) (cmdSetTrigger a) s)

/-- SOFT_TRIGGER (R46). -/
def execSoftTrigger (tag : Byte) (s : State) : Host.Outcome State Fault Refusal :=
  .next (takeWith tag .softTrigger cmdSoftTrigger s)

/-- SET_PLANE (R50 to R53). -/
def execSetPlane (tag : Byte) (a : PlaneArgs) (s : State) : Host.Outcome State Fault Refusal :=
  .next (takeWith tag (.setPlane a) (cmdSetPlane a) s)

/-- STREAM_RESET (R69). -/
def execStreamReset (tag : Byte) (s : State) : Host.Outcome State Fault Refusal :=
  .next (takeWith tag .streamReset cmdStreamReset s)

/-- HEAD_ON (R88). -/
def execHeadOn (tag : Byte) (n : Nat) (s : State) : Host.Outcome State Fault Refusal :=
  .next (takeWith tag (.headOn n) (cmdHeadOn n) s)

/-- HEAD_OFF (R89). -/
def execHeadOff (tag : Byte) (n : Nat) (s : State) : Host.Outcome State Fault Refusal :=
  .next (takeWith tag (.headOff n) (cmdHeadOff n) s)

/-- SET_LANE (R131). -/
def execSetLane (tag : Byte) (a : LaneArgs) (s : State) : Host.Outcome State Fault Refusal :=
  .next (takeWith tag (.setLane a) (cmdSetLane a) s)

/-- LANE_UP (R119). -/
def execLaneUp (tag : Byte) (n : Nat) (s : State) : Host.Outcome State Fault Refusal :=
  .next (takeWith tag (.laneUp n) (cmdLaneUp n) s)

/-- LANE_DOWN (R124). -/
def execLaneDown (tag : Byte) (n : Nat) (s : State) : Host.Outcome State Fault Refusal :=
  .next (takeWith tag (.laneDown n) (cmdLaneDown n) s)

/-- LANE_RESUME (R129). -/
def execLaneResume (tag : Byte) (n : Nat) (s : State) : Host.Outcome State Fault Refusal :=
  .next (takeWith tag (.laneResume n) (cmdLaneResume n) s)

/-- WRITE_TABLE (R143 to R145). -/
def execWriteTable (tag : Byte) (a : Option WriteArgs) (s : State) : Host.Outcome State Fault Refusal :=
  .next (takeWith tag (.writeTable a) (cmdWriteTable a) s)

/-- READ_TABLE (R146). -/
def execReadTable (tag : Byte) (a : Option ReadArgs) (s : State) : Host.Outcome State Fault Refusal :=
  .next (takeWith tag (.readTable a) (cmdReadTable a) s)

/-- COMMIT_BANK (R147 to R149). -/
def execCommitBank (tag : Byte) (s : State) : Host.Outcome State Fault Refusal :=
  .next (takeWith tag .commitBank cmdCommitBank s)

/-- SET_NOTICES (R184). -/
def execSetNotices (tag : Byte) (a : NoticesArgs) (s : State) : Host.Outcome State Fault Refusal :=
  .next (takeWith tag (.setNotices a) (cmdSetNotices a) s)

/-- CLEAR_CONDITIONS (R180). -/
def execClearConditions (tag : Byte) (a : FlagArgs) (s : State) : Host.Outcome State Fault Refusal :=
  .next (takeWith tag (.clearConditions a) (cmdClearConditions a) s)

/-- READ_STATUS (R187). -/
def execReadStatus (tag : Byte) (s : State) : Host.Outcome State Fault Refusal :=
  .next (takeWith tag .readStatus cmdReadStatus s)

/-- READ_COUNTERS (R186). -/
def execReadCounters (tag : Byte) (g : Nat) (s : State) : Host.Outcome State Fault Refusal :=
  .next (takeWith tag (.readCounters g) (cmdReadCounters g) s)

/-- CLEAR_COUNTERS (R186). -/
def execClearCounters (tag : Byte) (g : Nat) (s : State) : Host.Outcome State Fault Refusal :=
  .next (takeWith tag (.clearCounters g) (cmdClearCounters g) s)

/-- RELOAD_CONFIG (R173). -/
def execReloadConfig (tag : Byte) (s : State) : Host.Outcome State Fault Refusal :=
  .next (takeWith tag .reloadConfig cmdReloadConfig s)

/-- UNKNOWN_COMMAND (R160). -/
def execUnknownCommand (tag : Byte) (code : Nat) (s : State) : Host.Outcome State Fault Refusal :=
  .next (takeWith tag (.unknown code) cmdUnknown s)

end Sys2Proof.Machine
end

