-- ==== Sys2Proof/Machine/Tick.lean ====
section
/-!
DEFINITION. The events of the part that happen in time, each made when it is due and without effect when it is not
(log 3), and the tick of the timebase that settles them (R2, R7, log 2).
-/

namespace Sys2Proof.Machine

/-! ## Events when due -/

/-- ADVANCE: the new position presented, where it has increased since it was last presented (R9, log 10). -/
def advanceEvent (s : State) : State :=
  if s.ptu.state ≠ .off ∧ s.ptu.presented < s.position then presentAdvance s else s

/-- The encoder levels taken by the filters and not yet ruled on (R3). -/
def encoderEvent (s : State) : State :=
  if s.ptu.encA.settled && s.ptu.encB.settled then s else decodePair (s.ptu.encA.taken, s.ptu.encB.taken) s

/-- The stall expiry (R18). -/
def stallEvent (s : State) : State := if s.ptu.stallDue then stallExpire s else s

/-- A trigger level taken by the filter and not yet ruled on (R42). -/
def triggerEvent (s : State) : State := if s.trig.input.settled then s else triggerLevel s.trig.input.taken s

/-- min_on elapsing in CANDIDATE (R43). -/
def minOnEvent (s : State) : State := if s.minOnDue then qualify s else s

/-- The dropout timer's expiry (R43). -/
def dropoutEvent (s : State) : State := if s.dropoutDue then dropoutExpire s else s

/-- The min_off timer's expiry (R43). -/
def minOffEvent (s : State) : State := if s.minOffDue then minOffExpire s else s

/-- The end of a fire record's transmission (R79, R117). -/
def fireSentEvent (h : Head) (s : State) : State :=
  match (s.lane h).sent with
  | some (.fire _) => fireSent h s
  | some .capsQuery | some (.train _) | none => s

/-- The end of a caps query's transmission (R119). -/
def capsSentEvent (h : Head) (s : State) : State :=
  match (s.lane h).sent with
  | some .capsQuery => capsSent h s
  | some (.fire _) | some (.train _) | none => s

/-- The end of a train record's transmission (R121). -/
def trainSentEvent (h : Head) (s : State) : State :=
  match (s.lane h).sent with
  | some (.train _) => trainSent h s
  | some (.fire _) | some .capsQuery | none => s

/-- The negotiation timer's expiry (R119). -/
def negotiationEvent (h : Head) (s : State) : State :=
  if (s.lane h).negotiationDue then failDown h .noBoard s else s

/-- The echo timer's expiry (R121). -/
def echoEvent (h : Head) (s : State) : State := if (s.lane h).echoDue then gradeFails h s else s

/-- The status timer's expiry (R134). -/
def statusEvent (h : Head) (s : State) : State := if (s.lane h).statusDue then statusExpire h s else s

/-- The end of the FIRE pulse (R130). -/
def pulseEvent (h : Head) (s : State) : State :=
  if (s.lane h).pulseDue then changeLane h (fun l => { l with fire := .low }) s else s

/-- The HOLD and FAULT levels taken by the filters and not yet ruled on (R125). -/
def holdEvent (h : Head) (s : State) : State :=
  if (s.lane h).hold.settled then s else holdLevel h (s.lane h).hold.taken s
def faultEvent (h : Head) (s : State) : State :=
  if (s.lane h).fault.settled then s else faultLevel h (s.lane h).fault.taken s

/-- Whether the copy has run its time (R151). -/
def Banks.copyDue (b : Banks) : Bool :=
  match b.other with
  | .copying e => decide (Config.copyTicks ≤ e)
  | .shadow | .draining => false

/-- The completion of a copy (R151). -/
def copyEvent (s : State) : State :=
  if s.banks.copyDue then submit (.bankReady s.banks.otherId) (s.setBanks (finishCopy s.banks)) else s

/-- The loader's deadline (R170). -/
def deadlineEvent (s : State) : State :=
  if s.loaderDue Config.loaderDeadline then completeLoading (.error .badCheck) s else s

/-- The idle timer's expiry (R183). -/
def idleEvent (s : State) : State := if s.notices.idleDue then idleExpire s else s

/-! ## The tick -/

/-- A lane's events still due, in a fixed order (log 2). -/
def settleLane (h : Head) (s : State) : State :=
  pulseEvent h (statusEvent h (echoEvent h (negotiationEvent h (trainSentEvent h (capsSentEvent h (fireSentEvent h
    (faultEvent h (holdEvent h s))))))))

/-- The events still due from the tick that is ending, in a fixed order (log 2). -/
def settle (s : State) : State :=
  let s := encoderEvent (advanceEvent s)
  let s := minOffEvent (dropoutEvent (minOnEvent (triggerEvent (stallEvent s))))
  let s := forEach allHeads settleLane s
  let s := idleEvent (deadlineEvent (copyEvent s))
  forEach s.link.inbound (fun _ s => takeOldest s) s

/-- The PTU at a tick: S advances by V, the stall timer counts, the encoder inputs are sampled (R2, R7, R18). -/
def Ptu.tick (u : Ptu) (a b : Bool) : Ptu :=
  { u with
    s := min Config.sMax (u.s + u.v)
    stall := u.stall.map fun e => e + 1
    encA := u.encA.sample u.params.encFilter a
    encB := u.encB.sample u.params.encFilter b }

/-- FIRE at a tick: a pulse counts down, and one held low for a tick begins (R130). -/
def Lane.fireTick (l : Lane) : FireLine :=
  match l.fire with
  | .low => .low
  | .gap => .high (pulseTicks l.settings.pulse)
  | .high n => .high (n - 1)

/-- A lane at a tick: its transmission and pulse count down, its timers count, its sidebands are sampled (R116, R119,
R121, R125, R130, R134). -/
def Lane.tick (l : Lane) (hold fault : Bool) : Lane :=
  { l with
    tx := l.tx.map fun t => { t with remaining := t.remaining - 1 }
    fire := l.fireTick
    status := l.status.map fun e => e + 1
    timer := l.timer.map fun e => e + 1
    hold := l.hold.sample l.settings.filter hold
    fault := l.fault.sample l.settings.filter fault }

/-- The time of a copy counted (R151). -/
def Banks.tick (b : Banks) : Banks :=
  { b with other := match b.other with
      | .copying e => .copying (e + 1)
      | .shadow => .shadow
      | .draining => .draining }

/-- The time of loading counted (R170). -/
def Loader.tick (l : Loader) : Loader :=
  match l with
  | .idle => .idle
  | .loading c e => .loading c (e + 1)

/-- One tick of the timebase: time, S, the timers and the input filters (R2, R7). -/
def tickAll (l : Levels) (s : State) : State :=
  { s with
    now := s.now + 1
    ptu := s.ptu.tick l.encA l.encB
    trig := { s.trig with input := s.trig.input.sample Config.triggerFilter l.trigger }
    lanes := mapAll (fun h x => x.tick (l.hold.get h) (l.fault.get h)) s.lanes
    banks := s.banks.tick
    notices := { s.notices with idleTimer := s.notices.idleTimer.map fun e => e + 1 }
    link := { s.link with loader := s.link.loader.tick } }

end Sys2Proof.Machine
end

