-- ==== Sys2Proof/Machine/Events.lean ====
section
/-!
DEFINITION. The meanings of the events: what reaches the part at its inputs, from its attachments and from its own
timers. An event of the part's own that is not due, or an input event that finds nothing to change, has no effect
(log 3, log 4).
-/

namespace Sys2Proof.Machine

/-! ## Reset and loading -/

/-- POWER_ON_RESET (R170): every block at its power-on values, and loading with cause POWER_ON. -/
def execPowerOnReset (l : Levels) (s : State) : Host.Outcome State Fault Refusal :=
  .next { State.powerOn l with pending := s.pending }

/-- NO_MEMORY_TIMEOUT (R170): the memory gave no response to the first read within 1 ms. -/
def execNoMemoryTimeout (s : State) : Host.Outcome State Fault Refusal :=
  .next (if s.loaderDue Config.noMemoryTicks then completeLoading (.error .noMemory) s else s)

/-- LOADER_DEADLINE_EXPIRY (R170). -/
def execLoaderDeadlineExpiry (s : State) : Host.Outcome State Fault Refusal := .next (deadlineEvent s)

/-- LOADING_COMPLETE (R171), with the bytes the memory gave; without any byte nothing has been read (log 20). -/
def execLoadingComplete (image : List Byte) (s : State) : Host.Outcome State Fault Refusal :=
  .next (if image.isEmpty then s else completeLoading (loadImage image) s)

/-! ## Position -/

/-- FORWARD_COUNT (R3, R15 to R17): the encoder steps to the neighbour that is a forward count. -/
def execForwardCount (s : State) : Host.Outcome State Fault Refusal :=
  .next (decodePair (if s.ptu.params.invert then backwardPair s.ptu.reference else forwardPair s.ptu.reference) s)

/-- BACKWARD_COUNT (R3, R15 to R17): the encoder steps to the neighbour that is a backward count. -/
def execBackwardCount (s : State) : Host.Outcome State Fault Refusal :=
  .next (decodePair (if s.ptu.params.invert then forwardPair s.ptu.reference else backwardPair s.ptu.reference) s)

/-- STALL_EXPIRY (R18). -/
def execStallExpiry (s : State) : Host.Outcome State Fault Refusal := .next (stallEvent s)

/-- ADVANCE (R9, R76). -/
def execAdvance (s : State) : Host.Outcome State Fault Refusal := .next (advanceEvent s)

/-- ENCODER_REFERENCE_UPDATE (R3): the levels of the pair are taken, and the decoder rules on them. -/
def execEncoderReferenceUpdate (a b : Bool) (s : State) : Host.Outcome State Fault Refusal :=
  .next (if (a, b) = s.ptu.reference then s else decodePair (a, b) s)

/-- TICK (R2, R7): the events still due, then one tick of the timebase. -/
def execTick (l : Levels) (s : State) : Host.Outcome State Fault Refusal := .next (tickAll l (settle s))

/-! ## The trigger input -/

/-- TRIGGER_INPUT_ACTIVE (R42, R43): the level that reads as active is taken. -/
def execTriggerInputActive (s : State) : Host.Outcome State Fault Refusal :=
  .next (newTriggerLevel s.trig.nextParams.activeLevel s)

/-- TRIGGER_INPUT_INACTIVE (R42, R43): the other level is taken. -/
def execTriggerInputInactive (s : State) : Host.Outcome State Fault Refusal :=
  .next (newTriggerLevel (!s.trig.nextParams.activeLevel) s)

/-- MIN_ON_ELAPSED (R43). -/
def execMinOnElapsed (s : State) : Host.Outcome State Fault Refusal := .next (minOnEvent s)

/-- DROPOUT_EXPIRY (R43). -/
def execDropoutExpiry (s : State) : Host.Outcome State Fault Refusal := .next (dropoutEvent s)

/-- MIN_OFF_EXPIRY (R43). -/
def execMinOffExpiry (s : State) : Host.Outcome State Fault Refusal := .next (minOffEvent s)

/-! ## The raster link -/

/-- LINE_FRAME (R56, R156, R157). -/
def execLineFrame (d : Delivery) (s : State) : Host.Outcome State Fault Refusal := .next (receive d s)

/-- FRAME_DISCARDED (R156). -/
def execFrameDiscarded (d : Delivery) (s : State) : Host.Outcome State Fault Refusal := .next (receive d s)

/-- CONTROL_FRAME_ARRIVAL (R156 to R158). -/
def execControlFrameArrival (d : Delivery) (s : State) : Host.Outcome State Fault Refusal := .next (receive d s)

/-- LINK_UP (R155, R168). -/
def execLinkUp (s : State) : Host.Outcome State Fault Refusal := .next (if s.link.up then s else linkUp s)

/-- LINK_DOWN (R155, R167). -/
def execLinkDown (s : State) : Host.Outcome State Fault Refusal := .next (if s.link.up then linkDown s else s)

/-- OUTBOUND_COMPLETE (R162, R164, R165). -/
def execOutboundComplete (s : State) : Host.Outcome State Fault Refusal :=
  .next (match s.link.outbound with
    | some o => outboundDone o s
    | none => s)

/-! ## The lanes -/

/-- TRANSMISSION_END (R79, R117). -/
def execTransmissionEnd (h : Head) (s : State) : Host.Outcome State Fault Refusal := .next (fireSentEvent h s)

/-- FIRE_PULSE_END (R130). -/
def execFirePulseEnd (h : Head) (s : State) : Host.Outcome State Fault Refusal := .next (pulseEvent h s)

/-- CAPS_QUERY_SENT (R119). -/
def execCapsQuerySent (h : Head) (s : State) : Host.Outcome State Fault Refusal := .next (capsSentEvent h s)

/-- CAPS_RECORD (R120, R122). -/
def execCapsRecord (h : Head) (d : LaneDelivery) (s : State) : Host.Outcome State Fault Refusal :=
  .next (boardRecord h d s)

/-- NEGOTIATION_TIMEOUT (R119). -/
def execNegotiationTimeout (h : Head) (s : State) : Host.Outcome State Fault Refusal := .next (negotiationEvent h s)

/-- TRAIN_RECORD_SENT (R121). -/
def execTrainRecordSent (h : Head) (s : State) : Host.Outcome State Fault Refusal := .next (trainSentEvent h s)

/-- ECHO_RECORD (R121, R122). -/
def execEchoRecord (h : Head) (d : LaneDelivery) (s : State) : Host.Outcome State Fault Refusal :=
  .next (boardRecord h d s)

/-- ECHO_TIMEOUT (R121). -/
def execEchoTimeout (h : Head) (s : State) : Host.Outcome State Fault Refusal := .next (echoEvent h s)

/-- DAMAGED_LANE_RECORD (R121, R122). -/
def execDamagedLaneRecord (h : Head) (d : LaneDelivery) (s : State) : Host.Outcome State Fault Refusal :=
  .next (boardRecord h d s)

/-- BOARD_STATUS_RECORD (R132). -/
def execBoardStatusRecord (h : Head) (d : LaneDelivery) (s : State) : Host.Outcome State Fault Refusal :=
  .next (boardRecord h d s)

/-- STATUS_TIMEOUT (R134). -/
def execStatusTimeout (h : Head) (s : State) : Host.Outcome State Fault Refusal := .next (statusEvent h s)

/-- HOLD_ACTIVE (R126). -/
def execHoldActive (h : Head) (s : State) : Host.Outcome State Fault Refusal := .next (newHoldLevel h true s)

/-- HOLD_INACTIVE (R126). -/
def execHoldInactive (h : Head) (s : State) : Host.Outcome State Fault Refusal := .next (newHoldLevel h false s)

/-- FAULT_ACTIVE (R127, R128). -/
def execFaultActive (h : Head) (s : State) : Host.Outcome State Fault Refusal := .next (newFaultLevel h true s)

/-- FAULT_INACTIVE (R127, R128). -/
def execFaultInactive (h : Head) (s : State) : Host.Outcome State Fault Refusal := .next (newFaultLevel h false s)

/-! ## Banks and notices -/

/-- COPY_COMPLETE (R151). -/
def execCopyComplete (s : State) : Host.Outcome State Fault Refusal := .next (copyEvent s)

/-- IDLE_TIMER_EXPIRY (R183). -/
def execIdleTimerExpiry (s : State) : Host.Outcome State Fault Refusal := .next (idleEvent s)

end Sys2Proof.Machine
end

