-- ==== Sys2Proof/Machine/Dispatch.lean ====
section
/-! DEFINITION. The dispatch: one arm per command, one call of its meaning per arm. -/

namespace Sys2Proof.Machine

def exec (i : Instr) (s : State) : Host.Outcome State Fault Refusal :=
  match i with
  | .powerOnReset levels => Sys2Proof.Machine.execPowerOnReset levels s
  | .noMemoryTimeout => Sys2Proof.Machine.execNoMemoryTimeout s
  | .loaderDeadlineExpiry => Sys2Proof.Machine.execLoaderDeadlineExpiry s
  | .loadingComplete image => Sys2Proof.Machine.execLoadingComplete image s
  | .forwardCount => Sys2Proof.Machine.execForwardCount s
  | .backwardCount => Sys2Proof.Machine.execBackwardCount s
  | .stallExpiry => Sys2Proof.Machine.execStallExpiry s
  | .advance => Sys2Proof.Machine.execAdvance s
  | .firePulseEnd lane => Sys2Proof.Machine.execFirePulseEnd lane s
  | .transmissionEnd lane => Sys2Proof.Machine.execTransmissionEnd lane s
  | .lineFrame d => Sys2Proof.Machine.execLineFrame d s
  | .frameDiscarded d => Sys2Proof.Machine.execFrameDiscarded d s
  | .controlFrameArrival d => Sys2Proof.Machine.execControlFrameArrival d s
  | .jobFrame tag fields => Sys2Proof.Machine.execJobFrame tag fields s
  | .triggerInputActive => Sys2Proof.Machine.execTriggerInputActive s
  | .triggerInputInactive => Sys2Proof.Machine.execTriggerInputInactive s
  | .minOnElapsed => Sys2Proof.Machine.execMinOnElapsed s
  | .dropoutExpiry => Sys2Proof.Machine.execDropoutExpiry s
  | .minOffExpiry => Sys2Proof.Machine.execMinOffExpiry s
  | .setPosition tag a => Sys2Proof.Machine.execSetPosition tag a s
  | .positionOn tag => Sys2Proof.Machine.execPositionOn tag s
  | .positionOff tag => Sys2Proof.Machine.execPositionOff tag s
  | .printOn tag => Sys2Proof.Machine.execPrintOn tag s
  | .printOff tag => Sys2Proof.Machine.execPrintOff tag s
  | .abortJob tag id => Sys2Proof.Machine.execAbortJob tag id s
  | .queryJob tag id => Sys2Proof.Machine.execQueryJob tag id s
  | .setTrigger tag a => Sys2Proof.Machine.execSetTrigger tag a s
  | .softTrigger tag => Sys2Proof.Machine.execSoftTrigger tag s
  | .setPlane tag a => Sys2Proof.Machine.execSetPlane tag a s
  | .streamReset tag => Sys2Proof.Machine.execStreamReset tag s
  | .headOn tag n => Sys2Proof.Machine.execHeadOn tag n s
  | .headOff tag n => Sys2Proof.Machine.execHeadOff tag n s
  | .setLane tag a => Sys2Proof.Machine.execSetLane tag a s
  | .laneUp tag n => Sys2Proof.Machine.execLaneUp tag n s
  | .laneDown tag n => Sys2Proof.Machine.execLaneDown tag n s
  | .laneResume tag n => Sys2Proof.Machine.execLaneResume tag n s
  | .writeTable tag a => Sys2Proof.Machine.execWriteTable tag a s
  | .readTable tag a => Sys2Proof.Machine.execReadTable tag a s
  | .commitBank tag => Sys2Proof.Machine.execCommitBank tag s
  | .setNotices tag a => Sys2Proof.Machine.execSetNotices tag a s
  | .clearConditions tag a => Sys2Proof.Machine.execClearConditions tag a s
  | .readStatus tag => Sys2Proof.Machine.execReadStatus tag s
  | .readCounters tag group => Sys2Proof.Machine.execReadCounters tag group s
  | .clearCounters tag group => Sys2Proof.Machine.execClearCounters tag group s
  | .reloadConfig tag => Sys2Proof.Machine.execReloadConfig tag s
  | .unknownCommand tag code => Sys2Proof.Machine.execUnknownCommand tag code s
  | .capsQuerySent lane => Sys2Proof.Machine.execCapsQuerySent lane s
  | .capsRecord lane d => Sys2Proof.Machine.execCapsRecord lane d s
  | .negotiationTimeout lane => Sys2Proof.Machine.execNegotiationTimeout lane s
  | .trainRecordSent lane => Sys2Proof.Machine.execTrainRecordSent lane s
  | .echoRecord lane d => Sys2Proof.Machine.execEchoRecord lane d s
  | .echoTimeout lane => Sys2Proof.Machine.execEchoTimeout lane s
  | .damagedLaneRecord lane d => Sys2Proof.Machine.execDamagedLaneRecord lane d s
  | .boardStatusRecord lane d => Sys2Proof.Machine.execBoardStatusRecord lane d s
  | .statusTimeout lane => Sys2Proof.Machine.execStatusTimeout lane s
  | .holdActive lane => Sys2Proof.Machine.execHoldActive lane s
  | .holdInactive lane => Sys2Proof.Machine.execHoldInactive lane s
  | .faultActive lane => Sys2Proof.Machine.execFaultActive lane s
  | .faultInactive lane => Sys2Proof.Machine.execFaultInactive lane s
  | .copyComplete => Sys2Proof.Machine.execCopyComplete s
  | .linkUp => Sys2Proof.Machine.execLinkUp s
  | .linkDown => Sys2Proof.Machine.execLinkDown s
  | .outboundComplete => Sys2Proof.Machine.execOutboundComplete s
  | .idleTimerExpiry => Sys2Proof.Machine.execIdleTimerExpiry s
  | .tick levels => Sys2Proof.Machine.execTick levels s
  | .encoderReferenceUpdate a b => Sys2Proof.Machine.execEncoderReferenceUpdate a b s

end Sys2Proof.Machine
end

