-- ==== Sys2Proof/Safety.lean ====
section
/-!
DEFINITION. What a safe step is, and the laws that the manual gives the state of each block, as predicates on that
state: the claims and the invariant are stated in these terms. `State.Inv` joins them.
-/

namespace Sys2Proof.Machine

/-- A safe step: the part answers a next state. -/
def Safe (s : State) : Prop := ∃ t, step s = .next t

/-! ## Position Tracking Unit -/

/-- The ranges of the ten parameters (R20). -/
structure PtuParams.Wf (q : PtuParams) : Prop where
  ratio : 256 ≤ q.lineRatio ∧ q.lineRatio ≤ 4194304
  exponent : q.avgExp ≤ 5
  filter : q.encFilter ∈ [0, 2, 4, 8, 16]
  gains : q.kp ≤ 65535 ∧ q.ki ≤ 65535
  ilim : q.ilim ≤ 2 ^ 31 - 1
  vmax : 1 ≤ q.vmax ∧ q.vmax ≤ 2 ^ 32 - 1
  slip : 65536 ≤ q.slip ∧ q.slip ≤ 16777216
  stall : 25000 ≤ q.stallTimeout ∧ q.stallTimeout ≤ 16777215

/-- The ranges of R1, the law of R13, and what each state implies of V, the stall timer and the history (R5, R7,
R14 to R18). -/
structure Ptu.Wf (u : Ptu) : Prop where
  params : u.params.Wf
  measured : Config.mMin ≤ u.m ∧ u.m ≤ Config.mMax
  position : u.s ≤ Config.sMax
  velocity : u.v ≤ u.params.vmax
  integrator : -(u.params.ilim : Int) ≤ u.i ∧ u.i ≤ u.params.ilim
  feedForward : u.vff ≤ 2 ^ 38
  periods : ∀ p ∈ u.history, 1 ≤ p ∧ p ≤ Config.periodMax
  still : u.state ≠ .tracking → u.v = 0
  timer : u.stall.isSome = true ↔ u.state = .acquiring ∨ u.state = .tracking
  untimed : u.state = .stopped ∨ u.state = .holding → u.history = [] ∧ u.mark = none
  filling : u.state = .acquiring → u.history.length < 2 ^ u.params.avgExp ∧ (u.mark = none → u.history = [])
  filled : u.state = .tracking → u.mark.isSome = true ∧ u.history.length = 2 ^ u.params.avgExp
  presented : u.presented ≤ u.s / 2 ^ 24
  filters : u.encA.progress ≤ u.params.encFilter ∧ u.encB.progress ≤ u.params.encFilter

/-! ## Trigger Qualifier -/

/-- The ranges of the four parameters (R42). -/
structure TrigParams.Wf (q : TrigParams) : Prop where
  minOn : 1 ≤ q.minOn ∧ q.minOn ≤ 65535
  dropout : q.dropout ≤ 65535
  minOff : q.minOff ≤ 65535

/-- The items of R42 that each state of R43 holds: P and t0 outside IDLE, and the timer that runs. -/
structure Qualifier.Wf (t : Qualifier) : Prop where
  params : t.params.Wf
  newParams : ∀ q, t.newParams = some q → q.Wf
  capture : t.p.isSome = true ↔ t.state ≠ .idle
  start : t.t0.isSome = true ↔ t.state ≠ .idle
  timer : t.timer.map Prod.fst = match t.state with
    | .dropout => some .dropout
    | .releasing => some .minOff
    | .idle | .candidate | .qualified => none
  filter : t.input.progress ≤ Config.triggerFilter

/-! ## Job Queue -/

/-- The fields of a record within their ranges (R25), its ranges of lines below the next-line counters (R27). -/
structure JobRec.Wf (next : Vector Nat 4) (r : JobRec) : Prop where
  length : 1 ≤ r.length ∧ r.length ≤ Config.maxLength
  planes : r.planes ≠ [] ∧ (r.planes.map JobPlane.plane).Nodup
  delay : r.delay ≤ Config.maxDelay
  gap : r.gap ≤ 65535
  below : ∀ x ∈ r.planes, x.first + r.length ≤ next.get x.plane

/-- Two records, the first accepted before the second: the ACTIVE ones come first (R26), and no line of a plane
belongs to both (R27). -/
def JobRec.Before (a b : JobRec) : Prop :=
  (a.active = none → b.active = none) ∧
    ∀ x ∈ a.planes, ∀ y ∈ b.planes, x.plane = y.plane → x.first + a.length ≤ y.first

/-- The law of R28, the order of R26, and the ranges of R25 and R27. -/
structure JobQueue.Wf (q : JobQueue) : Prop where
  size : q.records.length ≤ Config.maxJobs
  ids : (q.records.map JobRec.id).Nodup
  records : ∀ r ∈ q.records, r.Wf q.next
  order : q.records.Pairwise JobRec.Before
  counters : ∀ p, q.next.get p ≤ Config.lineLimit

/-! ## Line Store -/

/-- The law of R55 with the ranges of R49 and R54, for a plane whose next-line counter is `next`: every slot that is
not as fresh lies in the window and below the counter, and the data of a READY slot has W_p pixels. -/
structure PlaneStore.Wf (next : Nat) (x : PlaneStore) : Prop where
  canonical : sparseWf Slot.fresh x.slots
  width : x.width % 64 = 0 ∧ x.width ≤ 16384
  depth : 16 ≤ x.depth ∧ x.depth ≤ 16384
  watermarks : 1 ≤ x.low ∧ x.low < x.high ∧ x.high ≤ x.depth
  base : x.base ≤ next
  window : ∀ e ∈ x.slots, x.base ≤ e.1 ∧ e.1 < x.base + x.depth ∧ e.1 < next
  pixels : ∀ e ∈ x.slots, ∀ px, e.2.state = .ready px → px.length = x.width

/-! ## Head Scheduler -/

/-- The cursor and the transmission in flight agree with the head line state (R71, R72). -/
structure HeadRec.Wf (x : HeadRec) : Prop where
  cursor : x.cursor.isSome = true ↔ x.state ≠ .idle
  flight : match x.state with
    | .idle => ∀ f, x.inFlight = some f → f.fate = .discard
    | .loading => ∃ c, x.cursor = some c ∧ x.inFlight = some { line := c, fate := .keep }
    | .discarding => ∃ c, x.inFlight = some { line := c, fate := .discard }
    | .waitingLine | .loaded | .void => x.inFlight = none

/-! ## Head Lanes -/

/-- The ranges of the settings (R131). -/
structure LaneSettings.Wf (q : LaneSettings) : Prop where
  pulse : 1 ≤ q.pulse ∧ q.pulse ≤ 16
  filter : q.filter ∈ [0, 4, 8, 16]
  degrade : q.degrade ≤ 255
  timeout : 1 ≤ q.timeout ∧ q.timeout ≤ 255
  hyst : q.hyst ≤ 7

/-- The items of R115 that each lane state holds. -/
structure Lane.Wf (l : Lane) : Prop where
  settings : l.settings.Wf
  grade : l.grade.isSome = true ↔ l.state = .training ∨ l.state = .up ∨ l.state = .faulted
  gradeSet : l.state = .training ∨ l.state = .up ∨ l.state = .faulted → l.gradeSet.isSome = true
  trial : match l.trial with
    | some t => l.state = .training ∧ t.head? = l.grade
    | none => l.state ≠ .training
  progress : match l.progress with
    | some n => l.state = .training ∧ n ≤ 3
    | none => l.state ≠ .training
  band : ∀ i, l.band = some i → i ≤ 3
  badCount : ∀ n, l.badCount = some n → n ≤ 65535
  faultCode : ∀ n, l.faultCode = some n → n ≤ 15
  downshift : l.downshift = true → l.state = .up ∧ l.settings.autoDown = true
  status : l.status.isSome = true → l.state = .up
  timer : l.timer.isSome = true → l.state = .negotiating ∨ l.state = .training
  waiting : l.waiting.isSome = true → l.tx.isSome = true
  pulse : ∀ n, l.fire = .high n → n ≤ 200
  filters : l.hold.progress ≤ l.settings.filter ∧ l.fault.progress ≤ l.settings.filter

/-! ## Table Banks -/

/-- A head's tables: the nozzle map in canonical form and within its entries, the nozzle count (R95, R96), one to four
bands of which the last has bound 255 (R98). -/
structure HeadTables.Wf (t : HeadTables) : Prop where
  map : sparseWf .off t.map ∧ ∀ e ∈ t.map, e.1 < Config.mapEntries
  nozzles : 64 ≤ t.nozzles ∧ t.nozzles ≤ 2048 ∧ t.nozzles % 64 = 0
  bands : t.bands.length ≤ 4 ∧ (t.bands.getLast?.map Band.bound) = some 255
  waveforms : ∀ b ∈ t.bands, b.waveform ≤ 15

/-- The jobs of a list that are ACTIVE and bound to a bank. -/
def boundTo (l : List JobRec) (i : BankId) : Nat :=
  (l.filter fun r => match r.active with
    | some a => a.bank == i
    | none => false).length

/-- The tables within their ranges, the bound counts of R142, and the law of R141: a bank that is neither ACTIVE nor
DRAINING has no job bound to it. -/
structure Banks.Wf (records : List JobRec) (b : Banks) : Prop where
  tables : ∀ i h, ((b.tables i).head h).Wf
  bound : ∀ i, b.bound i = boundTo records i
  law : match b.other with
    | .draining => 0 < b.bound b.otherId
    | .shadow | .copying _ => b.bound b.otherId = 0

/-! ## Notice Unit -/

/-- The law of R181, the ranges of R175 and R185, and the releases and the idle timer of R182 and R183. -/
structure NoticeUnit.Wf (u : NoticeUnit) : Prop where
  queue : u.queue.length ≤ Config.noticeQueueMax
  lost : u.lost ≤ Config.lostMax ∧ ∀ e ∈ u.queue, ∀ n, e.lost = some n → 1 ≤ n ∧ n ≤ Config.lostMax
  level : u.level ∈ [1, 4, 8, 16]
  idle : u.idle ≤ 255
  idleTimer : u.idleTimer.isSome = true → u.queue ≠ [] ∧ u.idle ≠ 0
  released : u.batchWaiting = false → u.releaseDue = false ∧ u.queue.length < u.level
  releaseDue : u.releaseDue = true → u.queue ≠ []
  counters : ∀ i, u.counters.get i ≤ Config.counterMax

/-! ## Link Port and Control Unit -/

/-- The capacities of R154, a batch of R182, and the arbiter of R162 to R165: what is being sent is still held, and
nothing waits while the link is UP and idle. -/
structure LinkPort.Wf (k : LinkPort) : Prop where
  inbound : k.inbound.length ≤ Config.controlQueueMax
  answers : k.answers.length ≤ Config.answerQueueMax
  batch : ∀ b, k.batch = some b → 1 ≤ b.length ∧ b.length ≤ Config.batchMax
  sending : ∀ o, k.outbound = some o → k.up = true ∧
    (o.kind = .answer → k.answers ≠ []) ∧ (o.kind = .notice → k.batch.isSome = true)
  busy : k.up = true → k.outbound = none → k.flowPending = false ∧ k.answers = [] ∧ k.batch = none

/-! ## The part -/

/-- The invariant of the part. While the loader runs, the PTU is OFF (R14), the job queue is empty and the bank that is
not ACTIVE is SHADOW (R173). -/
structure State.Inv (s : State) : Prop where
  ptu : s.ptu.Wf
  trig : s.trig.Wf
  jobs : s.jobs.Wf
  store : ∀ p, (s.plane p).Wf (s.jobs.next.get p)
  depths : depthSum s.store ≤ Config.storeDepth
  heads : ∀ h, (s.head h).Wf
  lanes : ∀ h, (s.lane h).Wf
  banks : s.banks.Wf s.jobs.records
  notices : s.notices.Wf
  link : s.link.Wf
  batch : s.notices.batchWaiting = s.link.batch.isSome
  loading : s.loading = true → s.ptu.state = .off ∧ s.jobs.records = [] ∧ s.banks.other = .shadow

/-! ## Terms of the claims -/

/-- The Control Unit may take frame f, the oldest of the inbound control queue with `rest` behind it: an answer has
room, the loader is IDLE, and the frame carries a tag and a request (R159, R160). -/
structure Taking (s : State) (tag : Byte) (r : Request) (f : Frame) (rest : List Frame) : Prop where
  queue : s.link.inbound = f :: rest
  room : s.link.answers.length < Config.answerQueueMax
  tag : f.tag = tag
  request : f.request = r
  loader : s.link.loader = .idle

/-- The state with the frame taken from the inbound control queue (R159). -/
def State.took (s : State) (rest : List Frame) : State := s.setLink { s.link with inbound := rest }

/-- The state with the answer to a frame placed in the answer queue, which the arbiter may then choose (R160, R162). -/
def answered (f : Frame) (r : ResultCode) (payload : List Byte) (s : State) : State :=
  placeAnswer { tag := f.tag, code := f.code, result := r, payload := payload } s

/-- The PTU with its reference pair moved by the encoder step that counts forward, or backward, under direction
invert (R3). -/
def Ptu.stepped (u : Ptu) (forward : Bool) : Ptu :=
  let p := if u.params.invert = forward then backwardPair u.reference else forwardPair u.reference
  { u with encA := u.encA.take p.1, encB := u.encB.take p.2 }

/-- A head's record when its lane has left UP (R80), where no due follows at once. -/
def HeadRec.leftUp (x : HeadRec) : HeadRec :=
  match x.state with
  | .loading => { x with state := .void, inFlight := none }
  | .loaded => { x with state := .void }
  | .discarding => { x with state := .waitingLine, inFlight := none }
  | .idle => { x with inFlight := none }
  | .waitingLine | .void => x

/-- A head in DISCARDING has a cursor line whose due is not reached yet. -/
def State.DueAhead (s : State) (h : Head) : Prop :=
  (s.head h).state = .discarding → ∃ c, (s.head h).cursor = some c ∧
    ∀ v, s.jobView h c.job = some v → s.ptu.s / 2 ^ 24 < v.due h c.index

/-- A head that starts no preload, whatever its lane reports: it does not wait, or its cursor line is not READY
(R77). -/
def State.NothingToLoad (s : State) (h : Head) : Prop :=
  (s.head h).state = .waitingLine → ∀ c, (s.head h).cursor = some c → s.cursorData h c = none

/-- State t has, of state s, the preload of a waiting head's cursor line started over a lane that stood as `l` (R62,
R78, R111, R116): the line is rendered with the lane's band and taken, and its fire record is sent, or waits where the
lane still sends a train record (log 42). -/
structure State.Preloads (s t : State) (h : Head) (l : Lane) (c : Cursor) (v : JobView) (px : List Dot) : Prop where
  head : t.head h = { s.head h with state := .loading, inFlight := some ⟨c, .keep⟩ }
  lane : t.lane h = l.send (.fire (fireRecord h v c.index px l.band))
  line : t.store = (takeLine h v.plane (v.line c.index) true s).store

/-- State t is what state s becomes when head h meets the due of its cursor line c with an outcome o that is not FIRED, and
the head's next line, of the same job, is not yet due (R37, R74, R75, R82, R84): the outcome is counted, submits SHORTFALL
and adds to the job's shortfall total; the line is taken where the head had not rendered it; a transmission in flight
becomes DISCARD and the head comes to its next line in DISCARDING, and else it waits there or starts its preload. -/
def State.Misses (s t : State) (h : Head) (c : Cursor) (v : JobView) (o : DueOutcome) : Prop :=
  let x := s.head h
  let counted := submitCondition (.shortfall h) (.shortfall h o c.job c.index) (bump (.head o.counter h) s)
  let taken := if x.state = .waitingLine ∨ x.state = .discarding then
    takeLine h v.plane (v.first + c.index) false counted else counted
  let reported := taken.setJobs { s.jobs with records := s.jobs.records.map fun r => if r.id = c.job then
    { r with active := r.active.map fun a => { a with shortfall := a.shortfall + 1 } } else r }
  let c' : Cursor := { c with index := c.index + 1 }
  let waits := reported.setHead h { x with cursor := some c', state := .waitingLine }
  (∀ z, x.inFlight = some z → t = reported.setHead h
    { x with cursor := some c', state := .discarding, inFlight := some { z with fate := .discard } }) ∧
  (x.inFlight = none →
    ((s.lane h).state ≠ .up ∨ (s.lane h).hold.seen = true ∨ waits.cursorData h c' = none → t = waits) ∧
    ∀ w px, (s.lane h).state = .up → (s.lane h).hold.seen = false → waits.cursorData h c' = some (w, px) →
      waits.Preloads t h (s.lane h) c' w px)

/-- The lane after entry to UP (R123, steps 1 to 3). -/
def Lane.broughtUp (l : Lane) : Lane :=
  { l with
    state := .up, band := none, badCount := none, downshift := false, status := some 0, timer := none, trial := none,
    progress := none }

/-- The lane after entry to DOWN where no board answered or no grade trained: its settings, ceiling and filtered levels
are kept (R119, R121, R123). -/
def Lane.gaveUp (l : Lane) : Lane :=
  { l with
    state := .down, grade := none, trial := none, progress := none, faultCode := none, timer := none, waiting := none }

/-- The lane after entry to DOWN by Lane Down or by a downshift, with a grade ceiling (R124, R136). -/
def Lane.brought (l : Lane) (ceiling : Option Grade) : Lane :=
  { l with
    state := .down, grade := none, gradeSet := none, ceiling := ceiling, trial := none, progress := none,
    faultCode := none, downshift := false, status := none, timer := none, tx := none, waiting := none }

/-- The state after a pending downshift has been carried out over an IDLE head (R119, R136): DOWN with the ceiling at the
next lower grade, the DISCARD transmission cut off, and NEGOTIATING at once with a caps query of 64 ticks. -/
def State.downshifted (h : Head) (s : State) : State :=
  let m := (s.lane h).brought (s.lane h).nextLower
  let v := submit (.laneState h .down none .downshift) ((s.setLane h m).setHead h { s.head h with inFlight := none })
  submit (.laneState h .negotiating none .retrain) (v.setLane h { m with
    state := .negotiating
    tx := some { record := .capsQuery, bytes := LaneRecord.capsQuery.bytes, remaining := 64 } })

/-- The lane after a latched fault (R128). -/
def Lane.latched (l : Lane) : Lane :=
  { l with state := .faulted, tx := none, waiting := none, status := none, downshift := false }

/-- No record satisfies the chain condition of R33: where Print is ON and the oldest QUEUED record is CHAINED, it has no
predecessor. -/
def JobQueue.Unchained (q : JobQueue) : Prop :=
  q.print = true → ∀ pre r post, q.records = pre ++ r :: post → (∀ x ∈ pre, x.active.isSome = true) →
    r.active = none → r.mode = .chained → pre = []

/-- The lane has no event due at this tick. -/
structure Lane.Settled (l : Lane) : Prop where
  hold : l.hold.taken = l.hold.seen
  fault : l.fault.taken = l.fault.seen
  tx : ∀ x, l.tx = some x → 0 < x.remaining
  negotiation : ∀ e, l.timer = some e → l.state = .negotiating → e < 50000
  echo : ∀ e, l.timer = some e → l.state = .training → e < 5000
  status : ∀ e, l.status = some e → e < l.settings.timeout * 25000
  pulse : l.fire ≠ .high 0

/-- No event of the part is due at this tick: no new position to present, no level taken and not yet ruled on, no timer
at its end, no transmission or pulse over, and no frame that can be taken. -/
structure State.Settled (s : State) : Prop where
  advance : s.ptu.state = .off ∨ s.ptu.s / 2 ^ 24 ≤ s.ptu.presented
  encoder : s.ptu.encA.taken = s.ptu.encA.seen ∧ s.ptu.encB.taken = s.ptu.encB.seen
  stall : ∀ e, s.ptu.stall = some e → e < s.ptu.params.stallTimeout
  trigger : s.trig.input.taken = s.trig.input.seen
  minOn : s.trig.state = .candidate → ∀ t, s.trig.t0 = some t → s.now - t < s.trig.params.minOn * 25
  timer : ∀ k t, s.trig.timer = some (k, t) → s.now < t
  lanes : ∀ h, (s.lane h).Settled
  copy : ∀ e, s.banks.other = .copying e → e < 37500
  loader : ∀ c e, s.link.loader = .loading c e → e < 6250000
  idle : ∀ e, s.notices.idleTimer = some e → s.notices.idle = 0 ∨ e < s.notices.idle * 1250
  control : s.link.inbound = [] ∨ 8 ≤ s.link.answers.length

end Sys2Proof.Machine
end

