-- ==== Sys2Proof/WellFormed.lean ====
section
/-!
DEFINITION. When a command is well formed: every raw number fits the bytes its field has in the layouts of
chapter 10. A command that is not well formed is carried by no frame.
-/

namespace Sys2Proof

/-- A number that fits `w` bytes. -/
def fits (w n : Nat) : Bool := decide (n < 256 ^ w)

/-- An absent number, or one that fits `w` bytes. -/
def fitsOpt (w : Nat) : Option Nat → Bool
  | none => true
  | some n => fits w n

/-- A carried set: its members fit one byte, stand in increasing order and are at most 255 (10.1). -/
def setOk (l : List Nat) : Bool :=
  l.all (fits 1) && decide (l.length ≤ 255) && decide (l.Pairwise (· < ·))

def setOkOpt : Option (List Nat) → Bool
  | none => true
  | some l => setOk l

/-- The set of flags of Clear Conditions: pairs of bytes in increasing order, at most 254 (10.1). -/
def FlagArgs.ok : FlagArgs → Bool
  | .all => true
  | .some l => l.all (fun f => fits 1 f.1 && fits 1 f.2) && decide (l.length < 255) &&
      decide ((l.map fun f => f.1 * 256 + f.2).Pairwise (· < ·))

def JobFields.ok (f : JobFields) : Bool :=
  fits 2 f.id && fits 4 f.length && fits 1 f.mode && fits 4 f.delay && fits 2 f.gap && fitsOpt 4 f.tag &&
    decide (f.planes.Pairwise (· < ·))

def PositionArgs.ok (a : PositionArgs) : Bool :=
  fitsOpt 3 a.lineRatio && fitsOpt 1 a.avgExp && fitsOpt 1 a.encFilter && fitsOpt 1 a.invert &&
    fitsOpt 2 a.kp && fitsOpt 2 a.ki && fitsOpt 4 a.ilim && fitsOpt 4 a.vmax && fitsOpt 4 a.slip &&
    fitsOpt 3 a.stall

def TriggerArgs.ok (a : TriggerArgs) : Bool :=
  fitsOpt 1 a.polarity && fitsOpt 2 a.minOn && fitsOpt 2 a.dropout && fitsOpt 2 a.minOff

def PlaneArgs.ok (a : PlaneArgs) : Bool :=
  fits 1 a.plane && fitsOpt 2 a.width && fitsOpt 2 a.depth && fitsOpt 2 a.high && fitsOpt 2 a.low

def LaneArgs.ok (a : LaneArgs) : Bool :=
  fits 1 a.lane && setOkOpt a.mask && fitsOpt 1 a.pulse && fitsOpt 1 a.filter && fitsOpt 1 a.mode &&
    fitsOpt 1 a.degrade && fitsOpt 1 a.autoDown && fitsOpt 1 a.timeout && fitsOpt 1 a.hyst

def NoticesArgs.ok (a : NoticesArgs) : Bool :=
  setOkOpt a.mask && fitsOpt 1 a.level && fitsOpt 1 a.idle

def Target.ok : Target → Bool
  | .head n => fits 1 n
  | .plane n => fits 1 n

def TableBody.ok : TableBody → Bool
  | .nozzleRange f es => fits 2 f && fits 2 es.length
  | .geometry p n o r => fits 1 p && fits 2 n && fits 3 o && fits 1 r
  | .bands bs => bs.all (fun b => fits 1 b.1 && fits 1 b.2) && fits 1 bs.length
  | .dropMap a b c d => fits 1 a && fits 1 b && fits 1 c && fits 1 d

def WriteArgs.ok (a : WriteArgs) : Bool := a.target.ok && a.body.ok

def ReadArgs.ok (a : ReadArgs) : Bool :=
  a.target.ok && match a.kind with
  | .nozzleRange => fits 2 a.first && fits 2 a.count
  | _ => a.first == 0 && a.count == 0

/-- The fields of a request fit their layouts. -/
def Request.ok : Request → Bool
  | .job none => true
  | .job (some f) => f.ok
  | .setPosition a => a.ok
  | .abortJob id => fits 2 id
  | .queryJob id => fits 2 id
  | .setTrigger a => a.ok
  | .setPlane a => a.ok
  | .headOn n => fits 1 n
  | .headOff n => fits 1 n
  | .setLane a => a.ok
  | .laneUp n => fits 1 n
  | .laneDown n => fits 1 n
  | .laneResume n => fits 1 n
  | .writeTable none => true
  | .writeTable (some a) => a.ok
  | .readTable none => true
  | .readTable (some a) => a.ok
  | .setNotices a => a.ok
  | .clearConditions a => a.ok
  | .readCounters g => fits 1 g
  | .clearCounters g => fits 1 g
  | .unknown code => fits 1 code
  | .positionOn | .positionOff | .printOn | .printOff | .softTrigger | .streamReset | .commitBank
  | .readStatus | .reloadConfig => true

/-- The tag and the request of the frame that a Control Unit command takes; `none` for the other rows. -/
def Instr.taken : Instr → Option (Byte × Request)
  | .jobFrame t f => some (t, .job f)
  | .setPosition t a => some (t, .setPosition a)
  | .positionOn t => some (t, .positionOn)
  | .positionOff t => some (t, .positionOff)
  | .printOn t => some (t, .printOn)
  | .printOff t => some (t, .printOff)
  | .abortJob t id => some (t, .abortJob id)
  | .queryJob t id => some (t, .queryJob id)
  | .setTrigger t a => some (t, .setTrigger a)
  | .softTrigger t => some (t, .softTrigger)
  | .setPlane t a => some (t, .setPlane a)
  | .streamReset t => some (t, .streamReset)
  | .headOn t n => some (t, .headOn n)
  | .headOff t n => some (t, .headOff n)
  | .setLane t a => some (t, .setLane a)
  | .laneUp t n => some (t, .laneUp n)
  | .laneDown t n => some (t, .laneDown n)
  | .laneResume t n => some (t, .laneResume n)
  | .writeTable t a => some (t, .writeTable a)
  | .readTable t a => some (t, .readTable a)
  | .commitBank t => some (t, .commitBank)
  | .setNotices t a => some (t, .setNotices a)
  | .clearConditions t a => some (t, .clearConditions a)
  | .readStatus t => some (t, .readStatus)
  | .readCounters t g => some (t, .readCounters g)
  | .clearCounters t g => some (t, .clearCounters g)
  | .reloadConfig t => some (t, .reloadConfig)
  | .unknownCommand t c => some (t, .unknown c)
  | .powerOnReset _ | .noMemoryTimeout | .loaderDeadlineExpiry | .loadingComplete _ | .forwardCount
  | .backwardCount | .stallExpiry | .advance | .firePulseEnd _ | .transmissionEnd _ | .lineFrame _
  | .frameDiscarded _ | .controlFrameArrival _ | .triggerInputActive | .triggerInputInactive | .minOnElapsed
  | .dropoutExpiry | .minOffExpiry | .capsQuerySent _ | .capsRecord _ _ | .negotiationTimeout _
  | .trainRecordSent _ | .echoRecord _ _ | .echoTimeout _ | .damagedLaneRecord _ _ | .boardStatusRecord _ _
  | .statusTimeout _ | .holdActive _ | .holdInactive _ | .faultActive _ | .faultInactive _ | .copyComplete
  | .linkUp | .linkDown | .outboundComplete | .idleTimerExpiry | .tick _ | .encoderReferenceUpdate _ _ => none

/-- A command is well formed when the frame it takes, if it takes one, can carry its fields. The other rows
carry bytes and levels, every value of which can occur. -/
def Instr.wf (i : Instr) : Bool :=
  match i.taken with
  | none => true
  | some (_, r) => r.ok

end Sys2Proof
end

