-- ==== Sys2Proof/Certificates/Slice0/Obligations.lean ====
section
/-!
DEFINITION. The statements about the model, one definition each. Each docstring names the rules of the manual it
formalises; a convention of the model is named by its log entry.
-/

open Sys2Proof Sys2Proof.Machine

/-! ## The machine -/

/-- A step runs the command at the front of the queue with the queue's rest, and an empty queue idles (log 1). -/
def Obligations.StepRunsFrontCommand : Prop :=
  ∀ (s : State) (c : Instr) (rest : List Instr),
    (s.pending = c :: rest → step s = exec c { s with pending := rest }) ∧ (s.pending = [] → step s = .next s)

/-- No command stops the part, and no command touches the queue of waiting commands (log 1): every command answers a next
state in every state, and the queue stays as it was in every state that meets the invariant. -/
def Obligations.EveryCommandAnswers : Prop :=
  (∀ (c : Instr) (s : State), ∃ t, exec c s = .next t ∧ (s.Inv → t.pending = s.pending)) ∧ ∀ s : State, Safe s

/-- The invariant of the part, which joins the laws and ranges of R1, R13, R28, R55, R72, R115, R141, R142, R154, R175 and
R181, passes from every state that meets it to the state after a step. -/
def Obligations.InvariantKept : Prop := ∀ s t : State, s.Inv → step s = .next t → t.Inv

/-- The state right after reset, and every state POWER_ON_RESET leaves, meet the invariant. -/
def Obligations.PowerOnMeetsInvariant : Prop := State.reset.Inv ∧ ∀ l : Levels, (State.powerOn l).Inv

/-- S does not decrease under any command but POWER_ON_RESET, which sets it to 0 (R8). -/
def Obligations.PositionNeverGoesBack : Prop :=
  ∀ (c : Instr) (s t : State), s.Inv → exec c s = .next t →
    match c with
    | .powerOnReset _ => t.ptu.s = 0
    | _ => s.ptu.s ≤ t.ptu.s

/-- The next-line counters decrease only at a reset and at a stream reset (R27). TICK is set apart because it first
settles what is due, which may be the take of a Stream Reset (log 2). -/
def Obligations.NextLinesNeverGoBack : Prop :=
  ∀ (c : Instr) (s t : State), s.Inv → exec c s = .next t →
    match c with
    | .powerOnReset _ => ∀ p, t.jobs.next.get p = 0
    | .streamReset _ => (∀ p, t.jobs.next.get p = 0) ∨ ∀ p, s.jobs.next.get p = t.jobs.next.get p
    | .tick _ => True
    | _ => ∀ p, s.jobs.next.get p ≤ t.jobs.next.get p

/-- Every frame taken gets exactly one answer, at the newest end of the answer queue, with the frame's tag and code
(R159, R160). -/
def Obligations.OneAnswerPerFrame : Prop :=
  ∀ (c : Instr) (tag : Byte) (r : Request) (s : State) (f : Frame) (rest : List Frame), s.Inv →
    c.taken = some (tag, r) → s.link.inbound = f :: rest → s.link.answers.length < 8 → f.tag = tag → f.request = r →
    ∃ t a, exec c s = .next t ∧ t.link.inbound = rest ∧ t.link.answers = s.link.answers ++ [a] ∧
      a.tag = f.tag ∧ a.code = f.code

/-- The guards of a row that the Control Unit takes: while the loader runs the frame is not executed, its answer is
NOT_READY without payload, and nothing else changes (R160); the row is void where the oldest frame is not the row's, or
no answer has room (R159, log 5). -/
def Obligations.ControlFrameGuards : Prop :=
  ∀ (c : Instr) (tag : Byte) (r : Request) (s : State), c.taken = some (tag, r) →
    (∀ f rest, s.link.inbound = f :: rest → s.link.answers.length < 8 → f.tag = tag → f.request = r →
      s.loading = true → exec c s = .next (answered f .notReady [] (s.took rest))) ∧
    ((∀ f rest, s.link.inbound = f :: rest → s.link.answers.length < 8 → f.tag ≠ tag ∨ f.request ≠ r) →
      exec c s = .next s)

/-! ## Reset and loading -/

/-- Every item of every block takes its power-on value, with loading begun by cause POWER_ON (R1, R20, R26, R27, R30,
R32, R42, R49, R54, R61, R67, R71, R115, R131, R140, R141, R154, R170, R175). The time starts at 0 and the waiting
commands are kept (log 6). -/
def Obligations.PowerOnReset : Prop :=
  ∀ (l : Levels) (s : State), ∃ t, exec (.powerOnReset l) s = .next t ∧ t.pending = s.pending ∧ t.now = 0 ∧
    (t.ptu.state = .off ∧ t.ptu.m = 0 ∧ t.ptu.s = 0 ∧ t.ptu.v = 0 ∧ t.ptu.i = 0 ∧ t.ptu.vff = 0 ∧ t.ptu.history = [] ∧
      t.ptu.mark = none ∧ t.ptu.stall = none ∧ t.ptu.reference = (l.encA, l.encB) ∧ t.ptu.encA.progress = 0 ∧
      t.ptu.encB.progress = 0 ∧
      t.ptu.params = {
        lineRatio := 65536, avgExp := 3, encFilter := 2, invert := false, kp := 256, ki := 16, ilim := 1048576,
        vmax := 2147483648, slip := 262144, stallTimeout := 2500000 }) ∧
    (t.trig.state = .idle ∧ t.trig.params = { activeLow := false, minOn := 500, dropout := 100, minOff := 2000 } ∧
      t.trig.input = { taken := l.trigger, seen := l.trigger, progress := 0 } ∧ t.trig.p = none ∧ t.trig.t0 = none ∧
      t.trig.timer = none ∧ t.trig.newParams = none) ∧
    (t.jobs.records = [] ∧ (∀ p, t.jobs.next.get p = 0) ∧ t.jobs.lastT = none ∧ t.jobs.lastL = none ∧
      t.jobs.print = false) ∧
    (∀ p, (t.plane p).width = 0 ∧ (t.plane p).depth = 8192 ∧ (t.plane p).high = 6144 ∧ (t.plane p).low = 2048 ∧
      (t.plane p).base = 0 ∧ (t.plane p).fill = 0 ∧ (t.plane p).paused = false ∧ (∀ h, (t.plane p).reach.get h = none) ∧
      ∀ n, (t.plane p).slot n = { state := .expected, takers := none, rendered := false }) ∧
    (∀ h, t.head h = { enabled := false, cursor := none, state := .idle, inFlight := none }) ∧
    (∀ h, (t.lane h).state = .down ∧ (t.lane h).grade = none ∧ (t.lane h).gradeSet = none ∧ (t.lane h).ceiling = none ∧
      (t.lane h).trial = none ∧ (t.lane h).progress = none ∧
      (t.lane h).hold = { taken := l.hold.get h, seen := l.hold.get h, progress := 0 } ∧
      (t.lane h).fault = { taken := l.fault.get h, seen := l.fault.get h, progress := 0 } ∧
      (t.lane h).band = none ∧ (t.lane h).badCount = none ∧
      (t.lane h).faultCode = none ∧ (t.lane h).downshift = false ∧ (t.lane h).status = none ∧ (t.lane h).timer = none ∧
      (t.lane h).fire = .low ∧ (t.lane h).tx = none ∧ (t.lane h).enable = false ∧
      (t.lane h).settings = {
        mask := [.a, .b, .c, .d, .e, .f], pulse := 4, filter := 4, latch := true, degrade := 0, autoDown := false,
        timeout := 20, hyst := 2 }) ∧
    (t.banks.active = 0 ∧ t.banks.other = .shadow ∧ (∀ b, t.banks.bound b = 0) ∧
      (∀ b p (v : Dot), ((t.banks.tables b).drops.get p).get v = v) ∧
      ∀ b h, (t.banks.tables b).head h = {
        plane := none, nozzles := 64, offset := 0, reverse := false, map := [], bands := [⟨255, 0⟩] }) ∧
    (t.notices.queue = [] ∧ t.notices.lost = 0 ∧ t.notices.mask = [.glitch] ∧ t.notices.level = 8 ∧ t.notices.idle = 20 ∧
      t.notices.idleTimer = none ∧ t.notices.releaseDue = false ∧ t.notices.batchWaiting = false ∧
      (∀ c, t.condition c = false) ∧ ∀ c, t.counter c = 0) ∧
    t.link = {
      up := false, inbound := [], answers := [], flowPending := false, batch := none, outbound := none,
      loader := .loading .powerOn 0 }

/-- Loading ends with the defaults when the memory does not respond within 1 ms, when the loader's 250 ms are over, and
when the image that was read is unusable (R170, R171, R172). Before its time, either time's event is void (log 3). -/
def Obligations.UnusableImageTakesDefaults : Prop :=
  ∀ (s : State) (c : Instr) (cause : LoadCause) (e : Nat), s.Inv → s.link.loader = .loading cause e →
    (e < 25000 → exec .noMemoryTimeout s = .next s) ∧ (e < 6250000 → exec .loaderDeadlineExpiry s = .next s) ∧
    ((c = .noMemoryTimeout ∧ 25000 ≤ e ∨ c = .loaderDeadlineExpiry ∧ 6250000 ≤ e ∨
        ∃ bs why, c = .loadingComplete bs ∧ bs ≠ [] ∧ loadImage bs = .error why) →
      ∃ t, exec c s = .next t ∧ t.link.loader = .idle ∧ t.condition .configDefaulted = true ∧
        t.notices.mask = [.glitch] ∧ t.notices.level = 8 ∧ t.notices.idle = 20 ∧
        (∀ p, (t.plane p).width = 0 ∧ (t.plane p).depth = 8192 ∧ (t.plane p).high = 6144 ∧ (t.plane p).low = 2048 ∧
          (t.plane p).slots = [] ∧ (t.plane p).base = (s.plane p).base) ∧
        (∀ b, t.banks.tables b = Tables.default ∧ t.banks.bound b = 0) ∧
        t.banks.active = s.banks.active ∧ t.banks.other = .shadow ∧
        t.ptu.params = {
          lineRatio := 65536, avgExp := 3, encFilter := 2, invert := false, kp := 256, ki := 16, ilim := 1048576,
          vmax := 2147483648, slip := 262144, stallTimeout := 2500000 } ∧
        t.ptu.state = .off ∧ t.ptu.s = s.ptu.s ∧ t.ptu.m = s.ptu.m ∧
        t.trig = { s.trig with newParams := some { activeLow := false, minOn := 500, dropout := 100, minOff := 2000 } } ∧
        (∀ h, (t.lane h).settings = {
              mask := [.a, .b, .c, .d, .e, .f], pulse := 4, filter := 4, latch := true, degrade := 0, autoDown := false,
              timeout := 20, hyst := 2 } ∧
          (t.lane h).enable = false ∧ (t.lane h).state = (s.lane h).state ∧
          (t.lane h).ceiling = (s.lane h).ceiling) ∧
        t.jobs = s.jobs ∧ t.heads = s.heads ∧ t.now = s.now)

/-- Loading ends with a usable image: its sections, adjusted, are applied in one event (R171, with R24, R45, R48, R51,
R53, R138, R153, R184, R188). Four depths that sum to more than 32,768 as adjusted give every plane the default depth
(R53, log 41). Where the rules state no adjustment of a value (a two-valued code, a drop value, a waveform id, the grade
codes of a mask) it is a free value of Config (log 19), and a set of the image is what its codes name, in whatever order
(log 38). That code 0 of direction invert, of the reverse flag and of auto-downshift is set, or on, is the model's deduction
(log 15). The last clause is steps 6, 8 and 9 of R171: lane by lane in increasing order (log 9), a running status timer
meets the new timeout, and a DOWN lane whose flag is set submits LANE_STATE with reason CONFIG and sends a caps query, which
waits where a record is still being sent (log 13); then CONFIG_LOADED is submitted with the cause, IMAGE and the result of
the check. -/
def Obligations.UsableImageApplied : Prop :=
  ∀ (s : State) (bs : List Byte) (i : Image) (cause : LoadCause) (e : Nat), s.Inv →
    s.link.loader = .loading cause e → loadImage bs = .ok i →
    let enable (l : ImageLane) := if l.enable = 0 then false else if l.enable = 1 then true else Config.imageEnable l.enable
    let settings (l : ImageLane) : LaneSettings :=
      let a := l.settings
      let codes := a.mask.getD []
      { mask := if ∀ c ∈ codes, 1 ≤ c ∧ c ≤ 6 then allGrades.filter fun g => codes.contains g.code
          else allGrades.filter (Config.imageGrade codes)
        pulse := (a.pulse.map fun x => max 1 (min x 16)).getD 4
        filter := (a.filter.map fun x => if x = 0 then 0 else if x ≤ 4 then 4 else if x ≤ 8 then 8 else 16).getD 4
        latch := (a.mode.map (· != 0)).getD true
        degrade := (a.degrade.map (min · 255)).getD 0
        autoDown := (a.autoDown.map fun x =>
          if x = 0 then true else if x = 1 then false else Config.imageAutoDownshift x).getD false
        timeout := (a.timeout.map fun x => max 1 (min x 255)).getD 20
        hyst := (a.hyst.map (min · 7)).getD 2 }
    let loaded (h : Head) (l : ImageLane) (x : State) : State :=
      let y := x.lane h
      let moved := (settings l).filter ≠ y.settings.filter
      let m := { y with
        settings := settings l
        hold := if moved then { y.hold with progress := 0 } else y.hold
        fault := if moved then { y.fault with progress := 0 } else y.fault
        downshift := y.downshift && (settings l).autoDown }
      let w := match y.status with
        | some n => if (settings l).timeout * 25000 ≤ n then
            submitCondition (.statusLost h) (.statusLost h y.band) (x.setLane h { m with status := none })
          else x.setLane h m
        | none => x.setLane h m
      let z := { w.lane h with enable := enable l }
      let up := { z with state := .negotiating, grade := none, gradeSet := none, timer := none }
      if y.state = .down ∧ enable l = true then
        submit (.laneState h .negotiating none .config) (w.setLane h (match y.tx with
          | none => { up with tx := some { record := .capsQuery, bytes := LaneRecord.capsQuery.bytes, remaining := 64 } }
          | some _ => { up with waiting := some .capsQuery }))
      else w.setLane h z
    ∃ t, exec (.loadingComplete bs) s = .next t ∧ t.link.loader = .idle ∧
      t.notices.mask = allKinds.filter (fun k => i.mask.contains k.code) ∧
      t.notices.level = roundLevel i.level ∧ t.notices.idle = min i.idle 255 ∧
      t.store = loadPlanes i.planes s.store ∧ (∀ p, (t.plane p).slots = [] ∧ (t.plane p).base = (s.plane p).base) ∧
      (let asked (p : Plane) : Nat := match i.planes[p.val]? with
        | some a => (a.depth.map fun v => max 16 (min v 16384)).getD (s.plane p).depth
        | none => 8192
       let depth (p : Plane) : Nat := if (allPlanes.map asked).sum ≤ 32768 then asked p else 8192
       ∀ p a, i.planes[p.val]? = some a →
        let x := s.plane p
        let high := max 2 (min (a.high.getD x.high) (depth p))
        t.plane p = { x with
          width := (a.width.map fun v => min (v / 64 * 64) 16384).getD x.width, depth := depth p, high := high
          low := max 1 (min (a.low.getD x.low) (high - 1)), slots := [] }) ∧
      (∀ b, t.banks.tables b = i.tables ∧ t.banks.bound b = 0) ∧
      (∀ (p : Plane) (v : Dot) l n, i.drops[p.val]? = some l → l[v.val]? = some n →
        (i.tables.drops.get p).get v = if h : n < 4 then ⟨n, h⟩ else Config.imageDrop n) ∧
      (∀ (h : Head) x, i.heads[h.val]? = some x →
        let y := i.tables.head h
        let carried := x.bands.take x.bandCount
        y.plane = (if p : x.plane < 4 then some ⟨x.plane, p⟩ else none) ∧
        y.nozzles = max 64 (min (x.nozzles / 64 * 64) 2048) ∧ y.offset = x.offset ∧
        y.reverse = (if x.reverse = 0 then true else if x.reverse = 1 then false else Config.imageReverse x.reverse) ∧
        (∀ j, y.entry j = ((x.entries[j]?).bind entryOfWord).getD .off) ∧
        (1 ≤ x.bandCount ∧ x.bandCount ≤ 4 → y.bands.length = carried.length ∧ ∀ (k : Nat) w, carried[k]? = some w →
          y.bands[k]? = some (⟨if k + 1 = carried.length then 255 else w.1,
            if w.2 < 16 then w.2 else (Config.imageWaveform w.2).val⟩ : Band)) ∧
        (¬ (1 ≤ x.bandCount ∧ x.bandCount ≤ 4) → y.bands = [⟨255, 0⟩])) ∧
      t.banks.active = s.banks.active ∧ t.banks.other = .shadow ∧
      (let a := i.position
       let p := s.ptu.params
       t.ptu.params = {
        lineRatio := match a.lineRatio with
          | some r => if 256 ≤ r ∧ r ≤ 4194304 then r else 65536
          | none => 65536
        avgExp := (a.avgExp.map (min · 5)).getD p.avgExp
        encFilter := (a.encFilter.map fun x =>
          if x = 0 then 0 else if x ≤ 2 then 2 else if x ≤ 4 then 4 else if x ≤ 8 then 8 else 16).getD p.encFilter
        invert := (a.invert.map fun x =>
          if x = 0 then true else if x = 1 then false else Config.imageInvert x).getD p.invert
        kp := (a.kp.map (min · 65535)).getD p.kp
        ki := (a.ki.map (min · 65535)).getD p.ki
        ilim := (a.ilim.map (min · (2 ^ 31 - 1))).getD p.ilim
        vmax := (a.vmax.map fun x => max 1 (min x (2 ^ 32 - 1))).getD p.vmax
        slip := (a.slip.map fun x => max 65536 (min x 16777216)).getD p.slip
        stallTimeout := (a.stall.map fun x => max 25000 (min x 16777215)).getD p.stallTimeout }) ∧
      t.ptu.state = .off ∧ t.ptu.s = s.ptu.s ∧ t.ptu.m = s.ptu.m ∧
      t.trig = { s.trig with newParams := some (TrigParams.default.adjusted i.trigger) } ∧
      (∀ (h : Head) l, i.lanes[h.val]? = some l →
        (t.lane h).settings = settings l ∧ (t.lane h).enable = enable l ∧
        (t.lane h).state = if (s.lane h).state = .down ∧ enable l = true then .negotiating else (s.lane h).state) ∧
      t.condition .configDefaulted = s.condition .configDefaulted ∧ t.jobs = s.jobs ∧ t.heads = s.heads ∧ t.now = s.now ∧
      ∃ v w : State, v.lanes = s.lanes ∧ v.ptu.s = s.ptu.s ∧
        v.notices.mask = t.notices.mask ∧ v.notices.level = t.notices.level ∧ v.notices.idle = t.notices.idle ∧
        v.notices.lost = s.notices.lost ∧ v.notices.conditions = s.notices.conditions ∧
        v.notices.counters = s.notices.counters ∧
        (s.notices.queue = [] → v.notices.queue = [] ∧ v.link = s.link) ∧
        w = submit (.configLoaded cause true (validate t.store i.tables s.banks.active)) (forEach allHeads
          (fun h x => match i.lanes[h.val]? with
            | some l => loaded h l x
            | none => x) v) ∧
        t = w.setLink { w.link with loader := .idle }

/-! ## Position -/

/-- A count in STOPPED (R4, R5, R8, R15, R19): a forward count starts timing, raises S and enters ACQUIRING with the
advance of the raise and then the notice, in this order (log 10); a backward count changes M alone. -/
def Obligations.CountInStopped : Prop :=
  ∀ s : State, s.ptu.Wf → s.ptu.state = .stopped → s.loading = false →
    (let m := min (s.ptu.m + s.ptu.params.lineRatio) (2 ^ 55 - 1)
     exec .forwardCount s = .next (submit (.ptuState .acquiring .firstCount) (advanceNow (s.setPtu
       { s.ptu.stepped true with
         m := m, mark := some s.now, s := max s.ptu.s (m * 2 ^ 16).toNat, state := .acquiring, stall := some 0 })))) ∧
    exec .backwardCount s = .next (s.setPtu
      { s.ptu.stepped false with m := max (s.ptu.m - s.ptu.params.lineRatio) (-(2 ^ 55)) })

/-- A count in ACQUIRING (R4, R5, R6, R8, R16, R19): the first forward count starts timing, a later one pushes a period,
and the one that fills the history sets V and enters TRACKING; a backward count enters HOLDING. A period is at least 1
(R5, log 21), and the advance of a raise is presented before the notice (log 10). -/
def Obligations.CountInAcquiring : Prop :=
  ∀ s : State, s.ptu.Wf → s.ptu.state = .acquiring → s.loading = false →
    (let m := min (s.ptu.m + s.ptu.params.lineRatio) (2 ^ 55 - 1)
     let raised := max s.ptu.s (m * 2 ^ 16).toNat
     (s.ptu.mark = none → exec .forwardCount s = .next (advanceNow (s.setPtu
       { s.ptu.stepped true with m := m, mark := some s.now, s := raised, stall := some 0 }))) ∧
     ∀ b, s.ptu.mark = some b →
       let h := s.ptu.history ++ [min 16777215 (max 1 (s.now - b))]
       let vff := s.ptu.params.lineRatio * 65536 / (h.sum / 2 ^ s.ptu.params.avgExp)
       (h.length < 2 ^ s.ptu.params.avgExp → exec .forwardCount s = .next (advanceNow (s.setPtu
         { s.ptu.stepped true with m := m, mark := some s.now, history := h, s := raised, stall := some 0 }))) ∧
       (h.length = 2 ^ s.ptu.params.avgExp → exec .forwardCount s = .next (submit (.ptuState .tracking .acquired)
         (advanceNow (s.setPtu
           { s.ptu.stepped true with
             m := m, mark := some s.now, history := h, s := raised, stall := some 0, vff := vff, i := 0,
             v := min vff s.ptu.params.vmax, state := .tracking }))))) ∧
    exec .backwardCount s = .next (submit (.ptuState .holding .reverse) (s.setPtu
      { s.ptu.stepped false with
        m := max (s.ptu.m - s.ptu.params.lineRatio) (-(2 ^ 55)), v := 0, i := 0, history := [], mark := none,
        stall := none, state := .holding }))

/-- A count in TRACKING (R4, R5, R6, R10, R11, R12, R13, R17, R19): M, the period, V_ff, and then a forward slip, a
negative slip or a PI update by the error; a backward count enters HOLDING. `/` on integers rounds toward minus infinity
for a positive divisor. A period is at least 1 (R5, log 21), and the advance of a forward slip is presented before the
SLIP notice (log 10). -/
def Obligations.CountInTracking : Prop :=
  ∀ (s : State) (b p : Nat) (ps : List Nat), s.ptu.Wf → s.ptu.state = .tracking → s.loading = false →
    s.ptu.mark = some b → s.ptu.history = p :: ps →
    (let q := s.ptu.params
     let m := min (s.ptu.m + q.lineRatio) (2 ^ 55 - 1)
     let h := ps ++ [min 16777215 (max 1 (s.now - b))]
     let vff := q.lineRatio * 65536 / (h.sum / 2 ^ q.avgExp)
     let u := { s.ptu.stepped true with m := m, mark := some s.now, history := h, stall := some 0, vff := vff }
     let e := m - (s.ptu.s / 2 ^ 16 : Nat)
     let ec := max (-1048576) (min e 1048576)
     let i := max (-(q.ilim : Int)) (min (s.ptu.i + q.ki * ec / 256) q.ilim)
     (q.slip < e → exec .forwardCount s = .next (submitCondition .slip (.slip e) (advanceNow (s.setPtu
       { u with s := (m * 2 ^ 16).toNat, i := 0, v := min vff q.vmax })))) ∧
     (e < -(q.slip : Int) → exec .forwardCount s = .next (submit (.ptuState .holding (.negativeSlip e)) (s.setPtu
       { u with v := 0, i := 0, history := [], mark := none, stall := none, state := .holding }))) ∧
     (-(q.slip : Int) ≤ e → e ≤ q.slip → exec .forwardCount s = .next (s.setPtu
       { u with i := i, v := (max 0 (min (vff + (q.kp * ec / 256 + i)) q.vmax)).toNat }))) ∧
    exec .backwardCount s = .next (submit (.ptuState .holding .reverse) (s.setPtu
      { s.ptu.stepped false with
        m := max (s.ptu.m - s.ptu.params.lineRatio) (-(2 ^ 55)), v := 0, i := 0, history := [], mark := none,
        stall := none, state := .holding }))

/-- A count in HOLDING (R4, R5, R8, R17, R19): it changes M, and it leaves HOLDING where M × 2^16 has come up to S,
with the advance of the raise before the notice (log 10). -/
def Obligations.CountInHolding : Prop :=
  ∀ s : State, s.ptu.Wf → s.ptu.state = .holding → s.loading = false →
    (let m := min (s.ptu.m + s.ptu.params.lineRatio) (2 ^ 55 - 1)
     ((s.ptu.s : Int) ≤ m * 2 ^ 16 → exec .forwardCount s = .next (submit (.ptuState .acquiring .caughtUp) (advanceNow
       (s.setPtu { s.ptu.stepped true with
         m := m, mark := some s.now, s := (m * 2 ^ 16).toNat, state := .acquiring, stall := some 0 })))) ∧
     (m * 2 ^ 16 < (s.ptu.s : Int) → exec .forwardCount s = .next (s.setPtu { s.ptu.stepped true with m := m }))) ∧
    (let m := max (s.ptu.m - s.ptu.params.lineRatio) (-(2 ^ 55))
     ((s.ptu.s : Int) ≤ m * 2 ^ 16 → exec .backwardCount s = .next (submit (.ptuState .acquiring .caughtUp) (advanceNow
       (s.setPtu { s.ptu.stepped false with
         m := m, mark := none, s := (m * 2 ^ 16).toNat, state := .acquiring, stall := some 0 })))) ∧
     (m * 2 ^ 16 < (s.ptu.s : Int) → exec .backwardCount s = .next (s.setPtu { s.ptu.stepped false with m := m })))

/-- The decoder (R3): a pair already taken is no event (log 4), a step to a neighbour is a count under direction invert,
a diagonal step makes the new pair the reference and no count, and in OFF and while loading runs no step counts. The
rows FORWARD_COUNT and BACKWARD_COUNT stand for the encoder step that makes such a count (log 4). -/
def Obligations.EncoderStep : Prop :=
  ([((false, false), (true, false), (false, true)), ((true, false), (true, true), (false, false)),
    ((true, true), (false, true), (true, false)), ((false, true), (false, false), (true, true))] :
      List ((Bool × Bool) × (Bool × Bool) × (Bool × Bool))).all (fun r =>
        forwardPair r.1 == r.2.1 && backwardPair r.1 == r.2.2) = true ∧
  ∀ (s : State) (a b : Bool),
    let taken := s.setPtu { s.ptu with encA := s.ptu.encA.take a, encB := s.ptu.encB.take b }
    (s.ptu.reference = (a, b) → exec (.encoderReferenceUpdate a b) s = .next s) ∧
    (forwardPair s.ptu.reference = (a, b) → exec (.encoderReferenceUpdate a b) s =
      exec (if s.ptu.params.invert then .backwardCount else .forwardCount) s) ∧
    (backwardPair s.ptu.reference = (a, b) → exec (.encoderReferenceUpdate a b) s =
      exec (if s.ptu.params.invert then .forwardCount else .backwardCount) s) ∧
    (s.ptu.reference = (!a, !b) → exec (.encoderReferenceUpdate a b) s = .next taken) ∧
    (s.ptu.state = .off ∨ s.loading = true →
      exec .forwardCount s = .next (s.setPtu (s.ptu.stepped true)) ∧
      exec .backwardCount s = .next (s.setPtu (s.ptu.stepped false)) ∧
      (s.ptu.reference ≠ (a, b) → exec (.encoderReferenceUpdate a b) s = .next taken))

/-- The stall expiry (R18, R19): V and I 0, the history cleared, the timer stopped, STOPPED, and STALL before PTU_STATE.
Before its time the event is void (log 3). -/
def Obligations.StallExpiry : Prop :=
  ∀ s : State,
    (∀ e, s.ptu.stall = some e → s.ptu.params.stallTimeout ≤ e →
      exec .stallExpiry s = .next (submit (.ptuState .stopped .stall) (submit (.stall s.ptu.state) (s.setPtu
        { s.ptu with
          v := 0, i := 0, history := [], mark := none, stall := none, state := .stopped })))) ∧
    ((∀ e, s.ptu.stall = some e → e < s.ptu.params.stallTimeout) → exec .stallExpiry s = .next s)

/-- An advance leaves no head whose due position has been reached (R9, R76), and moves no item of the PTU but the
position presented (log 10). In OFF, and where the position has not increased, it is void (R22, log 3). -/
def Obligations.AdvanceTakesEveryReachedDue : Prop :=
  ∀ s : State, s.Inv →
    (s.ptu.state ≠ .off → s.ptu.presented < s.ptu.s / 2 ^ 24 →
      ∃ t, exec .advance s = .next t ∧ t.ptu = { s.ptu with presented := s.ptu.s / 2 ^ 24 } ∧
        ∀ h, t.reachedDue h = none) ∧
    (s.ptu.state = .off ∨ s.ptu.s / 2 ^ 24 ≤ s.ptu.presented → exec .advance s = .next s)

/-- A tick at which no event is due (R2, R7, R18, R42, R43, R115, R116, R119, R121, R125, R130, R134, R151, R170, R183):
time advances, S advances by V, every timer counts, every transmission and pulse counts down, and every input is
sampled. Nothing else changes. What is due is settled first (log 2). -/
def Obligations.QuietTick : Prop :=
  ∀ (s : State) (l : Levels), s.Settled →
    ∃ t, exec (.tick l) s = .next t ∧ t.now = s.now + 1 ∧
      t.ptu = { s.ptu with
        s := min (2 ^ 72 - 1) (s.ptu.s + s.ptu.v), stall := s.ptu.stall.map (· + 1),
        encA := s.ptu.encA.sample s.ptu.params.encFilter l.encA,
        encB := s.ptu.encB.sample s.ptu.params.encFilter l.encB } ∧
      t.trig = { s.trig with input := s.trig.input.sample 4 l.trigger } ∧
      (∀ h, t.lane h = { s.lane h with
        tx := (s.lane h).tx.map (fun x => { x with remaining := x.remaining - 1 }),
        fire := match (s.lane h).fire with
          | .low => .low
          | .gap => .high ((25 * (s.lane h).settings.pulse + 1) / 2)
          | .high n => .high (n - 1),
        status := (s.lane h).status.map (· + 1), timer := (s.lane h).timer.map (· + 1),
        hold := (s.lane h).hold.sample (s.lane h).settings.filter (l.hold.get h),
        fault := (s.lane h).fault.sample (s.lane h).settings.filter (l.fault.get h) }) ∧
      t.banks = { s.banks with other := match s.banks.other with
        | .copying e => .copying (e + 1)
        | x => x } ∧
      t.notices = { s.notices with idleTimer := s.notices.idleTimer.map (· + 1) } ∧
      t.link = { s.link with loader := match s.link.loader with
        | .loading c e => .loading c (e + 1)
        | .idle => .idle } ∧
      t.jobs = s.jobs ∧ t.store = s.store ∧ t.heads = s.heads ∧ t.pending = s.pending

/-- A filter of setting f takes a new level at the f + 1st consecutive sample that shows it, and not before; a sample at
the taken level resets the progress (R2, R42, R125). -/
def Obligations.FilterTakesLevel : Prop :=
  ∀ (f n : Nat) (x : Bool) (i : Input), i.taken = !x → i.progress = 0 →
    let j := (List.replicate n x).foldl (fun i x => i.sample f x) i
    (n ≤ f → j = { i with progress := n }) ∧ (f < n → j = { i with taken := x, progress := 0 }) ∧
    (∀ k, (i.sample k (!x)) = i) ∧ (n ≤ f → (j.sample f (!x)) = i)

/-- Set Position (R20, R13, R2, R18): its three cases, the adjustments of each parameter, the re-clamps of V and I, the
restart of the encoder filters, and the stall that a shortened timeout brings. Code 0 of direction invert is set (log 15),
a code that names neither value is refused (log 16), and a filter set to its own value does not restart (log 35). -/
def Obligations.SetPosition : Prop :=
  ∀ (tag : Byte) (a : PositionArgs) (s : State) (f : Frame) (rest : List Frame),
    Taking s tag (.setPosition a) f rest →
    let offOnly := a.lineRatio.isSome || a.avgExp.isSome || a.encFilter.isSome || a.invert.isSome
    (s.ptu.state ≠ .off → offOnly = true →
      exec (.setPosition tag a) s = .next (answered f .wrongState [] (s.took rest))) ∧
    (s.ptu.state = .off ∨ offOnly = false →
      (∃ r, a.lineRatio = some r ∧ (r < 256 ∨ 4194304 < r)) ∨ (∃ x, a.invert = some x ∧ 2 ≤ x) →
      exec (.setPosition tag a) s = .next (answered f .badValue [] (s.took rest))) ∧
    (s.ptu.state = .off ∨ offOnly = false → (∀ r, a.lineRatio = some r → 256 ≤ r ∧ r ≤ 4194304) →
      (∀ x, a.invert = some x → x ≤ 1) →
      let p := s.ptu.params
      let q : PtuParams := {
        lineRatio := a.lineRatio.getD p.lineRatio
        avgExp := (a.avgExp.map (min · 5)).getD p.avgExp
        encFilter := (a.encFilter.map fun x =>
          if x = 0 then 0 else if x ≤ 2 then 2 else if x ≤ 4 then 4 else if x ≤ 8 then 8 else 16).getD p.encFilter
        invert := (a.invert.map (· == 0)).getD p.invert
        kp := (a.kp.map (min · 65535)).getD p.kp
        ki := (a.ki.map (min · 65535)).getD p.ki
        ilim := (a.ilim.map (min · (2 ^ 31 - 1))).getD p.ilim
        vmax := (a.vmax.map fun x => max 1 (min x (2 ^ 32 - 1))).getD p.vmax
        slip := (a.slip.map fun x => max 65536 (min x 16777216)).getD p.slip
        stallTimeout := (a.stall.map fun x => max 25000 (min x 16777215)).getD p.stallTimeout }
      let moved := q.encFilter ≠ p.encFilter
      let u := { s.ptu with
        params := q
        encA := if moved then { s.ptu.encA with progress := 0 } else s.ptu.encA
        encB := if moved then { s.ptu.encB with progress := 0 } else s.ptu.encB
        v := if a.vmax.isSome then min s.ptu.v q.vmax else s.ptu.v
        i := if a.ilim.isSome then max (-(q.ilim : Int)) (min s.ptu.i q.ilim) else s.ptu.i }
      let late := a.stall.isSome = true ∧ ∃ e, s.ptu.stall = some e ∧ q.stallTimeout ≤ e
      (¬ late → exec (.setPosition tag a) s = .next (answered f .ok q.payload ((s.took rest).setPtu u))) ∧
      (late → exec (.setPosition tag a) s = .next (answered f .ok q.payload
        (submit (.ptuState .stopped .stall) (submit (.stall s.ptu.state) ((s.took rest).setPtu
          { u with v := 0, i := 0, history := [], mark := none, stall := none, state := .stopped }))))))

/-- Position On and Position Off (R14, R21, R22): from OFF to STOPPED with the history cleared and I and V 0, M and S as
they are; and to OFF from any other state, with V 0 and the stall timer stopped, everything else kept and an advance not
yet presented dropped (log 10). Position On outside OFF is refused, and Position Off in OFF changes nothing. -/
def Obligations.PositionOnOff : Prop :=
  ∀ (tag : Byte) (s : State) (f : Frame) (rest : List Frame),
    (Taking s tag .positionOn f rest →
      (s.ptu.state = .off → exec (.positionOn tag) s = .next (answered f .ok [] (submit (.ptuState .stopped .command)
        ((s.took rest).setPtu { s.ptu with history := [], mark := none, i := 0, v := 0, state := .stopped })))) ∧
      (s.ptu.state ≠ .off → exec (.positionOn tag) s = .next (answered f .wrongState [] (s.took rest)))) ∧
    (Taking s tag .positionOff f rest →
      (s.ptu.state = .off → exec (.positionOff tag) s = .next (answered f .ok [] (s.took rest))) ∧
      (s.ptu.state ≠ .off → exec (.positionOff tag) s = .next (answered f .ok [] (submit (.ptuState .off .command)
        ((s.took rest).setPtu
          { s.ptu with state := .off, v := 0, stall := none, presented := s.ptu.s / 2 ^ 24 })))))


/-! ## The trigger input -/

/-- A level taken at the trigger input (R42, R43, R45): the pending set comes into force, the level is read under it, and
the row of R43 for the state applies; a timer of 0 expires as it starts. The two rows stand for the level that reads as
active, or inactive, under the set that comes into force, and a level already taken is no event (log 4). -/
def Obligations.TriggerInputLevel : Prop :=
  ∀ s : State,
    let q := s.trig.newParams.getD s.trig.params
    let t (x : Bool) := { s.trig with params := q, newParams := none, input := s.trig.input.take x }
    (s.trig.input.seen = !q.activeLow → exec .triggerInputActive s = .next s) ∧
    (s.trig.input.seen = q.activeLow → exec .triggerInputInactive s = .next s) ∧
    (s.trig.input.seen = q.activeLow →
      let t := t (!q.activeLow)
      (s.trig.state = .idle → exec .triggerInputActive s = .next (s.setTrig
        { t with state := .candidate, p := some (s.ptu.s / 2 ^ 24), t0 := some s.now })) ∧
      (∀ p b, s.trig.state = .dropout → s.trig.p = some p → s.trig.t0 = some b →
        (s.now - b < q.minOn * 25 → exec .triggerInputActive s = .next (s.setTrig
          { t with state := .candidate, timer := none })) ∧
        (q.minOn * 25 ≤ s.now - b → exec .triggerInputActive s = .next (deliverTrigger p (s.setTrig
          { t with state := .qualified, timer := none })))) ∧
      (s.trig.state = .releasing → exec .triggerInputActive s = .next (s.setTrig
        { t with state := .qualified, timer := none })) ∧
      (s.trig.state = .candidate ∨ s.trig.state = .qualified → exec .triggerInputActive s = .next (s.setTrig t))) ∧
    (s.trig.input.seen = !q.activeLow →
      let t := t q.activeLow
      (∀ p, s.trig.state = .candidate → s.trig.p = some p →
        (q.dropout ≠ 0 → exec .triggerInputInactive s = .next (s.setTrig
          { t with state := .dropout, timer := some (.dropout, s.now + q.dropout * 25) })) ∧
        (q.dropout = 0 → exec .triggerInputInactive s = .next (submit (.glitch p) (bump (.trigger .glitch) (s.setTrig
          { t with state := .idle, p := none, t0 := none, timer := none }))))) ∧
      (s.trig.state = .qualified →
        (q.minOff ≠ 0 → exec .triggerInputInactive s = .next (s.setTrig
          { t with state := .releasing, timer := some (.minOff, s.now + q.minOff * 25) })) ∧
        (q.minOff = 0 → exec .triggerInputInactive s = .next (s.setTrig
          { t with state := .idle, p := none, t0 := none, timer := none }))) ∧
      (s.trig.state = .idle ∨ s.trig.state = .dropout ∨ s.trig.state = .releasing →
        exec .triggerInputInactive s = .next (s.setTrig t)))

/-- The qualifier's times (R43): min_on elapsing in CANDIDATE delivers the trigger, the dropout timer's expiry counts a
GLITCH, the min_off timer's expiry ends the pulse. Before its time, or in another state, each is void (log 3). -/
def Obligations.TriggerTimes : Prop :=
  ∀ s : State,
    (∀ p b, s.trig.state = .candidate → s.trig.p = some p → s.trig.t0 = some b →
      (s.trig.params.minOn * 25 ≤ s.now - b → exec .minOnElapsed s = .next (deliverTrigger p (s.setTrig
        { s.trig with state := .qualified, timer := none }))) ∧
      (s.now - b < s.trig.params.minOn * 25 → exec .minOnElapsed s = .next s)) ∧
    (∀ p e, s.trig.state = .dropout → s.trig.p = some p → s.trig.timer = some (.dropout, e) →
      (e ≤ s.now → exec .dropoutExpiry s = .next (submit (.glitch p) (bump (.trigger .glitch) (s.setTrig
        { s.trig with state := .idle, p := none, t0 := none, timer := none })))) ∧
      (s.now < e → exec .dropoutExpiry s = .next s)) ∧
    (∀ e, s.trig.state = .releasing → s.trig.timer = some (.minOff, e) →
      (e ≤ s.now → exec .minOffExpiry s = .next (s.setTrig
        { s.trig with state := .idle, p := none, t0 := none, timer := none })) ∧
      (s.now < e → exec .minOffExpiry s = .next s)) ∧
    (s.trig.state ≠ .candidate → exec .minOnElapsed s = .next s) ∧
    (s.trig.state ≠ .dropout → exec .dropoutExpiry s = .next s) ∧
    (s.trig.state ≠ .releasing → exec .minOffExpiry s = .next s)

/-- Set Trigger (R45): a polarity that is neither of the two is refused; otherwise the clamped full set becomes pending,
with absent fields filled from the values in force, and the answer carries it. Codes 0 and 1 are ACTIVE_HIGH and
ACTIVE_LOW, as chapter 10's lists are coded (log 15). -/
def Obligations.SetTrigger : Prop :=
  ∀ (tag : Byte) (a : TriggerArgs) (s : State) (f : Frame) (rest : List Frame), Taking s tag (.setTrigger a) f rest →
    ((∃ x, a.polarity = some x ∧ 2 ≤ x) →
      exec (.setTrigger tag a) s = .next (answered f .badValue [] (s.took rest))) ∧
    ((∀ x, a.polarity = some x → x ≤ 1) →
      let p := s.trig.params
      let q : TrigParams := {
        activeLow := (a.polarity.map (· == 1)).getD p.activeLow
        minOn := (a.minOn.map fun x => max 1 (min x 65535)).getD p.minOn
        dropout := (a.dropout.map (min · 65535)).getD p.dropout
        minOff := (a.minOff.map (min · 65535)).getD p.minOff }
      exec (.setTrigger tag a) s = .next (answered f .ok
        (byte (if q.activeLow then 1 else 0) :: (leBytes 2 q.minOn ++ leBytes 2 q.dropout ++ leBytes 2 q.minOff))
        ((s.took rest).setTrig { s.trig with newParams := some q })))

/-- The ruling on a trigger (R31, R32, R34), as Soft Trigger delivers it (R46): the five cases in their order, with the
counter, the notice and the answer of each. An activation is R35 and R36 for the oldest QUEUED record, with the chain
condition tested behind it (R33) and then the retirement check, which the statements of activation and of retirement spell
out; nothing is chained where the record behind is TRIGGERED. The layout of the payload is log 28. -/
def Obligations.SoftTrigger : Prop :=
  ∀ (tag : Byte) (s : State) (f : Frame) (rest : List Frame), Taking s tag .softTrigger f rest → s.Inv →
    let p := s.ptu.s / 2 ^ 24
    let refusedAs (r : TrigRefusal) (c : TrigCounter) (early : Option (Nat × Nat)) :=
      exec (.softTrigger tag) s = .next (answered f .ok (leBytes 6 p ++ [1, byte r.code])
        (submit (.triggerRefused r p early) (bump (.trigger c) (s.took rest))))
    (s.jobs.print = false → refusedAs .ignored .ignored none) ∧
    (s.jobs.print = true → s.ptu.state ≠ .tracking → refusedAs .notTracking .notTracking none) ∧
    (s.jobs.print = true → s.ptu.state = .tracking →
      ((∀ r ∈ s.jobs.records, r.active.isSome = true) → refusedAs .orphan .orphan none) ∧
      ∀ pre r post, s.jobs.records = pre ++ r :: post → (∀ x ∈ pre, x.active.isSome = true) → r.active = none →
        (r.mode = .chained → pre ≠ [] → refusedAs .orphan .orphan none) ∧
        (r.mode = .triggered ∨ pre = [] →
          let t := p + match r.mode with
            | .triggered => r.delay
            | .chained => 0
          (∀ lt ll, s.jobs.lastT = some lt → s.jobs.lastL = some ll → t < lt + (ll + r.gap) * 256 →
            refusedAs .early .early (some (r.id, t))) ∧
          (s.jobs.lastT = none ∨ (∃ lt ll, s.jobs.lastT = some lt ∧ s.jobs.lastL = some ll ∧
              lt + (ll + r.gap) * 256 ≤ t) →
            let v := activateRecord r t (bump (.trigger .delivered) (s.took rest))
            let ok (u : State) := exec (.softTrigger tag) s = .next (answered f .ok
              (leBytes 6 p ++ [0] ++ leBytes 2 r.id ++ leBytes 6 t) (retireIfEmpty r.id u))
            ok (testChain v) ∧ ((∀ y ∈ post.head?, y.mode = .triggered) → ok v))))

/-! ## Jobs -/

/-- A job frame taken (R27, R28, R29, R33): the five cases in their order; an accepted record is appended QUEUED with its
first lines, the counters of its planes move on by L, and the chain condition is tested. -/
def Obligations.JobFrame : Prop :=
  ∀ (tag : Byte) (fields : Option JobFields) (s : State) (f : Frame) (rest : List Frame),
    Taking s tag (.job fields) f rest →
    (fields = none → exec (.jobFrame tag fields) s = .next (answered f .malformed [] (s.took rest))) ∧
    ∀ j, fields = some j →
      let dup := ∃ r ∈ s.jobs.records, r.id = j.id
      let bad := j.length = 0 ∨ 1048575 < j.length ∨ j.planes = [] ∨ (∃ p ∈ j.planes, (s.plane p).width = 0) ∨
        2 ≤ j.mode ∨ 65535 < j.gap ∨ 16777215 < j.delay ∨
        ∃ p ∈ j.planes, 2 ^ 32 < s.jobs.next.get p + j.length
      let r : JobRec := {
        id := j.id, length := j.length, planes := j.planes.map fun p => ⟨p, s.jobs.next.get p⟩,
        mode := if j.mode = 0 then .triggered else .chained, delay := j.delay, gap := j.gap, tag := j.tag,
        active := none }
      let ok (t : State) := exec (.jobFrame tag fields) s = .next (answered f .ok
        (leBytes 2 j.id ++ [byte j.planes.length, 0] ++
          j.planes.flatMap fun p => byte p.val :: leBytes 4 (s.jobs.next.get p)) t)
      (32 ≤ s.jobs.records.length →
        exec (.jobFrame tag fields) s = .next (answered f .queueFull [] (s.took rest))) ∧
      (s.jobs.records.length < 32 → dup →
        exec (.jobFrame tag fields) s = .next (answered f .duplicate [] (s.took rest))) ∧
      (s.jobs.records.length < 32 → ¬ dup → bad →
        exec (.jobFrame tag fields) s = .next (answered f .badValue [] (s.took rest))) ∧
      (s.jobs.records.length < 32 → ¬ dup → ¬ bad → ∀ q : JobQueue,
        q = { s.jobs with
          records := s.jobs.records ++ [r]
          next := Vector.ofFn fun p => s.jobs.next.get p + if p ∈ j.planes then j.length else 0 } →
        (q.Unchained → ok ((s.took rest).setJobs q)) ∧
        (s.Inv → s.jobs.print = true → j.mode = 1 → ∀ pre b a, s.jobs.records = pre ++ [b] →
          (∀ x ∈ pre, x.active.isSome = true) → b.active = some a →
          ok (retireIfEmpty j.id (activateRecord r (a.t + (b.length + j.gap) * 256) ((s.took rest).setJobs q)))))

/-- Print On and Print Off (R30, R33): the print state, and at Print On the test of the chain condition, with the cascade
of the CHAINED records behind the one that activates. -/
def Obligations.PrintOnOff : Prop :=
  ∀ (tag : Byte) (s : State) (f : Frame) (rest : List Frame),
    (Taking s tag .printOff f rest → exec (.printOff tag) s = .next (answered f .ok []
      ((s.took rest).setJobs { s.jobs with print := false }))) ∧
    (Taking s tag .printOn f rest →
      (s.jobs.print = true → exec (.printOn tag) s = .next (answered f .ok [] (s.took rest))) ∧
      (s.jobs.print = false →
        let q := { s.jobs with print := true }
        (q.Unchained → exec (.printOn tag) s = .next (answered f .ok [] ((s.took rest).setJobs q))) ∧
        ∀ pre b a r post, s.Inv → s.jobs.records = pre ++ b :: r :: post → (∀ x ∈ pre, x.active.isSome = true) →
          b.active = some a → r.active = none → r.mode = .chained →
          let v := activateRecord r (a.t + (b.length + r.gap) * 256) ((s.took rest).setJobs q)
          let ok (u : State) := exec (.printOn tag) s = .next (answered f .ok [] (retireIfEmpty r.id u))
          ok (testChain v) ∧ ((∀ y ∈ post.head?, y.mode = .triggered) → ok v)))

/-- Activation (R33, R35, R36). Steps 1 to 4: the record is ACTIVE at T and bound to the ACTIVE bank, whose bound count
rises; the takers of each plane are the enabled heads the bank assigns to it, and progress is their number; the slots of
the range in the window get the takers, or are SPENT where the plane has none; last_T and last_L are set; JOB_STARTED is
submitted; and then each taker that is IDLE, in increasing order (log 9), comes to line 0, where it waits, starts its
preload (its fire record waits behind a train record, log 42), or ends its DISCARD transmission first, here where line 0 is
not yet due. Step 5: the chain condition activates
the record behind with T from its predecessor, and the test repeats behind it; without the condition nothing changes. A
job that its dues end in step 4 is no predecessor in step 5 (log 36). -/
def Obligations.RecordActivates : Prop :=
  (∀ (s : State) (pre post : List JobRec) (r : JobRec) (start : Nat), s.Inv →
    s.jobs.records = pre ++ r :: post → r.active = none →
    let b := s.banks.active
    let takers (p : Plane) := allHeads.filter fun h =>
      ((s.banks.tables b).head h).plane == some p && (s.head h).enabled
    let a : Activation := {
      t := start, bank := b, takers := r.planes.map fun x => (x.plane, takers x.plane)
      progress := (r.planes.map fun x => (takers x.plane).length).sum, fired := 0, shortfall := 0 }
    ∃ m, activateRecord r start s = handToHeads r.id
        (allHeads.filter fun h => r.planes.any fun x => (takers x.plane).contains h)
        (submit (.jobStarted r.id start b r.tag) m) ∧
      m.jobs = { s.jobs with
        records := pre ++ { r with active := some a } :: post, lastT := some start, lastL := some r.length } ∧
      m.banks.active = b ∧ m.banks.other = s.banks.other ∧
      (∀ i, m.banks.tables i = s.banks.tables i ∧ m.banks.bound i = s.banks.bound i + if i = b then 1 else 0) ∧
      m.heads = s.heads ∧ m.lanes = s.lanes ∧ m.ptu = s.ptu ∧ m.trig = s.trig ∧ m.notices = s.notices ∧
      (∀ p, (∀ x ∈ r.planes, x.plane ≠ p) → m.plane p = s.plane p) ∧
      ∀ x ∈ r.planes, ∀ n, x.first ≤ n → n < x.first + r.length → (s.plane x.plane).base ≤ n →
        n < (s.plane x.plane).base + (s.plane x.plane).depth →
        let v := (s.plane x.plane).slot n
        let y := m.plane x.plane
        (takers x.plane ≠ [] → v.state ≠ .spent → y.slot n = { v with takers := some (takers x.plane) }) ∧
        (takers x.plane = [] → n < y.base ∨ (y.slot n).state = .spent)) ∧
  (∀ (s : State) (id : Nat) (hs : List Head),
    (∀ h v, h ∈ hs → s.jobView h id = some v → s.ptu.s / 2 ^ 24 < v.due h 0) →
    let t := handToHeads id hs s
    let c : Cursor := ⟨id, 0⟩
    t.jobs = s.jobs ∧ t.banks = s.banks ∧ t.notices = s.notices ∧ t.ptu = s.ptu ∧ ∀ h,
      let x := s.head h
      let l := s.lane h
      (h ∉ hs ∨ x.state ≠ .idle → t.head h = x ∧ t.lane h = l) ∧
      (h ∈ hs → x.state = .idle →
        (∀ z, x.inFlight = some z → t.lane h = l ∧ t.head h = { x with cursor := some c, state := .discarding }) ∧
        (x.inFlight = none →
          ((t.lane h = l ∧ t.head h = { x with cursor := some c, state := .waitingLine }) ∨
            (l.state = .up ∧ l.hold.seen = false ∧
              t.head h = { x with cursor := some c, state := .loading, inFlight := some ⟨c, .keep⟩ })) ∧
          ∀ v px ts, s.jobView h id = some v → l.state = .up → l.hold.seen = false →
            (s.plane v.plane).base ≤ v.first → v.first < (s.plane v.plane).base + (s.plane v.plane).depth →
            ((s.plane v.plane).slot v.first).state = .ready px → ((s.plane v.plane).slot v.first).takers = some ts →
            h ∈ ts → (t.head h).state = .loading ∧ t.lane h = l.send (.fire (fireRecord h v 0 px l.band))))) ∧
  ∀ s : State,
    (s.jobs.Unchained → testChain s = s) ∧
    ∀ pre b a y post, s.Inv → s.jobs.print = true → s.jobs.records = pre ++ b :: y :: post →
      (∀ x ∈ pre, x.active.isSome = true) → b.active = some a → y.active = none → y.mode = .chained →
      testChain s = retireIfEmpty y.id (testChain (activateRecord y (a.t + (b.length + y.gap) * 256) s))

/-- Reports and retirement (R36, R37, R38, R142, R150). A report adds to the fired or the shortfall total, and the one of
the last line lowers the progress; where the progress comes to 0, and at an activation without takers, the record leaves
the queue, its bank's bound count goes down by one, a DRAINING bank without a job left begins its copy, and JOB_DONE is
submitted with the totals. A report for a job that has left the queue is dropped. At an advance, the last due of the last
taker retires the job and leaves the head IDLE, here where no other head holds a cursor, no later job has the head, and no
downshift is pending. -/
def Obligations.RecordRetires : Prop :=
  (∀ (s : State) (id n : Nat) (fired : Bool), (∀ r ∈ s.jobs.records, r.id ≠ id) → report id n fired true s = s) ∧
  ∀ (s : State) (pre post : List JobRec) (r : JobRec) (a : Activation), s.Inv →
    s.jobs.records = pre ++ r :: post → r.active = some a →
    let unbound (b : Banks) := b.active = s.banks.active ∧
      b.other = (if s.banks.other = .draining ∧ a.bank = s.banks.otherId ∧ s.banks.bound a.bank = 1 then .copying 0
        else s.banks.other) ∧
      ∀ i, b.tables i = s.banks.tables i ∧ b.bound i = s.banks.bound i - if i = a.bank then 1 else 0
    let left := { s.jobs with records := pre ++ post }
    let retired (fired shortfall : Nat) (t : State) := ∃ b : Banks, unbound b ∧
      t = submit (.jobDone r.id fired shortfall r.tag) ((s.setJobs left).setBanks b)
    (0 < a.progress → retireIfEmpty r.id s = s) ∧
    (a.progress = 0 → retired a.fired a.shortfall (retireIfEmpty r.id s)) ∧
    (∀ n fired,
      let f := a.fired + if fired then 1 else 0
      let m := a.shortfall + if fired then 0 else 1
      let told (progress : Nat) := s.setJobs { s.jobs with
        records := pre ++ { r with active := some ⟨a.t, a.bank, a.takers, progress, f, m⟩ } :: post }
      (n + 1 ≠ r.length → report r.id n fired true s = told a.progress) ∧
      (n + 1 = r.length → 1 < a.progress → report r.id n fired true s = told (a.progress - 1)) ∧
      (n + 1 = r.length → a.progress ≤ 1 → retired f m (report r.id n fired true s))) ∧
    ∀ h c v, s.ptu.state ≠ .off → s.ptu.presented < s.ptu.s / 2 ^ 24 → (s.head h).cursor = some c → c.job = r.id →
      s.jobView h r.id = some v → v.due h c.index ≤ s.ptu.s / 2 ^ 24 → c.index + 1 = r.length → a.progress = 1 →
      (∀ y ∈ post, y.takenBy h = false) → (s.lane h).downshift = false → (∀ i, i ≠ h → (s.head i).cursor = none) →
      ∃ t, exec .advance s = .next t ∧ t.jobs = left ∧ unbound t.banks ∧ (t.head h).cursor = none ∧
        (t.head h).state = .idle

/-- Abort Job (R33, R39, R40, R66, R83, R84, R91): no record of the id is refused; a QUEUED record leaves with its lines
given up and JOB_ABORTED queued, and the chain condition is tested; an ACTIVE record leaves with its totals and its bank
unbound. Each taker of an ACTIVE record skips its cursor line and every later line, or the whole job where it has not come
to it, and the skips are counted and stand in the totals (log 23); a head on the job goes to its next job, or IDLE, its
transmission in flight DISCARD, here where no downshift is pending and line 0 of the next job is not yet due. In every
case every line of the range in the window at the abort is SPENT, or left behind by the base line. -/
def Obligations.AbortJob : Prop :=
  ∀ (tag : Byte) (id : Nat) (s : State) (f : Frame) (rest : List Frame), Taking s tag (.abortJob id) f rest →
    ((∀ r ∈ s.jobs.records, r.id ≠ id) →
      exec (.abortJob tag id) s = .next (answered f .noSuchJob [] (s.took rest))) ∧
    (s.Inv → ∀ r ∈ s.jobs.records, r.id = id →
      let q := { s.jobs with records := s.jobs.records.filter fun x => x.id != id }
      (r.active = none →
        let v := submit (.jobAborted id false 0 0 r.tag) (giveUpRecord r ((s.took rest).setJobs q))
        exec (.abortJob tag id) s = .next (answered f .ok [] (testChain v)) ∧
          (q.Unchained → exec (.abortJob tag id) s = .next (answered f .ok [] v))) ∧
      (∀ a, r.active = some a → (∀ h, (s.head h).cursor = none) →
        exec (.abortJob tag id) s = .next (answered f .ok []
          (submit (.jobAborted id true a.fired a.shortfall r.tag) (unbindBank a.bank
            ((giveUpRecord r (s.took rest)).setJobs q))))) ∧
      (∀ a pre post, r.active = some a → s.jobs.records = pre ++ r :: post →
        let onIt (h : Head) := r.takenBy h = true ∧ (s.head h).cursor.map Cursor.job = some id
        let next (h : Head) := post.find? fun y => y.takenBy h
        let skips (h : Head) := match (s.head h).cursor with
          | none => 0
          | some c => if r.takenBy h = false then 0 else if c.job = id then r.length - c.index
            else if pre.any (fun y => y.id == c.job) then r.length else 0
        (∀ h, onIt h → (s.lane h).downshift = false) →
        (∀ h y v, onIt h → next h = some y → s.jobView h y.id = some v → s.ptu.s / 2 ^ 24 < v.due h 0) →
        ∃ u, exec (.abortJob tag id) s = .next (answered f .ok []
            (submit (.jobAborted id true a.fired (a.shortfall + (allHeads.map skips).sum) r.tag) u)) ∧
          u.jobs = q ∧ u.ptu = s.ptu ∧ u.trig = s.trig ∧
          u.notices = { s.notices with counters := u.notices.counters } ∧
          (∀ h, u.counter (.head .skipped h) = min (2 ^ 32 - 1) (s.counter (.head .skipped h) + skips h)) ∧
          u.banks.active = s.banks.active ∧
          u.banks.other = (if s.banks.other = .draining ∧ a.bank = s.banks.otherId ∧ s.banks.bound a.bank = 1 then
            .copying 0 else s.banks.other) ∧
          (∀ i, u.banks.tables i = s.banks.tables i ∧
            u.banks.bound i = s.banks.bound i - if i = a.bank then 1 else 0) ∧
          ∀ h, let x := s.head h
            (¬ onIt h → u.head h = x ∧ u.lane h = s.lane h) ∧
            (onIt h → next h = none → u.lane h = s.lane h ∧ u.head h = {
              x with
              cursor := none, state := .idle, inFlight := x.inFlight.map fun z => { z with fate := .discard } }) ∧
            ∀ y, onIt h → next h = some y →
              let c : Cursor := ⟨y.id, 0⟩
              (∀ z, x.inFlight = some z → u.lane h = s.lane h ∧ u.head h = {
                x with cursor := some c, state := .discarding, inFlight := some { z with fate := .discard } }) ∧
              (x.inFlight = none →
                (u.lane h = s.lane h ∧ u.head h = { x with cursor := some c, state := .waitingLine }) ∨
                ((s.lane h).state = .up ∧ (s.lane h).hold.seen = false ∧
                  u.head h = { x with cursor := some c, state := .loading, inFlight := some ⟨c, .keep⟩ }))) ∧
      ∃ t, exec (.abortJob tag id) s = .next t ∧ (∀ x ∈ t.jobs.records, x.id ≠ id) ∧
        ∀ x ∈ r.planes, ∀ n, x.first ≤ n → n < x.first + r.length →
          (s.plane x.plane).base ≤ n → n < (s.plane x.plane).base + (s.plane x.plane).depth →
          n < (t.plane x.plane).base ∨ ((t.plane x.plane).slot n).state = .spent)

/-- The commands that read (R41, R144, R146, R186, R187): each answers what its rule names, and changes nothing. Read
Status carries the items of every block one after the other, Read Table the entries, the geometry, the bands or the drop
values of the bank selected. The layouts of the payloads are logs 26, 27 and 28, and two-valued fields are coded as log 15
has it. -/
def Obligations.ReadCommandsChangeNothing : Prop :=
  ∀ (tag : Byte) (s : State) (f : Frame) (rest : List Frame),
    (∀ id, Taking s tag (.queryJob id) f rest →
      ((∀ r ∈ s.jobs.records, r.id ≠ id) →
        exec (.queryJob tag id) s = .next (answered f .noSuchJob [] (s.took rest))) ∧
      ∀ pre r post, s.jobs.records = pre ++ r :: post → r.id = id → (∀ x ∈ pre, x.id ≠ id) →
        exec (.queryJob tag id) s = .next (answered f .ok
          ([byte pre.length, byte (if r.active.isNone then 0 else 1)] ++ leBytes 3 r.length ++ [byte r.mode.code] ++
            leBytes 3 r.delay ++ leBytes 2 r.gap ++ optField 4 r.tag ++
            (r.planes.flatMap fun x => byte x.plane.val :: leBytes 4 x.first) ++
            match r.active with
            | none => []
            | some a => leBytes 6 a.t ++ [byte a.bank.val] ++
              (a.takers.flatMap fun x => byte x.2.length :: x.2.map fun h => byte h.val) ++
              [byte a.progress] ++ leBytes 4 a.fired ++ leBytes 4 a.shortfall) (s.took rest))) ∧
    (Taking s tag .readStatus f rest →
      let on (b : Bool) := byte (if b then 0 else 1)
      let ptu := [byte ([PtuState.off, .stopped, .acquiring, .tracking, .holding].idxOf s.ptu.state)] ++
        leBytes 5 (s.ptu.s / 2 ^ 32) ++ leBytes 4 s.ptu.v ++ leSigned 4 s.ptu.i ++ leSigned 7 s.ptu.m
      let trig := [byte ([TrigState.idle, .candidate, .dropout, .qualified, .releasing].idxOf s.trig.state)]
      let jobs := [on s.jobs.print, byte s.jobs.records.length] ++
        (match s.jobs.records with
          | [] => [0]
          | r :: _ => 1 :: leBytes 2 r.id) ++ [byte (s.jobs.records.filter fun r => r.active.isSome).length]
      let store := (allPlanes.flatMap fun p => leBytes 5 (s.plane p).base) ++
        (allPlanes.flatMap fun p => leBytes 5 (s.jobs.next.get p)) ++
        (allPlanes.flatMap fun p => leBytes 2 (s.plane p).fill) ++
        allPlanes.map fun p => byte (if (s.plane p).paused then 1 else 0)
      let heads := (allHeads.map fun h => on (s.head h).enabled) ++
        (allHeads.map fun h => byte ([HeadState.idle, .waitingLine, .loading, .loaded, .discarding, .void].idxOf
          (s.head h).state)) ++
        allHeads.flatMap fun h => match (s.head h).cursor with
          | none => [0]
          | some c => 1 :: (leBytes 2 c.job ++ leBytes 3 c.index)
      let lanes := (allHeads.map fun h => byte ([LaneState.down, .negotiating, .training, .up, .faulted].idxOf
          (s.lane h).state)) ++
        (allHeads.map fun h => match (s.lane h).grade with
          | none => 0
          | some g => byte (1 + [Grade.a, .b, .c, .d, .e, .f].idxOf g)) ++
        (allHeads.map fun h => match (s.lane h).band with
          | none => 0xFF
          | some i => byte i) ++
        (allHeads.map fun h => on (s.lane h).hold.seen) ++ allHeads.map fun h => on (s.lane h).fault.seen
      let bank (i : BankId) := byte (if i = s.banks.active then 0 else match s.banks.other with
        | .shadow => 1
        | .draining => 2
        | .copying _ => 3)
      let banks := [bank 0, bank 1, byte (s.banks.bound 0), byte (s.banks.bound 1)]
      let flags := allConditions.filter s.condition
      let notices := byte flags.length :: (flags.flatMap fun c => [byte c.codes.1, byte c.codes.2]) ++
        [byte s.notices.queue.length, byte s.notices.lost, on s.notices.batchWaiting]
      exec (.readStatus tag) s = .next (answered f .ok
        (ptu ++ trig ++ jobs ++ store ++ heads ++ lanes ++ banks ++ notices) (s.took rest))) ∧
    (∀ g, Taking s tag (.readCounters g) f rest →
      let values (l : List CounterName) := l.flatMap fun c => leBytes 4 (s.counter c)
      let heads := [HeadCounter.fired, .underrun, .late, .missedHold, .missedFault, .missedDown, .skipped].flatMap
        fun c => allHeads.map (CounterName.head c)
      let planes := [PlaneCounter.stored, .replaced, .refusedLate, .refusedAhead, .refusedNoJob,
        .refusedMalformed].flatMap fun c => allPlanes.map (CounterName.plane c)
      let link := [LinkCounter.framesOk, .framesBad, .controlDropped, .linesDiscardedLoading].map CounterName.link
      let trigger := [TrigCounter.delivered, .ignored, .notTracking, .orphan, .early, .glitch].map CounterName.trigger
      (5 ≤ g → exec (.readCounters tag g) s = .next (answered f .badValue [] (s.took rest))) ∧
      ∀ l, [heads, planes, link, trigger, heads ++ planes ++ link ++ trigger][g]? = some l →
        exec (.readCounters tag g) s = .next (answered f .ok (values l) (s.took rest))) ∧
    (∀ a, Taking s tag (.readTable a) f rest →
      (a = none → exec (.readTable tag a) s = .next (answered f .malformed [] (s.took rest))) ∧
      ∀ x, a = some x →
        (x.selector = .shadow → s.banks.other ≠ .shadow →
          exec (.readTable tag a) s = .next (answered f .bankBusy [] (s.took rest))) ∧
        ∀ b, (x.selector = .active ∧ b = s.banks.active ∨
            x.selector = .shadow ∧ s.banks.other = .shadow ∧ b = s.banks.otherId) →
          let good : Prop := match x.kind, x.target with
            | .nozzleRange, .head n => n < 16 ∧ x.first ≤ 2047 ∧ 1 ≤ x.count ∧ x.count ≤ 256 ∧ x.first + x.count ≤ 2048
            | .geometry, .head n => n < 16
            | .bands, .head n => n < 16
            | .dropMap, .plane n => n < 4
            | _, _ => False
          let ok (bs : List Byte) :=
            exec (.readTable tag a) s = .next (answered f .ok (byte b.val :: bs) (s.took rest))
          (¬ good → exec (.readTable tag a) s = .next (answered f .badValue [] (s.took rest))) ∧
          (good →
            (∀ p : Plane, x.target = .plane p.val → ok ((List.finRange 4).map fun v =>
              byte (((s.banks.tables b).drops.get p).get v).val)) ∧
            ∀ h : Head, x.target = .head h.val →
              let y := (s.banks.tables b).head h
              (x.kind = .nozzleRange → ok ((List.range x.count).flatMap fun k => leBytes 4
                (match y.entry (x.first + k) with
                  | .off => 0
                  | .pixel c => 1 + c * 2 ^ 4
                  | .stitchLow c v => 2 + c * 2 ^ 4 + v * 2 ^ 18
                  | .stitchHigh c v => 3 + c * 2 ^ 4 + v * 2 ^ 18
                  | .dead c k v => 4 + (if v then 2 ^ 3 else 0) + c * 2 ^ 4 + k * 2 ^ 18))) ∧
              (x.kind = .geometry → ok ([byte (match y.plane with
                  | some p => p.val
                  | none => 4)] ++ leBytes 2 y.nozzles ++ leBytes 3 y.offset ++ [byte (if y.reverse then 0 else 1)])) ∧
              (x.kind = .bands → ok (byte y.bands.length :: y.bands.flatMap fun z => [byte z.bound, byte z.waveform]))))

/-! ## The Line Store -/

/-- A line frame (R56, R57, R58, R59, R67, R68, R77, R78, R157): discarded and counted while the loader runs, else ruled on
by the rows of R56 in their order. A stored line makes its slot READY, moves the paused flag by the watermark rule, and is
reported to the heads that wait for it: each taker in WAITING_LINE on that line, its lane UP without HOLD, starts its
preload (R77, R78), its fire record waiting where the lane still sends a train record (log 42), and no other head or lane
changes. -/
def Obligations.LineFrame : Prop :=
  ∀ (s : State) (d : Delivery) (p : Plane) (n : Nat) (px : List Dot), s.Inv → checkEnvelope d = .ok (.line p n px) →
    let x := s.plane p
    let t := bump (.link .framesOk) s
    let refusedAs (r : LineReason) (c : PlaneCounter) := exec (.lineFrame d) s =
      .next (submitCondition (.lineRefused p) (.lineRefused p r n) (bump (.plane c p) t))
    let y := x.setSlot n { x.slot n with state := .ready px }
    (s.loading = true → exec (.lineFrame d) s = .next (bump (.link .linesDiscardedLoading) t)) ∧
    (s.loading = false →
      (x.width = 0 ∨ px.length ≠ x.width → refusedAs .malformed .refusedMalformed) ∧
      (x.width ≠ 0 → px.length = x.width →
        (s.jobs.next.get p ≤ n → refusedAs .noJob .refusedNoJob) ∧
        (n < s.jobs.next.get p →
          (n < x.base ∨ (n < x.base + x.depth ∧ (x.slot n).state = .spent) → refusedAs .late .refusedLate) ∧
          (x.base + x.depth ≤ n → refusedAs .ahead .refusedAhead) ∧
          (x.base ≤ n → n < x.base + x.depth →
            (∀ q, (x.slot n).state = .ready q → (x.slot n).rendered = true → refusedAs .late .refusedLate) ∧
            (∀ q, (x.slot n).state = .ready q → (x.slot n).rendered = false →
              exec (.lineFrame d) s = .next ((bump (.plane .replaced p) t).setPlane p y)) ∧
            ((x.slot n).state = .expected →
              let b := bump (.plane .stored p) t
              let u := if x.paused = false ∧ x.high ≤ x.fill + 1 then
                  setFlowPending (b.setPlane p { y with paused := true })
                else if x.paused = true ∧ x.fill + 1 ≤ x.low then
                  setFlowPending (b.setPlane p { y with paused := false })
                else b.setPlane p y
              ((x.slot n).takers = none → exec (.lineFrame d) s = .next u) ∧
              ∀ ts, (x.slot n).takers = some ts →
                exec (.lineFrame d) s = .next (lineReady p n ts u) ∧
                ((∀ h ∈ ts, (s.head h).state ≠ .waitingLine) → exec (.lineFrame d) s = .next u) ∧
                let starts (h : Head) (c : Cursor) (v : JobView) := h ∈ ts ∧ (s.head h).state = .waitingLine ∧
                  (s.head h).cursor = some c ∧ s.jobView h c.job = some v ∧ v.plane = p ∧ v.line c.index = n ∧
                  (s.lane h).state = .up ∧ (s.lane h).hold.seen = false
                ∃ t, exec (.lineFrame d) s = .next t ∧ t.jobs = s.jobs ∧ t.notices = u.notices ∧ ∀ h,
                  ((∀ c v, ¬ starts h c v) → t.head h = s.head h ∧ t.lane h = s.lane h) ∧
                  ∀ c v, starts h c v →
                    t.head h = { s.head h with state := .loading, inFlight := some ⟨c, .keep⟩ } ∧
                    t.lane h = (s.lane h).send (.fire (fireRecord h v c.index px (s.lane h).band)) ∧
                    ((∀ g ∈ ts, g ≠ h → (s.head g).state ≠ .waitingLine) →
                      u.Preloads t h (s.lane h) c v px))))))

/-- A take of a line of the window by one of its takers (R61, R62, R64, R65): the head's reach is set, the head leaves
the takers, and the last one to leave makes the slot SPENT, drops its data, and lets the base line pass it. No other
plane changes. -/
def Obligations.LastTakerSpendsLine : Prop :=
  ∀ (s : State) (h : Head) (p : Plane) (n : Nat) (byRender : Bool) (ts : List Head), s.Inv →
    let x := s.plane p
    let t := takeLine h p n byRender s
    let y := t.plane p
    let left := ts.filter fun i => i != h
    x.base ≤ n → n < x.base + x.depth → n < s.jobs.next.get p → (x.slot n).takers = some ts →
    y.reach.get h = some n ∧ x.base ≤ y.base ∧ y.base ≤ s.jobs.next.get p ∧ (∀ p', p' ≠ p → t.plane p' = s.plane p') ∧
    (left ≠ [] → (x.slot n).state ≠ .spent → y.fill = x.fill ∧
      y.slot n = {
        state := (x.slot n).state, takers := some left, rendered := (x.slot n).rendered || byRender }) ∧
    (left = [] → (n = x.base → n < y.base) ∧ (n < y.base ∨ (y.slot n).state = .spent) ∧
      y.fill = x.fill - if (x.slot n).data.isSome then 1 else 0)

/-- Set Plane (R50, R51, R52, R53): its cases in their order, and the adjusted values with the slots re-formed. The ACTIVE
bank, and the SHADOW bank where one is SHADOW, must give the plane no head under a width of 0, no column at or beyond the
width and no spread beyond the depth, and the first failure in this order is named. The base line, the paused flag and the
heads' reach are kept. What a refusal of a plane number outside 0..3 carries, and that a failure follows the values in
force, is log 17; the bytes of a failure are log 18. -/
def Obligations.SetPlane : Prop :=
  ∀ (tag : Byte) (a : PlaneArgs) (s : State) (f : Frame) (rest : List Frame), Taking s tag (.setPlane a) f rest →
    let values (x : PlaneStore) := leBytes 2 x.width ++ leBytes 2 x.depth ++ leBytes 2 x.high ++ leBytes 2 x.low
    (4 ≤ a.plane → ∃ pl, exec (.setPlane tag a) s = .next (answered f .badValue pl (s.took rest))) ∧
    ∀ p : Plane, a.plane = p.val →
      let x := s.plane p
      let absent := a.width = none ∧ a.depth = none ∧ a.high = none ∧ a.low = none
      let depth := (a.depth.map fun v => max 16 (min v 16384)).getD x.depth
      let high := max 2 (min (a.high.getD x.high) depth)
      let y := { x with
        width := (a.width.map fun v => min (v / 64 * 64) 16384).getD x.width, depth := depth, high := high,
        low := max 1 (min (a.low.getD x.low) (high - 1)), slots := [] }
      let total := (allPlanes.map fun q => if q = p then depth else (s.plane q).depth).sum
      (absent → exec (.setPlane tag a) s = .next (answered f .ok (byte p.val :: values x) (s.took rest))) ∧
      (¬ absent → s.jobs.records ≠ [] →
        exec (.setPlane tag a) s = .next (answered f .wrongState (values x) (s.took rest))) ∧
      (¬ absent → s.jobs.records = [] →
        (32768 < total → exec (.setPlane tag a) s = .next (answered f .badValue (values x) (s.took rest))) ∧
        (total ≤ 32768 →
          (∀ e, checkPlaneBanks p y.width depth s.banks = some e → exec (.setPlane tag a) s =
            .next (answered f .invalidTables (values x ++ failureField e) (s.took rest))) ∧
          (checkPlaneBanks p y.width depth s.banks = none → exec (.setPlane tag a) s =
            .next (answered f .ok (byte p.val :: values y) ((s.took rest).setPlane p y))) ∧
          (s.Inv →
            let on (i : BankId) (h : Head) := ((s.banks.tables i).head h).plane = some p
            let offset (i : BankId) (h : Head) := ((s.banks.tables i).head h).offset
            let wide (i : BankId) (h : Head) (j : Nat) := on i h ∧ j < ((s.banks.tables i).head h).nozzles ∧
              ∃ c, (((s.banks.tables i).head h).entry j).column = some c ∧ y.width ≤ c
            let apart (i : BankId) (g h : Head) := on i g ∧ on i h ∧ depth < (offset i g - offset i h + 255) / 256 + 2
            let fits (i : BankId) := (∀ h, on i h → 0 < y.width) ∧ (∀ h j, ¬ wide i h j) ∧ ∀ g h, ¬ apart i g h
            let both := fits s.banks.active ∧ (s.banks.other = .shadow → fits s.banks.otherId)
            (checkPlaneBanks p y.width depth s.banks = none ↔ both) ∧
            ∀ e, checkPlaneBanks p y.width depth s.banks = some e →
              (¬ fits s.banks.active → e.bank = s.banks.active) ∧ (fits s.banks.active → e.bank = s.banks.otherId) ∧
              on e.bank e.head ∧
              match e.reason with
              | .geometry => y.width = 0 ∧ e.item = none ∧ ∀ g, on e.bank g → e.head.val ≤ g.val
              | .column => 0 < y.width ∧ ∃ j, e.item = some j ∧ wide e.bank e.head j ∧
                ∀ g k, wide e.bank g k → e.head.val < g.val ∨ e.head = g ∧ j ≤ k
              | .spread => 0 < y.width ∧ (∀ h j, ¬ wide e.bank h j) ∧ e.item = none ∧ (∃ g, apart e.bank e.head g) ∧
                ∀ g, on e.bank g → offset e.bank g < offset e.bank e.head ∨
                  offset e.bank g = offset e.bank e.head ∧ e.head.val ≤ g.val
              | .substitute | .stitch | .bands => False)))

/-- Stream Reset (R23, R47, R69, R70, R92, R136, R139, R152): the answer is OK, each block is as R69's table states, the
blocks it names are untouched, and the flow frame goes out, or becomes pending, only where a plane was paused. Then each
lane in UP with a downshift pending, whose head is IDLE now, carries it out, in increasing order (log 9). -/
def Obligations.StreamReset : Prop :=
  ∀ (tag : Byte) (s : State) (f : Frame) (rest : List Frame), Taking s tag .streamReset f rest →
    ∃ u, exec (.streamReset tag) s = .next (answered f .ok [] (forEach allHeads
        (fun h x => if (s.lane h).downshift = true ∧ (s.lane h).state = .up then x.downshifted h else x) u)) ∧
      u.jobs = { records := [], next := Vector.replicate 4 0, lastT := none, lastL := none, print := false } ∧
      u.trig = { s.trig with state := .idle, p := none, t0 := none, timer := none } ∧
      (∀ p, u.plane p = { s.plane p with
        base := 0, slots := [], paused := false, reach := Vector.replicate 16 none }) ∧
      (∀ h, u.head h = { s.head h with
        cursor := none, state := .idle, inFlight := (s.head h).inFlight.map fun x => { x with fate := .discard } }) ∧
      (∀ b, u.banks.tables b = s.banks.tables b ∧ u.banks.bound b = 0) ∧ u.banks.active = s.banks.active ∧
      u.banks.other = (match s.banks.other with
        | .draining => .copying 0
        | x => x) ∧
      u.ptu = s.ptu ∧ u.lanes = s.lanes ∧ u.notices = s.notices ∧ u.now = s.now ∧ u.pending = s.pending ∧
      let k := { s.link with inbound := rest }
      ((∀ p, (s.plane p).paused = false) → u.link = k) ∧
      ((∃ p, (s.plane p).paused = true) →
        (k.up = true → k.outbound = none → u.link = { k with
          flowPending := false, outbound := some ⟨.flow, flowFrame false false false false⟩ }) ∧
        (k.up = false ∨ k.outbound ≠ none → u.link = { k with flowPending := true }))

/-! ## The heads -/

/-- Head On (R88): a number outside 0..15 is refused, and otherwise the enabled flag becomes ON and nothing else changes,
neither a cursor nor the takers of an ACTIVE job; the takers an activation computes are the enabled heads assigned to
the plane (R35); while configuration loading runs the answer is NOT_READY. -/
def Obligations.HeadOn : Prop :=
  (∀ (tag : Byte) (n : Nat) (s : State) (f : Frame) (rest : List Frame),
    (Taking s tag (.headOn n) f rest →
      (16 ≤ n → exec (.headOn tag n) s = .next (answered f .badValue [] (s.took rest))) ∧
      ∀ h : Head, n = h.val → exec (.headOn tag n) s =
        .next (answered f .ok [] ((s.took rest).setHead h { s.head h with enabled := true }))) ∧
    (s.link.inbound = f :: rest → s.link.answers.length < 8 → f.tag = tag → f.request = .headOn n → s.loading = true →
      exec (.headOn tag n) s = .next (answered f .notReady [] (s.took rest)))) ∧
  ∀ (s : State) (p : Plane) (h : Head), h ∈ s.takersFor p ↔
    ((s.banks.tables s.banks.active).head h).plane = some p ∧ (s.head h).enabled = true

/-- Head Off (R83, R84, R89, R136): the number of lines skipped is answered and counted, the head becomes IDLE without a
cursor, and a transmission in flight becomes DISCARD, even one that the end of another has just started (log 46). No other head and no lane changes; but a downshift pending on the
head's own lane is carried out then. -/
def Obligations.HeadOff : Prop :=
  ∀ (tag : Byte) (n : Nat) (s : State) (f : Frame) (rest : List Frame), Taking s tag (.headOff n) f rest →
    (16 ≤ n → exec (.headOff tag n) s = .next (answered f .badValue [] (s.took rest))) ∧
    ∀ h : Head, n = h.val →
      ((s.head h).cursor = none → exec (.headOff tag n) s =
        .next (answered f .ok [0, 0, 0, 0] ((s.took rest).setHead h { s.head h with enabled := false }))) ∧
      (∀ c pre r post, s.Inv → (s.head h).cursor = some c → s.jobs.records = pre ++ r :: post → r.id = c.job →
        let skipped := (r.length - c.index) + ((post.filter fun x => x.takenBy h).map fun x => x.length).sum
        ∃ u, exec (.headOff tag n) s = .next (answered f .ok (leBytes 4 skipped)
            (if (s.lane h).downshift = true then u.downshifted h else u)) ∧
          u.head h = {
            enabled := false, cursor := none, state := .idle,
            inFlight := (s.head h).inFlight.map fun x => { x with fate := .discard } } ∧
          u.counter (.head .skipped h) = min (2 ^ 32 - 1) (s.counter (.head .skipped h) + skipped) ∧
          (∀ i, i ≠ h → u.head i = s.head i) ∧ u.lanes = s.lanes ∧ u.ptu = s.ptu ∧ u.trig = s.trig ∧
          u.link.answers = s.link.answers)

/-- The end of a fire record's transmission (R75, R79, R82, R117): LOADED where its fate was KEEP; nothing in flight in
IDLE; and in DISCARDING the head arrives again on its cursor line, where it waits, or starts a preload where the line is
READY and the lane takes it; and a due that is already reached is met there at once, here where the next line of the same
job is not yet due. Before its time the event is void (log 3). -/
def Obligations.TransmissionEnd : Prop :=
  ∀ (s : State) (h : Head),
    let l := s.lane h
    let x := s.head h
    let sent := s.setLane h { l with tx := none }
    ((∀ r, l.tx = some r → 0 < r.remaining ∨ ∀ z, r.record ≠ .fire z) → exec (.transmissionEnd h) s = .next s) ∧
    (∀ r z, l.tx = some r → r.remaining = 0 → r.record = .fire z → l.waiting = none →
      (∀ c, x.state = .loading → x.inFlight = some ⟨c, .keep⟩ →
        exec (.transmissionEnd h) s = .next (sent.setHead h { x with state := .loaded, inFlight := none })) ∧
      (∀ c, x.state = .idle → x.inFlight = some ⟨c, .discard⟩ →
        exec (.transmissionEnd h) s = .next (sent.setHead h { x with inFlight := none })) ∧
      ∀ c c', x.state = .discarding → x.inFlight = some ⟨c, .discard⟩ → x.cursor = some c' →
        let free := sent.setHead h { x with inFlight := none }
        let waits := sent.setHead h { x with state := .waitingLine, inFlight := none }
        let takes := l.state = .up ∧ l.hold.seen = false
        ((∀ v, s.jobView h c'.job = some v → s.ptu.s / 2 ^ 24 < v.due h c'.index) →
          (¬ takes ∨ s.cursorData h c' = none → exec (.transmissionEnd h) s = .next waits) ∧
          ∀ v px, takes → s.cursorData h c' = some (v, px) →
            ∃ t, exec (.transmissionEnd h) s = .next t ∧ free.Preloads t h { l with tx := none } c' v px ∧
              t.jobs = s.jobs ∧ t.notices = s.notices ∧ t.ptu = s.ptu) ∧
        ∀ v, s.Inv → s.jobView h c'.job = some v → v.due h c'.index ≤ s.ptu.s / 2 ^ 24 → c'.index + 1 < v.job.length →
          s.ptu.s / 2 ^ 24 < v.due h (c'.index + 1) →
          (¬ takes ∨ s.cursorData h c' = none → ∃ t, exec (.transmissionEnd h) s = .next t ∧
            waits.Misses t h c' v (dueOutcome l .waitingLine)) ∧
          ∀ w px, takes → s.cursorData h c' = some (w, px) →
            ∃ m t, exec (.transmissionEnd h) s = .next t ∧ free.Preloads m h { l with tx := none } c' w px ∧
              m.jobs = s.jobs ∧ m.notices = s.notices ∧ m.ptu = s.ptu ∧ m.Misses t h c' v (dueOutcome l .loading))

/-- The due outcome is that of the first row that holds: FAULTED or filtered FAULT active; DOWN, NEGOTIATING or TRAINING;
filtered HOLD active; LOADED; LOADING, DISCARDING or VOID; WAITING_LINE (R81). A FIRED outcome finds the lane UP with
filtered FAULT and HOLD inactive, and an IDLE head has no due. The due counts the outcome so decided. -/
def Obligations.DueOutcomeRows : Prop :=
  (∀ (l : Lane) (st : HeadState),
    (l.state = .faulted ∨ l.fault.seen = true → dueOutcome l st = .missedFault) ∧
    (l.state ≠ .faulted → l.fault.seen = false →
      (l.state = .down ∨ l.state = .negotiating ∨ l.state = .training → dueOutcome l st = .missedDown) ∧
      (l.state = .up →
        (l.hold.seen = true → dueOutcome l st = .missedHold) ∧
        (l.hold.seen = false →
          (st = .loaded → dueOutcome l st = .fired) ∧
          (st = .loading ∨ st = .discarding ∨ st = .void → dueOutcome l st = .late) ∧
          (st = .waitingLine → dueOutcome l st = .underrun)))) ∧
    (dueOutcome l st = .fired → l.state = .up ∧ l.fault.seen = false ∧ l.hold.seen = false)) ∧
  ∀ (s : State) (h : Head), s.Inv →
    ((s.head h).state = .idle → s.reachedDue h = none) ∧
    ∀ c, s.reachedDue h = some c → ∀ d : DueOutcome,
      (dueEvent h c s).counter (.head d.counter h) = min (2 ^ 32 - 1)
        (s.counter (.head d.counter h) + if d = dueOutcome (s.lane h) (s.head h).state then 1 else 0)

/-- Heads meet their dues at the advance that reaches them (R37, R74, R75, R76, R81, R82, R84, R85, R130). First one head,
here where its next line, of the same job, and the line of every other head are not yet due. A LOADED head fires: FIRED is
counted and reported to the job, FIRE pulses with the lane's width, and the head goes on; that a strobe in the one low tick
between two pulses leaves FIRE low for that tick is the model's deduction (log 25). Any other outcome is a miss, as
`State.Misses` spells it, where a fire record waits behind a train record (log 42). Then any number of heads at once, each
waiting over a lane that takes no preload, with any number of dues reached: every one of them is counted, reported and
taken, and the head waits on the first line that is not yet due. -/
def Obligations.HeadMeetsDue : Prop :=
  let still (s : State) (i : Head) := ∀ c v, (s.head i).cursor = some c → s.jobView i c.job = some v →
    s.ptu.s / 2 ^ 24 < v.due i c.index
  (∀ (s : State) (h : Head) (c : Cursor) (v : JobView), s.Inv → s.ptu.state ≠ .off →
    s.ptu.presented < s.ptu.s / 2 ^ 24 → (s.head h).state = .loaded → (s.head h).cursor = some c →
    (s.lane h).state = .up → (s.lane h).hold.seen = false → (s.lane h).fault.seen = false →
    s.jobView h c.job = some v → v.due h c.index ≤ s.ptu.s / 2 ^ 24 → c.index + 1 < v.job.length →
    s.ptu.s / 2 ^ 24 < v.due h (c.index + 1) → (∀ i, i ≠ h → still s i) →
    ∃ t, exec .advance s = .next t ∧
      t.counter (.head .fired h) = min (2 ^ 32 - 1) (s.counter (.head .fired h) + 1) ∧
      (t.lane h).fire = (match (s.lane h).fire with
        | .low => .high ((25 * (s.lane h).settings.pulse + 1) / 2)
        | .gap | .high _ => .gap) ∧
      (t.head h).cursor = some { c with index := c.index + 1 } ∧
      ((t.head h).state = .waitingLine ∨ (t.head h).state = .loading) ∧
      t.jobs.records = s.jobs.records.map (fun r => if r.id = c.job then
        { r with active := r.active.map fun a => { a with fired := a.fired + 1 } } else r) ∧
      t.notices.conditions = s.notices.conditions ∧ t.ptu = { s.ptu with presented := s.ptu.s / 2 ^ 24 }) ∧
  (∀ (s : State) (h : Head) (c : Cursor) (v : JobView) (o : DueOutcome), s.Inv → s.ptu.state ≠ .off →
    s.ptu.presented < s.ptu.s / 2 ^ 24 → (s.head h).cursor = some c → dueOutcome (s.lane h) (s.head h).state = o →
    o ≠ .fired → s.jobView h c.job = some v → v.due h c.index ≤ s.ptu.s / 2 ^ 24 → c.index + 1 < v.job.length →
    s.ptu.s / 2 ^ 24 < v.due h (c.index + 1) → (∀ i, i ≠ h → still s i) →
    ∃ t, exec .advance s = .next t ∧ (s.setPtu { s.ptu with presented := s.ptu.s / 2 ^ 24 }).Misses t h c v o) ∧
  ∀ (s : State) (dues : Head → Nat), s.Inv → s.ptu.state ≠ .off → s.ptu.presented < s.ptu.s / 2 ^ 24 →
    (∀ h c, (s.head h).cursor = some c → (s.head h).state = .waitingLine ∧
      ((s.lane h).state ≠ .up ∨ (s.lane h).hold.seen = true) ∧
      ∃ v, s.jobView h c.job = some v ∧ c.index + dues h < v.job.length ∧
        (∀ j, j < dues h → v.due h (c.index + j) ≤ s.ptu.s / 2 ^ 24) ∧ s.ptu.s / 2 ^ 24 < v.due h (c.index + dues h)) →
    (∀ h, (s.head h).cursor = none → dues h = 0) →
    ∃ t, exec .advance s = .next t ∧ t.ptu = { s.ptu with presented := s.ptu.s / 2 ^ 24 } ∧ t.lanes = s.lanes ∧
      t.jobs = { s.jobs with records := s.jobs.records.map fun r => { r with active := r.active.map fun a =>
        { a with shortfall := a.shortfall + (allHeads.map fun h =>
          if (s.head h).cursor.map Cursor.job = some r.id then dues h else 0).sum } } } ∧
      ∀ h, t.head h = { s.head h with
          cursor := (s.head h).cursor.map fun c => { c with index := c.index + dues h } } ∧
        (∀ d : DueOutcome, t.counter (.head d.counter h) = min (2 ^ 32 - 1) (s.counter (.head d.counter h) +
          if d = dueOutcome (s.lane h) .waitingLine then dues h else 0)) ∧
        (0 < dues h → t.condition (.shortfall h) = true) ∧
        ∀ c v, (s.head h).cursor = some c → s.jobView h c.job = some v →
          (0 < dues h → (t.plane v.plane).reach.get h = some (v.first + c.index + dues h - 1)) ∧
          ∀ j ts, j < dues h → ((t.plane v.plane).slot (v.first + c.index + j)).takers = some ts → h ∉ ts

/-! ## Rendering -/

/-- Every fire record carries exactly N_h nozzle values, each 0..3, of the job's bound bank, and the waveform of the lane's
band there: of band 0 where the band is unknown, and of the last band where the bank has none of that number (R109); and of
the two nozzles of a stitch pair, one of which has the column's mapped value, the other has 0 before substitution (R102,
R104, R112). -/
def Obligations.NozzleValuesInRange : Prop :=
  (∀ (h : Head) (v : JobView) (n : Nat) (px : List Dot) (band : Option Nat),
    (fireRecord h v n px band).nozzles = (v.tables.head h).nozzles ∧
    (fireRecord h v n px band).values.length = (v.tables.head h).nozzles ∧
    (∀ x ∈ (fireRecord h v n px band).values, x ≤ 3) ∧
    (fireRecord h v n px band).line = (v.first + n) % 65536 ∧ (fireRecord h v n px band).job = v.job.id ∧
    let bands := (v.tables.head h).bands
    ∀ b : Band, (band = none → bands[0]? = some b → (fireRecord h v n px band).waveform = b.waveform) ∧
      ∀ i, band = some i → (bands[i]? = some b ∨ bands.length ≤ i ∧ bands.getLast? = some b) →
        (fireRecord h v n px band).waveform = b.waveform) ∧
  ∀ (v : Nat → Nat) (n c s : Nat),
    (baseOutput v n (.stitchLow c s) = v c ∧ baseOutput v n (.stitchHigh c s) = 0) ∨
    (baseOutput v n (.stitchLow c s) = 0 ∧ baseOutput v n (.stitchHigh c s) = v c)

/-- The stitch threshold (R103): (n + 7c) mod 16 of the whole line number; over any 16 consecutive lines each value
0..15 comes once, a STITCH_LOW nozzle of share s passes its value on exactly s of them and a STITCH_HIGH nozzle on the
other 16 − s; adjacent columns lie 7 apart. -/
def Obligations.StitchThreshold : Prop :=
  ∀ (n c s x : Nat) (v : Nat → Nat), s ≤ 15 → x ≤ 15 → v c ≠ 0 →
    stitchThreshold n c = (n + 7 * c) % 16 ∧ stitchThreshold n c ≤ 15 ∧
    stitchThreshold n (c + 1) = (stitchThreshold n c + 7) % 16 ∧
    ((List.range 16).filter fun k => stitchThreshold (n + k) c == x).length = 1 ∧
    ((List.range 16).filter fun k => baseOutput v (n + k) (.stitchLow c s) == v c).length = s ∧
    ((List.range 16).filter fun k => baseOutput v (n + k) (.stitchHigh c s) == v c).length = 16 - s

/-- The order of the values (R108): the value at place q of a fire record is the output of nozzle q, or of nozzle
N_h − 1 − q with the reverse flag set; the flag changes no output. -/
def Obligations.ReverseFlagOrdersValues : Prop :=
  (∀ (h : Head) (v : JobView) (i : Nat) (px : List Dot) (band : Option Nat) (q : Nat),
    let t := v.tables.head h
    let out := outputs t (mappedValue (v.tables.drops.get v.plane) px) (v.first + i)
    q < t.nozzles →
      (t.reverse = false → (fireRecord h v i px band).values[q]? = out[q]?) ∧
      (t.reverse = true → (fireRecord h v i px band).values[q]? = out[t.nozzles - 1 - q]?)) ∧
  ∀ (t : HeadTables) (v : Nat → Nat) (n : Nat) (b : Bool), outputs { t with reverse := b } v n = outputs t v n

/-- Dead-nozzle substitution (R102, R105, R106, R107): a nozzle's output is the greatest of its base output and of what
each DEAD entry that may name it as substitute raises it to. The output of a DEAD nozzle stays 0. -/
def Obligations.SubstitutionRaisesToMaximum : Prop :=
  ∀ (t : HeadTables) (v : Nat → Nat) (n k : Nat), t.Wf → k < t.nozzles → (∀ c, v c ≤ 3) →
    let raised (x : Nat) := ∃ j c b, j < t.nozzles ∧ j ≠ k ∧ t.entry j = .dead c k b ∧ 1 ≤ v c ∧
      (t.entry k).canSubstitute = true ∧ x = min 3 (v c + if b then 1 else 0)
    ∃ x, (outputs t v n)[k]? = some x ∧ baseOutput v n (t.entry k) ≤ x ∧ (∀ y, raised y → y ≤ x) ∧
      (x = baseOutput v n (t.entry k) ∨ raised x) ∧ ((∃ c k' b, t.entry k = .dead c k' b) → x = 0)

/-! ## The lanes -/

/-- Lane Up, Lane Down and Lane Resume (R77, R78, R80, R117, R119, R123, R124, R129): Lane Up takes a DOWN lane to
NEGOTIATING and sends a caps query of 64 ticks, which waits where another record is still being sent (log 13); Lane Down
clears the ceiling, and outside DOWN it cuts off any transmission, leaves the head as R80 states and enters DOWN; Lane
Resume takes a FAULTED lane whose filtered FAULT is inactive to UP with reason RESUME, and a head waiting on a READY line
starts its preload; anything else is refused. -/
def Obligations.LaneUpDownResume : Prop :=
  (∀ (tag : Byte) (n : Nat) (s : State) (f : Frame) (rest : List Frame),
     (16 ≤ n →
       (Taking s tag (.laneUp n) f rest → exec (.laneUp tag n) s = .next (answered f .badValue [] (s.took rest))) ∧
       (Taking s tag (.laneDown n) f rest →
         exec (.laneDown tag n) s = .next (answered f .badValue [] (s.took rest)))) ∧
     ∀ h : Head, n = h.val →
       let l := s.lane h
       (Taking s tag (.laneUp n) f rest →
         (l.state ≠ .down → exec (.laneUp tag n) s = .next (answered f .wrongState [] (s.took rest))) ∧
         (l.state = .down →
           let m := { l with state := .negotiating, grade := none, gradeSet := none, timer := none }
           let up (x : Lane) := exec (.laneUp tag n) s = .next (answered f .ok []
             (submit (.laneState h .negotiating none .command) ((s.took rest).setLane h x)))
           (l.tx = none → up { m with
             tx := some { record := .capsQuery, bytes := LaneRecord.capsQuery.bytes, remaining := 64 } }) ∧
           (∀ x, l.tx = some x → up { m with waiting := some .capsQuery }))) ∧
       (Taking s tag (.laneDown n) f rest →
         (l.state = .down → exec (.laneDown tag n) s = .next (answered f .ok []
           ((s.took rest).setLane h { l with ceiling := none }))) ∧
         (l.state = .negotiating ∨ l.state = .training ∨ l.state = .faulted →
           exec (.laneDown tag n) s = .next (answered f .ok [] (submit (.laneState h .down none .command)
             ((s.took rest).setLane h (l.brought none))))) ∧
         (l.state = .up → s.DueAhead h →
           exec (.laneDown tag n) s = .next (answered f .ok [] (submit (.laneState h .down none .command)
             (((s.took rest).setLane h (l.brought none)).setHead h (s.head h).leftUp)))))) ∧
  ∀ (tag : Byte) (n : Nat) (s : State) (f : Frame) (rest : List Frame), Taking s tag (.laneResume n) f rest →
    (16 ≤ n → exec (.laneResume tag n) s = .next (answered f .badValue [] (s.took rest))) ∧
    ∀ h : Head, n = h.val →
      let l := s.lane h
      (l.state ≠ .faulted ∨ l.fault.seen = true →
        exec (.laneResume tag n) s = .next (answered f .wrongState [] (s.took rest))) ∧
      (l.state = .faulted → l.fault.seen = false →
        (l.hold.seen = true ∨ s.NothingToLoad h →
          exec (.laneResume tag n) s = .next (answered f .ok [] (submit (.laneState h .up l.grade .resume)
            ((s.took rest).setLane h l.broughtUp)))) ∧
        ∀ c v px, l.hold.seen = false → (s.head h).state = .waitingLine → (s.head h).cursor = some c →
          s.cursorData h c = some (v, px) →
          ∃ t, exec (.laneResume tag n) s = .next (answered f .ok [] t) ∧ s.Preloads t h l.broughtUp c v px)

/-- Set Lane (R131, R125, R134, R136): the refusals, the adjustment of each setting, the restart of the sideband filters,
the pending downshift that turning auto-downshift off clears, and the status timer that a shortened timeout expires. Code 0
of auto-downshift is on (log 15), a grade code or an auto-downshift code that names nothing is refused (log 16), and a
filter set to its own value does not restart (log 35). -/
def Obligations.SetLane : Prop :=
  ∀ (tag : Byte) (a : LaneArgs) (s : State) (f : Frame) (rest : List Frame), Taking s tag (.setLane a) f rest →
    (16 ≤ a.lane → exec (.setLane tag a) s = .next (answered f .badValue [] (s.took rest))) ∧
    ∀ h : Head, a.lane = h.val →
      let l := s.lane h
      let p := l.settings
      ((∃ x, a.mode = some x ∧ 2 ≤ x) ∨ (∃ x, a.autoDown = some x ∧ 2 ≤ x) ∨
          (∃ m c, a.mask = some m ∧ c ∈ m ∧ ¬ (1 ≤ c ∧ c ≤ 6)) →
        exec (.setLane tag a) s = .next (answered f .badValue [] (s.took rest))) ∧
      ((∀ x, a.mode = some x → x ≤ 1) → (∀ x, a.autoDown = some x → x ≤ 1) →
        (∀ m, a.mask = some m → ∀ c ∈ m, 1 ≤ c ∧ c ≤ 6) →
        let q : LaneSettings := {
          mask := (a.mask.map fun m => allGrades.filter fun g => m.contains g.code).getD p.mask
          pulse := (a.pulse.map fun x => max 1 (min x 16)).getD p.pulse
          filter := (a.filter.map fun x =>
            if x = 0 then 0 else if x ≤ 4 then 4 else if x ≤ 8 then 8 else 16).getD p.filter
          latch := (a.mode.map (· == 1)).getD p.latch
          degrade := (a.degrade.map (min · 255)).getD p.degrade
          autoDown := (a.autoDown.map (· == 0)).getD p.autoDown
          timeout := (a.timeout.map fun x => max 1 (min x 255)).getD p.timeout
          hyst := (a.hyst.map (min · 7)).getD p.hyst }
        let moved := q.filter ≠ p.filter
        let m := { l with
          settings := q
          hold := if moved then { l.hold with progress := 0 } else l.hold
          fault := if moved then { l.fault with progress := 0 } else l.fault
          downshift := l.downshift && q.autoDown }
        let late := a.timeout.isSome = true ∧ ∃ e, l.status = some e ∧ q.timeout * 25000 ≤ e
        (¬ late → exec (.setLane tag a) s = .next (answered f .ok q.payload ((s.took rest).setLane h m))) ∧
        (late → exec (.setLane tag a) s = .next (answered f .ok q.payload (submitCondition (.statusLost h)
          (.statusLost h l.band) ((s.took rest).setLane h { m with status := none })))))

/-- The lane's own times. The transmission time is the record's bits over the bits per tick, rounded up (R116); the end of
a caps query or of a train record starts the timer of its state (R119, R121), unless a record waits, which then begins
(log 13); the negotiation timer at 50,000 ticks enters DOWN with NO_BOARD (R119), the status timer at its timeout submits
STATUS_LOST and stops (R134), and FIRE goes low at its width (R130). Before its time each is void (log 3). -/
def Obligations.LaneOwnTimes : Prop :=
  (∀ (g : Grade) (bs : List Byte),
    8 * bs.length ≤ transmissionTicks g bs * g.bitsPerTick ∧
    ∀ n, 8 * bs.length ≤ n * g.bitsPerTick → transmissionTicks g bs ≤ n) ∧
  (∀ (s : State) (h : Head),
     let l := s.lane h
     let m := { l with tx := none, waiting := none }
     ((∀ x, l.tx = some x → 0 < x.remaining ∨ x.record ≠ .capsQuery) → exec (.capsQuerySent h) s = .next s) ∧
     ((∀ x, l.tx = some x → 0 < x.remaining ∨ ∀ k, x.record ≠ .train k) → exec (.trainRecordSent h) s = .next s) ∧
     ∀ x, l.tx = some x → x.remaining = 0 →
       (x.record = .capsQuery →
         (l.waiting = none → exec (.capsQuerySent h) s = .next (s.setLane h
           { m with timer := if l.state = .negotiating then some 0 else l.timer })) ∧
         (∀ w, l.waiting = some w → exec (.capsQuerySent h) s = .next (s.setLane h (m.begin w)))) ∧
       (∀ k, x.record = .train k →
         (l.waiting = none → exec (.trainRecordSent h) s = .next (s.setLane h
           { m with timer := if l.state = .training then some 0 else l.timer })) ∧
         (∀ w, l.waiting = some w → exec (.trainRecordSent h) s = .next (s.setLane h (m.begin w))))) ∧
  ∀ (s : State) (h : Head),
    let l := s.lane h
    (∀ e, l.state = .negotiating → l.timer = some e → 50000 ≤ e → exec (.negotiationTimeout h) s =
      .next (submit (.laneState h .down none .noBoard) (s.setLane h l.gaveUp))) ∧
    ((l.state ≠ .negotiating ∨ ∀ e, l.timer = some e → e < 50000) → exec (.negotiationTimeout h) s = .next s) ∧
    (∀ e, l.status = some e → l.settings.timeout * 25000 ≤ e → exec (.statusTimeout h) s = .next (submitCondition
      (.statusLost h) (.statusLost h l.band) (s.setLane h { l with status := none }))) ∧
    ((∀ e, l.status = some e → e < l.settings.timeout * 25000) → exec (.statusTimeout h) s = .next s) ∧
    (l.fire = .high 0 → exec (.firePulseEnd h) s = .next (s.setLane h { l with fire := .low })) ∧
    (l.fire ≠ .high 0 → exec (.firePulseEnd h) s = .next s)

/-- A caps record (R120, R121, R122): taken in NEGOTIATING only, it fixes the grade set and the trial list, highest first,
and train record 0 is sent at the first grade of the list, or waits where the lane still sends (log 13). The content
decides which of the four rows of a board record it is, and a damaged record that reads as another's type is discarded
(log 8). -/
def Obligations.CapsRecord : Prop :=
  ∀ (s : State) (h : Head) (d : LaneDelivery) (board : List Grade),
    (exec (.echoRecord h d) s = exec (.capsRecord h d) s ∧ exec (.damagedLaneRecord h d) s = exec (.capsRecord h d) s ∧
      exec (.boardStatusRecord h d) s = exec (.capsRecord h d) s) ∧
    (LaneDelivery.read d = .damagedOther → exec (.damagedLaneRecord h d) s = .next s) ∧
    (LaneDelivery.read d = .caps board →
      let l := s.lane h
      let part (x : Grade) := x ∈ l.settings.mask ∨ (l.settings.mask = [] ∧ x = .a)
      (l.state ≠ .negotiating → exec (.capsRecord h d) s = .next s) ∧
      (l.state = .negotiating → ∃ g set trial,
        exec (.capsRecord h d) s = .next (submit (.laneState h .training (some g) .caps) (s.setLane h
          (Lane.send { l with
            state := .training, grade := some g, gradeSet := some set, trial := some trial, progress := some 0,
            timer := none } (.train 0)))) ∧
        trial.head? = some g ∧ trial.Pairwise (fun x y => y.code < x.code) ∧
        (∀ x, x ∈ set ↔ (part x ∧ x ∈ board) ∨ (x = .a ∧ ∀ y, ¬ (part y ∧ y ∈ board))) ∧
        let below (x : Grade) := x ∈ set ∧ ∀ top, l.ceiling = some top → x.code ≤ top.code
        ∀ x, x ∈ trial ↔ below x ∨ (x = .a ∧ ∀ y, ¬ below y)))

/-- An echo, a damaged echo and the expiry of the echo timer (R121, R122, R123): progress and the next train record; UP
after the fourth echo, where a head waiting on a READY line starts its preload with band 0, then FAULTED at once under a
latched fault, which cuts that preload off and leaves the head VOID (R62, R77, R78, R80, R109, R111, R117, R128); the next
grade of the trial list, or DOWN. A train record waits where the lane still sends (log 13), a fire record too (log 42), and
an echo that comes before any train record has begun fails the grade (log 37). Before its time the expiry is void (log 3). -/
def Obligations.EchoRecords : Prop :=
  ∀ (s : State) (h : Head) (d : LaneDelivery),
    let l := s.lane h
    (l.state ≠ .training → (∃ b, LaneDelivery.read d = .echo b) ∨ LaneDelivery.read d = .damagedEcho →
      exec (.echoRecord h d) s = .next s ∧ exec (.damagedLaneRecord h d) s = .next s) ∧
    ((l.state ≠ .training ∨ ∀ e, l.timer = some e → e < 5000) → exec (.echoTimeout h) s = .next s) ∧
    (l.state = .training →
      (∀ k n, l.lastTrain = some k → l.progress = some n → LaneDelivery.read d = .echo (trainBody k) →
        (n < 3 → exec (.echoRecord h d) s = .next (s.setLane h
          (Lane.send { l with progress := some (n + 1), timer := none } (.train (n + 1))))) ∧
        (n = 3 →
          let up := submit (.laneState h .up l.grade .trained) (s.setLane h l.broughtUp)
          let faulted (t : State) := submit (.laneState h .faulted l.grade .fault) (t.setLane h l.broughtUp.latched)
          (l.hold.seen = true ∨ s.NothingToLoad h →
            ((l.settings.latch && l.fault.seen) = false → exec (.echoRecord h d) s = .next up) ∧
            ((l.settings.latch && l.fault.seen) = true → s.DueAhead h → exec (.echoRecord h d) s =
              .next (faulted (up.setHead h (s.head h).leftUp)))) ∧
          ∀ c v px, l.hold.seen = false → (s.head h).state = .waitingLine → (s.head h).cursor = some c →
            s.cursorData h c = some (v, px) →
            let rendered := takeLine h v.plane (v.line c.index) true up
            ((l.settings.latch && l.fault.seen) = false → exec (.echoRecord h d) s = .next
              ((rendered.setLane h (l.broughtUp.send (.fire (fireRecord h v c.index px none)))).setHead h
                { s.head h with state := .loading, inFlight := some ⟨c, .keep⟩ })) ∧
            ((l.settings.latch && l.fault.seen) = true → exec (.echoRecord h d) s = .next
              (faulted (rendered.setHead h { s.head h with state := .void, inFlight := none }))))) ∧
      ∀ g trial (row : Instr), l.trial = some (g :: trial) →
        row = .echoTimeout h ∧ (∃ e, l.timer = some e ∧ 5000 ≤ e) ∨
          (row = .echoRecord h d ∨ row = .damagedLaneRecord h d) ∧ (LaneDelivery.read d = .damagedEcho ∨
            ∃ b, LaneDelivery.read d = .echo b ∧ ∀ k, l.lastTrain = some k → b ≠ trainBody k) →
        (trial = [] → exec row s = .next (submit (.laneState h .down none .trainFailed) (s.setLane h l.gaveUp))) ∧
        ∀ g' more, trial = g' :: more → exec row s = .next (s.setLane h (Lane.send { l with
          trial := some trial, grade := some g', progress := some 0, timer := none } (.train 0))))

/-- A board status record (R122, R132 to R137): the band by R133, the status timer in UP, the bad-record count with
DEGRADED and the downshift it may bring, and the board fault code. A downshift is carried out where the head is IDLE
(log 24), with the ceiling at the next lower grade, and the caps query it sends is R119's. -/
def Obligations.BoardStatus : Prop :=
  (∀ (bands : List Band) (temp hyst : Nat), (bands.getLast?.map Band.bound) = some 255 → temp ≤ 255 →
    let bound (k : Nat) := (bands.getD k ⟨255, 0⟩).bound
    let last := bands.length - 1
    (let j := moveBand bands temp hyst none
     j ≤ last ∧ temp ≤ bound j ∧ ∀ k, k < j → bound k < temp) ∧
    ∀ i, let j := moveBand bands temp hyst (some i)
      (min i last < last ∧ bound (min i last) < temp →
        min i last < j ∧ j ≤ last ∧ (∀ k, min i last ≤ k → k < j → bound k < temp) ∧ (j < last → temp ≤ bound j)) ∧
      (¬ (min i last < last ∧ bound (min i last) < temp) →
        j ≤ min i last ∧ (∀ k, j ≤ k → k < min i last → temp + hyst ≤ bound k) ∧
        (0 < j → bound (j - 1) < temp + hyst))) ∧
  ∀ (s : State) (h : Head) (d : LaneDelivery) (temp count code : Nat), LaneDelivery.read d = .status temp count code →
    let l := s.lane h
    (l.state ≠ .up → l.state ≠ .faulted → exec (.boardStatusRecord h d) s = .next s) ∧
    (l.state = .up ∨ l.state = .faulted →
      let delta (old : Nat) := (count + 65536 - old) % 65536
      let degraded (old : Nat) := l.settings.degrade ≠ 0 ∧ l.settings.degrade ≤ delta old
      let newCode := l.faultCode ≠ some code ∧ ¬ (l.faultCode = none ∧ code = 0)
      let down := l.downshift = true ∨
        ∃ old, l.badCount = some old ∧ degraded old ∧ l.state = .up ∧ l.settings.autoDown = true ∧ l.nextLower ≠ none
      ∀ (m : Lane) (t u : State),
        m = { l with
          band := some (moveBand ((s.banks.tables s.banks.active).head h).bands temp l.settings.hyst l.band)
          status := if l.state = .up then some 0 else l.status, badCount := some count, faultCode := some code
          downshift := m.downshift } →
        (m.downshift = true ↔ down) →
        ((∀ old, l.badCount = some old → ¬ degraded old) → t = s.setLane h m) →
        (∀ old, l.badCount = some old → degraded old →
          t = submitCondition (.degraded h) (.degraded h (delta old) l.grade) (s.setLane h m)) →
        (newCode → u = submit (.boardCode h l.faultCode code) t) → (¬ newCode → u = t) →
        (¬ (down ∧ l.state = .up ∧ (s.head h).state = .idle) → exec (.boardStatusRecord h d) s = .next u) ∧
        (down → l.state = .up → (s.head h).state = .idle →
          let x := l.nextLower
          let v := submit (.laneState h .down none .downshift) ((u.setLane h (m.brought x)).setHead h
            { s.head h with inFlight := none })
          exec (.boardStatusRecord h d) s = .next (submit (.laneState h .negotiating none .retrain) (v.setLane h
            { m.brought x with
              state := .negotiating
              tx := some { record := .capsQuery, bytes := LaneRecord.capsQuery.bytes, remaining := 64 } })))) ∧
    ∀ set g y, l.gradeSet = some set → l.grade = some g →
      (l.nextLower = some y ↔ y ∈ set ∧ y.code < g.code ∧ ∀ z ∈ set, z.code < g.code → z.code ≤ y.code)

/-- The filtered HOLD and FAULT (R126, R127, R128): HOLD going inactive in UP lets a waiting head start its preload, whose
fire record waits where the lane still sends a train record (log 42); FAULT going active in UP under LATCH moves the lane to FAULTED; every other change is only taken, and a level already taken is
no event (log 4). -/
def Obligations.Sidebands : Prop :=
  ∀ (s : State) (h : Head),
    let l := s.lane h
    let hold (x : Bool) := s.setLane h { l with hold := l.hold.take x }
    let fault (x : Bool) := s.setLane h { l with fault := l.fault.take x }
    (l.hold.seen = true → exec (.holdActive h) s = .next s) ∧
    (l.hold.seen = false → exec (.holdInactive h) s = .next s ∧ exec (.holdActive h) s = .next (hold true)) ∧
    (l.hold.seen = true →
      (l.state ≠ .up ∨ s.NothingToLoad h → exec (.holdInactive h) s = .next (hold false)) ∧
      ∀ c v px, l.state = .up → (s.head h).state = .waitingLine → (s.head h).cursor = some c →
        s.cursorData h c = some (v, px) →
        ∃ t, exec (.holdInactive h) s = .next t ∧ s.Preloads t h { l with hold := l.hold.take false } c v px) ∧
    (l.fault.seen = true → exec (.faultActive h) s = .next s ∧ exec (.faultInactive h) s = .next (fault false)) ∧
    (l.fault.seen = false → exec (.faultInactive h) s = .next s ∧
      (l.settings.latch = false ∨ l.state ≠ .up → exec (.faultActive h) s = .next (fault true)) ∧
      (l.settings.latch = true → l.state = .up → s.DueAhead h → exec (.faultActive h) s =
        .next (submit (.laneState h .faulted l.grade .fault)
          ((s.setLane h (Lane.latched { l with fault := l.fault.take true })).setHead h (s.head h).leftUp))))

/-! ## The table banks -/

/-- Write Table (R143, R144, R145): the refusals in their order, and otherwise the body written to every head of the
target set, or to the plane's drop map, of the SHADOW bank, in every state of the invariant. Nothing else of either bank
changes. The bytes of the frame are log 27, a reverse flag of code 0 is set (log 15), and one that names neither value is refused (log 16). -/
def Obligations.WriteTable : Prop :=
  ∀ (tag : Byte) (a : Option WriteArgs) (s : State) (f : Frame) (rest : List Frame),
    Taking s tag (.writeTable a) f rest →
    (a = none → exec (.writeTable tag a) s = .next (answered f .malformed [] (s.took rest))) ∧
    ∀ x, a = some x →
      let i := s.banks.otherId
      let old := s.banks.tables i
      let target : Prop := match x.target, x.body with
        | .head _, .dropMap .. => False
        | .head n, .nozzleRange .. | .head n, .geometry .. | .head n, .bands .. => n < 16
        | .plane n, _ => n < 4
      let fields : Prop := match x.body with
        | .nozzleRange g es => g ≤ 2047 ∧ 1 ≤ es.length ∧ es.length ≤ 256 ∧ g + es.length ≤ 2048 ∧
          ∀ w ∈ es, let n := w.toNat
            n % 8 ≤ 4 ∧ (n % 8 = 2 ∨ n % 8 = 3 → 1 ≤ n / 2 ^ 18 % 16)
        | .geometry p n o r => p ≤ 4 ∧ 64 ≤ n ∧ n ≤ 2048 ∧ n % 64 = 0 ∧ o ≤ 16777215 ∧ r ≤ 1
        | .bands l => 1 ≤ l.length ∧ l.length ≤ 4 ∧ ∀ w ∈ l, w.1 ≤ 255 ∧ w.2 ≤ 15
        | .dropMap v0 v1 v2 v3 => v0 ≤ 3 ∧ v1 ≤ 3 ∧ v2 ≤ 3 ∧ v3 ≤ 3
      (s.banks.other ≠ .shadow → exec (.writeTable tag a) s = .next (answered f .bankBusy [] (s.took rest))) ∧
      (s.banks.other = .shadow → ¬ (target ∧ fields) →
        exec (.writeTable tag a) s = .next (answered f .badValue [] (s.took rest))) ∧
      (s.Inv → s.banks.other = .shadow → target → fields → ∃ (b : Banks) (payload : List Byte),
        exec (.writeTable tag a) s = .next (answered f .ok (byte i.val :: payload) ((s.took rest).setBanks b)) ∧
        b.active = s.banks.active ∧ b.other = .shadow ∧ (∀ j, b.bound j = s.banks.bound j) ∧
        b.tables s.banks.active = s.banks.tables s.banks.active ∧
        match x.body with
        | .dropMap v0 v1 v2 v3 => ∃ p : Plane, x.target = .plane p.val ∧ payload = [byte p.val] ∧
          (b.tables i).heads = old.heads ∧ (∀ q, q ≠ p → (b.tables i).drops.get q = old.drops.get q) ∧
          (((b.tables i).drops.get p).get 0).val = v0 ∧ (((b.tables i).drops.get p).get 1).val = v1 ∧
          (((b.tables i).drops.get p).get 2).val = v2 ∧ (((b.tables i).drops.get p).get 3).val = v3
        | .nozzleRange .. | .geometry .. | .bands .. => ∃ targets : List Head,
          (∀ h, h ∈ targets ↔ x.target = .head h.val ∨ ∃ p : Plane, x.target = .plane p.val ∧
            (old.head h).plane = some p) ∧
          payload = setField (targets.map fun h => h.val) ∧ (b.tables i).drops = old.drops ∧
          (∀ h, h ∉ targets → (b.tables i).head h = old.head h) ∧
          ∀ h ∈ targets, let t := old.head h
            let y := (b.tables i).head h
            match x.body with
            | .nozzleRange g es => y = { t with map := y.map } ∧ ∀ k, y.entry k =
                if g ≤ k ∧ k < g + es.length then ((es[k - g]?).bind entryOfWord).getD .off else t.entry k
            | .geometry p n o r => y = { t with
                plane := if q : p < 4 then some ⟨p, q⟩ else none, nozzles := n, offset := o, reverse := r == 0 }
            | .bands l => y = { t with bands := y.bands } ∧ y.bands.length = l.length ∧
                ∀ k w, l[k]? = some w → y.bands[k]? = some (⟨if k + 1 = l.length then 255 else w.1, w.2⟩ : Band)
            | .dropMap .. => False)

/-- Validation (R148, R99): no failure is found exactly where GEOMETRY, COLUMN, SUBSTITUTE, STITCH, BANDS and SPREAD all
hold, the partner of a stitch entry being one entry of one other head of the plane. A failure names the first check in this
order that fails, and in it the lowest head and the lowest nozzle or band; for SPREAD the lowest plane, and in it the head
of largest offset, the lowest of equals. -/
def Obligations.ValidationPasses : Prop :=
  ∀ (store : Vector PlaneStore 4) (t : Tables) (b : BankId), (∀ h, sparseWf .off (t.head h).map) →
    (validate store t b = none ↔
      (∀ h, (t.head h).nozzles % 64 = 0 ∧ 64 ≤ (t.head h).nozzles ∧ (t.head h).nozzles ≤ 2048 ∧
        ∀ p, (t.head h).plane = some p → 0 < (store.get p).width) ∧
      (∀ h p j c, (t.head h).plane = some p → j < (t.head h).nozzles → ((t.head h).entry j).column = some c →
        c < (store.get p).width) ∧
      (∀ h j c k x, j < (t.head h).nozzles → (t.head h).entry j = .dead c k x →
        k < (t.head h).nozzles ∧ k ≠ j ∧ ((t.head h).entry k).canSubstitute = true) ∧
      (∀ h p j c v, (t.head h).plane = some p → j < (t.head h).nozzles →
        (t.head h).entry j = .stitchLow c v ∨ (t.head h).entry j = .stitchHigh c v →
        ∃ x : Head × Nat, (∀ y : Head × Nat, (y.1 ≠ h ∧ (t.head y.1).plane = some p ∧ y.2 < (t.head y.1).nozzles ∧
            (t.head y.1).entry y.2 =
              if (t.head h).entry j = .stitchLow c v then .stitchHigh c v else .stitchLow c v) ↔ y = x)) ∧
      (∀ h i x y, (t.head h).bands[i]? = some x → (t.head h).bands[i + 1]? = some y → x.bound < y.bound) ∧
      (∀ p g h, (t.head g).plane = some p → (t.head h).plane = some p →
        ((t.head g).offset - (t.head h).offset + 255) / 256 + 2 ≤ (store.get p).depth)) ∧
    ∀ e, validate store t b = some e →
      let geometry (h : Head) := ¬ ((t.head h).nozzles % 64 = 0 ∧ 64 ≤ (t.head h).nozzles ∧ (t.head h).nozzles ≤ 2048 ∧
        ∀ p, (t.head h).plane = some p → 0 < (store.get p).width)
      let column (h : Head) (j : Nat) := j < (t.head h).nozzles ∧ ∃ p c, (t.head h).plane = some p ∧
        ((t.head h).entry j).column = some c ∧ (store.get p).width ≤ c
      let substitute (h : Head) (j : Nat) := j < (t.head h).nozzles ∧ ∃ c k x, (t.head h).entry j = .dead c k x ∧
        ¬ (k < (t.head h).nozzles ∧ k ≠ j ∧ ((t.head h).entry k).canSubstitute = true)
      let stitch (h : Head) (j : Nat) := j < (t.head h).nozzles ∧ ∃ p c v, (t.head h).plane = some p ∧
        ((t.head h).entry j = .stitchLow c v ∨ (t.head h).entry j = .stitchHigh c v) ∧
        ¬ ∃ x : Head × Nat, (∀ y : Head × Nat, (y.1 ≠ h ∧ (t.head y.1).plane = some p ∧ y.2 < (t.head y.1).nozzles ∧
          (t.head y.1).entry y.2 =
            if (t.head h).entry j = .stitchLow c v then .stitchHigh c v else .stitchLow c v) ↔ y = x)
      let bands (h : Head) (j : Nat) := ∃ i x y, j = i + 1 ∧ (t.head h).bands[i]? = some x ∧
        (t.head h).bands[i + 1]? = some y ∧ y.bound ≤ x.bound
      let apart (p : Plane) (g h : Head) := (t.head g).plane = some p ∧ (t.head h).plane = some p ∧
        (store.get p).depth < ((t.head g).offset - (t.head h).offset + 255) / 256 + 2
      let clean (bad : Head → Nat → Prop) := ∀ h j, ¬ bad h j
      let first (bad : Head → Nat → Prop) := ∃ j, e.item = some j ∧ bad e.head j ∧
        ∀ g k, bad g k → e.head.val < g.val ∨ e.head = g ∧ j ≤ k
      e.bank = b ∧ match e.reason with
        | .geometry => geometry e.head ∧ e.item = none ∧ ∀ g, geometry g → e.head.val ≤ g.val
        | .column => (∀ h, ¬ geometry h) ∧ first column
        | .substitute => (∀ h, ¬ geometry h) ∧ clean column ∧ first substitute
        | .stitch => (∀ h, ¬ geometry h) ∧ clean column ∧ clean substitute ∧ first stitch
        | .bands => (∀ h, ¬ geometry h) ∧ clean column ∧ clean substitute ∧ clean stitch ∧ first bands
        | .spread => (∀ h, ¬ geometry h) ∧ clean column ∧ clean substitute ∧ clean stitch ∧ clean bands ∧ e.item = none ∧
          ∃ p, (∃ g, apart p e.head g) ∧ (∀ q g h, apart q g h → p.val ≤ q.val) ∧
            ∀ g, (t.head g).plane = some p → (t.head g).offset < (t.head e.head).offset ∨
              (t.head g).offset = (t.head e.head).offset ∧ e.head.val ≤ g.val

/-- Commit Bank and the end of a copy (R147, R149, R150, R151): the refusals in their order; a commit exchanges the
banks, the former ACTIVE bank DRAINING while jobs are bound to it and else COPYING; 37,500 ticks later the copied bank is
SHADOW with the ACTIVE bank's tables. Before its time the end of the copy is void (log 3). The bytes of a failure
are log 18. -/
def Obligations.CommitBank : Prop :=
  ∀ (tag : Byte) (s : State) (f : Frame) (rest : List Frame),
    let b := s.banks
    (Taking s tag .commitBank f rest →
      (b.other ≠ .shadow → exec (.commitBank tag) s = .next (answered f .bankBusy [] (s.took rest))) ∧
      (b.other = .shadow →
        (∀ x, validate s.store (b.tables b.otherId) b.otherId = some x → exec (.commitBank tag) s =
          .next (answered f .invalidTables (failureField x) (s.took rest))) ∧
        (validate s.store (b.tables b.otherId) b.otherId = none →
          (b.bound b.active = 0 → exec (.commitBank tag) s = .next (answered f .ok [byte b.otherId.val, 3, 0]
            ((s.took rest).setBanks { b with active := b.otherId, other := .copying 0 }))) ∧
          (0 < b.bound b.active → exec (.commitBank tag) s = .next (answered f .ok
            [byte b.otherId.val, 2, byte (b.bound b.active)]
            ((s.took rest).setBanks { b with active := b.otherId, other := .draining })))))) ∧
    (∀ e, b.other = .copying e → 37500 ≤ e →
      ∃ c : Banks, exec .copyComplete s = .next (submit (.bankReady b.otherId) (s.setBanks c)) ∧
        c.active = b.active ∧ c.other = .shadow ∧ ∀ i, c.tables i = b.tables b.active ∧ c.bound i = b.bound i) ∧
    ((∀ e, b.other = .copying e → e < 37500) → exec .copyComplete s = .next s)

/-! ## The raster link and the Control Unit -/

/-- Reload Config and an unknown command (R173, R170, R160): a command code that names nothing, or a body that does not
fit, is MALFORMED under the code read; a reload is refused BUSY while a record is queued or a bank drains or copies, and
otherwise its answer is placed, the loader starts and the PTU enters OFF, which drops an advance not yet presented
(log 10); the notice settings stay in force while it runs (log 47). -/
def Obligations.ReloadAndUnknown : Prop :=
  ∀ (tag : Byte) (s : State) (f : Frame) (rest : List Frame),
    (∀ code, Taking s tag (.unknown code) f rest →
      exec (.unknownCommand tag code) s = .next (answered f .malformed [] (s.took rest)) ∧ f.code = code) ∧
    (Taking s tag .reloadConfig f rest →
      (s.jobs.records ≠ [] ∨ s.banks.other ≠ .shadow →
        exec (.reloadConfig tag) s = .next (answered f .busy [] (s.took rest))) ∧
      (s.jobs.records = [] → s.banks.other = .shadow →
        let t := answered f .ok [] (s.took rest)
        let t := t.setLink { t.link with loader := .loading .reload 0 }
        (s.ptu.state = .off → exec (.reloadConfig tag) s = .next t) ∧
        (s.ptu.state ≠ .off → exec (.reloadConfig tag) s = .next (submit (.ptuState .off .loading) (t.setPtu
          { s.ptu with state := .off, v := 0, stall := none, presented := s.ptu.s / 2 ^ 24 })))))

/-- A frame delivered (R156, R157, R158, R189, R190): the envelope passes a whole frame of at most 4,224 body bytes under
its own check, and a line frame of 8 body bytes or more gives its plane, its line number and its pixels; a check that does
not match is BAD_CHECK; a body of another length than the field says, or of more than 4,224 bytes, is BAD_LENGTH under a
check that matches, and a frame too short for its length field has none that does (log 34). A failure is counted and submits
LINK_ERRORS; a job or control frame joins the inbound control queue, or is dropped when 8 wait. The frame's content decides
which of the three rows it is (log 7). -/
def Obligations.FrameArrival : Prop :=
  (∀ (tag : Byte) (body : List Byte), body.length ≤ 4224 →
    checkEnvelope (.whole (frameBytes 2 tag body)) = .ok (.control { job := true, tag := tag, body := body }) ∧
    checkEnvelope (.whole (frameBytes 3 tag body)) = .ok (.control { job := false, tag := tag, body := body }) ∧
    (∀ kind : Byte, kind ≠ 1 → kind ≠ 2 → kind ≠ 3 →
      checkEnvelope (.whole (frameBytes kind tag body)) = .error .badKind) ∧
    (body.length < 8 → checkEnvelope (.whole (frameBytes 1 tag body)) = .error .badLength) ∧
    (8 ≤ body.length → ∃ (p : Plane) (n : Nat) (px : List Dot),
      checkEnvelope (.whole (frameBytes 1 tag body)) = .ok (.line p n px) ∧
      (∀ b0 b1 b2 b3 b4 b5 b6 b7 more, body = b0 :: b1 :: b2 :: b3 :: b4 :: b5 :: b6 :: b7 :: more →
        p.val = b0.toNat % 4 ∧
        n = b4.toNat + b5.toNat * 2 ^ 8 + b6.toNat * 2 ^ 16 + b7.toNat * 2 ^ 24 ∧ px.length = 4 * more.length ∧
        ∀ k j b, j < 4 → more[k]? = some b → (px[4 * k + j]?).map Fin.val = some (b.toNat / 4 ^ j % 4)))) ∧
  checkEnvelope .damaged = .error .badCheck ∧
  (∀ (kind tag l0 l1 : Byte) (body check : List Byte),
    let len := l0.toNat + l1.toNat * 2 ^ 8
    let head := kind :: tag :: l0 :: l1 :: body
    (body.length = len → check.length = 4 → check ≠ crcBytes head →
      checkEnvelope (.whole (head ++ check)) = .error .badCheck) ∧
    (body.length < len + 4 → checkEnvelope (.whole head) = .error .badCheck) ∧
    (body.length = len → check ≠ [] → checkEnvelope (.whole (head ++ crcBytes head ++ check)) = .error .badLength) ∧
    (body.length = len → 4224 < len → checkEnvelope (.whole (head ++ crcBytes head)) = .error .badLength)) ∧
  ∀ (d : Delivery) (s : State),
    exec (.controlFrameArrival d) s = exec (.lineFrame d) s ∧ exec (.frameDiscarded d) s = exec (.lineFrame d) s ∧
    (∀ r, checkEnvelope d = .error r → exec (.frameDiscarded d) s =
      .next (submitCondition .linkErrors (.linkErrors r) (bump (.link .framesBad) s))) ∧
    ∀ f, checkEnvelope d = .ok (.control f) →
      let t := bump (.link .framesOk) s
      (s.link.inbound.length < 8 → exec (.controlFrameArrival d) s =
        .next (t.setLink { s.link with inbound := s.link.inbound ++ [f] })) ∧
      (8 ≤ s.link.inbound.length → exec (.controlFrameArrival d) s = .next (submitCondition .controlDropped
        (.controlDropped (if f.job then 2 else 3) f.tag) (bump (.link .controlDropped) t)))

/-- The link (R155, R162 to R168): its return sends a flow frame first, its loss cuts off what is sent and keeps what
waits, and the completion of a frame releases what was sent and lets the arbiter choose a flow frame, the oldest answer,
or the batch, in this order; it chooses before the Control Unit takes a frame that an answer's completion makes room for
(log 44). A report of the state the link already has, and a completion with nothing sent, are void
(log 33). -/
def Obligations.LinkEvents : Prop :=
  ∀ s : State, s.Inv →
    let k := s.link
    let flow : Outbound :=
      ⟨.flow, flowFrame (s.plane 0).paused (s.plane 1).paused (s.plane 2).paused (s.plane 3).paused⟩
    let chosen (k : LinkPort) : LinkPort :=
      if k.flowPending then { k with flowPending := false, outbound := some flow }
      else match k.answers, k.batch with
        | a :: _, _ => { k with outbound := some { kind := .answer, bytes := answerFrame a } }
        | [], some b => { k with outbound := some { kind := .notice, bytes := noticeFrame b } }
        | [], none => { k with outbound := none }
    (k.up = true → exec .linkUp s = .next s) ∧
    (k.up = false → exec .linkUp s = .next (s.setLink
      { k with up := true, flowPending := false, outbound := some flow })) ∧
    (k.up = false → exec .linkDown s = .next s) ∧
    (k.up = true → exec .linkDown s = .next (submitCondition .linkErrors (.linkErrors .syncLost)
      (s.setLink { k with up := false, outbound := none }))) ∧
    (k.outbound = none → exec .outboundComplete s = .next s) ∧
    ∀ o, k.outbound = some o →
      (o.kind = .flow → exec .outboundComplete s = .next (s.setLink (chosen k))) ∧
      (o.kind = .answer → exec .outboundComplete s =
        .next (s.setLink (chosen { k with answers := k.answers.drop 1 }))) ∧
      (o.kind = .notice →
        let u := s.notices
        let n := { u with
          batchWaiting := false
          idleTimer := if u.queue = [] then u.idleTimer else if u.idle = 0 then none else some 0 }
        let wanted := u.queue ≠ [] ∧ (u.level ≤ u.queue.length ∨ u.releaseDue = true)
        (¬ wanted → exec .outboundComplete s = .next ((s.setNotices n).setLink (chosen { k with batch := none }))) ∧
        (wanted → exec .outboundComplete s = .next ((s.setNotices { n with
            queue := u.queue.drop 16, batchWaiting := true, releaseDue := false
            idleTimer := if u.queue.length ≤ 16 then none else n.idleTimer }).setLink
          (chosen { k with batch := some (u.queue.take 16) }))))

/-! ## Notices, conditions and counters -/

/-- What a block submits (R176, R178, R179, R181, R182, R183, R185): a masked notice and a condition already set change
nothing; an entry joins stamped with the line position and with the lost count, or is counted as lost; a queue that
reaches the trigger level gives up its oldest 16 entries, unless a batch waits; a counter saturates. -/
def Obligations.NoticeSubmission : Prop :=
  ∀ (s : State) (n : Notice) (c : CondName) (d : CounterName),
    let u := s.notices
    let e : Entry := {
      notice := n, stamp := s.ptu.s / 2 ^ 32, lost := if u.lost = 0 then none else some u.lost }
    let joined := { u with queue := u.queue ++ [e], lost := 0, idleTimer := if u.idle = 0 then none else some 0 }
    (n.kind ∈ u.mask → submit n s = s) ∧
    (n.kind ∉ u.mask → 64 ≤ u.queue.length → submit n s = s.setNotices { u with lost := min 255 (u.lost + 1) }) ∧
    (n.kind ∉ u.mask → u.queue.length < 64 →
      (u.batchWaiting = true ∨ (u.queue.length + 1 < u.level ∧ u.releaseDue = false) →
        submit n s = s.setNotices joined) ∧
      (u.batchWaiting = false → u.level ≤ u.queue.length + 1 ∨ u.releaseDue = true →
        submit n s = arbitrate ((s.setNotices { joined with
            queue := joined.queue.drop 16, batchWaiting := true, releaseDue := false
            idleTimer := if u.queue.length < 16 then none else joined.idleTimer }).setLink
          { s.link with batch := some (joined.queue.take 16) }))) ∧
    (s.condition c = true → submitCondition c n s = s) ∧
    (s.condition c = false → ∃ t, submitCondition c n s = submit n t ∧
      t = s.setNotices { u with conditions := t.notices.conditions } ∧ t.condition c = true ∧
      ∀ x, x ≠ c → t.condition x = s.condition x) ∧
    let b := bump d s
    b = s.setNotices { u with counters := b.notices.counters } ∧
      b.counter d = min (2 ^ 32 - 1) (s.counter d + 1) ∧ ∀ x, x ≠ d → b.counter x = s.counter x

/-- The commands of the Notice Unit and its idle timer (R180, R182, R183, R184, R186): the refusals, the settings in force
and their effect at once, the flags and the counters cleared and every other one kept, and the release that the idle
timer brings or makes due. A kind without an index names its flag with the index byte 0 alone (log 45). Before its time the expiry is void (log 3). -/
def Obligations.NoticeCommands : Prop :=
  ∀ (tag : Byte) (s : State) (f : Frame) (rest : List Frame),
    let u := s.notices
    let released (v : NoticeUnit) (idle : Option Nat) (t : State) := arbitrate ((t.setNotices { v with
        queue := v.queue.drop 16, batchWaiting := true, releaseDue := false
        idleTimer := if v.queue.length ≤ 16 then none else idle }).setLink
      { t.link with batch := some (v.queue.take 16) })
    (∀ a, Taking s tag (.setNotices a) f rest →
      ((∃ l x, a.mask = some l ∧ x ∈ l ∧ ∀ k : NoticeKind, k.code ≠ x) →
        exec (.setNotices tag a) s = .next (answered f .badValue [] (s.took rest))) ∧
      ((∀ l, a.mask = some l → ∀ x ∈ l, ∃ k : NoticeKind, k.code = x) →
        let mask := (a.mask.map fun l => allKinds.filter fun k => l.contains k.code).getD u.mask
        let level := (a.level.map fun x => if x ≤ 1 then 1 else if x ≤ 4 then 4 else if x ≤ 8 then 8 else 16).getD u.level
        let idle := (a.idle.map (min · 255)).getD u.idle
        let ok (t : State) := exec (.setNotices tag a) s = .next (answered f .ok
          (setField ((allKinds.filter fun k => mask.contains k).map NoticeKind.code) ++ [byte level, byte idle]) t)
        let v := { u with mask := mask, level := level, idle := idle }
        let t := (s.took rest).setNotices v
        let wanted := u.batchWaiting = false ∧ u.queue ≠ [] ∧ (level ≤ u.queue.length ∨ u.releaseDue = true)
        (∃ t, ok t ∧ t.notices.mask = mask ∧ t.notices.level = level ∧ t.notices.idle = idle ∧
          t.notices.conditions = u.conditions ∧ t.notices.counters = u.counters ∧ t.notices.lost = u.lost) ∧
        (a.level = none → a.idle = none → ok t) ∧
        (a.idle = none → (∃ x, a.level = some x) → (¬ wanted → ok t) ∧ (wanted → ok (released v u.idleTimer t))) ∧
        (∀ x, a.level = none → a.idle = some x →
          (x = 0 → ok (t.setNotices { v with idleTimer := none })) ∧
          (x ≠ 0 → u.idleTimer = none →
            ok (t.setNotices { v with idleTimer := if u.queue = [] then none else some 0 })) ∧
          (x ≠ 0 → ∀ e, u.idleTimer = some e →
            (e < idle * 1250 → ok t) ∧
            (idle * 1250 ≤ e → u.queue ≠ [] →
              (u.batchWaiting = true → ok (t.setNotices { v with idleTimer := none, releaseDue := true })) ∧
              (u.batchWaiting = false → ok (released v (some 0) t))))))) ∧
    (∀ a, Taking s tag (.clearConditions a) f rest →
      let named (c : CondName) := a = .all ∨ ∃ l, a = .some l ∧ c.codes ∈ l
      ((∃ l x, a = .some l ∧ x ∈ l ∧ ∀ c : CondName, c.codes ≠ x) →
        exec (.clearConditions tag a) s = .next (answered f .badValue [] (s.took rest))) ∧
      ((∀ l, a = .some l → ∀ x ∈ l, ∃ c : CondName, c.codes = x) →
        ∃ t, exec (.clearConditions tag a) s = .next (answered f .ok (flagsField t) t) ∧
          t = (s.took rest).setNotices { u with conditions := t.notices.conditions } ∧
          ∀ c, t.condition c = true ↔ s.condition c = true ∧ ¬ named c)) ∧
    (∀ g, Taking s tag (.clearCounters g) f rest →
      (5 ≤ g → exec (.clearCounters tag g) s = .next (answered f .badValue [] (s.took rest))) ∧
      (g ≤ 4 → ∃ t, exec (.clearCounters tag g) s = .next (answered f .ok [] t) ∧
        t = (s.took rest).setNotices { u with counters := t.notices.counters } ∧
        ∀ c : CounterName, t.counter c = match c with
          | .head .. => if g = 0 ∨ g = 4 then 0 else s.counter c
          | .plane .. => if g = 1 ∨ g = 4 then 0 else s.counter c
          | .link .. => if g = 2 ∨ g = 4 then 0 else s.counter c
          | .trigger .. => if g = 3 ∨ g = 4 then 0 else s.counter c)) ∧
    ((∀ e, u.idleTimer = some e → u.idle = 0 ∨ e < u.idle * 1250) → exec .idleTimerExpiry s = .next s) ∧
    ∀ e, u.idleTimer = some e → u.idle ≠ 0 → u.idle * 1250 ≤ e → u.queue ≠ [] →
      (u.batchWaiting = true →
        exec .idleTimerExpiry s = .next (s.setNotices { u with idleTimer := none, releaseDue := true })) ∧
      (u.batchWaiting = false → exec .idleTimerExpiry s = .next (released u (some 0) s))
end

