-- ==== Sys2Proof/Laws/State.lean ====
section
/-!
SUPPORT. Reading a field of the state, or one head, lane or plane, after an update of the state: one lemma per field
per update, so that no proof unfolds a record update.
-/

namespace Sys2Proof.Machine

/-! ## Fixed-size tables -/

theorem get_eq {α : Type} {n : Nat} (v : Vector α n) (i : Fin n) : v.get i = v[i.val]'i.isLt := rfl

@[simp] theorem get_put {α : Type} {n : Nat} (v : Vector α n) (i : Fin n) (x : α) : (put v i x).get i = x := by
  simp only [get_eq, put]; exact Vector.getElem_set_self _

theorem get_put_ne {α : Type} {n : Nat} (v : Vector α n) {i j : Fin n} (x : α) (h : i ≠ j) :
    (put v i x).get j = v.get j := by
  simp only [get_eq, put]; exact Vector.getElem_set_ne _ _ fun e => h (Fin.ext e)

theorem get_put_if {α : Type} {n : Nat} (v : Vector α n) (i j : Fin n) (x : α) :
    (put v i x).get j = if j = i then x else v.get j := by
  by_cases h : j = i
  · subst h; simp
  · simp [h, get_put_ne v x (Ne.symm h)]

@[simp] theorem get_ofFn {α : Type} {n : Nat} (f : Fin n → α) (i : Fin n) : (Vector.ofFn f).get i = f i := by
  simp only [get_eq]; exact Vector.getElem_ofFn _

@[simp] theorem get_mapAll {α β : Type} {n : Nat} (f : Fin n → α → β) (v : Vector α n) (i : Fin n) :
    (mapAll f v).get i = f i (v.get i) := get_ofFn _ _

@[simp] theorem get_replicate {α : Type} {n : Nat} (x : α) (i : Fin n) : (Vector.replicate n x).get i = x := by
  simp only [get_eq]; exact Vector.getElem_replicate _

/-! ## Fields after an update -/

@[simp] theorem State.setPtu_now (s : State) (x : Ptu) : (s.setPtu x).now = s.now := rfl
@[simp] theorem State.setPtu_ptu (s : State) (x : Ptu) : (s.setPtu x).ptu = x := rfl
@[simp] theorem State.setPtu_trig (s : State) (x : Ptu) : (s.setPtu x).trig = s.trig := rfl
@[simp] theorem State.setPtu_jobs (s : State) (x : Ptu) : (s.setPtu x).jobs = s.jobs := rfl
@[simp] theorem State.setPtu_store (s : State) (x : Ptu) : (s.setPtu x).store = s.store := rfl
@[simp] theorem State.setPtu_heads (s : State) (x : Ptu) : (s.setPtu x).heads = s.heads := rfl
@[simp] theorem State.setPtu_lanes (s : State) (x : Ptu) : (s.setPtu x).lanes = s.lanes := rfl
@[simp] theorem State.setPtu_banks (s : State) (x : Ptu) : (s.setPtu x).banks = s.banks := rfl
@[simp] theorem State.setPtu_notices (s : State) (x : Ptu) : (s.setPtu x).notices = s.notices := rfl
@[simp] theorem State.setPtu_link (s : State) (x : Ptu) : (s.setPtu x).link = s.link := rfl
@[simp] theorem State.setPtu_pending (s : State) (x : Ptu) : (s.setPtu x).pending = s.pending := rfl

@[simp] theorem State.setTrig_now (s : State) (x : Qualifier) : (s.setTrig x).now = s.now := rfl
@[simp] theorem State.setTrig_ptu (s : State) (x : Qualifier) : (s.setTrig x).ptu = s.ptu := rfl
@[simp] theorem State.setTrig_trig (s : State) (x : Qualifier) : (s.setTrig x).trig = x := rfl
@[simp] theorem State.setTrig_jobs (s : State) (x : Qualifier) : (s.setTrig x).jobs = s.jobs := rfl
@[simp] theorem State.setTrig_store (s : State) (x : Qualifier) : (s.setTrig x).store = s.store := rfl
@[simp] theorem State.setTrig_heads (s : State) (x : Qualifier) : (s.setTrig x).heads = s.heads := rfl
@[simp] theorem State.setTrig_lanes (s : State) (x : Qualifier) : (s.setTrig x).lanes = s.lanes := rfl
@[simp] theorem State.setTrig_banks (s : State) (x : Qualifier) : (s.setTrig x).banks = s.banks := rfl
@[simp] theorem State.setTrig_notices (s : State) (x : Qualifier) : (s.setTrig x).notices = s.notices := rfl
@[simp] theorem State.setTrig_link (s : State) (x : Qualifier) : (s.setTrig x).link = s.link := rfl
@[simp] theorem State.setTrig_pending (s : State) (x : Qualifier) : (s.setTrig x).pending = s.pending := rfl

@[simp] theorem State.setJobs_now (s : State) (x : JobQueue) : (s.setJobs x).now = s.now := rfl
@[simp] theorem State.setJobs_ptu (s : State) (x : JobQueue) : (s.setJobs x).ptu = s.ptu := rfl
@[simp] theorem State.setJobs_trig (s : State) (x : JobQueue) : (s.setJobs x).trig = s.trig := rfl
@[simp] theorem State.setJobs_jobs (s : State) (x : JobQueue) : (s.setJobs x).jobs = x := rfl
@[simp] theorem State.setJobs_store (s : State) (x : JobQueue) : (s.setJobs x).store = s.store := rfl
@[simp] theorem State.setJobs_heads (s : State) (x : JobQueue) : (s.setJobs x).heads = s.heads := rfl
@[simp] theorem State.setJobs_lanes (s : State) (x : JobQueue) : (s.setJobs x).lanes = s.lanes := rfl
@[simp] theorem State.setJobs_banks (s : State) (x : JobQueue) : (s.setJobs x).banks = s.banks := rfl
@[simp] theorem State.setJobs_notices (s : State) (x : JobQueue) : (s.setJobs x).notices = s.notices := rfl
@[simp] theorem State.setJobs_link (s : State) (x : JobQueue) : (s.setJobs x).link = s.link := rfl
@[simp] theorem State.setJobs_pending (s : State) (x : JobQueue) : (s.setJobs x).pending = s.pending := rfl

@[simp] theorem State.setStore_now (s : State) (x : Vector PlaneStore 4) : (s.setStore x).now = s.now := rfl
@[simp] theorem State.setStore_ptu (s : State) (x : Vector PlaneStore 4) : (s.setStore x).ptu = s.ptu := rfl
@[simp] theorem State.setStore_trig (s : State) (x : Vector PlaneStore 4) : (s.setStore x).trig = s.trig := rfl
@[simp] theorem State.setStore_jobs (s : State) (x : Vector PlaneStore 4) : (s.setStore x).jobs = s.jobs := rfl
@[simp] theorem State.setStore_store (s : State) (x : Vector PlaneStore 4) : (s.setStore x).store = x := rfl
@[simp] theorem State.setStore_heads (s : State) (x : Vector PlaneStore 4) : (s.setStore x).heads = s.heads := rfl
@[simp] theorem State.setStore_lanes (s : State) (x : Vector PlaneStore 4) : (s.setStore x).lanes = s.lanes := rfl
@[simp] theorem State.setStore_banks (s : State) (x : Vector PlaneStore 4) : (s.setStore x).banks = s.banks := rfl
@[simp] theorem State.setStore_notices (s : State) (x : Vector PlaneStore 4) : (s.setStore x).notices = s.notices := rfl
@[simp] theorem State.setStore_link (s : State) (x : Vector PlaneStore 4) : (s.setStore x).link = s.link := rfl
@[simp] theorem State.setStore_pending (s : State) (x : Vector PlaneStore 4) : (s.setStore x).pending = s.pending := rfl

@[simp] theorem State.setHeads_now (s : State) (x : Vector HeadRec 16) : (s.setHeads x).now = s.now := rfl
@[simp] theorem State.setHeads_ptu (s : State) (x : Vector HeadRec 16) : (s.setHeads x).ptu = s.ptu := rfl
@[simp] theorem State.setHeads_trig (s : State) (x : Vector HeadRec 16) : (s.setHeads x).trig = s.trig := rfl
@[simp] theorem State.setHeads_jobs (s : State) (x : Vector HeadRec 16) : (s.setHeads x).jobs = s.jobs := rfl
@[simp] theorem State.setHeads_store (s : State) (x : Vector HeadRec 16) : (s.setHeads x).store = s.store := rfl
@[simp] theorem State.setHeads_heads (s : State) (x : Vector HeadRec 16) : (s.setHeads x).heads = x := rfl
@[simp] theorem State.setHeads_lanes (s : State) (x : Vector HeadRec 16) : (s.setHeads x).lanes = s.lanes := rfl
@[simp] theorem State.setHeads_banks (s : State) (x : Vector HeadRec 16) : (s.setHeads x).banks = s.banks := rfl
@[simp] theorem State.setHeads_notices (s : State) (x : Vector HeadRec 16) : (s.setHeads x).notices = s.notices := rfl
@[simp] theorem State.setHeads_link (s : State) (x : Vector HeadRec 16) : (s.setHeads x).link = s.link := rfl
@[simp] theorem State.setHeads_pending (s : State) (x : Vector HeadRec 16) : (s.setHeads x).pending = s.pending := rfl

@[simp] theorem State.setLanes_now (s : State) (x : Vector Lane 16) : (s.setLanes x).now = s.now := rfl
@[simp] theorem State.setLanes_ptu (s : State) (x : Vector Lane 16) : (s.setLanes x).ptu = s.ptu := rfl
@[simp] theorem State.setLanes_trig (s : State) (x : Vector Lane 16) : (s.setLanes x).trig = s.trig := rfl
@[simp] theorem State.setLanes_jobs (s : State) (x : Vector Lane 16) : (s.setLanes x).jobs = s.jobs := rfl
@[simp] theorem State.setLanes_store (s : State) (x : Vector Lane 16) : (s.setLanes x).store = s.store := rfl
@[simp] theorem State.setLanes_heads (s : State) (x : Vector Lane 16) : (s.setLanes x).heads = s.heads := rfl
@[simp] theorem State.setLanes_lanes (s : State) (x : Vector Lane 16) : (s.setLanes x).lanes = x := rfl
@[simp] theorem State.setLanes_banks (s : State) (x : Vector Lane 16) : (s.setLanes x).banks = s.banks := rfl
@[simp] theorem State.setLanes_notices (s : State) (x : Vector Lane 16) : (s.setLanes x).notices = s.notices := rfl
@[simp] theorem State.setLanes_link (s : State) (x : Vector Lane 16) : (s.setLanes x).link = s.link := rfl
@[simp] theorem State.setLanes_pending (s : State) (x : Vector Lane 16) : (s.setLanes x).pending = s.pending := rfl

@[simp] theorem State.setBanks_now (s : State) (x : Banks) : (s.setBanks x).now = s.now := rfl
@[simp] theorem State.setBanks_ptu (s : State) (x : Banks) : (s.setBanks x).ptu = s.ptu := rfl
@[simp] theorem State.setBanks_trig (s : State) (x : Banks) : (s.setBanks x).trig = s.trig := rfl
@[simp] theorem State.setBanks_jobs (s : State) (x : Banks) : (s.setBanks x).jobs = s.jobs := rfl
@[simp] theorem State.setBanks_store (s : State) (x : Banks) : (s.setBanks x).store = s.store := rfl
@[simp] theorem State.setBanks_heads (s : State) (x : Banks) : (s.setBanks x).heads = s.heads := rfl
@[simp] theorem State.setBanks_lanes (s : State) (x : Banks) : (s.setBanks x).lanes = s.lanes := rfl
@[simp] theorem State.setBanks_banks (s : State) (x : Banks) : (s.setBanks x).banks = x := rfl
@[simp] theorem State.setBanks_notices (s : State) (x : Banks) : (s.setBanks x).notices = s.notices := rfl
@[simp] theorem State.setBanks_link (s : State) (x : Banks) : (s.setBanks x).link = s.link := rfl
@[simp] theorem State.setBanks_pending (s : State) (x : Banks) : (s.setBanks x).pending = s.pending := rfl

@[simp] theorem State.setNotices_now (s : State) (x : NoticeUnit) : (s.setNotices x).now = s.now := rfl
@[simp] theorem State.setNotices_ptu (s : State) (x : NoticeUnit) : (s.setNotices x).ptu = s.ptu := rfl
@[simp] theorem State.setNotices_trig (s : State) (x : NoticeUnit) : (s.setNotices x).trig = s.trig := rfl
@[simp] theorem State.setNotices_jobs (s : State) (x : NoticeUnit) : (s.setNotices x).jobs = s.jobs := rfl
@[simp] theorem State.setNotices_store (s : State) (x : NoticeUnit) : (s.setNotices x).store = s.store := rfl
@[simp] theorem State.setNotices_heads (s : State) (x : NoticeUnit) : (s.setNotices x).heads = s.heads := rfl
@[simp] theorem State.setNotices_lanes (s : State) (x : NoticeUnit) : (s.setNotices x).lanes = s.lanes := rfl
@[simp] theorem State.setNotices_banks (s : State) (x : NoticeUnit) : (s.setNotices x).banks = s.banks := rfl
@[simp] theorem State.setNotices_notices (s : State) (x : NoticeUnit) : (s.setNotices x).notices = x := rfl
@[simp] theorem State.setNotices_link (s : State) (x : NoticeUnit) : (s.setNotices x).link = s.link := rfl
@[simp] theorem State.setNotices_pending (s : State) (x : NoticeUnit) : (s.setNotices x).pending = s.pending := rfl

@[simp] theorem State.setLink_now (s : State) (x : LinkPort) : (s.setLink x).now = s.now := rfl
@[simp] theorem State.setLink_ptu (s : State) (x : LinkPort) : (s.setLink x).ptu = s.ptu := rfl
@[simp] theorem State.setLink_trig (s : State) (x : LinkPort) : (s.setLink x).trig = s.trig := rfl
@[simp] theorem State.setLink_jobs (s : State) (x : LinkPort) : (s.setLink x).jobs = s.jobs := rfl
@[simp] theorem State.setLink_store (s : State) (x : LinkPort) : (s.setLink x).store = s.store := rfl
@[simp] theorem State.setLink_heads (s : State) (x : LinkPort) : (s.setLink x).heads = s.heads := rfl
@[simp] theorem State.setLink_lanes (s : State) (x : LinkPort) : (s.setLink x).lanes = s.lanes := rfl
@[simp] theorem State.setLink_banks (s : State) (x : LinkPort) : (s.setLink x).banks = s.banks := rfl
@[simp] theorem State.setLink_notices (s : State) (x : LinkPort) : (s.setLink x).notices = s.notices := rfl
@[simp] theorem State.setLink_link (s : State) (x : LinkPort) : (s.setLink x).link = x := rfl
@[simp] theorem State.setLink_pending (s : State) (x : LinkPort) : (s.setLink x).pending = s.pending := rfl

@[simp] theorem State.setHead_now (s : State) (h : Head) (x : HeadRec) : (s.setHead h x).now = s.now := rfl
@[simp] theorem State.setHead_ptu (s : State) (h : Head) (x : HeadRec) : (s.setHead h x).ptu = s.ptu := rfl
@[simp] theorem State.setHead_trig (s : State) (h : Head) (x : HeadRec) : (s.setHead h x).trig = s.trig := rfl
@[simp] theorem State.setHead_jobs (s : State) (h : Head) (x : HeadRec) : (s.setHead h x).jobs = s.jobs := rfl
@[simp] theorem State.setHead_store (s : State) (h : Head) (x : HeadRec) : (s.setHead h x).store = s.store := rfl
@[simp] theorem State.setHead_heads (s : State) (h : Head) (x : HeadRec) : (s.setHead h x).heads = put s.heads h x := rfl
@[simp] theorem State.setHead_lanes (s : State) (h : Head) (x : HeadRec) : (s.setHead h x).lanes = s.lanes := rfl
@[simp] theorem State.setHead_banks (s : State) (h : Head) (x : HeadRec) : (s.setHead h x).banks = s.banks := rfl
@[simp] theorem State.setHead_notices (s : State) (h : Head) (x : HeadRec) : (s.setHead h x).notices = s.notices := rfl
@[simp] theorem State.setHead_link (s : State) (h : Head) (x : HeadRec) : (s.setHead h x).link = s.link := rfl
@[simp] theorem State.setHead_pending (s : State) (h : Head) (x : HeadRec) : (s.setHead h x).pending = s.pending := rfl

@[simp] theorem State.setLane_now (s : State) (h : Head) (x : Lane) : (s.setLane h x).now = s.now := rfl
@[simp] theorem State.setLane_ptu (s : State) (h : Head) (x : Lane) : (s.setLane h x).ptu = s.ptu := rfl
@[simp] theorem State.setLane_trig (s : State) (h : Head) (x : Lane) : (s.setLane h x).trig = s.trig := rfl
@[simp] theorem State.setLane_jobs (s : State) (h : Head) (x : Lane) : (s.setLane h x).jobs = s.jobs := rfl
@[simp] theorem State.setLane_store (s : State) (h : Head) (x : Lane) : (s.setLane h x).store = s.store := rfl
@[simp] theorem State.setLane_heads (s : State) (h : Head) (x : Lane) : (s.setLane h x).heads = s.heads := rfl
@[simp] theorem State.setLane_lanes (s : State) (h : Head) (x : Lane) : (s.setLane h x).lanes = put s.lanes h x := rfl
@[simp] theorem State.setLane_banks (s : State) (h : Head) (x : Lane) : (s.setLane h x).banks = s.banks := rfl
@[simp] theorem State.setLane_notices (s : State) (h : Head) (x : Lane) : (s.setLane h x).notices = s.notices := rfl
@[simp] theorem State.setLane_link (s : State) (h : Head) (x : Lane) : (s.setLane h x).link = s.link := rfl
@[simp] theorem State.setLane_pending (s : State) (h : Head) (x : Lane) : (s.setLane h x).pending = s.pending := rfl

@[simp] theorem State.setPlane_now (s : State) (h : Plane) (x : PlaneStore) : (s.setPlane h x).now = s.now := rfl
@[simp] theorem State.setPlane_ptu (s : State) (h : Plane) (x : PlaneStore) : (s.setPlane h x).ptu = s.ptu := rfl
@[simp] theorem State.setPlane_trig (s : State) (h : Plane) (x : PlaneStore) : (s.setPlane h x).trig = s.trig := rfl
@[simp] theorem State.setPlane_jobs (s : State) (h : Plane) (x : PlaneStore) : (s.setPlane h x).jobs = s.jobs := rfl
@[simp] theorem State.setPlane_store (s : State) (h : Plane) (x : PlaneStore) : (s.setPlane h x).store = put s.store h x := rfl
@[simp] theorem State.setPlane_heads (s : State) (h : Plane) (x : PlaneStore) : (s.setPlane h x).heads = s.heads := rfl
@[simp] theorem State.setPlane_lanes (s : State) (h : Plane) (x : PlaneStore) : (s.setPlane h x).lanes = s.lanes := rfl
@[simp] theorem State.setPlane_banks (s : State) (h : Plane) (x : PlaneStore) : (s.setPlane h x).banks = s.banks := rfl
@[simp] theorem State.setPlane_notices (s : State) (h : Plane) (x : PlaneStore) : (s.setPlane h x).notices = s.notices := rfl
@[simp] theorem State.setPlane_link (s : State) (h : Plane) (x : PlaneStore) : (s.setPlane h x).link = s.link := rfl
@[simp] theorem State.setPlane_pending (s : State) (h : Plane) (x : PlaneStore) : (s.setPlane h x).pending = s.pending := rfl

/-! ## One head, lane or plane after an update -/

@[simp] theorem State.setPtu_head (s : State) (x : Ptu) (i : Head) : (s.setPtu x).head i = s.head i := rfl
@[simp] theorem State.setTrig_head (s : State) (x : Qualifier) (i : Head) : (s.setTrig x).head i = s.head i := rfl
@[simp] theorem State.setJobs_head (s : State) (x : JobQueue) (i : Head) : (s.setJobs x).head i = s.head i := rfl
@[simp] theorem State.setStore_head (s : State) (x : Vector PlaneStore 4) (i : Head) : (s.setStore x).head i = s.head i := rfl
@[simp] theorem State.setHeads_head (s : State) (x : Vector HeadRec 16) (i : Head) : (s.setHeads x).head i = x.get i := rfl
@[simp] theorem State.setLanes_head (s : State) (x : Vector Lane 16) (i : Head) : (s.setLanes x).head i = s.head i := rfl
@[simp] theorem State.setBanks_head (s : State) (x : Banks) (i : Head) : (s.setBanks x).head i = s.head i := rfl
@[simp] theorem State.setNotices_head (s : State) (x : NoticeUnit) (i : Head) : (s.setNotices x).head i = s.head i := rfl
@[simp] theorem State.setLink_head (s : State) (x : LinkPort) (i : Head) : (s.setLink x).head i = s.head i := rfl
@[simp] theorem State.setHead_head (s : State) (h : Head) (x : HeadRec) : (s.setHead h x).head h = x := get_put _ _ _
theorem State.setHead_head_ne (s : State) {h i : Head} (x : HeadRec) (n : h ≠ i) :
    (s.setHead h x).head i = s.head i := get_put_ne _ _ n
theorem State.setHead_head_if (s : State) (h i : Head) (x : HeadRec) :
    (s.setHead h x).head i = if i = h then x else s.head i := get_put_if _ _ _ _
@[simp] theorem State.setLane_head (s : State) (h : Head) (x : Lane) (i : Head) :
    (s.setLane h x).head i = s.head i := rfl
@[simp] theorem State.setPlane_head (s : State) (h : Plane) (x : PlaneStore) (i : Head) :
    (s.setPlane h x).head i = s.head i := rfl

@[simp] theorem State.setPtu_lane (s : State) (x : Ptu) (i : Head) : (s.setPtu x).lane i = s.lane i := rfl
@[simp] theorem State.setTrig_lane (s : State) (x : Qualifier) (i : Head) : (s.setTrig x).lane i = s.lane i := rfl
@[simp] theorem State.setJobs_lane (s : State) (x : JobQueue) (i : Head) : (s.setJobs x).lane i = s.lane i := rfl
@[simp] theorem State.setStore_lane (s : State) (x : Vector PlaneStore 4) (i : Head) : (s.setStore x).lane i = s.lane i := rfl
@[simp] theorem State.setHeads_lane (s : State) (x : Vector HeadRec 16) (i : Head) : (s.setHeads x).lane i = s.lane i := rfl
@[simp] theorem State.setLanes_lane (s : State) (x : Vector Lane 16) (i : Head) : (s.setLanes x).lane i = x.get i := rfl
@[simp] theorem State.setBanks_lane (s : State) (x : Banks) (i : Head) : (s.setBanks x).lane i = s.lane i := rfl
@[simp] theorem State.setNotices_lane (s : State) (x : NoticeUnit) (i : Head) : (s.setNotices x).lane i = s.lane i := rfl
@[simp] theorem State.setLink_lane (s : State) (x : LinkPort) (i : Head) : (s.setLink x).lane i = s.lane i := rfl
@[simp] theorem State.setHead_lane (s : State) (h : Head) (x : HeadRec) (i : Head) :
    (s.setHead h x).lane i = s.lane i := rfl
@[simp] theorem State.setLane_lane (s : State) (h : Head) (x : Lane) : (s.setLane h x).lane h = x := get_put _ _ _
theorem State.setLane_lane_ne (s : State) {h i : Head} (x : Lane) (n : h ≠ i) :
    (s.setLane h x).lane i = s.lane i := get_put_ne _ _ n
theorem State.setLane_lane_if (s : State) (h i : Head) (x : Lane) :
    (s.setLane h x).lane i = if i = h then x else s.lane i := get_put_if _ _ _ _
@[simp] theorem State.setPlane_lane (s : State) (h : Plane) (x : PlaneStore) (i : Head) :
    (s.setPlane h x).lane i = s.lane i := rfl

@[simp] theorem State.setPtu_plane (s : State) (x : Ptu) (i : Plane) : (s.setPtu x).plane i = s.plane i := rfl
@[simp] theorem State.setTrig_plane (s : State) (x : Qualifier) (i : Plane) : (s.setTrig x).plane i = s.plane i := rfl
@[simp] theorem State.setJobs_plane (s : State) (x : JobQueue) (i : Plane) : (s.setJobs x).plane i = s.plane i := rfl
@[simp] theorem State.setStore_plane (s : State) (x : Vector PlaneStore 4) (i : Plane) : (s.setStore x).plane i = x.get i := rfl
@[simp] theorem State.setHeads_plane (s : State) (x : Vector HeadRec 16) (i : Plane) : (s.setHeads x).plane i = s.plane i := rfl
@[simp] theorem State.setLanes_plane (s : State) (x : Vector Lane 16) (i : Plane) : (s.setLanes x).plane i = s.plane i := rfl
@[simp] theorem State.setBanks_plane (s : State) (x : Banks) (i : Plane) : (s.setBanks x).plane i = s.plane i := rfl
@[simp] theorem State.setNotices_plane (s : State) (x : NoticeUnit) (i : Plane) : (s.setNotices x).plane i = s.plane i := rfl
@[simp] theorem State.setLink_plane (s : State) (x : LinkPort) (i : Plane) : (s.setLink x).plane i = s.plane i := rfl
@[simp] theorem State.setHead_plane (s : State) (h : Head) (x : HeadRec) (i : Plane) :
    (s.setHead h x).plane i = s.plane i := rfl
@[simp] theorem State.setLane_plane (s : State) (h : Head) (x : Lane) (i : Plane) :
    (s.setLane h x).plane i = s.plane i := rfl
@[simp] theorem State.setPlane_plane (s : State) (h : Plane) (x : PlaneStore) : (s.setPlane h x).plane h = x := get_put _ _ _
theorem State.setPlane_plane_ne (s : State) {h i : Plane} (x : PlaneStore) (n : h ≠ i) :
    (s.setPlane h x).plane i = s.plane i := get_put_ne _ _ n
theorem State.setPlane_plane_if (s : State) (h i : Plane) (x : PlaneStore) :
    (s.setPlane h x).plane i = if i = h then x else s.plane i := get_put_if _ _ _ _

/-! ## Going through a list -/

@[simp] theorem forEach_nil {α : Type} (f : α → State → State) (s : State) : forEach [] f s = s := rfl

@[simp] theorem forEach_cons {α : Type} (a : α) (l : List α) (f : α → State → State) (s : State) :
    forEach (a :: l) f s = forEach l f (f a s) := rfl

/-- What every member's change keeps, the whole run keeps. -/
theorem forEach_keeps {α : Type} {P : State → Prop} (l : List α) (f : α → State → State)
    (hf : ∀ a ∈ l, ∀ s, P s → P (f a s)) {s : State} (h : P s) : P (forEach l f s) := by
  induction l generalizing s with
  | nil => exact h
  | cons a l ih =>
    exact ih (fun b hb => hf b (List.mem_cons_of_mem a hb)) (hf a List.mem_cons_self s h)

end Sys2Proof.Machine
end

