-- ==== Sys2Proof/Laws/Check.lean ====
section
/-!
SUPPORT. The invariant as a check that can be evaluated on a state written out: where it answers true the state meets
the invariant. The tests show their states with it.
-/

namespace Sys2Proof.Machine

/-- The check of a value that may be absent. -/
theorem of_all {α : Type} {p : α → Prop} [DecidablePred p] {o : Option α} (h : o.all (fun x => decide (p x)) = true) :
    ∀ x, o = some x → p x := by
  rintro x rfl; simpa using h

def PtuParams.ok (q : PtuParams) : Bool :=
  decide (256 ≤ q.lineRatio ∧ q.lineRatio ≤ 4194304) && decide (q.avgExp ≤ 5) && decide (q.encFilter ∈ [0, 2, 4, 8, 16]) &&
    decide (q.kp ≤ 65535 ∧ q.ki ≤ 65535) && decide (q.ilim ≤ 2 ^ 31 - 1) && decide (1 ≤ q.vmax ∧ q.vmax ≤ 2 ^ 32 - 1) &&
    decide (65536 ≤ q.slip ∧ q.slip ≤ 16777216) && decide (25000 ≤ q.stallTimeout ∧ q.stallTimeout ≤ 16777215)

theorem PtuParams.ok_wf {q : PtuParams} (h : q.ok = true) : q.Wf := by
  simp only [PtuParams.ok, Bool.and_eq_true, decide_eq_true_eq] at h
  exact ⟨h.1.1.1.1.1.1.1, h.1.1.1.1.1.1.2, h.1.1.1.1.1.2, h.1.1.1.1.2, h.1.1.1.2, h.1.1.2, h.1.2, h.2⟩

def Ptu.ok (u : Ptu) : Bool :=
  u.params.ok && decide (Config.mMin ≤ u.m ∧ u.m ≤ Config.mMax) && decide (u.s ≤ Config.sMax) &&
    decide (u.v ≤ u.params.vmax) && decide (-(u.params.ilim : Int) ≤ u.i ∧ u.i ≤ u.params.ilim) &&
    decide (u.vff ≤ 2 ^ 38) && decide (∀ p ∈ u.history, 1 ≤ p ∧ p ≤ Config.periodMax) &&
    decide (u.state ≠ .tracking → u.v = 0) && decide (u.stall.isSome = true ↔ u.state = .acquiring ∨ u.state = .tracking) &&
    decide (u.state = .stopped ∨ u.state = .holding → u.history = [] ∧ u.mark = none) &&
    decide (u.state = .acquiring → u.history.length < 2 ^ u.params.avgExp ∧ (u.mark = none → u.history = [])) &&
    decide (u.state = .tracking → u.mark.isSome = true ∧ u.history.length = 2 ^ u.params.avgExp) &&
    decide (u.presented ≤ u.s / 2 ^ 24) && decide (u.encA.progress ≤ u.params.encFilter ∧ u.encB.progress ≤ u.params.encFilter)

theorem Ptu.ok_wf {u : Ptu} (h : u.ok = true) : u.Wf := by
  simp only [Ptu.ok, Bool.and_eq_true, decide_eq_true_eq] at h
  obtain ⟨⟨⟨⟨⟨⟨⟨⟨⟨⟨⟨⟨⟨a, b⟩, c⟩, d⟩, e⟩, f⟩, g⟩, i⟩, j⟩, k⟩, l⟩, m⟩, n⟩, o⟩ := h
  exact ⟨PtuParams.ok_wf a, b, c, d, e, f, g, i, j, k, l, m, n, o⟩

def TrigParams.ok (q : TrigParams) : Bool :=
  decide (1 ≤ q.minOn ∧ q.minOn ≤ 65535) && decide (q.dropout ≤ 65535) && decide (q.minOff ≤ 65535)

theorem TrigParams.ok_wf {q : TrigParams} (h : q.ok = true) : q.Wf := by
  simp only [TrigParams.ok, Bool.and_eq_true, decide_eq_true_eq] at h
  exact ⟨h.1.1, h.1.2, h.2⟩

def Qualifier.ok (t : Qualifier) : Bool :=
  t.params.ok && t.newParams.all TrigParams.ok && decide (t.p.isSome = true ↔ t.state ≠ .idle) &&
    decide (t.t0.isSome = true ↔ t.state ≠ .idle) &&
    decide (t.timer.map Prod.fst = match t.state with
      | .dropout => some .dropout
      | .releasing => some .minOff
      | .idle | .candidate | .qualified => none) &&
    decide (t.input.progress ≤ Config.triggerFilter)

theorem Qualifier.ok_wf {t : Qualifier} (h : t.ok = true) : t.Wf := by
  simp only [Qualifier.ok, Bool.and_eq_true, decide_eq_true_eq] at h
  obtain ⟨⟨⟨⟨⟨a, b⟩, c⟩, d⟩, e⟩, f⟩ := h
  refine ⟨TrigParams.ok_wf a, fun q hq => TrigParams.ok_wf ?_, c, d, e, f⟩
  rw [hq] at b; exact b

def JobRec.ok (next : Vector Nat 4) (r : JobRec) : Bool :=
  decide (1 ≤ r.length ∧ r.length ≤ Config.maxLength) &&
    decide (r.planes ≠ [] ∧ (r.planes.map JobPlane.plane).Nodup) && decide (r.delay ≤ Config.maxDelay) &&
    decide (r.gap ≤ 65535) && decide (∀ x ∈ r.planes, x.first + r.length ≤ next.get x.plane)

theorem JobRec.ok_wf {next : Vector Nat 4} {r : JobRec} (h : r.ok next = true) : r.Wf next := by
  simp only [JobRec.ok, Bool.and_eq_true, decide_eq_true_eq] at h
  exact ⟨h.1.1.1.1, h.1.1.1.2, h.1.1.2, h.1.2, h.2⟩

/-- Whether every record stands before every later one. -/
def ordered : List JobRec → Bool
  | [] => true
  | a :: rest => rest.all (fun b => decide (a.active = none → b.active = none) &&
      decide (∀ x ∈ a.planes, ∀ y ∈ b.planes, x.plane = y.plane → x.first + a.length ≤ y.first)) && ordered rest

theorem ordered_before {l : List JobRec} (h : ordered l = true) : l.Pairwise JobRec.Before := by
  induction l with
  | nil => exact .nil
  | cons a rest ih =>
    simp only [ordered, Bool.and_eq_true, List.all_eq_true, decide_eq_true_eq] at h
    exact .cons (fun b hb => h.1 b hb) (ih h.2)

def JobQueue.ok (q : JobQueue) : Bool :=
  decide (q.records.length ≤ Config.maxJobs) && decide (q.records.map JobRec.id).Nodup &&
    q.records.all (JobRec.ok q.next) && ordered q.records && decide (∀ p, q.next.get p ≤ Config.lineLimit)

theorem JobQueue.ok_wf {q : JobQueue} (h : q.ok = true) : q.Wf := by
  simp only [JobQueue.ok, Bool.and_eq_true, decide_eq_true_eq, List.all_eq_true] at h
  exact ⟨h.1.1.1.1, h.1.1.1.2, fun r hr => JobRec.ok_wf (h.1.1.2 r hr), ordered_before h.1.2, h.2⟩

def PlaneStore.ok (next : Nat) (x : PlaneStore) : Bool :=
  decide (sparseWf Slot.fresh x.slots) && decide (x.width % 64 = 0 ∧ x.width ≤ 16384) &&
    decide (16 ≤ x.depth ∧ x.depth ≤ 16384) && decide (1 ≤ x.low ∧ x.low < x.high ∧ x.high ≤ x.depth) &&
    decide (x.base ≤ next) && decide (∀ e ∈ x.slots, x.base ≤ e.1 ∧ e.1 < x.base + x.depth ∧ e.1 < next) &&
    x.slots.all fun e => match e.2.state with
      | .ready px => decide (px.length = x.width)
      | .expected | .spent => true

theorem PlaneStore.ok_wf {next : Nat} {x : PlaneStore} (h : x.ok next = true) : x.Wf next := by
  simp only [PlaneStore.ok, Bool.and_eq_true, decide_eq_true_eq, List.all_eq_true] at h
  obtain ⟨⟨⟨⟨⟨⟨a, b⟩, c⟩, d⟩, e⟩, f⟩, g⟩ := h
  refine ⟨a, b, c, d, e, f, fun y hy px hp => ?_⟩
  have := g y hy
  rw [hp] at this; simpa using this

def HeadRec.ok (x : HeadRec) : Bool :=
  decide (x.cursor.isSome = true ↔ x.state ≠ .idle) && match x.state with
    | .idle => x.inFlight.all fun f => decide (f.fate = .discard)
    | .loading => match x.cursor with
      | some c => decide (x.inFlight = some { line := c, fate := .keep })
      | none => false
    | .discarding => match x.inFlight with
      | some f => decide (f.fate = .discard)
      | none => false
    | .waitingLine | .loaded | .void => decide (x.inFlight = none)

theorem HeadRec.ok_wf {x : HeadRec} (h : x.ok = true) : x.Wf := by
  obtain ⟨on, cursor, st, flight⟩ := x
  simp only [HeadRec.ok, Bool.and_eq_true, decide_eq_true_eq] at h
  refine ⟨h.1, ?_⟩
  have h := h.2
  cases st <;> simp only at h ⊢
  · exact of_all h
  · simpa using h
  · cases cursor <;> simp at h ⊢; exact h
  · simpa using h
  · cases flight with
    | none => cases h
    | some f => exact ⟨f.line, by simp at h; rw [← h]⟩
  · simpa using h

def LaneSettings.ok (q : LaneSettings) : Bool :=
  decide (1 ≤ q.pulse ∧ q.pulse ≤ 16) && decide (q.filter ∈ [0, 4, 8, 16]) && decide (q.degrade ≤ 255) &&
    decide (1 ≤ q.timeout ∧ q.timeout ≤ 255) && decide (q.hyst ≤ 7)

theorem LaneSettings.ok_wf {q : LaneSettings} (h : q.ok = true) : q.Wf := by
  simp only [LaneSettings.ok, Bool.and_eq_true, decide_eq_true_eq] at h
  exact ⟨h.1.1.1.1, h.1.1.1.2, h.1.1.2, h.1.2, h.2⟩

def Lane.ok (l : Lane) : Bool :=
  l.settings.ok && decide (l.grade.isSome = true ↔ l.state = .training ∨ l.state = .up ∨ l.state = .faulted) &&
    decide (l.state = .training ∨ l.state = .up ∨ l.state = .faulted → l.gradeSet.isSome = true) &&
    (match l.trial with
      | some t => decide (l.state = .training ∧ t.head? = l.grade)
      | none => decide (l.state ≠ .training)) &&
    (match l.progress with
      | some n => decide (l.state = .training ∧ n ≤ 3)
      | none => decide (l.state ≠ .training)) &&
    l.band.all (fun i => decide (i ≤ 3)) && l.badCount.all (fun n => decide (n ≤ 65535)) &&
    l.faultCode.all (fun n => decide (n ≤ 15)) &&
    decide (l.downshift = true → l.state = .up ∧ l.settings.autoDown = true) &&
    decide (l.status.isSome = true → l.state = .up) &&
    decide (l.timer.isSome = true → l.state = .negotiating ∨ l.state = .training) &&
    decide (l.waiting.isSome = true → l.tx.isSome = true) &&
    (match l.fire with
      | .high n => decide (n ≤ 200)
      | .low | .gap => true) &&
    decide (l.hold.progress ≤ l.settings.filter ∧ l.fault.progress ≤ l.settings.filter)

theorem Lane.ok_wf {l : Lane} (h : l.ok = true) : l.Wf := by
  simp only [Lane.ok, Bool.and_eq_true, decide_eq_true_eq] at h
  obtain ⟨⟨⟨⟨⟨⟨⟨⟨⟨⟨⟨⟨⟨a, b⟩, c⟩, d⟩, e⟩, f⟩, g⟩, i⟩, j⟩, k⟩, m⟩, n⟩, o⟩, p⟩ := h
  refine ⟨LaneSettings.ok_wf a, b, c, ?_, ?_, of_all f, of_all g, of_all i, j, k, m, n, fun x hx => ?_, p⟩
  · revert d; cases l.trial <;> simp
  · revert e; cases l.progress <;> simp
  · rw [hx] at o; simpa using o

def HeadTables.ok (t : HeadTables) : Bool :=
  decide (sparseWf .off t.map ∧ ∀ e ∈ t.map, e.1 < Config.mapEntries) &&
    decide (64 ≤ t.nozzles ∧ t.nozzles ≤ 2048 ∧ t.nozzles % 64 = 0) &&
    decide (t.bands.length ≤ 4 ∧ (t.bands.getLast?.map Band.bound) = some 255) && decide (∀ b ∈ t.bands, b.waveform ≤ 15)

theorem HeadTables.ok_wf {t : HeadTables} (h : t.ok = true) : t.Wf := by
  simp only [HeadTables.ok, Bool.and_eq_true, decide_eq_true_eq] at h
  exact ⟨h.1.1.1, h.1.1.2, h.1.2, h.2⟩

def Banks.ok (records : List JobRec) (b : Banks) : Bool :=
  decide (∀ (i : BankId) (h : Head), ((b.tables i).head h).ok = true) && decide (∀ i, b.bound i = boundTo records i) &&
    match b.other with
    | .draining => decide (0 < b.bound b.otherId)
    | .shadow | .copying _ => decide (b.bound b.otherId = 0)

theorem Banks.ok_wf {l : List JobRec} {b : Banks} (h : b.ok l = true) : b.Wf l := by
  simp only [Banks.ok, Bool.and_eq_true, decide_eq_true_eq] at h
  refine ⟨fun i g => HeadTables.ok_wf (h.1.1 i g), h.1.2, ?_⟩
  have h := h.2
  revert h; cases b.other <;> simp

def NoticeUnit.ok (u : NoticeUnit) : Bool :=
  decide (u.queue.length ≤ Config.noticeQueueMax) && decide (u.lost ≤ Config.lostMax) &&
    u.queue.all (fun e => e.lost.all fun n => decide (1 ≤ n ∧ n ≤ Config.lostMax)) && decide (u.level ∈ [1, 4, 8, 16]) &&
    decide (u.idle ≤ 255) && decide (u.idleTimer.isSome = true → u.queue ≠ [] ∧ u.idle ≠ 0) &&
    decide (u.batchWaiting = false → u.releaseDue = false ∧ u.queue.length < u.level) &&
    decide (u.releaseDue = true → u.queue ≠ []) && decide (∀ i, u.counters.get i ≤ Config.counterMax)

theorem NoticeUnit.ok_wf {u : NoticeUnit} (h : u.ok = true) : u.Wf := by
  simp only [NoticeUnit.ok, Bool.and_eq_true, decide_eq_true_eq, List.all_eq_true] at h
  obtain ⟨⟨⟨⟨⟨⟨⟨⟨a, b⟩, c⟩, d⟩, e⟩, f⟩, g⟩, i⟩, j⟩ := h
  refine ⟨a, ⟨b, fun x hx n hn => of_all (c x hx) n hn⟩, d, e, f, g, i, j⟩

def LinkPort.ok (k : LinkPort) : Bool :=
  decide (k.inbound.length ≤ Config.controlQueueMax) && decide (k.answers.length ≤ Config.answerQueueMax) &&
    k.batch.all (fun b => decide (1 ≤ b.length ∧ b.length ≤ Config.batchMax)) &&
    k.outbound.all (fun o => decide (k.up = true ∧ (o.kind = .answer → k.answers ≠ []) ∧
      (o.kind = .notice → k.batch.isSome = true))) &&
    decide (k.up = true → k.outbound = none → k.flowPending = false ∧ k.answers = [] ∧ k.batch = none)

theorem LinkPort.ok_wf {k : LinkPort} (h : k.ok = true) : k.Wf := by
  simp only [LinkPort.ok, Bool.and_eq_true, decide_eq_true_eq] at h
  exact ⟨h.1.1.1.1, h.1.1.1.2, of_all h.1.1.2, of_all h.1.2, h.2⟩

/-- The check of the invariant. -/
def State.ok (s : State) : Bool :=
  s.ptu.ok && s.trig.ok && s.jobs.ok && decide (∀ p, (s.plane p).ok (s.jobs.next.get p) = true) &&
    decide (depthSum s.store ≤ Config.storeDepth) && decide (∀ h, (s.head h).ok = true) &&
    decide (∀ h, (s.lane h).ok = true) && s.banks.ok s.jobs.records && s.notices.ok && s.link.ok &&
    decide (s.notices.batchWaiting = s.link.batch.isSome) &&
    decide (s.loading = true → s.ptu.state = .off ∧ s.jobs.records = [] ∧ s.banks.other = .shadow)

/-- A state that passes the check meets the invariant. -/
theorem State.ok_inv {s : State} (h : s.ok = true) : s.Inv := by
  simp only [State.ok, Bool.and_eq_true, decide_eq_true_eq] at h
  obtain ⟨⟨⟨⟨⟨⟨⟨⟨⟨⟨⟨a, b⟩, c⟩, d⟩, e⟩, f⟩, g⟩, i⟩, j⟩, k⟩, l⟩, m⟩ := h
  exact ⟨Ptu.ok_wf a, Qualifier.ok_wf b, JobQueue.ok_wf c, fun p => PlaneStore.ok_wf (d p), e, fun x => HeadRec.ok_wf (f x),
    fun x => Lane.ok_wf (g x), Banks.ok_wf i, NoticeUnit.ok_wf j, LinkPort.ok_wf k, l, m⟩

end Sys2Proof.Machine
end

