-- ==== Sys2Proof/Laws/Notices.lean ====
section
/-!
SUPPORT. What the operations of the Notice Unit and the outbound arbiter can do: they change the notices and the link
alone, and keep their laws.
-/

namespace Sys2Proof.Machine

/-! ## What they change -/

/-- Only the notices changed, and of the link only the batch, the flow-frame-pending flag and the frame being sent. -/
structure Quiet (s t : State) : Prop where
  rest : t = (s.setNotices t.notices).setLink t.link
  up : t.link.up = s.link.up
  inbound : t.link.inbound = s.link.inbound
  answers : t.link.answers = s.link.answers
  loader : t.link.loader = s.link.loader

theorem Quiet.refl (s : State) : Quiet s s := ⟨rfl, rfl, rfl, rfl, rfl⟩

theorem Quiet.trans {s t u : State} (h : Quiet s t) (k : Quiet t u) : Quiet s u :=
  ⟨by rw [k.rest, h.rest]; rfl, k.up.trans h.up, k.inbound.trans h.inbound, k.answers.trans h.answers,
    k.loader.trans h.loader⟩

theorem quiet_setNotices (s : State) (u : NoticeUnit) : Quiet s (s.setNotices u) := ⟨rfl, rfl, rfl, rfl, rfl⟩

section
variable {s t : State} (h : Quiet s t)
include h

theorem Quiet.now : t.now = s.now := by rw [h.rest]; rfl
theorem Quiet.ptu : t.ptu = s.ptu := by rw [h.rest]; rfl
theorem Quiet.trig : t.trig = s.trig := by rw [h.rest]; rfl
theorem Quiet.jobs : t.jobs = s.jobs := by rw [h.rest]; rfl
theorem Quiet.store : t.store = s.store := by rw [h.rest]; rfl
theorem Quiet.heads : t.heads = s.heads := by rw [h.rest]; rfl
theorem Quiet.lanes : t.lanes = s.lanes := by rw [h.rest]; rfl
theorem Quiet.banks : t.banks = s.banks := by rw [h.rest]; rfl
theorem Quiet.pending : t.pending = s.pending := by rw [h.rest]; rfl
theorem Quiet.plane (p : Plane) : t.plane p = s.plane p := by rw [h.rest]; rfl
theorem Quiet.head (i : Head) : t.head i = s.head i := by rw [h.rest]; rfl
theorem Quiet.lane (i : Head) : t.lane i = s.lane i := by rw [h.rest]; rfl
theorem Quiet.loading : t.loading = s.loading := by simp only [State.loading, h.loader]
end

theorem quiet_arbitrate (s : State) : Quiet s (arbitrate s) := by
  unfold arbitrate
  split
  · split
    · exact Quiet.refl s
    · exact ⟨rfl, rfl, rfl, rfl, rfl⟩
  · exact Quiet.refl s

theorem quiet_setFlowPending (s : State) : Quiet s (setFlowPending s) :=
  Quiet.trans (t := s.setLink { s.link with flowPending := true }) ⟨rfl, rfl, rfl, rfl, rfl⟩ (quiet_arbitrate _)

theorem quiet_releaseBatch (s : State) : Quiet s (releaseBatch s) := by
  unfold releaseBatch
  dsimp only
  refine Quiet.trans ?_ (quiet_arbitrate _)
  exact ⟨rfl, rfl, rfl, rfl, rfl⟩

theorem quiet_testRelease (s : State) : Quiet s (testRelease s) := by
  unfold testRelease; split
  · exact quiet_releaseBatch s
  · exact Quiet.refl s

theorem quiet_bump (c : CounterName) (s : State) : Quiet s (bump c s) := quiet_setNotices s _

theorem quiet_offer (n : Notice) (s : State) : Quiet s (offer n s) := by
  unfold offer; dsimp only; split
  · exact (quiet_setNotices s _).trans (quiet_testRelease _)
  · exact quiet_setNotices s _

theorem quiet_submit (n : Notice) (s : State) : Quiet s (submit n s) := by
  unfold submit; split
  · exact Quiet.refl s
  · exact quiet_offer n s

theorem quiet_submitCondition (c : CondName) (n : Notice) (s : State) : Quiet s (submitCondition c n s) := by
  unfold submitCondition; split
  · exact Quiet.refl s
  · exact (quiet_setNotices s _).trans (quiet_submit n _)

theorem quiet_idleExpire (s : State) : Quiet s (idleExpire s) := by
  unfold idleExpire; dsimp only
  split
  · exact quiet_setNotices s _
  · split
    · exact quiet_setNotices s _
    · have h := (quiet_setNotices s { s.notices with idleTimer := none }).trans (quiet_releaseBatch _)
      split
      · exact h
      · exact h.trans (quiet_setNotices _ _)

theorem quiet_takeLevel (x : Nat) (s : State) : Quiet s (takeLevel x s) :=
  (quiet_setNotices s _).trans (quiet_testRelease _)

theorem quiet_takeIdle (x : Nat) (s : State) : Quiet s (takeIdle x s) := by
  unfold takeIdle; dsimp only
  split
  · exact quiet_setNotices s _
  · split
    · split
      · exact (quiet_setNotices s _).trans (quiet_idleExpire _)
      · exact quiet_setNotices s _
    · split <;> exact quiet_setNotices s _

theorem quiet_batchDone (s : State) : Quiet s (batchDone s) :=
  (quiet_setNotices s _).trans (quiet_testRelease _)

/-! ## Their laws -/

/-- The link's law without the arbiter's part. -/
structure LinkPort.Open (k : LinkPort) : Prop where
  inbound : k.inbound.length ≤ Config.controlQueueMax
  answers : k.answers.length ≤ Config.answerQueueMax
  batch : ∀ b, k.batch = some b → 1 ≤ b.length ∧ b.length ≤ Config.batchMax
  sending : ∀ o, k.outbound = some o → k.up = true ∧
    (o.kind = .answer → k.answers ≠ []) ∧ (o.kind = .notice → k.batch.isSome = true)

theorem LinkPort.Wf.open {k : LinkPort} (h : k.Wf) : k.Open := ⟨h.inbound, h.answers, h.batch, h.sending⟩

/-- The arbiter gives the link its whole law. -/
theorem arbitrate_wf {s : State} (h : s.link.Open) : (arbitrate s).link.Wf := by
  unfold arbitrate
  split
  · rename_i hc
    simp only [Bool.and_eq_true, Option.isNone_iff_eq_none] at hc
    cases ho : s.nextOutbound with
    | none =>
      refine ⟨h.inbound, h.answers, h.batch, h.sending, fun _ _ => ?_⟩
      unfold State.nextOutbound at ho
      split at ho
      · cases ho
      · rename_i hf
        split at ho
        · cases ho
        · rename_i ha
          exact ⟨by simpa using hf, ha, by simpa using ho⟩
    | some o =>
      refine ⟨h.inbound, h.answers, h.batch, fun o' ho' => ?_, fun _ hn => by simp at hn⟩
      obtain rfl : o = o' := by simpa using ho'
      refine ⟨hc.1, fun hk => ?_, fun hk => ?_⟩ <;> unfold State.nextOutbound at ho <;> split at ho
      · cases ho; cases hk
      · split at ho
        · rename_i ha; simp [ha]
        · cases hb : s.link.batch <;> simp [hb] at ho
          subst ho; cases hk
      · cases ho; cases hk
      · split at ho
        · cases ho; cases hk
        · cases hb : s.link.batch <;> simp [hb] at ho
          simp [hb]
  · rename_i hc
    refine ⟨h.inbound, h.answers, h.batch, h.sending, fun hu ho => ?_⟩
    simp [hu, ho] at hc

/-- The notices' law without the release that an event brings. -/
structure NoticeUnit.Loose (u : NoticeUnit) : Prop where
  queue : u.queue.length ≤ Config.noticeQueueMax
  lost : u.lost ≤ Config.lostMax ∧ ∀ e ∈ u.queue, ∀ n, e.lost = some n → 1 ≤ n ∧ n ≤ Config.lostMax
  level : u.level ∈ [1, 4, 8, 16]
  idle : u.idle ≤ 255
  idleTimer : u.idleTimer.isSome = true → u.queue ≠ [] ∧ u.idle ≠ 0
  releaseDue : u.releaseDue = true → u.queue ≠ []
  counters : ∀ i, u.counters.get i ≤ Config.counterMax

theorem NoticeUnit.Wf.loose {u : NoticeUnit} (h : u.Wf) : u.Loose :=
  ⟨h.queue, h.lost, h.level, h.idle, h.idleTimer, h.releaseDue, h.counters⟩

/-- The laws of the notices and the link, and the batch that both hold (R175, R182). -/
structure Reported (s : State) : Prop where
  notices : s.notices.Wf
  link : s.link.Wf
  batch : s.notices.batchWaiting = s.link.batch.isSome

@[simp] theorem arbitrate_notices (s : State) : (arbitrate s).notices = s.notices := by
  unfold arbitrate; split
  · split <;> rfl
  · rfl

@[simp] theorem arbitrate_batch (s : State) : (arbitrate s).link.batch = s.link.batch := by
  unfold arbitrate; split
  · split <;> rfl
  · rfl

theorem releaseBatch_reported {s : State} (hu : s.notices.Loose) (hk : s.link.Open) (hq : s.notices.queue ≠ []) :
    Reported (releaseBatch s) := by
  have hl : 0 < s.notices.queue.length := List.length_pos_iff.2 hq
  refine ⟨?_, arbitrate_wf ⟨hk.inbound, hk.answers, ?_, fun o ho => ?_⟩, ?_⟩
  · unfold releaseBatch
    simp only [arbitrate_notices]
    refine ⟨?_, ⟨hu.lost.1, fun e he => hu.lost.2 e (List.mem_of_mem_drop he)⟩, hu.level, hu.idle, ?_, ?_, ?_, hu.counters⟩
    · have := hu.queue; simp only [State.setLink_notices, State.setNotices_notices, List.length_drop]; omega
    · intro h
      by_cases hr : (s.notices.queue.drop Config.batchMax).isEmpty = true
      · simp [hr] at h
      · simp only [State.setLink_notices, State.setNotices_notices, if_neg hr] at h ⊢
        exact ⟨by simpa using hr, (hu.idleTimer h).2⟩
    · simp
    · simp
  · intro b hb
    simp only [State.setLink_link, Option.some.injEq] at hb
    subst hb
    simp only [Config.batchMax, List.length_take]
    omega
  · simp only [State.setLink_link, State.setNotices_link] at ho ⊢
    obtain ⟨h1, h2, -⟩ := hk.sending o ho
    exact ⟨h1, h2, fun _ => rfl⟩
  · unfold releaseBatch
    simp

/-- The test leaves the notices their whole law, with nothing said of the arbiter. -/
theorem testRelease_open {s : State} (hu : s.notices.Loose) (hk : s.link.Open)
    (hb : s.notices.batchWaiting = s.link.batch.isSome) : (testRelease s).notices.Wf ∧ (testRelease s).link.Open ∧
      (testRelease s).notices.batchWaiting = (testRelease s).link.batch.isSome := by
  unfold testRelease
  split
  · rename_i hc
    simp only [Bool.and_eq_true, Bool.not_eq_true'] at hc
    have r := releaseBatch_reported hu hk (by have := hc.2; intro h; simp [h] at this)
    exact ⟨r.notices, r.link.open, r.batch⟩
  · rename_i hc
    refine ⟨⟨hu.queue, hu.lost, hu.level, hu.idle, hu.idleTimer, fun hw => ?_, hu.releaseDue, hu.counters⟩, hk, hb⟩
    simp only [hw, NoticeUnit.releaseWanted, Bool.not_false, Bool.true_and, Bool.and_eq_true, Bool.or_eq_true,
      decide_eq_true_eq, Bool.not_eq_true', not_and, List.isEmpty_eq_false_iff, ne_eq] at hc
    have hl : 1 ≤ s.notices.level := by
      have := hu.level
      simp only [List.mem_cons, List.not_mem_nil, or_false] at this
      omega
    by_cases hq : s.notices.queue = []
    · refine ⟨?_, by simp [hq]; omega⟩
      cases hr : s.notices.releaseDue
      · rfl
      · exact absurd hq (hu.releaseDue hr)
    · constructor
      · cases hr : s.notices.releaseDue
        · rfl
        · exact absurd (hc (Or.inr hr)) (by simpa using hq)
      · by_contra h
        exact absurd (hc (Or.inl (by omega))) (by simpa using hq)

theorem testRelease_reported {s : State} (hu : s.notices.Loose) (hk : s.link.Wf)
    (hb : s.notices.batchWaiting = s.link.batch.isSome) : Reported (testRelease s) := by
  obtain ⟨h1, -, h3⟩ := testRelease_open hu hk.open hb
  refine ⟨h1, ?_, h3⟩
  unfold testRelease
  split
  · rename_i hc
    simp only [Bool.and_eq_true, Bool.not_eq_true'] at hc
    exact (releaseBatch_reported hu hk.open (by have := hc.2; intro h; simp [h] at this)).link
  · exact hk

theorem NoticeUnit.Wf.counted {u : NoticeUnit} (h : u.Wf) (c : CounterName) :
    { u with counters := put u.counters c.index (min Config.counterMax (u.counters.get c.index + 1)) : NoticeUnit }.Wf := by
  refine ⟨h.queue, h.lost, h.level, h.idle, h.idleTimer, h.released, h.releaseDue, fun i => ?_⟩
  dsimp only
  rw [get_put_if]
  split
  · exact Nat.min_le_left _ _
  · exact h.counters i

theorem NoticeUnit.Wf.flagged {u : NoticeUnit} (h : u.Wf) (v : Vector Bool 56) : { u with conditions := v : NoticeUnit }.Wf :=
  ⟨h.queue, h.lost, h.level, h.idle, h.idleTimer, h.released, h.releaseDue, h.counters⟩

theorem Reported.bump {s : State} (h : Reported s) (c : CounterName) : Reported (bump c s) :=
  ⟨h.notices.counted c, h.link, h.batch⟩

theorem startIdle_loose {u : NoticeUnit} (h : u.Loose) (hq : u.queue ≠ []) : u.startIdle.Loose := by
  refine ⟨h.queue, h.lost, h.level, h.idle, fun hi => ⟨hq, ?_⟩, h.releaseDue, h.counters⟩
  intro h0
  have h0' : u.idle = 0 := h0
  simp [NoticeUnit.startIdle, h0'] at hi

theorem Reported.offer {s : State} (h : Reported s) (n : Notice) : Reported (offer n s) := by
  unfold Machine.offer
  dsimp only
  split
  · rename_i hlt
    refine testRelease_reported (startIdle_loose ⟨?_, ⟨?_, ?_⟩, h.notices.level, h.notices.idle, ?_, ?_,
      h.notices.counters⟩ ?_) h.link h.batch
    · simp only [List.length_append, List.length_cons, List.length_nil]; omega
    · exact Nat.zero_le _
    · intro e he k hk
      rcases List.mem_append.1 he with he | he
      · exact h.notices.lost.2 e he k hk
      · have := h.notices.lost.1
        simp only [List.mem_singleton] at he
        subst he
        dsimp only at hk
        split at hk
        · cases hk
        · simp only [Option.some.injEq] at hk
          omega
    · intro hi; exact ⟨by simp, (h.notices.idleTimer hi).2⟩
    · intro _; simp
    · simp
  · exact ⟨⟨h.notices.queue, ⟨Nat.min_le_left _ _, h.notices.lost.2⟩, h.notices.level, h.notices.idle,
      h.notices.idleTimer, h.notices.released, h.notices.releaseDue, h.notices.counters⟩, h.link, h.batch⟩

theorem Reported.submit {s : State} (h : Reported s) (n : Notice) : Reported (submit n s) := by
  unfold Machine.submit; split
  · exact h
  · exact h.offer n

theorem Reported.submitCondition {s : State} (h : Reported s) (c : CondName) (n : Notice) :
    Reported (submitCondition c n s) := by
  unfold Machine.submitCondition; split
  · exact h
  · exact Reported.submit (s := s.setNotices { s.notices with conditions := put s.notices.conditions c.index true })
      ⟨h.notices.flagged _, h.link, h.batch⟩ n

theorem Reported.setFlowPending {s : State} (h : Reported s) : Reported (setFlowPending s) := by
  refine ⟨?_, arbitrate_wf ⟨h.link.inbound, h.link.answers, h.link.batch, h.link.sending⟩, ?_⟩
  · unfold Machine.setFlowPending; simpa using h.notices
  · unfold Machine.setFlowPending; simpa using h.batch

theorem Reported.placeAnswer {s : State} (h : Reported s) (a : Answer)
    (ha : s.link.answers.length < Config.answerQueueMax) : Reported (placeAnswer a s) := by
  refine ⟨?_, arbitrate_wf ⟨h.link.inbound, ?_, h.link.batch, fun o ho => ?_⟩, ?_⟩
  · unfold Machine.placeAnswer; simpa using h.notices
  · simp only [State.setLink_link, List.length_append, List.length_cons, List.length_nil]; omega
  · obtain ⟨h1, -, h3⟩ := h.link.sending o ho
    exact ⟨h1, fun _ => by simp, h3⟩
  · unfold Machine.placeAnswer; simpa using h.batch

/-- An expiry with entries in the queue, whatever the timer stood at. -/
theorem Reported.idleExpire {s : State} (h : Reported s) (hq : s.notices.queue ≠ []) (hi : s.notices.idle ≠ 0) :
    Reported (idleExpire s) := by
  have hn := h.notices
  have hu : { s.notices with idleTimer := none : NoticeUnit }.Loose :=
    ⟨hn.queue, hn.lost, hn.level, hn.idle, by simp, hn.releaseDue, hn.counters⟩
  unfold Machine.idleExpire
  dsimp only
  split
  · rename_i hw
    have hw' : s.notices.batchWaiting = true := hw
    exact ⟨⟨hn.queue, hn.lost, hn.level, hn.idle, by simp, by simp [hw'], fun _ => hq, hn.counters⟩, h.link, h.batch⟩
  · split
    · exact absurd (by assumption) (by simpa using hq)
    · have hr := releaseBatch_reported (s := s.setNotices { s.notices with idleTimer := none }) hu h.link.open hq
      split
      · exact hr
      · rename_i hne
        have hi' : (releaseBatch (s.setNotices { s.notices with idleTimer := none })).notices.idle = s.notices.idle := by
          unfold releaseBatch; simp
        refine ⟨⟨hr.notices.queue, hr.notices.lost, hr.notices.level, hr.notices.idle, fun _ => ?_, hr.notices.released,
          hr.notices.releaseDue, hr.notices.counters⟩, hr.link, hr.batch⟩
        exact ⟨fun h0 => hne (by rw [List.isEmpty_iff]; exact h0), by
          show (releaseBatch _).notices.idle ≠ 0
          rw [hi']; exact hi⟩

theorem roundLevel_mem (x : Nat) : roundLevel x ∈ [1, 4, 8, 16] := by
  unfold roundLevel; split
  · simp
  · split
    · simp
    · split <;> simp

theorem Reported.takeLevel {s : State} (h : Reported s) (x : Nat) : Reported (takeLevel x s) :=
  testRelease_reported ⟨h.notices.queue, h.notices.lost, roundLevel_mem x, h.notices.idle, h.notices.idleTimer,
    h.notices.releaseDue, h.notices.counters⟩ h.link h.batch

theorem Reported.takeMask {s : State} (h : Reported s) (m : List NoticeKind) : Reported (takeMask m s) :=
  ⟨⟨h.notices.queue, h.notices.lost, h.notices.level, h.notices.idle, h.notices.idleTimer, h.notices.released,
    h.notices.releaseDue, h.notices.counters⟩, h.link, h.batch⟩

theorem Reported.takeIdle {s : State} (h : Reported s) (x : Nat) : Reported (takeIdle x s) := by
  have hn := h.notices
  have hm : min x 255 ≤ 255 := Nat.min_le_right _ _
  unfold Machine.takeIdle
  dsimp only
  split
  · exact ⟨⟨hn.queue, hn.lost, hn.level, hm, by simp, hn.released, hn.releaseDue, hn.counters⟩, h.link, h.batch⟩
  · rename_i h0
    have hw : { s.notices with idle := min x 255 : NoticeUnit }.Wf :=
      ⟨hn.queue, hn.lost, hn.level, hm, fun hi => ⟨(hn.idleTimer hi).1, h0⟩, hn.released, hn.releaseDue, hn.counters⟩
    have hr : Reported (s.setNotices { s.notices with idle := min x 255 }) := ⟨hw, h.link, h.batch⟩
    split
    · rename_i ht
      split
      · exact hr.idleExpire (hn.idleTimer (by simp [ht])).1 h0
      · exact hr
    · split
      · exact hr
      · rename_i hq
        have hq' : s.notices.queue ≠ [] := by simpa using hq
        exact ⟨⟨hn.queue, hn.lost, hn.level, hm, fun _ => ⟨hq', h0⟩, hn.released, hn.releaseDue, hn.counters⟩, h.link,
          h.batch⟩

end Sys2Proof.Machine
end

