-- ==== Sys2Proof/Laws/Kept.lean ====
section
/-!
SUPPORT. What every operation of the part keeps: the invariant, lower bounds of S and of the next-line counters, the tick
and the command queue. One lemma per update of a block says what the update owes.
-/

namespace Sys2Proof.Machine

/-- What an operation starts from: bounds of S and of the next-line counters, the tick, the command queue, and the answer and
inbound queues where the operation touches neither. -/
structure Floor where
  position : Nat
  next : Vector Nat 4
  now : Nat
  pending : List Instr
  queues : Option (List Answer × List Frame)

/-- The invariant, with S and the next-line counters at or above their floor, and the tick and the queue unchanged. -/
structure Kept (k : Floor) (s : State) : Prop where
  inv : s.Inv
  position : k.position ≤ s.ptu.s
  next : ∀ p, k.next.get p ≤ s.jobs.next.get p
  now : s.now = k.now
  pending : s.pending = k.pending
  queues : ∀ l, k.queues = some l → (s.link.answers, s.link.inbound) = l

variable {k : Floor} {s t : State}

/-- The floor that a state itself is. -/
def State.floor (s : State) : Floor :=
  { position := s.ptu.s, next := s.jobs.next, now := s.now, pending := s.pending, queues := some (s.link.answers, s.link.inbound) }

theorem State.Inv.kept (h : s.Inv) : Kept s.floor s :=
  ⟨h, Nat.le_refl _, fun _ => Nat.le_refl _, rfl, rfl, fun _ e => by cases e; rfl⟩

/-- What is kept from a state that a floor allows is kept from that floor. -/
theorem Kept.trans (h : Kept k s) (ht : Kept s.floor t) : Kept k t :=
  ⟨ht.inv, Nat.le_trans h.position ht.position, fun p => Nat.le_trans (h.next p) (ht.next p), ht.now.trans h.now,
    ht.pending.trans h.pending, fun l e => (ht.queues _ rfl).trans (h.queues l e)⟩

theorem State.Inv.reported (h : s.Inv) : Reported s := ⟨h.notices, h.link, h.batch⟩

theorem Kept.quiet (h : Kept k s) (hq : Quiet s t) (hr : Reported t) : Kept k t := by
  refine ⟨⟨?_, ?_, ?_, fun p => ?_, ?_, fun i => ?_, fun i => ?_, ?_, hr.notices, hr.link, hr.batch, fun hl => ?_⟩,
    ?_, fun p => ?_, hq.now.trans h.now, hq.pending.trans h.pending,
    fun l e => by rw [hq.answers, hq.inbound]; exact h.queues l e⟩
  · exact hq.ptu ▸ h.inv.ptu
  · exact hq.trig ▸ h.inv.trig
  · exact hq.jobs ▸ h.inv.jobs
  · rw [hq.plane, hq.jobs]; exact h.inv.store p
  · exact hq.store ▸ h.inv.depths
  · exact hq.head i ▸ h.inv.heads i
  · exact hq.lane i ▸ h.inv.lanes i
  · rw [hq.banks, hq.jobs]; exact h.inv.banks
  · rw [hq.loading] at hl; rw [hq.ptu, hq.jobs, hq.banks]; exact h.inv.loading hl
  · exact hq.ptu ▸ h.position
  · exact hq.jobs ▸ h.next p

theorem Kept.submit (h : Kept k s) (x : Notice) : Kept k (submit x s) :=
  h.quiet (quiet_submit x s) (h.inv.reported.submit x)

theorem Kept.submitCondition (h : Kept k s) (c : CondName) (x : Notice) : Kept k (submitCondition c x s) :=
  h.quiet (quiet_submitCondition c x s) (h.inv.reported.submitCondition c x)

theorem Kept.bump (h : Kept k s) (c : CounterName) : Kept k (bump c s) :=
  h.quiet (quiet_bump c s) (h.inv.reported.bump c)

theorem Kept.setFlowPending (h : Kept k s) : Kept k (setFlowPending s) :=
  h.quiet (quiet_setFlowPending s) h.inv.reported.setFlowPending

theorem Kept.setPtu (h : Kept k s) {u : Ptu} (hu : u.Wf) (hs : s.ptu.s ≤ u.s)
    (hl : s.loading = true → u.state = .off) : Kept k (s.setPtu u) := by
  obtain ⟨i, hp, hx', hn, hq, ha⟩ := h
  exact ⟨⟨hu, i.trig, i.jobs, i.store, i.depths, i.heads, i.lanes, i.banks, i.notices, i.link, i.batch,
    fun k => ⟨hl k, (i.loading k).2⟩⟩, Nat.le_trans hp hs, hx', hn, hq, ha⟩

theorem Kept.setTrig (h : Kept k s) {x : Qualifier} (hx : x.Wf) : Kept k (s.setTrig x) := by
  obtain ⟨i, hp, hx', hn, hq, ha⟩ := h
  exact ⟨⟨i.ptu, hx, i.jobs, i.store, i.depths, i.heads, i.lanes, i.banks, i.notices, i.link, i.batch, i.loading⟩, hp,
    hx', hn, hq, ha⟩

/-- Job queue and banks change together where a record binds to a bank or unbinds. -/
theorem Kept.setJobsBanks (h : Kept k s) {x : JobQueue} {y : Banks} (hx : x.Wf) (hn' : ∀ p, s.jobs.next.get p ≤ x.next.get p)
    (hy : y.Wf x.records) (hl : s.loading = true → x.records = [] ∧ y.other = .shadow) :
    Kept k ((s.setJobs x).setBanks y) := by
  obtain ⟨i, hp, hx', hn, hq, ha⟩ := h
  refine ⟨⟨i.ptu, i.trig, hx, fun p => ?_, i.depths, i.heads, i.lanes, hy, i.notices, i.link, i.batch,
    fun k => ⟨(i.loading k).1, hl k⟩⟩, hp,
    fun p => Nat.le_trans (hx' p) (hn' p), hn, hq, ha⟩
  have w := i.store p
  have m := hn' p
  exact ⟨w.canonical, w.width, w.depth, w.watermarks, Nat.le_trans w.base m,
    fun e he => ⟨(w.window e he).1, (w.window e he).2.1, Nat.lt_of_lt_of_le (w.window e he).2.2 m⟩, w.pixels⟩

theorem boundTo_congr {l m : List JobRec}
    (h : l.map JobRec.active = m.map JobRec.active) (i : BankId) : boundTo l i = boundTo m i := by
  have key : ∀ l : List JobRec, boundTo l i = ((l.map JobRec.active).filter fun x => match x with
      | some a => a.bank == i
      | none => false).length := by
    intro l
    rw [List.filter_map, List.length_map]; rfl
  rw [key, key, h]

theorem Banks.Wf.congr {y : Banks} {l m : List JobRec} (h : y.Wf l) (hb : ∀ i, boundTo m i = boundTo l i) : y.Wf m :=
  ⟨h.tables, fun i => (h.bound i).trans (hb i).symm, h.law⟩

theorem Kept.setJobs (h : Kept k s) {x : JobQueue} (hx : x.Wf) (hn' : ∀ p, s.jobs.next.get p ≤ x.next.get p)
    (hb : ∀ i, boundTo x.records i = boundTo s.jobs.records i) (hl : s.loading = true → x.records = []) :
    Kept k (s.setJobs x) :=
  h.setJobsBanks (y := s.banks) hx hn' (h.inv.banks.congr hb) fun k => ⟨hl k, (h.inv.loading k).2.2⟩

theorem Kept.setBanks (h : Kept k s) {y : Banks} (hy : y.Wf s.jobs.records)
    (hl : s.loading = true → y.other = .shadow) : Kept k (s.setBanks y) :=
  h.setJobsBanks (x := s.jobs) h.inv.jobs (fun _ => Nat.le_refl _) hy fun k => ⟨(h.inv.loading k).2.1, hl k⟩

theorem depthSum_put {v : Vector PlaneStore 4} {p : Plane} {x : PlaneStore} (h : x.depth = (v.get p).depth) :
    depthSum (put v p x) = depthSum v := by
  unfold depthSum
  congr 1
  apply List.map_congr_left
  intro r _
  rw [get_put_if]
  split
  · rename_i e; rw [h, e]
  · rfl

theorem Kept.setPlane (h : Kept k s) {p : Plane} {x : PlaneStore} (hx : x.Wf (s.jobs.next.get p))
    (hd : depthSum (put s.store p x) ≤ Config.storeDepth) : Kept k (s.setPlane p x) := by
  obtain ⟨i, hp, hx', hn, hq, ha⟩ := h
  refine ⟨⟨i.ptu, i.trig, i.jobs, fun r => ?_, hd, i.heads, i.lanes, i.banks, i.notices, i.link, i.batch, i.loading⟩, hp,
    hx', hn, hq, ha⟩
  rw [State.setPlane_plane_if]
  split
  · rename_i e; subst e; exact hx
  · exact i.store r

theorem Kept.setHead (h : Kept k s) {i : Head} {x : HeadRec} (hx : x.Wf) : Kept k (s.setHead i x) := by
  obtain ⟨v, hp, hx', hn, hq, ha⟩ := h
  refine ⟨⟨v.ptu, v.trig, v.jobs, v.store, v.depths, fun r => ?_, v.lanes, v.banks, v.notices, v.link, v.batch,
    v.loading⟩, hp, hx', hn, hq, ha⟩
  rw [State.setHead_head_if]
  split
  · exact hx
  · exact v.heads r

theorem Kept.setLane (h : Kept k s) {i : Head} {x : Lane} (hx : x.Wf) : Kept k (s.setLane i x) := by
  obtain ⟨v, hp, hx', hn, hq, ha⟩ := h
  refine ⟨⟨v.ptu, v.trig, v.jobs, v.store, v.depths, v.heads, fun r => ?_, v.banks, v.notices, v.link, v.batch,
    v.loading⟩, hp, hx', hn, hq, ha⟩
  rw [State.setLane_lane_if]
  split
  · exact hx
  · exact v.lanes r

/-- An update of notices and link that leaves the loader as it is, and the queues where the floor names them. -/
theorem Kept.relink (h : Kept k s) (he : t = (s.setNotices t.notices).setLink t.link) (hr : Reported t)
    (hl : t.link.loader = s.link.loader) 
    (ha : ∀ l, k.queues = some l → (t.link.answers, t.link.inbound) = (s.link.answers, s.link.inbound)) : Kept k t := by
  obtain ⟨i, hp, hx', hn, hq, ha'⟩ := h
  have h1 : t.loading = s.loading := by simp only [State.loading, hl]
  have e1 : t.ptu = s.ptu := by rw [he]; rfl
  have e2 : t.trig = s.trig := by rw [he]; rfl
  have e3 : t.jobs = s.jobs := by rw [he]; rfl
  have e4 : t.store = s.store := by rw [he]; rfl
  have e5 : t.heads = s.heads := by rw [he]; rfl
  have e6 : t.lanes = s.lanes := by rw [he]; rfl
  have e7 : t.banks = s.banks := by rw [he]; rfl
  refine ⟨⟨e1 ▸ i.ptu, e2 ▸ i.trig, e3 ▸ i.jobs, fun p => ?_, e4 ▸ i.depths, fun c => ?_, fun c => ?_, ?_, hr.notices,
    hr.link, hr.batch, fun e => ?_⟩, e1 ▸ hp, fun p => e3 ▸ hx' p, ?_, ?_, fun l e => (ha l e).trans (ha' l e)⟩
  · unfold State.plane; rw [e3, e4]; exact i.store p
  · unfold State.head; rw [e5]; exact i.heads c
  · unfold State.lane; rw [e6]; exact i.lanes c
  · rw [e7, e3]; exact i.banks
  · rw [e1, e3, e7]; exact i.loading (h1 ▸ e)
  · rw [he]; exact hn
  · rw [he]; exact hq

theorem Kept.setLink (h : Kept k s) {x : LinkPort} (hx : x.Wf) (hb : s.notices.batchWaiting = x.batch.isSome)
    (hl : x.loader = s.link.loader) 
    (ha : ∀ l, k.queues = some l → (x.answers, x.inbound) = (s.link.answers, s.link.inbound)) : Kept k (s.setLink x) :=
  h.relink rfl ⟨h.inv.notices, hx, hb⟩ hl ha

/-- The loader's state changed: while it runs, the PTU is OFF, no job is queued and the other bank is SHADOW. -/
theorem Kept.setLoader (h : Kept k s) {x : Loader}
    (hl : x = .idle ∨ (s.ptu.state = .off ∧ s.jobs.records = [] ∧ s.banks.other = .shadow)) :
    Kept k (s.setLink { s.link with loader := x }) := by
  obtain ⟨i, hp, hx', hn, hq, ha⟩ := h
  refine ⟨⟨i.ptu, i.trig, i.jobs, i.store, i.depths, i.heads, i.lanes, i.banks, i.notices,
    ⟨i.link.inbound, i.link.answers, i.link.batch, i.link.sending, i.link.busy⟩, i.batch, fun e => ?_⟩, hp, hx', hn, hq, ha⟩
  rcases hl with hl | hl
  · subst hl; cases e
  · exact hl

/-- Every plane replaced. -/
theorem Kept.setStore (h : Kept k s) {v : Vector PlaneStore 4} (hv : ∀ p, (v.get p).Wf (s.jobs.next.get p))
    (hd : depthSum v ≤ Config.storeDepth) : Kept k (s.setStore v) := by
  obtain ⟨i, hp, hx', hn, hq, ha⟩ := h
  exact ⟨⟨i.ptu, i.trig, i.jobs, hv, hd, i.heads, i.lanes, i.banks, i.notices, i.link, i.batch, i.loading⟩, hp, hx', hn,
    hq, ha⟩

/-- Every head replaced. -/
theorem Kept.setHeads (h : Kept k s) {v : Vector HeadRec 16} (hv : ∀ i, (v.get i).Wf) : Kept k (s.setHeads v) := by
  obtain ⟨i, hp, hx', hn, hq, ha⟩ := h
  exact ⟨⟨i.ptu, i.trig, i.jobs, i.store, i.depths, hv, i.lanes, i.banks, i.notices, i.link, i.batch, i.loading⟩, hp, hx',
    hn, hq, ha⟩

theorem Kept.forEach (h : Kept k s) {α : Type} (l : List α) (f : α → State → State)
    (hf : ∀ a ∈ l, ∀ s, Kept k s → Kept k (f a s)) : Kept k (forEach l f s) :=
  forEach_keeps l f hf h

end Sys2Proof.Machine
end

