-- ==== Sys2Proof/Laws/Sparse.lean ====
section
/-!
SUPPORT. Sparse addressed contents: a read after a write, and the canonical form that every write keeps.
-/

namespace Sys2Proof.Machine

variable {α : Type} [DecidableEq α] {d : α}

omit [DecidableEq α] in
theorem sparseRead_of_lt (d : α) (m : Sparse α) (k : Nat) (h : ∀ e ∈ m, k < e.1) : sparseRead d m k = d := by
  induction m with
  | nil => rfl
  | cons e m ih =>
    have h1 := h e List.mem_cons_self
    have h2 : e.1 ≠ k := by omega
    simp [sparseRead, h2, ih fun e he => h e (List.mem_cons_of_mem _ he)]

omit [DecidableEq α] in
/-- What is read is the default or an entry. -/
theorem sparseRead_mem (d : α) (m : Sparse α) (k : Nat) : sparseRead d m k = d ∨ (k, sparseRead d m k) ∈ m := by
  induction m with
  | nil => exact .inl rfl
  | cons e m ih =>
    simp only [sparseRead]
    split
    · rename_i h; subst h; exact .inr List.mem_cons_self
    · exact ih.imp id (List.mem_cons_of_mem _)

/-- The entries of a canonical form, first and rest. -/
theorem sparseWf_cons {a : Nat} {x : α} {m : Sparse α} :
    sparseWf d ((a, x) :: m) ↔ (∀ e ∈ m, a < e.1) ∧ x ≠ d ∧ sparseWf d m := by
  simp only [sparseWf, List.map_cons, List.pairwise_cons, List.mem_map, List.mem_cons, forall_exists_index, and_imp,
    forall_apply_eq_imp_iff₂, forall_eq_or_imp]
  tauto

theorem sparseRead_of_mem {m : Sparse α} {e : Nat × α} {k : Nat} (h : sparseWf d m) (he : e ∈ m) (hk : e.1 = k) :
    sparseRead d m k = e.2 := by
  induction m with
  | nil => cases he
  | cons f m ih =>
    obtain ⟨a, x⟩ := f
    obtain ⟨h1, -, h3⟩ := sparseWf_cons.1 h
    rcases List.mem_cons.1 he with he | he
    · subst he; subst hk; simp [sparseRead]
    · have h2 := h1 e he
      have h4 : a ≠ k := by omega
      simp [sparseRead, h4, ih h3 he]

theorem sparseRead_erase (m : Sparse α) (k j : Nat) (h : sparseWf d m) :
    sparseRead d (sparseErase m k) j = if j = k then d else sparseRead d m j := by
  induction m with
  | nil => simp [sparseErase, sparseRead]
  | cons e m ih =>
    obtain ⟨a, x⟩ := e
    obtain ⟨h1, h2, h3⟩ := sparseWf_cons.1 h
    simp only [sparseErase]
    by_cases hak : a = k
    · simp only [if_pos hak]
      by_cases hj : j = k
      · simp [hj, sparseRead_of_lt d m k fun e he => hak ▸ h1 e he]
      · have : a ≠ j := by omega
        simp [sparseRead, this, hj]
    · simp only [if_neg hak, sparseRead, ih h3]
      by_cases hj : j = k
      · have : a ≠ j := by omega
        simp [hj, hak]
      · simp [hj]

omit [DecidableEq α] in
theorem sparseRead_insert (m : Sparse α) (k j : Nat) (v : α) :
    sparseRead d (sparseInsert m k v) j = if j = k then v else sparseRead d m j := by
  induction m with
  | nil => simp [sparseInsert, sparseRead, eq_comm]
  | cons e m ih =>
    obtain ⟨a, x⟩ := e
    simp only [sparseInsert]
    by_cases hak : a = k
    · subst hak
      by_cases hj : j = a
      · simp [sparseRead, hj]
      · simp [sparseRead, hj, Ne.symm hj]
    · by_cases hlt : k < a
      · by_cases hj : j = k
        · simp [sparseRead, hj, hak, hlt]
        · simp [sparseRead, hj, hak, hlt, Ne.symm hj]
      · simp only [if_neg hak, if_neg hlt, sparseRead, ih]
        by_cases hj : j = k
        · simp [hj, hak]
        · simp [hj]

/-- A read after a write: the value written at its address, and what stood there before at every other. -/
theorem sparseRead_write (m : Sparse α) (k j : Nat) (v : α) (h : sparseWf d m) :
    sparseRead d (sparseWrite d m k v) j = if j = k then v else sparseRead d m j := by
  unfold sparseWrite
  by_cases hv : v = d
  · simp [hv, sparseRead_erase m k j h]
  · simp [hv, sparseRead_insert]

omit [DecidableEq α] in
theorem sparseErase_mem {m : Sparse α} {k : Nat} {e : Nat × α} (h : e ∈ sparseErase m k) : e ∈ m := by
  induction m with
  | nil => exact h
  | cons x m ih =>
    simp only [sparseErase] at h
    split at h
    · exact List.mem_cons_of_mem _ h
    · rcases List.mem_cons.1 h with h | h
      · exact h ▸ List.mem_cons_self
      · exact List.mem_cons_of_mem _ (ih h)

omit [DecidableEq α] in
theorem sparseInsert_mem {m : Sparse α} {k : Nat} {v : α} {e : Nat × α} (h : e ∈ sparseInsert m k v) :
    e = (k, v) ∨ e ∈ m := by
  induction m with
  | nil => exact .inl (by simpa [sparseInsert] using h)
  | cons x m ih =>
    simp only [sparseInsert] at h
    split at h
    · rcases List.mem_cons.1 h with h | h
      · exact .inl h
      · exact .inr (List.mem_cons_of_mem _ h)
    · split at h
      · rcases List.mem_cons.1 h with h | h
        · exact .inl h
        · exact .inr h
      · rcases List.mem_cons.1 h with h | h
        · exact .inr (h ▸ List.mem_cons_self)
        · exact (ih h).imp id (List.mem_cons_of_mem _)

theorem sparseWrite_mem {m : Sparse α} {k : Nat} {v : α} {e : Nat × α} (h : e ∈ sparseWrite d m k v) :
    e = (k, v) ∨ e ∈ m := by
  unfold sparseWrite at h
  split at h
  · exact .inr (sparseErase_mem h)
  · exact sparseInsert_mem h

theorem sparseErase_wf {m : Sparse α} (k : Nat) (h : sparseWf d m) : sparseWf d (sparseErase m k) := by
  induction m with
  | nil => exact h
  | cons e m ih =>
    obtain ⟨a, x⟩ := e
    obtain ⟨h1, h2, h3⟩ := sparseWf_cons.1 h
    simp only [sparseErase]
    split
    · exact h3
    · exact sparseWf_cons.2 ⟨fun e he => h1 e (sparseErase_mem he), h2, ih h3⟩

theorem sparseInsert_wf {m : Sparse α} (k : Nat) {v : α} (hv : v ≠ d) (h : sparseWf d m) :
    sparseWf d (sparseInsert m k v) := by
  induction m with
  | nil => exact sparseWf_cons.2 ⟨by simp, hv, h⟩
  | cons e m ih =>
    obtain ⟨a, x⟩ := e
    obtain ⟨h1, h2, h3⟩ := sparseWf_cons.1 h
    simp only [sparseInsert]
    split
    · rename_i hak; exact sparseWf_cons.2 ⟨fun e he => hak ▸ h1 e he, hv, h3⟩
    · split
      · rename_i hlt
        refine sparseWf_cons.2 ⟨fun e he => ?_, hv, h⟩
        rcases List.mem_cons.1 he with he | he
        · exact he ▸ hlt
        · exact Nat.lt_trans hlt (h1 e he)
      · rename_i hak hlt
        refine sparseWf_cons.2 ⟨fun e he => ?_, h2, ih h3⟩
        rcases sparseInsert_mem he with he | he
        · subst he; show a < k; omega
        · exact h1 e he

/-- A write keeps the canonical form. -/
theorem sparseWrite_wf {m : Sparse α} (k : Nat) (v : α) (h : sparseWf d m) : sparseWf d (sparseWrite d m k v) := by
  unfold sparseWrite
  split
  · exact sparseErase_wf k h
  · rename_i hv; exact sparseInsert_wf k hv h

/-- A read after a run of writes: the value of the run at its addresses, and what stood there before at every other. -/
theorem sparseRead_writeRun (vs : List α) {m : Sparse α} (k j : Nat) (h : sparseWf d m) :
    sparseRead d (sparseWriteRun d m k vs) j =
      if k ≤ j ∧ j < k + vs.length then (vs[j - k]?).getD d else sparseRead d m j := by
  induction vs generalizing m k with
  | nil => simp [sparseWriteRun]
  | cons v vs ih =>
    rw [sparseWriteRun, ih (k + 1) (sparseWrite_wf k v h), sparseRead_write m k j v h]
    rcases Nat.lt_trichotomy j k with hj | rfl | hj
    · simp only [List.length_cons, show ¬ (k + 1 ≤ j) by omega, show ¬ k ≤ j by omega, show j ≠ k by omega, false_and, if_false]
    · simp
    · obtain ⟨i, rfl⟩ : ∃ i, j = k + 1 + i := ⟨j - (k + 1), by omega⟩
      simp only [List.length_cons, show k + 1 + i - k = i + 1 by omega, show k + 1 + i - (k + 1) = i by omega,
        List.getElem?_cons_succ, show k + 1 + i ≠ k by omega, if_false]
      by_cases hi : i < vs.length
      · rw [if_pos (by omega), if_pos (by omega)]
      · rw [if_neg (by omega), if_neg (by omega)]

theorem sparseWriteRun_wf (vs : List α) {m : Sparse α} (k : Nat) (h : sparseWf d m) :
    sparseWf d (sparseWriteRun d m k vs) := by
  induction vs generalizing m k with
  | nil => exact h
  | cons v vs ih => exact ih (k + 1) (sparseWrite_wf k v h)

theorem sparseOfList_ge (vs : List α) (k : Nat) : ∀ e ∈ sparseOfList d k vs, k ≤ e.1 := by
  induction vs generalizing k with
  | nil => simp [sparseOfList]
  | cons v vs ih =>
    intro e he
    simp only [sparseOfList] at he
    split at he
    · have := ih (k + 1) e he; omega
    · rcases List.mem_cons.1 he with he | he
      · subst he; exact Nat.le_refl k
      · have := ih (k + 1) e he; omega

theorem sparseOfList_wf (vs : List α) (k : Nat) : sparseWf d (sparseOfList d k vs) := by
  induction vs generalizing k with
  | nil => simp [sparseOfList, sparseWf]
  | cons v vs ih =>
    simp only [sparseOfList]
    split
    · exact ih (k + 1)
    · rename_i hv
      exact sparseWf_cons.2 ⟨fun e he => sparseOfList_ge vs (k + 1) e he, hv, ih (k + 1)⟩

end Sys2Proof.Machine
end

