-- ==== Sys2Proof/Laws/Store.lean ====
section
/-!
SUPPORT. The Line Store: every change of a plane keeps the law of R55, and changes that plane, the notices and the link
alone.
-/

namespace Sys2Proof.Machine

/-! ## One plane -/

section
variable {next : Nat} {x : PlaneStore}

/-- A change of a plane's slots that keeps their laws. -/
theorem PlaneStore.Wf.slots (h : x.Wf next) {m : Sparse Slot} (hm : sparseWf Slot.fresh m)
    (hw : ∀ e ∈ m, x.base ≤ e.1 ∧ e.1 < x.base + x.depth ∧ e.1 < next)
    (hp : ∀ e ∈ m, ∀ px, e.2.state = .ready px → px.length = x.width) : { x with slots := m : PlaneStore }.Wf next :=
  ⟨hm, h.width, h.depth, h.watermarks, h.base, hw, hp⟩

theorem PlaneStore.Wf.setSlot (h : x.Wf next) {k : Nat} {v : Slot}
    (hk : v ≠ Slot.fresh → x.base ≤ k ∧ k < x.base + x.depth ∧ k < next)
    (hv : ∀ px, v.state = .ready px → px.length = x.width) : (x.setSlot k v).Wf next := by
  refine h.slots (sparseWrite_wf k v h.canonical) (fun e he => ?_) fun e he => ?_
  · by_cases hf : v = Slot.fresh
    · rw [sparseWrite, if_pos hf] at he
      exact h.window e (sparseErase_mem he)
    · rcases sparseWrite_mem he with he | he
      · subst he; exact hk hf
      · exact h.window e he
  · rcases sparseWrite_mem he with he | he
    · subst he; exact hv
    · exact h.pixels e he

/-- A slot that is not as fresh lies in the window and below the next-line counter. -/
theorem PlaneStore.Wf.slot_fresh (h : x.Wf next) {k : Nat} (hk : x.slot k ≠ Slot.fresh) :
    x.base ≤ k ∧ k < x.base + x.depth ∧ k < next := by
  rcases sparseRead_mem Slot.fresh x.slots k with e | e
  · exact absurd e hk
  · exact h.window _ e

theorem PlaneStore.Wf.slot_pixels (h : x.Wf next) {k : Nat} {px : List Dot} (hk : (x.slot k).state = .ready px) :
    px.length = x.width := by
  rcases sparseRead_mem Slot.fresh x.slots k with e | e
  · unfold PlaneStore.slot at hk; rw [e] at hk; cases hk
  · exact h.pixels _ e px hk

/-- A change of one slot, of a line below the next-line counter in the window, that brings no data of its own. -/
theorem PlaneStore.Wf.change (h : x.Wf next) (f : Slot → Slot)
    (hf : ∀ v px, (f v).state = .ready px → v.state = .ready px) {k : Nat}
    (hk : f (x.slot k) ≠ Slot.fresh → x.base ≤ k ∧ k < x.base + x.depth ∧ k < next) :
    (x.setSlot k (f (x.slot k))).Wf next :=
  h.setSlot hk fun px hp => h.slot_pixels (hf _ px hp)

@[simp] theorem PlaneStore.setSlot_base (k : Nat) (v : Slot) : (x.setSlot k v).base = x.base := rfl
@[simp] theorem PlaneStore.setSlot_depth (k : Nat) (v : Slot) : (x.setSlot k v).depth = x.depth := rfl
@[simp] theorem PlaneStore.setSlot_width (k : Nat) (v : Slot) : (x.setSlot k v).width = x.width := rfl

theorem changeRun_depth (f : Slot → Slot) (k n : Nat) (x : PlaneStore) : (changeRun f k n x).depth = x.depth := by
  induction k generalizing n x with
  | zero => rfl
  | succ k ih => exact (ih (n + 1) _).trans rfl

theorem PlaneStore.Wf.changeRun (f : Slot → Slot) (hf : ∀ v px, (f v).state = .ready px → v.state = .ready px) :
    ∀ (k n : Nat) (x : PlaneStore), x.Wf next → (∀ i, n ≤ i → i < n + k → x.base ≤ i ∧ i < x.base + x.depth ∧ i < next) →
      (changeRun f k n x).Wf next
  | 0, _, _, h, _ => h
  | k + 1, n, x, h, hr =>
    PlaneStore.Wf.changeRun f hf k (n + 1) _ (h.change f hf fun _ => hr n (by omega) (by omega))
      fun i h1 h2 => hr i (by omega) (by omega)

/-- A change of the slots of a range below the next-line counter. -/
theorem PlaneStore.Wf.changeRange (h : x.Wf next) {f : Slot → Slot}
    (hf : ∀ v px, (f v).state = .ready px → v.state = .ready px) {first length : Nat} (hr : first + length ≤ next) :
    (changeRange f first length x).Wf next :=
  PlaneStore.Wf.changeRun f hf _ _ x h fun i h1 h2 => by omega

theorem bindSlot_ready (ts : List Head) (v : Slot) (px : List Dot) (h : (bindSlot ts v).state = .ready px) :
    v.state = .ready px := by
  simp only [bindSlot] at h
  split at h
  · cases h
  · exact h

theorem giveUpSlot_ready (v : Slot) (px : List Dot) (h : (giveUpSlot v).state = .ready px) : v.state = .ready px := by
  cases h

theorem takeSlot_ready (i : Head) (r : Bool) (v : Slot) (px : List Dot) (h : (takeSlot i r v).state = .ready px) :
    v.state = .ready px := by
  simp only [takeSlot] at h
  split at h
  · cases h
  · exact h

theorem PlaneStore.Wf.watermark (h : x.Wf next) (before : Nat) : (x.watermark before).Wf next := by
  have k : ∀ c : Bool, { x with paused := c : PlaneStore }.Wf next := fun c =>
    ⟨h.canonical, h.width, h.depth, h.watermarks, h.base, h.window, h.pixels⟩
  unfold PlaneStore.watermark
  split
  · exact h
  · split
    · exact k true
    · split
      · exact k false
      · exact h

theorem watermark_depth (before : Nat) (x : PlaneStore) : (x.watermark before).depth = x.depth := by
  unfold PlaneStore.watermark
  split
  · rfl
  · split
    · rfl
    · split <;> rfl

/-- A slot re-formed is as fresh, or belongs to a line below the next-line counter; it holds no data. -/
theorem reformSlot_spec (q : JobQueue) (p : Plane) (x : PlaneStore) (n : Nat) :
    (reformSlot q p x n ≠ Slot.fresh → n < q.next.get p) ∧ ∀ px, (reformSlot q p x n).state ≠ .ready px := by
  unfold reformSlot
  split
  · exact ⟨fun h => absurd rfl h, fun _ h => by cases h⟩
  · rename_i hn
    refine ⟨fun _ => by omega, fun px h => ?_⟩
    split at h
    · cases h
    · split at h
      · cases h
      · dsimp only at h
        split at h <;> cases h

theorem PlaneStore.Wf.baseStep {q : JobQueue} {p : Plane} (h : x.Wf (q.next.get p)) (hb : x.base < q.next.get p) :
    (baseStep q p x).Wf (q.next.get p) := by
  have w := reformSlot_spec q p x (x.base + x.depth)
  have hd := h.depth.1
  have hy : { x with base := x.base + 1, slots := sparseErase x.slots x.base : PlaneStore }.Wf (q.next.get p) := by
    refine ⟨sparseErase_wf _ h.canonical, h.width, h.depth, h.watermarks, hb, fun e he => ?_,
      fun e he => h.pixels e (sparseErase_mem he)⟩
    have hw := h.window e (sparseErase_mem he)
    have hne : e.1 ≠ x.base := by
      intro h0
      have hr := sparseRead_erase x.slots x.base x.base h.canonical
      have hwf := sparseErase_wf (d := Slot.fresh) x.base h.canonical
      rw [if_pos rfl] at hr
      exact hwf.2 e he (by rw [← hr]; exact (sparseRead_of_mem hwf he h0).symm)
    dsimp only
    omega
  exact hy.setSlot (fun hv => ⟨by dsimp only; omega, by dsimp only; omega, w.1 hv⟩) fun px hp => absurd hp (w.2 px)

theorem baseStep_depth (q : JobQueue) (p : Plane) (x : PlaneStore) : (baseStep q p x).depth = x.depth := rfl

theorem advanceBase_depth (q : JobQueue) (p : Plane) (k : Nat) (x : PlaneStore) :
    (advanceBase q p k x).depth = x.depth := by
  induction k generalizing x with
  | zero => rfl
  | succ k ih =>
    unfold advanceBase
    split
    · exact ih _
    · rfl

theorem PlaneStore.Wf.advanceBase {q : JobQueue} {p : Plane} (k : Nat) {x : PlaneStore} (h : x.Wf (q.next.get p)) :
    (advanceBase q p k x).Wf (q.next.get p) := by
  induction k generalizing x with
  | zero => exact h
  | succ k ih =>
    unfold Machine.advanceBase
    split
    · rename_i hc; exact ih (h.baseStep hc.2)
    · exact h

end

/-! ## The part -/

variable {k : Floor} {s : State}

theorem Kept.putPlane (h : Kept k s) {p : Plane} {x : PlaneStore} (hx : x.Wf (s.jobs.next.get p))
    (hd : x.depth = (s.plane p).depth) : Kept k (putPlane p x s) := by
  have k : Kept k (s.setPlane p x) := h.setPlane hx (by rw [depthSum_put hd]; exact h.inv.depths)
  unfold Machine.putPlane
  split
  · exact k
  · exact k.setFlowPending

theorem Kept.storeChange (h : Kept k s) {p : Plane} {f : PlaneStore → PlaneStore}
    (hf : (f (s.plane p)).Wf (s.jobs.next.get p)) (hd : (f (s.plane p)).depth = (s.plane p).depth) :
    Kept k (storeChange p f s) :=
  h.putPlane ((hf.watermark _).advanceBase _) (by rw [advanceBase_depth, watermark_depth, hd])

theorem Kept.bindRange (h : Kept k s) {p : Plane} {ts : List Head} {first length : Nat}
    (hr : first + length ≤ s.jobs.next.get p) : Kept k (bindRange p ts first length s) :=
  h.storeChange ((h.inv.store p).changeRange (bindSlot_ready ts) hr) (changeRun_depth _ _ _ _)

theorem Kept.giveUpRange (h : Kept k s) {p : Plane} {first length : Nat} (hr : first + length ≤ s.jobs.next.get p) :
    Kept k (Machine.storeChange p (changeRange giveUpSlot first length) s) :=
  h.storeChange ((h.inv.store p).changeRange giveUpSlot_ready hr) (changeRun_depth _ _ _ _)

/-- A take of any line: by render, of a line that is READY. -/
theorem Kept.takeLine (h : Kept k s) {i : Head} {p : Plane} {m : Nat} {r : Bool}
    (hr : r = true → ((s.plane p).slot m).data.isSome = true) : Kept k (takeLine i p m r s) := by
  have w := h.inv.store p
  have hy : { s.plane p with reach := put (s.plane p).reach i (some m) : PlaneStore }.Wf (s.jobs.next.get p) :=
    ⟨w.canonical, w.width, w.depth, w.watermarks, w.base, w.window, w.pixels⟩
  refine h.storeChange ?_ ?_
  · dsimp only
    split
    · refine hy.change (takeSlot i r) (takeSlot_ready i r) fun hne => ?_
      refine w.slot_fresh fun hf => ?_
      have hf' : { s.plane p with reach := put (s.plane p).reach i (some m) : PlaneStore }.slot m = Slot.fresh := hf
      rw [hf'] at hne
      cases r
      · exact hne rfl
      · rw [hf] at hr; exact absurd (hr rfl) (by decide)
    · exact hy
  · dsimp only; split <;> rfl

/-- What a line frame that is stored or replaced leaves. -/
theorem Kept.storeData (h : Kept k s) {p : Plane} {m : Nat} {px : List Dot} (hl : px.length = (s.plane p).width)
    (hk : (s.plane p).base ≤ m ∧ m < (s.plane p).base + (s.plane p).depth ∧ m < s.jobs.next.get p) :
    Kept k (storeData p m px s) :=
  h.putPlane (((h.inv.store p).setSlot (fun _ => hk) fun px' he => by cases he; exact hl).watermark _)
    (watermark_depth _ _)

end Sys2Proof.Machine
end

