-- ==== Sys2Proof/Laws/LaneOps.lean ====
section
/-!
SUPPORT. What the lanes do for the other blocks keeps the law of R115.
-/

namespace Sys2Proof.Machine

variable {k : Floor} {s : State}

theorem Kept.changeLane (h : Kept k s) {i : Head} {f : Lane → Lane} (hf : (f (s.lane i)).Wf) :
    Kept k (changeLane i f s) := h.setLane hf

@[simp] theorem changeLane_lane (i : Head) (f : Lane → Lane) (s : State) :
    (changeLane i f s).lane i = f (s.lane i) := State.setLane_lane _ _ _

/-- A change of what the lane sends, and of nothing else. -/
theorem Lane.Wf.sending {l : Lane} (h : l.Wf) {tx : Option LaneTx} {w : Option LaneRecord} (lt : Option Nat)
    (hw : w.isSome = true → tx.isSome = true) : { l with tx := tx, waiting := w, lastTrain := lt : Lane }.Wf :=
  ⟨h.settings, h.grade, h.gradeSet, h.trial, h.progress, h.band, h.badCount, h.faultCode, h.downshift, h.status,
    h.timer, hw, h.pulse, h.filters⟩

theorem Lane.Wf.begin {l : Lane} (h : l.Wf) (r : LaneRecord) : (l.begin r).Wf := h.sending _ fun _ => rfl

theorem Lane.Wf.send {l : Lane} (h : l.Wf) (r : LaneRecord) : (l.send r).Wf := by
  unfold Lane.send
  split
  · exact h.begin r
  · rename_i ht
    exact h.sending l.lastTrain fun _ => by cases hx : l.tx <;> simp_all

theorem Lane.Wf.ended {l : Lane} (h : l.Wf) : l.ended.Wf := by
  unfold Lane.ended
  dsimp only
  split
  · rename_i hw
    exact h.sending (w := l.waiting) l.lastTrain fun k => by rw [hw] at k; cases k
  · exact (h.sending (w := none) l.lastTrain fun k => by cases k).begin _

theorem Lane.Wf.cutOff {l : Lane} (h : l.Wf) : l.cutOff.Wf := h.sending l.lastTrain fun k => by cases k

theorem pulseTicks_le {w : Nat} (h : w ≤ 16) : pulseTicks w ≤ 200 := by unfold pulseTicks; omega

theorem Lane.Wf.fireLine {l : Lane} (h : l.Wf) {f : FireLine} (hf : ∀ n, f = .high n → n ≤ 200) :
    { l with fire := f : Lane }.Wf :=
  ⟨h.settings, h.grade, h.gradeSet, h.trial, h.progress, h.band, h.badCount, h.faultCode, h.downshift, h.status,
    h.timer, h.waiting, hf, h.filters⟩

theorem Lane.Wf.strobe {l : Lane} (h : l.Wf) : l.strobe.Wf := by
  refine h.fireLine fun n hn => ?_
  split at hn <;> cases hn
  exact pulseTicks_le h.settings.pulse.2

theorem Lane.Wf.down {l : Lane} (h : l.Wf) : l.down.Wf :=
  ⟨h.settings, by simp [Lane.down], by simp [Lane.down], by simp [Lane.down], by simp [Lane.down], h.band, h.badCount,
    by simp [Lane.down], by simp [Lane.down], by simp [Lane.down], by simp [Lane.down], by simp [Lane.down, Lane.cutOff],
    h.pulse, h.filters⟩

theorem Lane.Wf.ceiling {l : Lane} (h : l.Wf) (c : Option Grade) : { l with ceiling := c : Lane }.Wf :=
  ⟨h.settings, h.grade, h.gradeSet, h.trial, h.progress, h.band, h.badCount, h.faultCode, h.downshift, h.status,
    h.timer, h.waiting, h.pulse, h.filters⟩

/-- What a state that is not UP implies of the items that only UP holds. -/
theorem Lane.Wf.notUp {l : Lane} (h : l.Wf) (hs : l.state ≠ .up) : l.downshift = false ∧ l.status = none := by
  constructor
  · cases hd : l.downshift
    · rfl
    · exact absurd (h.downshift hd).1 hs
  · cases ht : l.status
    · rfl
    · exact absurd (h.status (by simp [ht])) hs

theorem Lane.Wf.notTraining {l : Lane} (h : l.Wf) (hs : l.state ≠ .training) : l.trial = none ∧ l.progress = none := by
  have ht := h.trial
  have hp := h.progress
  constructor
  · cases e : l.trial
    · rfl
    · rw [e] at ht; exact absurd ht.1 hs
  · cases e : l.progress
    · rfl
    · rw [e] at hp; exact absurd hp.1 hs

theorem Kept.laneNotice (h : Kept k s) (i : Head) (r : LaneReason) : Kept k (laneNotice i r s) := h.submit _

theorem quiet_laneNotice (i : Head) (r : LaneReason) (s : State) : Quiet s (laneNotice i r s) := quiet_submit _ s

/-- Entry to NEGOTIATING, from DOWN. -/
theorem Kept.enterNegotiating (h : Kept k s) {i : Head} {r : LaneReason} (hs : (s.lane i).state = .down) :
    Kept k (enterNegotiating i r s) := by
  have w := h.inv.lanes i
  have h1 := w.notUp (by rw [hs]; decide)
  have h2 := w.notTraining (by rw [hs]; decide)
  refine Kept.laneNotice (h.changeLane (Lane.Wf.send ?_ _)) i r
  exact ⟨w.settings, by simp, by simp, by simp [h2.1], by simp [h2.2], w.band, w.badCount, w.faultCode,
    by simp [h1.1], by simp [h1.2], by simp, w.waiting, w.pulse, w.filters⟩

/-- Entry to DOWN from NEGOTIATING or TRAINING. -/
theorem Kept.failDown (h : Kept k s) {i : Head} {r : LaneReason} (hs : (s.lane i).state ≠ .up) :
    Kept k (failDown i r s) := by
  have w := h.inv.lanes i
  have h1 := w.notUp hs
  refine Kept.laneNotice (h.changeLane ?_) i r
  exact ⟨w.settings, by simp, by simp, by simp, by simp, w.band, w.badCount, by simp,
    by simp [h1.1], by simp [h1.2], by simp, by simp, w.pulse, w.filters⟩

theorem Kept.testDownshift (h : Kept k s) (i : Head) : Kept k (testDownshift i s) := by
  unfold Machine.testDownshift
  dsimp only
  split
  · rename_i hc
    simp only [Bool.and_eq_true, beq_iff_eq] at hc
    have h1 : Kept k (s.setLane i { (s.lane i).down with ceiling := (s.lane i).nextLower }) :=
      h.setLane ((h.inv.lanes i).down.ceiling _)
    have h2 := h1.setHead (i := i) (x := { s.head i with inFlight := none }) ⟨(h.inv.heads i).cursor, by
      dsimp only; rw [hc.2]; intro f hf; cases hf⟩
    refine (Kept.laneNotice h2 i .downshift).enterNegotiating ?_
    rw [(quiet_laneNotice i .downshift _).lane]
    simp [Lane.down]
  · exact h

end Sys2Proof.Machine
end

