-- ==== Sys2Proof/Laws/Heads.lean ====
section
/-!
SUPPORT. The Job Queue's rulings on reports and the Head Scheduler keep the invariant.
-/

namespace Sys2Proof.Machine

variable {k : Floor} {s : State}

/-! ## Records -/

/-- A record found by its id stands once in the list. -/
theorem JobQueue.Wf.split {q : JobQueue} (h : q.Wf) {id : Nat} {r : JobRec} (hf : q.find id = some r) :
    ∃ l m, q.records = l ++ r :: m ∧ r.id = id ∧ (∀ x ∈ l, x.id ≠ id) ∧ ∀ x ∈ m, x.id ≠ id := by
  obtain ⟨hr, l, m, he, hl⟩ := List.find?_eq_some_iff_append.1 hf
  have hr' : r.id = id := by simpa using hr
  have hn := h.ids
  rw [he, List.map_append, List.map_cons] at hn
  have hm := (List.nodup_cons.1 (List.nodup_append.1 hn).2.1).1
  refine ⟨l, m, he, hr', fun x hx => by simpa using hl x hx, fun x hx e => hm ?_⟩
  rw [hr', ← e]
  exact List.mem_map_of_mem hx

theorem JobQueue.Wf.find_unique {q : JobQueue} (h : q.Wf) {id : Nat} {r x : JobRec} (hf : q.find id = some r)
    (hx : x ∈ q.records) (hi : x.id = id) : x = r := by
  obtain ⟨l, m, he, -, hl, hm⟩ := h.split hf
  rw [he] at hx
  rcases List.mem_append.1 hx with hx | hx
  · exact absurd hi (hl x hx)
  · rcases List.mem_cons.1 hx with hx | hx
    · exact hx
    · exact absurd hi (hm x hx)

theorem JobQueue.find_mem {q : JobQueue} {id : Nat} {r : JobRec} (hf : q.find id = some r) : r ∈ q.records :=
  List.mem_of_find?_eq_some hf

theorem update_records {q : JobQueue} {id : Nat} {r : JobRec} {l m : List JobRec} {f : JobRec → JobRec}
    (he : q.records = l ++ r :: m) (hr : r.id = id) (hl : ∀ x ∈ l, x.id ≠ id) (hm : ∀ x ∈ m, x.id ≠ id) :
    (q.update id f).records = l ++ f r :: m := by
  have key : ∀ l : List JobRec, (∀ x ∈ l, x.id ≠ id) → l.map (fun r => if r.id = id then f r else r) = l := by
    intro l hl
    conv => rhs; rw [← List.map_id l]
    exact List.map_congr_left fun x hx => by simp [hl x hx]
  show q.records.map _ = _
  rw [he, List.map_append, List.map_cons, key l hl, key m hm, if_pos hr]

theorem remove_records {q : JobQueue} {id : Nat} {r : JobRec} {l m : List JobRec} (he : q.records = l ++ r :: m)
    (hr : r.id = id) (hl : ∀ x ∈ l, x.id ≠ id) (hm : ∀ x ∈ m, x.id ≠ id) : (q.remove id).records = l ++ m := by
  have key : ∀ l : List JobRec, (∀ x ∈ l, x.id ≠ id) → l.filter (fun r => r.id != id) = l := fun l hl =>
    List.filter_eq_self.2 fun x hx => by simp [hl x hx]
  show q.records.filter _ = _
  rw [he, List.filter_append, List.filter_cons, key l hl, key m hm]
  simp [hr]

/-- A record that is ACTIVE, whose activation is replaced. -/
theorem JobQueue.Wf.activated {q : JobQueue} (h : q.Wf) {id : Nat} {r : JobRec} (hf : q.find id = some r)
    (hb : ∀ l m, q.records = l ++ r :: m → ∀ x ∈ l, x.active ≠ none) (a : Activation) :
    (q.update id fun r => { r with active := some a }).Wf := by
  obtain ⟨l, m, he, hr, hl, hm⟩ := h.split hf
  have hu := update_records (f := fun r => { r with active := some a }) he hr hl hm
  have hids := h.ids
  have hrec := h.records
  have hord := h.order
  have hsz := h.size
  rw [he] at hids hrec hord hsz
  refine ⟨?_, ?_, ?_, ?_, h.counters⟩
  · rw [hu]; simpa using hsz
  · rw [hu]; simpa using hids
  · rw [hu]
    intro x hx
    rcases List.mem_append.1 hx with hx | hx
    · exact hrec x (List.mem_append_left _ hx)
    · rcases List.mem_cons.1 hx with hx | hx
      · have w := hrec r (by simp)
        subst hx
        exact ⟨w.length, w.planes, w.delay, w.gap, w.below⟩
      · exact hrec x (by simp [hx])
  · rw [hu]
    obtain ⟨h1, h2, h3⟩ := List.pairwise_append.1 hord
    obtain ⟨h4, h5⟩ := List.pairwise_cons.1 h2
    refine List.pairwise_append.2 ⟨h1, List.pairwise_cons.2 ⟨fun y hy => ⟨(fun e => by cases e), (h4 y hy).2⟩, h5⟩, ?_⟩
    intro x hx y hy
    rcases List.mem_cons.1 hy with hy | hy
    · subst hy
      exact ⟨fun e => absurd e (hb l m he x hx), (h3 x hx r (by simp)).2⟩
    · exact h3 x hx y (by simp [hy])

/-- The records before an ACTIVE one are ACTIVE (R26). -/
theorem JobQueue.Wf.active_before {q : JobQueue} (h : q.Wf) {r : JobRec} (ha : r.active ≠ none) :
    ∀ l m, q.records = l ++ r :: m → ∀ x ∈ l, x.active ≠ none := by
  intro l m he x hx e
  have hord := h.order
  rw [he] at hord
  exact ha (((List.pairwise_append.1 hord).2.2 x hx r (by simp)).1 e)

theorem JobQueue.Wf.sublist {q : JobQueue} (h : q.Wf) {l : List JobRec} (hl : l.Sublist q.records) :
    { q with records := l : JobQueue }.Wf :=
  ⟨Nat.le_trans hl.length_le h.size, h.ids.sublist (hl.map _), fun r hr => h.records r (hl.subset hr),
    h.order.sublist hl, h.counters⟩

theorem JobQueue.Wf.remove {q : JobQueue} (h : q.Wf) (id : Nat) : (q.remove id).Wf :=
  h.sublist List.filter_sublist

theorem boundTo_append (l m : List JobRec) (i : BankId) : boundTo (l ++ m) i = boundTo l i + boundTo m i := by
  simp [boundTo, List.filter_append]

theorem boundTo_cons (r : JobRec) (l : List JobRec) (i : BankId) :
    boundTo (r :: l) i = boundTo [r] i + boundTo l i := boundTo_append [r] l i

theorem boundTo_single {r : JobRec} {a : Activation} (h : r.active = some a) (i : BankId) :
    boundTo [r] i = if a.bank = i then 1 else 0 := by
  simp only [boundTo, List.filter_cons, h, List.filter_nil, beq_iff_eq]
  split <;> rfl

theorem boundTo_queued {r : JobRec} (h : r.active = none) (i : BankId) : boundTo [r] i = 0 := by
  simp [boundTo, h]

/-- The count of a bank is 1 higher, or 1 lower, with a record bound to it. -/
theorem boundTo_split {l m : List JobRec} {r : JobRec} (i : BankId) :
    boundTo (l ++ r :: m) i = boundTo (l ++ m) i + boundTo [r] i := by
  rw [boundTo_append, boundTo_cons, boundTo_append]; omega

theorem JobQueue.empty_find {q : JobQueue} (h : q.records = []) (id : Nat) : q.find id = none := by
  simp [JobQueue.find, h]

/-- A record in the queue says that the loader does not run. -/
theorem State.Inv.not_loading (h : s.Inv) {id : Nat} {r : JobRec} (hf : s.jobs.find id = some r) : s.loading ≠ true :=
  fun hl => by rw [JobQueue.empty_find (h.loading hl).2.1] at hf; cases hf

/-! ## Banks -/

@[simp] theorem setBound_bound (x : Banks) (i j : BankId) (c : Nat) :
    (x.setBound i c).bound j = if j = i then c else x.bound j := by
  simp only [Banks.setBound, Banks.setBank, Banks.bound, get_put_if]
  split <;> rfl

@[simp] theorem setBound_tables (x : Banks) (i j : BankId) (c : Nat) : (x.setBound i c).tables j = x.tables j := by
  simp only [Banks.setBound, Banks.setBank, Banks.tables, get_put_if]
  split
  · rename_i e; rw [e]
  · rfl

@[simp] theorem setBound_other (x : Banks) (i : BankId) (c : Nat) : (x.setBound i c).other = x.other := rfl
@[simp] theorem setBound_active (x : Banks) (i : BankId) (c : Nat) : (x.setBound i c).active = x.active := rfl
@[simp] theorem setBound_otherId (x : Banks) (i : BankId) (c : Nat) : (x.setBound i c).otherId = x.otherId := rfl

theorem Banks.otherId_ne (y : Banks) : y.otherId ≠ y.active := by
  unfold Banks.otherId; split
  · rename_i e; rw [e]; decide
  · rename_i e; exact fun e' => e e'.symm

/-- One job fewer bound to bank i (R142, R150). -/
theorem Banks.Wf.unbind {y : Banks} {l l' : List JobRec} (h : y.Wf l) {i : BankId}
    (hc : ∀ j, boundTo l j = boundTo l' j + if i = j then 1 else 0) :
    Banks.Wf l' (if (y.setBound i (y.bound i - 1)).other = .draining ∧ i = (y.setBound i (y.bound i - 1)).otherId ∧
        (y.setBound i (y.bound i - 1)).bound i = 0 then { y.setBound i (y.bound i - 1) with other := .copying 0 }
      else y.setBound i (y.bound i - 1)) := by
  have hlaw := h.law
  have hcount : ∀ j, (y.setBound i (y.bound i - 1)).bound j = boundTo l' j := by
    intro j
    rw [setBound_bound]
    by_cases e : j = i
    · rw [if_pos e, h.bound, hc, if_pos rfl, e]; omega
    · rw [if_neg e, h.bound, hc, if_neg fun e' => e e'.symm]; omega
  have htab : ∀ j c, (((y.setBound i (y.bound i - 1)).tables j).head c).Wf := fun j c => by
    rw [setBound_tables]; exact h.tables j c
  split
  · rename_i hd
    refine ⟨htab, hcount, ?_⟩
    show (y.setBound i (y.bound i - 1)).bound (y.setBound i (y.bound i - 1)).otherId = 0
    rw [← hd.2.1]
    exact hd.2.2
  · rename_i hd
    refine ⟨htab, hcount, ?_⟩
    rw [setBound_other, setBound_otherId, setBound_bound]
    cases ho : y.other with
    | draining =>
      rw [ho] at hlaw
      dsimp only at hlaw ⊢
      split
      · rename_i e
        rw [setBound_other, setBound_otherId, setBound_bound, if_pos rfl] at hd
        exact Nat.pos_of_ne_zero fun h0 => hd ⟨ho, e.symm, h0⟩
      · exact hlaw
    | shadow | copying _ =>
      rw [ho] at hlaw
      dsimp only at hlaw ⊢
      split
      · rename_i e; rw [← e, hlaw]
      · exact hlaw

/-- One job more bound to the ACTIVE bank (R142). -/
theorem Banks.Wf.bind {y : Banks} {l l' : List JobRec} (h : y.Wf l)
    (hc : ∀ j, boundTo l' j = boundTo l j + if y.active = j then 1 else 0) :
    Banks.Wf l' (y.setBound y.active (y.bound y.active + 1)) := by
  have hlaw := h.law
  refine ⟨fun j c => by rw [setBound_tables]; exact h.tables j c, fun j => ?_, ?_⟩
  · rw [setBound_bound, hc]
    by_cases e : j = y.active
    · rw [if_pos e, h.bound, if_pos e.symm, e]
    · rw [if_neg e, h.bound, if_neg fun e' => e e'.symm]; omega
  · rw [setBound_other, setBound_otherId, setBound_bound, if_neg y.otherId_ne]
    exact hlaw

/-- A job unbound from its bank as its record leaves the queue (R142). -/
theorem Kept.unbind (h : Kept k s) {id : Nat} {r : JobRec} {a : Activation} (hf : s.jobs.find id = some r)
    (ha : r.active = some a) : Kept k (unbindBank a.bank (s.setJobs (s.jobs.remove id))) := by
  obtain ⟨l, m, he, hr, hl, hm⟩ := h.inv.jobs.split hf
  exact h.setJobsBanks (h.inv.jobs.remove id) (fun _ => Nat.le_refl _)
    (h.inv.banks.unbind fun i => by rw [remove_records he hr hl hm, he, boundTo_split, boundTo_single ha])
    fun hl => absurd hl (h.inv.not_loading hf)

/-- An activation bound to the ACTIVE bank (R35, R142). -/
theorem Kept.bind (h : Kept k s) {id : Nat} {r : JobRec} {a : Activation} (hf : s.jobs.find id = some r)
    (ha : r.active = none) (hb : ∀ l m, s.jobs.records = l ++ r :: m → ∀ x ∈ l, x.active ≠ none)
    (hbank : a.bank = s.banks.active) :
    Kept k (bindBank (s.setJobs (s.jobs.update id fun r => { r with active := some a }))) := by
  obtain ⟨l, m, he, hr, hl, hm⟩ := h.inv.jobs.split hf
  exact h.setJobsBanks (h.inv.jobs.activated hf hb a) (fun _ => Nat.le_refl _)
    (h.inv.banks.bind fun i => by
      rw [update_records he hr hl hm, he, boundTo_split, boundTo_split,
        boundTo_single (r := { r with active := some a }) rfl, boundTo_queued ha, hbank, Nat.add_zero])
    fun hl => absurd hl (h.inv.not_loading hf)

/-! ## Reports (R37, R38) -/

theorem Kept.retire (h : Kept k s) (id : Nat) : Kept k (retire id s) := by
  unfold Machine.retire
  split
  · exact h
  · rename_i r hf
    split
    · exact h
    · rename_i a ha
      have hr : r.id = id := by simpa using List.find?_some hf
      exact (h.unbind hf ha).submit _

theorem Kept.report (h : Kept k s) (job n : Nat) (fired retires : Bool) : Kept k (report job n fired retires s) := by
  unfold Machine.report
  split
  · exact h
  · rename_i r hf
    split
    · exact h
    · rename_i a ha
      dsimp only
      obtain ⟨l, m, he, hr, hl, hm⟩ := h.inv.jobs.split hf
      have hb := h.inv.jobs.active_before (r := r) (by rw [ha]; simp)
      have h1 : Kept k (s.setJobs (s.jobs.update job fun r => { r with active := some (a.reported fired (n + 1 == r.length)) })) := by
        refine h.setJobs ?_ (fun _ => Nat.le_refl _) (fun i => ?_) fun hl => absurd hl (h.inv.not_loading hf)
        · have := h.inv.jobs.activated hf hb (a.reported fired (n + 1 == r.length))
          have e : (s.jobs.update job fun r => { r with active := some (a.reported fired (n + 1 == r.length)) }) =
              s.jobs.update job fun x => { x with active := some (a.reported fired (n + 1 == r.length)) } := by
            unfold JobQueue.update
            congr 1
            refine List.map_congr_left fun x hx => ?_
            split
            · rename_i ei; rw [h.inv.jobs.find_unique hf hx ei]
            · rfl
          rw [e]; exact this
        · rw [update_records he hr hl hm, he, boundTo_split, boundTo_split,
            boundTo_single (r := { r with active := some (a.reported fired (n + 1 == r.length)) }) rfl, boundTo_single ha]
          rfl
      have e : (s.jobs.update job fun r' => { r' with active := some (a.reported fired (n + 1 == r.length)) }) =
          s.jobs.update job fun r => { r with active := some (a.reported fired (n + 1 == r.length)) } := by
        unfold JobQueue.update
        congr 1
        refine List.map_congr_left fun x hx => ?_
        split
        · rename_i ei; rw [h.inv.jobs.find_unique hf hx ei]
        · rfl
      rw [e]
      split
      · exact h1.retire job
      · exact h1

/-! ## Takes and preloads -/

theorem State.cursorData_ready {i : Head} {c : Cursor} {v : JobView} {px : List Dot}
    (h : s.cursorData i c = some (v, px)) :
    s.jobView i c.job = some v ∧ ((s.plane v.plane).slot (v.line c.index)).data.isSome = true := by
  unfold State.cursorData at h
  split at h
  · cases h
  · rename_i w hw
    cases hd : (s.plane w.plane).readyData (w.line c.index) with
    | none => rw [hd] at h; cases h
    | some y =>
      rw [hd] at h
      simp only [Option.map_some, Option.some.injEq, Prod.mk.injEq] at h
      obtain ⟨rfl, rfl⟩ := h
      refine ⟨hw, ?_⟩
      unfold PlaneStore.readyData at hd
      split at hd
      · rw [hd]; rfl
      · cases hd

theorem Kept.takeOf (h : Kept k s) {i : Head} {c : Cursor} : Kept k (takeOf i c false s) := by
  unfold Machine.takeOf
  split
  · exact h
  · exact h.takeLine fun e => by cases e

/-- What a head's record holds as it comes to a line: nothing in flight but a DISCARD (R72). -/
def HeadRec.Leaving (x : HeadRec) : Prop := ∀ f, x.inFlight = some f → f.fate = .discard

theorem Kept.startPreload (h : Kept k s) {i : Head} {x : HeadRec} {c : Cursor} {t : State}
    (ht : startPreload i x c s = some t) : Kept k t := by
  unfold Machine.startPreload at ht
  split at ht
  · cases ht
  · split at ht
    · cases ht
    · rename_i v px hd
      obtain ⟨hv, hr⟩ := State.cursorData_ready hd
      simp only [Option.some.injEq] at ht
      subst ht
      have h1 : Kept k (Machine.takeOf i c true s) := by
        unfold Machine.takeOf
        rw [hv]
        exact h.takeLine fun _ => hr
      exact (h1.changeLane ((h1.inv.lanes i).send _)).setHead ⟨by simp, ⟨c, rfl, rfl⟩⟩

theorem Kept.startPreload_getD (h : Kept k s) {i : Head} {x : HeadRec} {c : Cursor} {t : State} (ht : Kept k t) :
    Kept k ((Machine.startPreload i x c s).getD t) := by
  cases hp : Machine.startPreload i x c s with
  | none => exact ht
  | some u => exact h.startPreload hp

theorem Kept.tryPreload (h : Kept k s) (i : Head) : Kept k (tryPreload i s) := by
  unfold Machine.tryPreload
  split
  · exact h.startPreload_getD h
  · exact h

/-! ## Arrivals and dues -/

theorem Kept.arriveOn (h : Kept k s) {i : Head} {x : HeadRec} (hx : x.Leaving) (c : Cursor) :
    Kept k (arriveOn i x c s) := by
  unfold Machine.arriveOn
  split
  · rename_i f hf
    refine h.setHead ⟨by simp, ⟨f.line, ?_⟩⟩
    have := hx f hf
    cases f
    simp_all
  · rename_i hf
    exact h.startPreload_getD (h.setHead ⟨by simp, hf⟩)

theorem Kept.becomeIdle (h : Kept k s) {i : Head} {x : HeadRec} (hx : x.Leaving) : Kept k (becomeIdle i x s) :=
  (h.setHead (x := { x with cursor := none, state := .idle }) ⟨by simp, hx⟩).testDownshift i

theorem Kept.goTo (h : Kept k s) {i : Head} {x : HeadRec} (hx : x.Leaving) (c : Option Cursor) :
    Kept k (goTo i x c s) := by
  cases c with
  | none => exact h.becomeIdle hx
  | some c => exact h.arriveOn hx c

theorem HeadRec.Wf.leaveLine {x : HeadRec} (h : x.Wf) : x.leaveLine.Leaving := by
  have hf := h.flight
  unfold HeadRec.leaveLine HeadRec.Leaving
  cases hs : x.state <;> rw [hs] at hf <;> dsimp only at hf ⊢
  · exact hf
  · intro f e; rw [hf] at e; cases e
  · intro f e
    cases hi : x.inFlight with
    | none => rw [hi] at e; cases e
    | some g => rw [hi] at e; simp only [Option.map_some, Option.some.injEq] at e; rw [← e]
  · intro f e; rw [hf] at e; cases e
  · obtain ⟨c, hc⟩ := hf
    intro f e; rw [hc] at e; simp only [Option.some.injEq] at e; rw [← e]
  · intro f e; rw [hf] at e; cases e

theorem HeadRec.leaving_discarded (x : HeadRec) : x.discarded.Leaving := by
  intro f e
  cases hi : x.inFlight with
  | none => simp [HeadRec.discarded, hi] at e
  | some g => simp only [HeadRec.discarded, hi, Option.map_some, Option.some.injEq] at e; rw [← e]

theorem Kept.countOutcome (h : Kept k s) (i : Head) (o : DueOutcome) (c : Cursor) : Kept k (countOutcome i o c s) := by
  unfold Machine.countOutcome
  dsimp only
  split
  · exact h.bump _
  · exact (h.bump _).submitCondition _ _

theorem Kept.dueEvent (h : Kept k s) (i : Head) (c : Cursor) : Kept k (dueEvent i c s) := by
  unfold Machine.dueEvent
  dsimp only
  have h1 := h.countOutcome i (dueOutcome (s.lane i) (s.head i).state) c
  refine Kept.goTo ?_ (HeadRec.Wf.leaveLine (State.Inv.heads (Kept.inv (k := k) ?_) i)) _ <;>
  · have h2 : ∀ t, Kept k t → Kept k (if (s.head i).state.unrendered = true then Machine.takeOf i c false t else t) := by
      intro t ht; split
      · exact ht.takeOf
      · exact ht
    have h3 := (h2 _ h1).report c.job c.index (dueOutcome (s.lane i) (s.head i).state == .fired) true
    split
    · exact h3.changeLane (h3.inv.lanes i).strobe
    · exact h3

theorem Kept.runDues (i : Head) (m : Nat) {s : State} (h : Kept k s) : Kept k (runDues i m s) := by
  induction m generalizing s with
  | zero => exact h
  | succ m ih =>
    unfold Machine.runDues
    split
    · exact h
    · exact ih (h.dueEvent i _)

theorem Kept.arrive (h : Kept k s) {i : Head} {x : HeadRec} (hx : x.Leaving) (c : Cursor) : Kept k (arrive i x c s) :=
  Kept.runDues i _ (h.arriveOn hx c)

theorem Ptu.Wf.present {u : Ptu} (h : u.Wf) : { u with presented := u.s / 2 ^ 24 : Ptu }.Wf :=
  ⟨h.params, h.measured, h.position, h.velocity, h.integrator, h.feedForward, h.periods, h.still, h.timer, h.untimed,
    h.filling, h.filled, Nat.le_refl _, h.filters⟩

theorem Kept.presentAdvance (h : Kept k s) : Kept k (presentAdvance s) := by
  unfold Machine.presentAdvance
  dsimp only
  exact (h.setPtu h.inv.ptu.present (Nat.le_refl _) fun hl => (h.inv.loading hl).1).forEach _ _
    fun i _ s hs => hs.runDues i _

/-! ## Lane reports -/

theorem Kept.transmissionEnded (h : Kept k s) (i : Head) : Kept k (transmissionEnded i s) := by
  have w := h.inv.heads i
  have hf := w.flight
  unfold Machine.transmissionEnded
  dsimp only
  split
  · exact h
  · rename_i f hi
    cases hs : (s.head i).state <;> rw [hs] at hf <;> dsimp only at hf
    · have := hf f hi
      rw [this]
      exact h.setHead ⟨by simpa [hs] using w.cursor, by simp only; intro g e; cases e⟩
    · rw [hf] at hi; cases hi
    · obtain ⟨c, hc, hk⟩ := hf
      rw [hk] at hi
      simp only [Option.some.injEq] at hi
      subst hi
      exact h.setHead ⟨by simp [hc], rfl⟩
    · rw [hf] at hi; cases hi
    · obtain ⟨c, hc⟩ := hf
      rw [hc] at hi
      simp only [Option.some.injEq] at hi
      subst hi
      have hcur := w.cursor
      rw [hs] at hcur
      obtain ⟨d, hd⟩ := Option.isSome_iff_exists.1 (hcur.2 (by decide))
      rw [hd]
      exact h.arrive (fun g e => by cases e) d
    · rw [hf] at hi; cases hi

theorem Kept.laneLeftUp (h : Kept k s) (i : Head) : Kept k (laneLeftUp i s) := by
  have w := h.inv.heads i
  have hf := w.flight
  have hcur := w.cursor
  unfold Machine.laneLeftUp
  dsimp only
  split
  · rename_i hs
    rw [hs] at hcur
    exact h.setHead ⟨by simpa using hcur, rfl⟩
  · rename_i hs
    rw [hs] at hcur hf
    exact h.setHead ⟨by simpa using hcur, hf⟩
  · exact h.arrive (fun g e => by cases e) _
  · rename_i hs
    rw [hs] at hcur
    exact h.setHead ⟨by simpa [hs] using hcur, by simp only [hs]; intro g e; cases e⟩
  · exact h
  · exact h
  · exact h

/-! ## Skips -/

theorem Kept.skipLine (h : Kept k s) (i : Head) (c : Cursor) (taken retires : Bool) :
    Kept k (skipLine i c taken retires s) := by
  unfold Machine.skipLine
  dsimp only
  refine Kept.report ?_ _ _ _ _
  split
  · exact (h.bump _).takeOf
  · exact h.bump _

theorem Kept.skipRun (i : Head) (retires : Bool) (m : Nat) (c : Cursor) (taken : Bool) {s : State} (h : Kept k s) :
    Kept k (skipRun i retires m c taken s) := by
  induction m generalizing s c taken with
  | zero => exact h
  | succ m ih => exact ih _ _ (h.skipLine i c taken retires)

theorem Kept.giveUpHead (h : Kept k s) (i : Head) : Kept k (giveUpHead i s) := by
  unfold Machine.giveUpHead
  split
  · exact h
  · exact Kept.becomeIdle ((Kept.skipRun i true _ _ _ h).forEach _ _ fun j _ s hs => Kept.skipRun i true _ _ _ hs)
      (HeadRec.leaving_discarded _)

theorem Kept.abortPart (h : Kept k s) (i : Head) (id length : Nat) : Kept k (abortPart i id length s) := by
  unfold Machine.abortPart
  split
  · exact h
  · split
    · exact Kept.runDues i _ ((Kept.skipRun i false _ _ _ h).goTo (HeadRec.leaving_discarded _) _)
    · split
      · exact Kept.skipRun i false _ _ _ h
      · exact h

theorem Kept.lineReady (h : Kept k s) (p : Plane) (m : Nat) (ts : List Head) : Kept k (lineReady p m ts s) := by
  refine h.forEach _ _ fun i _ s hs => ?_
  split
  · exact hs
  · split
    · exact hs
    · split
      · exact hs.tryPreload i
      · exact hs

end Sys2Proof.Machine
end

