-- ==== Sys2Proof/Laws/Jobs.lean ====
section
/-!
SUPPORT. The Job Queue's own acts keep the invariant: accepting a job, activations and their chains, aborts.
-/

namespace Sys2Proof.Machine

variable {k : Floor} {s : State}

/-! ## What leaves the job queue as it is -/

theorem putPlane_jobs (p : Plane) (x : PlaneStore) (s : State) : (putPlane p x s).jobs = s.jobs := by
  unfold putPlane; split
  · rfl
  · exact (quiet_setFlowPending _).jobs

theorem storeChange_jobs (p : Plane) (f : PlaneStore → PlaneStore) (s : State) : (storeChange p f s).jobs = s.jobs :=
  putPlane_jobs _ _ s

/-- Changes of ranges of planes, one after the other. -/
theorem Kept.forRanges (h : Kept k s) (l : List JobPlane) (f : JobPlane → State → State) (length : Nat)
    (hl : ∀ x ∈ l, x.first + length ≤ s.jobs.next.get x.plane)
    (hj : ∀ x s, (f x s).jobs = s.jobs)
    (hf : ∀ x s, Kept k s → x.first + length ≤ s.jobs.next.get x.plane → Kept k (f x s)) : Kept k (Machine.forEach l f s) := by
  have := forEach_keeps (P := fun t => Kept k t ∧ t.jobs = s.jobs) l f
    (fun x hx t ht => ⟨hf x t ht.1 (by rw [ht.2]; exact hl x hx), (hj x t).trans ht.2⟩) ⟨h, rfl⟩
  exact this.1

theorem Kept.giveUpRecord (h : Kept k s) {r : JobRec}
    (hr : ∀ x ∈ r.planes, x.first + r.length ≤ s.jobs.next.get x.plane) : Kept k (giveUpRecord r s) :=
  h.forRanges _ _ r.length hr (fun _ _ => storeChange_jobs _ _ _) fun _ _ ht hx => ht.giveUpRange hx

theorem JobQueue.Wf.lasts {q : JobQueue} (h : q.Wf) (t l : Option Nat) : { q with lastT := t, lastL := l : JobQueue }.Wf :=
  ⟨h.size, h.ids, h.records, h.order, h.counters⟩

theorem JobQueue.Wf.printing {q : JobQueue} (h : q.Wf) (p : Bool) : { q with print := p : JobQueue }.Wf :=
  ⟨h.size, h.ids, h.records, h.order, h.counters⟩

/-! ## Activation -/

/-- The record of an id is the oldest QUEUED one: those before it are ACTIVE. -/
def JobQueue.First (q : JobQueue) (id : Nat) : Prop := ∃ r, q.oldestQueued = some r ∧ r.id = id

theorem JobQueue.Wf.first {q : JobQueue} (h : q.Wf) {id : Nat} (hq : q.First id) {r : JobRec} (hf : q.find id = some r) :
    r.active = none ∧ ∀ l m, q.records = l ++ r :: m → ∀ x ∈ l, x.active ≠ none := by
  obtain ⟨r', ho, hi⟩ := hq
  obtain ⟨ha, l, m, he, hl⟩ := List.find?_eq_some_iff_append.1 ho
  have hr : r' = r := h.find_unique hf (by rw [he]; simp) hi
  subst hr
  refine ⟨by simpa using ha, fun l' m' he' x hx => ?_⟩
  have hids := h.ids
  rw [he'] at he
  have hll : l' = l := by
    rw [he', List.map_append, List.map_cons] at hids
    have hnot := (List.nodup_cons.1 (List.nodup_append.1 hids).2.1).1
    have hdis := (List.nodup_append.1 hids).2.2
    rcases List.append_eq_append_iff.1 he with ⟨c, hc1, hc2⟩ | ⟨c, hc1, hc2⟩
    · cases c with
      | nil => simpa using hc1.symm
      | cons y c =>
        simp only [List.cons_append, List.cons.injEq] at hc2
        exfalso
        exact hnot (by rw [hc2.2]; simp)
    · cases c with
      | nil => simpa using hc1
      | cons y c =>
        simp only [List.cons_append, List.cons.injEq] at hc2
        exfalso
        refine hdis (a := r'.id) (by rw [hc1, ← hc2.1]; simp) (b := r'.id) (by simp) rfl
  subst hll
  exact Option.isSome_iff_ne_none.1 (by simpa using hl x hx)

theorem chainReady_first {q : JobQueue} {id t : Nat} (h : q.chainReady = some (id, t)) : q.First id := by
  unfold JobQueue.chainReady at h
  split at h
  · rename_i r b hp ho hb
    split at h
    · simp only [Option.some.injEq, Prod.mk.injEq] at h
      exact ⟨r, ho, h.1⟩
    · cases h
  · cases h

theorem triggerRuling_first {p id t : Nat} (h : s.triggerRuling p = .activated id t) : s.jobs.First id := by
  unfold State.triggerRuling at h
  split at h
  · cases h
  · split at h
    · cases h
    · split at h
      · cases h
      · rename_i r ho
        split at h
        · cases h
        · split at h
          · simp only [TrigResult.activated.injEq] at h
            exact ⟨r, ho, h.1⟩
          · cases h

theorem Kept.handToHeads (h : Kept k s) (id : Nat) (hs : List Head) : Kept k (handToHeads id hs s) := by
  refine h.forEach _ _ fun i _ s hs => ?_
  split
  · rename_i he
    have hf := (hs.inv.heads i).flight
    rw [he] at hf
    exact hs.arrive hf _
  · exact hs

theorem Kept.activateRecord (h : Kept k s) {r : JobRec} {t : Nat} (hf : s.jobs.find r.id = some r)
    (hq : r.active = none ∧ ∀ l m, s.jobs.records = l ++ r :: m → ∀ x ∈ l, x.active ≠ none) :
    Kept k (activateRecord r t s) := by
  have h1 : Kept k (bindBank (s.setJobs (s.jobs.update r.id fun r => { r with active := some (s.activationOf r t) }))) := by
    have := h.bind (a := s.activationOf r t) hf hq.1 hq.2 rfl
    have e : (s.jobs.update r.id fun x => { x with active := some (s.activationOf x t) }) =
        s.jobs.update r.id fun x => { x with active := some (s.activationOf r t) } := by
      unfold JobQueue.update
      congr 1
      refine List.map_congr_left fun x hx => ?_
      split
      · rename_i ei; rw [h.inv.jobs.find_unique hf hx ei]
      · rfl
    rw [e]; exact this
  have h1' : Kept k (bindBank (s.setJobs (s.jobs.update r.id fun x => { x with active := some (s.activationOf r t) }))) := by
    exact h.bind (a := s.activationOf r t) hf hq.1 hq.2 rfl
  unfold Machine.activateRecord
  dsimp only
  refine Kept.handToHeads (Kept.submit ?_ _) _ _
  have h2 := h1'.forRanges r.planes
    (fun x s' => Machine.bindRange x.plane ((s.activationOf r t).takersOf x.plane) x.first r.length s') r.length
    (fun x hx => (h.inv.jobs.records r (JobQueue.find_mem hf)).below x hx) (fun _ _ => storeChange_jobs _ _ _)
    fun _ _ ht hx => ht.bindRange hx
  exact h2.setJobs (h2.inv.jobs.lasts _ _) (fun _ => Nat.le_refl _) (fun _ => rfl) fun hl => (h2.inv.loading hl).2.1

theorem Kept.retireIfEmpty (h : Kept k s) (id : Nat) : Kept k (retireIfEmpty id s) := by
  unfold Machine.retireIfEmpty
  split
  · exact h
  · split
    · exact h
    · split
      · exact h.retire id
      · exact h

theorem Kept.activate (m : Nat) {id t : Nat} {s : State} (h : Kept k s) (hq : s.jobs.First id) :
    Kept k (activate m id t s) := by
  induction m generalizing s id t with
  | zero => exact h
  | succ m ih =>
    unfold Machine.activate
    split
    · exact h
    · rename_i r hf
      have hr : r.id = id := by simpa using List.find?_some hf
      dsimp only
      have h1 : Kept k (Machine.activateRecord r t s) := h.activateRecord (hr ▸ hf) (h.inv.jobs.first hq hf)
      refine Kept.retireIfEmpty ?_ id
      split
      · rename_i hc; exact ih h1 (chainReady_first hc)
      · exact h1

theorem Kept.testChain (h : Kept k s) : Kept k (testChain s) := by
  unfold Machine.testChain
  split
  · rename_i hc; exact h.activate _ (chainReady_first hc)
  · exact h

theorem Kept.deliverTrigger (h : Kept k s) (p : Nat) : Kept k (deliverTrigger p s) := by
  unfold Machine.deliverTrigger
  split
  · exact (h.bump _).submit _
  · rename_i ht
    have := triggerRuling_first ht
    exact (h.bump _).activate _ (by rw [(quiet_bump _ s).jobs]; exact this)

/-! ## Aborts -/

theorem Kept.abortQueued (h : Kept k s) {r : JobRec} (hf : s.jobs.find r.id = some r) (ha : r.active = none) :
    Kept k (abortQueued r s) := by
  obtain ⟨l, m, he, hr, hl, hm⟩ := h.inv.jobs.split hf
  have h1 : Kept k (s.setJobs (s.jobs.remove r.id)) :=
    h.setJobs (h.inv.jobs.remove _) (fun _ => Nat.le_refl _)
      (fun i => by rw [remove_records he hr hl hm, he, boundTo_split, boundTo_queued ha]; rfl)
      fun hl => absurd hl (h.inv.not_loading hf)
  exact ((h1.giveUpRecord fun x hx => (h.inv.jobs.records r (JobQueue.find_mem hf)).below x hx).submit _).testChain

theorem Kept.abortActive (h : Kept k s) {r : JobRec} (hf : s.jobs.find r.id = some r) (a : Activation) :
    Kept k (abortActive r a s) := by
  refine h.trans ?_
  replace h := h.inv.kept
  unfold Machine.abortActive
  dsimp only
  have h1 : Kept s.floor (Machine.forEach a.heads (fun i s => Machine.abortPart i r.id r.length s) s) :=
    h.forEach _ _ fun i _ s hs => hs.abortPart i _ _
  have h2 := h1.giveUpRecord (r := r) fun x hx =>
    Nat.le_trans ((h.inv.jobs.records r (JobQueue.find_mem hf)).below x hx) (h1.next x.plane)
  split
  · exact h2
  · rename_i b hb
    obtain ⟨x, hx, hxb⟩ := Option.bind_eq_some_iff.1 hb
    exact (h2.unbind hx hxb).submit _

/-! ## Commands -/

theorem Kept.append (h : Kept k s) {f : JobFields} (hl : s.loading ≠ true) (hsz : s.jobs.records.length < Config.maxJobs)
    (hid : ∀ r ∈ s.jobs.records, r.id ≠ f.id) (hin : jobInRange s f = true) (hp : f.planes.Nodup) :
    Kept k (s.setJobs (s.jobs.append (s.jobs.newRecord f))) := by
  simp only [jobInRange, Bool.and_eq_true, decide_eq_true_eq, Bool.not_eq_true', List.all_eq_true,
    List.isEmpty_eq_false_iff] at hin
  obtain ⟨⟨⟨⟨⟨hlen, hne⟩, hw⟩, hm⟩, hgap, hdelay⟩, hlim⟩ := hin
  have w := h.inv.jobs
  have hpl : ∀ p, ((s.jobs.newRecord f).planes.any fun x => x.plane == p) = true ↔ p ∈ f.planes := fun p => by
    simp [JobQueue.newRecord]
  have hnext : ∀ p, (s.jobs.append (s.jobs.newRecord f)).next.get p =
      if p ∈ f.planes then s.jobs.next.get p + f.length else s.jobs.next.get p := fun p => by
    simp only [JobQueue.append, get_mapAll]
    by_cases e : p ∈ f.planes
    · rw [if_pos e, if_pos ((hpl p).2 e)]; rfl
    · rw [if_neg e, if_neg fun e' => e ((hpl p).1 e')]
  have hmono : ∀ p, s.jobs.next.get p ≤ (s.jobs.append (s.jobs.newRecord f)).next.get p := fun p => by
    rw [hnext]; split <;> omega
  refine h.setJobs ⟨?_, ?_, ?_, ?_, fun p => ?_⟩ hmono (fun i => ?_) (fun e => absurd e hl)
  · simp only [JobQueue.append, List.length_append, List.length_cons, List.length_nil]; omega
  · simp only [JobQueue.append, List.map_append, List.map_cons, List.map_nil]
    refine List.nodup_append.2 ⟨w.ids, by simp, fun a ha b hb => ?_⟩
    obtain ⟨r, hr, rfl⟩ := List.mem_map.1 ha
    simp only [JobQueue.newRecord, List.mem_singleton] at hb
    rw [hb]; exact hid r hr
  · intro r hr
    simp only [JobQueue.append, List.mem_append, List.mem_singleton] at hr
    rcases hr with hr | hr
    · have v := w.records r hr
      exact ⟨v.length, v.planes, v.delay, v.gap, fun x hx => Nat.le_trans (v.below x hx) (hmono _)⟩
    · subst hr
      refine ⟨hlen, ⟨by simpa [JobQueue.newRecord] using hne, ?_⟩, hdelay, hgap, fun x hx => ?_⟩
      · simpa [JobQueue.newRecord, Function.comp_def] using hp
      · simp only [JobQueue.newRecord, List.mem_map] at hx
        obtain ⟨p, hp, rfl⟩ := hx
        rw [hnext, if_pos hp]; exact Nat.le_refl _
  · simp only [JobQueue.append]
    refine List.pairwise_append.2 ⟨w.order, by simp, fun a ha c hc => ?_⟩
    simp only [List.mem_singleton] at hc
    subst hc
    refine ⟨fun _ => rfl, fun x hx y hy he => ?_⟩
    simp only [JobQueue.newRecord, List.mem_map] at hy
    obtain ⟨p, -, rfl⟩ := hy
    dsimp only at he ⊢
    rw [← he]
    exact (w.records a ha).below x hx
  · rw [hnext]
    split
    · rename_i e; exact hlim p e
    · exact w.counters p
  · show boundTo (s.jobs.records ++ [s.jobs.newRecord f]) i = _
    rw [boundTo_append, boundTo_queued rfl]; rfl

end Sys2Proof.Machine
end

