-- ==== Sys2Proof/Laws/Ptu.lean ====
section
/-!
SUPPORT. The Position Tracking Unit and the Trigger Qualifier keep the invariant, and S never decreases.
-/

namespace Sys2Proof.Machine

variable {k : Floor} {s : State}

/-! ## The arithmetic -/

theorem clampInt_bounds {lo hi : Int} (h : lo ≤ hi) (x : Int) : lo ≤ clampInt lo hi x ∧ clampInt lo hi x ≤ hi := by
  unfold clampInt; omega

theorem clampNat_bounds {lo hi : Nat} (h : lo ≤ hi) (x : Nat) : lo ≤ clampNat lo hi x ∧ clampNat lo hi x ≤ hi := by
  unfold clampNat; omega

theorem raise_le (u : Ptu) : u.s ≤ u.raise.s := Nat.le_max_left _ _

theorem acquire_le (u : Ptu) : u.s ≤ u.acquire.s := Nat.le_max_left _ _

theorem setV_le (u : Ptu) (x : Int) : (u.setV x).v ≤ u.params.vmax := by
  simp only [Ptu.setV]
  have := clampInt_bounds (Int.natCast_nonneg u.params.vmax) x
  omega

theorem setI_bounds (u : Ptu) (x : Int) : -(u.params.ilim : Int) ≤ (u.setI x).i ∧ (u.setI x).i ≤ u.params.ilim :=
  clampInt_bounds (by omega) x

theorem pushPeriod_mem {n : Nat} {l : List Nat} {p x : Nat} (h : x ∈ pushPeriod n l p) : x = p ∨ x ∈ l := by
  have h' : x ∈ l ++ [p] := by
    unfold pushPeriod at h
    dsimp only at h
    split at h
    · exact List.mem_of_mem_drop h
    · exact h
  rcases List.mem_append.1 h' with h' | h'
  · exact .inr h'
  · exact .inl (by simpa using h')

theorem pushPeriod_length (n : Nat) (l : List Nat) (p : Nat) (h : l.length ≤ n) (hn : 0 < n) :
    (pushPeriod n l p).length = if l.length = n then n else l.length + 1 := by
  unfold pushPeriod
  dsimp only
  simp only [List.length_append, List.length_cons, List.length_nil]
  split
  · rw [List.length_drop, List.length_append, List.length_cons, List.length_nil, if_pos (by omega)]; omega
  · rw [List.length_append, List.length_cons, List.length_nil, if_neg (by omega)]

theorem feedForward_le {r : Nat} (h : r ≤ 4194304) (d : Nat) : r * 65536 / d ≤ 2 ^ 38 :=
  Nat.le_trans (Nat.div_le_self _ _) (by omega)

/-- The items of the law that the state of the PTU does not enter. -/
structure Ptu.Base (u : Ptu) : Prop where
  params : u.params.Wf
  measured : Config.mMin ≤ u.m ∧ u.m ≤ Config.mMax
  position : u.s ≤ Config.sMax
  velocity : u.v ≤ u.params.vmax
  integrator : -(u.params.ilim : Int) ≤ u.i ∧ u.i ≤ u.params.ilim
  feedForward : u.vff ≤ 2 ^ 38
  periods : ∀ p ∈ u.history, 1 ≤ p ∧ p ≤ Config.periodMax
  presented : u.presented ≤ u.s / 2 ^ 24
  filters : u.encA.progress ≤ u.params.encFilter ∧ u.encB.progress ≤ u.params.encFilter

theorem Ptu.Wf.base {u : Ptu} (h : u.Wf) : u.Base :=
  ⟨h.params, h.measured, h.position, h.velocity, h.integrator, h.feedForward, h.periods, h.presented, h.filters⟩

section
variable {u : Ptu} (h : u.Base)
include h

theorem Ptu.Base.count (f : Bool) : (u.count f).Base :=
  ⟨h.params, clampInt_bounds (by decide) _, h.position, h.velocity, h.integrator, h.feedForward, h.periods, h.presented,
    h.filters⟩

theorem Ptu.Base.restall (e : Option Nat) : { u with stall := e : Ptu }.Base :=
  ⟨h.params, h.measured, h.position, h.velocity, h.integrator, h.feedForward, h.periods, h.presented, h.filters⟩

theorem Ptu.Base.restate (e : PtuState) : { u with state := e : Ptu }.Base :=
  ⟨h.params, h.measured, h.position, h.velocity, h.integrator, h.feedForward, h.periods, h.presented, h.filters⟩

theorem Ptu.Base.raise : u.raise.Base := by
  refine ⟨h.params, h.measured, ?_, h.velocity, h.integrator, h.feedForward, h.periods, ?_, h.filters⟩
  · exact Nat.max_le.2 ⟨h.position, Nat.min_le_left _ _⟩
  · exact Nat.le_trans h.presented (Nat.div_le_div_right (raise_le u))

theorem Ptu.Base.clearHistory : u.clearHistory.Base :=
  ⟨h.params, h.measured, h.position, h.velocity, h.integrator, h.feedForward, by simp [Ptu.clearHistory], h.presented,
    h.filters⟩

theorem Ptu.Base.setV (x : Int) : (u.setV x).Base :=
  ⟨h.params, h.measured, h.position, setV_le u x, h.integrator, h.feedForward, h.periods, h.presented, h.filters⟩

theorem Ptu.Base.setI (x : Int) : (u.setI x).Base :=
  ⟨h.params, h.measured, h.position, h.velocity, setI_bounds u x, h.feedForward, h.periods, h.presented, h.filters⟩

theorem Ptu.Base.zeroI : { u with i := 0 : Ptu }.Base :=
  ⟨h.params, h.measured, h.position, h.velocity, ⟨by dsimp only; omega, by dsimp only; omega⟩, h.feedForward, h.periods,
    h.presented, h.filters⟩

theorem Ptu.Base.period (now : Nat) : (u.period now).Base := by
  unfold Ptu.period
  split
  · exact ⟨h.params, h.measured, h.position, h.velocity, h.integrator, h.feedForward, h.periods, h.presented, h.filters⟩
  · refine ⟨h.params, h.measured, h.position, h.velocity, h.integrator, h.feedForward, fun p hp => ?_, h.presented,
      h.filters⟩
    rcases pushPeriod_mem hp with hp | hp
    · subst hp; simp only [Config.periodMax]; omega
    · exact h.periods p hp

theorem Ptu.Base.feeding : u.feedForward.Base := by
  unfold Ptu.feedForward
  split
  · exact ⟨h.params, h.measured, h.position, h.velocity, h.integrator, feedForward_le h.params.ratio.2 _, h.periods,
      h.presented, h.filters⟩
  · exact h

theorem Ptu.Base.halt (e : PtuState) : (u.halt e).Base :=
  ⟨h.params, h.measured, h.position, Nat.zero_le _, ⟨by simp only [Ptu.halt]; omega, by simp only [Ptu.halt]; omega⟩,
    h.feedForward, by simp [Ptu.halt, Ptu.clearHistory], h.presented, h.filters⟩

theorem Ptu.Base.slip (hs : u.s ≤ min Config.sMax u.measured) : u.slip.Base := by
  have : { u with s := min Config.sMax u.measured, i := 0 : Ptu }.Base :=
    ⟨h.params, h.measured, Nat.min_le_left _ _, h.velocity, h.zeroI.integrator, h.feedForward, h.periods,
      Nat.le_trans h.presented (Nat.div_le_div_right hs), h.filters⟩
  exact this.setV _

theorem Ptu.Base.piUpdate (e : Int) : (u.piUpdate e).Base := (h.setI _).setV _

/-- The law in OFF. -/
theorem Ptu.Base.off (hs : u.state = .off) (hv : u.v = 0) (ht : u.stall = none) : u.Wf :=
  ⟨h.params, h.measured, h.position, h.velocity, h.integrator, h.feedForward, h.periods, fun _ => hv, by simp [hs, ht],
    by simp [hs], by simp [hs], by simp [hs], h.presented, h.filters⟩

/-- The law in STOPPED and HOLDING. -/
theorem Ptu.Base.stopped (hs : u.state = .stopped ∨ u.state = .holding) (hv : u.v = 0) (ht : u.stall = none)
    (hh : u.history = [] ∧ u.mark = none) : u.Wf :=
  ⟨h.params, h.measured, h.position, h.velocity, h.integrator, h.feedForward, h.periods, fun _ => hv,
    by rcases hs with hs | hs <;> simp [hs, ht], fun _ => hh, by rcases hs with hs | hs <;> simp [hs],
    by rcases hs with hs | hs <;> simp [hs], h.presented, h.filters⟩

/-- The law in ACQUIRING. -/
theorem Ptu.Base.acquiring (hs : u.state = .acquiring) (hv : u.v = 0) (ht : u.stall.isSome = true)
    (hh : u.history.length < 2 ^ u.params.avgExp ∧ (u.mark = none → u.history = [])) : u.Wf :=
  ⟨h.params, h.measured, h.position, h.velocity, h.integrator, h.feedForward, h.periods, fun _ => hv, by simp [hs, ht],
    by simp [hs], fun _ => hh, by simp [hs], h.presented, h.filters⟩

/-- The law in TRACKING. -/
theorem Ptu.Base.tracking (hs : u.state = .tracking) (ht : u.stall.isSome = true)
    (hh : u.mark.isSome = true ∧ u.history.length = 2 ^ u.params.avgExp) : u.Wf :=
  ⟨h.params, h.measured, h.position, h.velocity, h.integrator, h.feedForward, h.periods, by simp [hs], by simp [hs, ht],
    by simp [hs], by simp [hs], fun _ => hh, h.presented, h.filters⟩

end

theorem Ptu.Base.halted {u : Ptu} (h : u.Base) {e : PtuState} (he : e = .stopped ∨ e = .holding) : (u.halt e).Wf :=
  (h.halt e).stopped he rfl rfl ⟨rfl, rfl⟩

theorem Ptu.Wf.stall_none {u : Ptu} (h : u.Wf) (h1 : u.state ≠ .acquiring) (h2 : u.state ≠ .tracking) : u.stall = none := by
  cases e : u.stall
  · rfl
  · rcases h.timer.1 (by simp [e]) with h' | h'
    · exact absurd h' h1
    · exact absurd h' h2

theorem Ptu.full_iff (u : Ptu) : u.full = true ↔ u.history.length = 2 ^ u.params.avgExp := by
  unfold Ptu.full Ptu.depth; exact beq_iff_eq

/-- Entry to ACQUIRING with an empty history. -/
theorem Ptu.Base.acquire {u : Ptu} (h : u.Base) (hv : u.v = 0) (hh : u.history = []) : u.acquire.Wf :=
  ((h.restate .acquiring).restall (some 0)).raise.acquiring rfl hv rfl
    ⟨by show u.history.length < _; rw [hh]; exact Nat.two_pow_pos _, fun _ => hh⟩

theorem period_empty {u : Ptu} (h : u.history = [] ∧ u.mark = none) (now : Nat) : (u.period now).history = [] := by
  unfold Ptu.period; rw [h.2]; exact h.1

@[simp] theorem period_state (u : Ptu) (now : Nat) : (u.period now).state = u.state := by
  unfold Ptu.period; split <;> rfl
@[simp] theorem period_v (u : Ptu) (now : Nat) : (u.period now).v = u.v := by unfold Ptu.period; split <;> rfl
@[simp] theorem period_s (u : Ptu) (now : Nat) : (u.period now).s = u.s := by unfold Ptu.period; split <;> rfl
@[simp] theorem period_params (u : Ptu) (now : Nat) : (u.period now).params = u.params := by
  unfold Ptu.period; split <;> rfl
@[simp] theorem period_stall (u : Ptu) (now : Nat) : (u.period now).stall = u.stall := by
  unfold Ptu.period; split <;> rfl
@[simp] theorem period_mark (u : Ptu) (now : Nat) : (u.period now).mark = some now := by
  unfold Ptu.period; split <;> rfl

@[simp] theorem feeding_state (u : Ptu) : u.feedForward.state = u.state := by unfold Ptu.feedForward; split <;> rfl
@[simp] theorem feeding_s (u : Ptu) : u.feedForward.s = u.s := by unfold Ptu.feedForward; split <;> rfl
@[simp] theorem feeding_stall (u : Ptu) : u.feedForward.stall = u.stall := by unfold Ptu.feedForward; split <;> rfl
@[simp] theorem feeding_mark (u : Ptu) : u.feedForward.mark = u.mark := by unfold Ptu.feedForward; split <;> rfl
@[simp] theorem feeding_history (u : Ptu) : u.feedForward.history = u.history := by
  unfold Ptu.feedForward; split <;> rfl
@[simp] theorem feeding_params (u : Ptu) : u.feedForward.params = u.params := by
  unfold Ptu.feedForward; split <;> rfl

theorem period_length {u : Ptu} {t : Nat} (hm : u.mark = some t) (now : Nat)
    (hl : u.history.length ≤ 2 ^ u.params.avgExp) :
    (u.period now).history.length =
      if u.history.length = 2 ^ u.params.avgExp then 2 ^ u.params.avgExp else u.history.length + 1 := by
  unfold Ptu.period
  rw [hm]
  exact pushPeriod_length _ _ _ hl (Nat.two_pow_pos _)

/-! ## Counts -/

theorem Kept.ptuNotice (h : Kept k s) (r : PtuReason) : Kept k (ptuNotice r s) := h.submit _

theorem Kept.advanceNow (h : Kept k s) : Kept k (advanceNow s) := by
  unfold Machine.advanceNow
  split
  · exact h.presentAdvance
  · exact h

/-- A PTU that is not OFF says that the loader does not run. -/
theorem State.Inv.running (h : s.Inv) (hs : s.ptu.state ≠ .off) {p : Prop} (hl : s.loading = true) : p :=
  absurd (h.loading hl).1 hs

theorem slip_le {u : Ptu} (hs : u.s ≤ Config.sMax) (he : (u.params.slip : Int) < u.error) :
    u.s ≤ min Config.sMax u.measured := by
  refine Nat.le_min.2 ⟨hs, ?_⟩
  unfold Ptu.error at he
  unfold Ptu.measured
  omega

theorem Kept.forwardCount (h : Kept k s) (hne : s.ptu.state ≠ .off) : Kept k (forwardCount s) := by
  have w := h.inv.ptu
  have hb := w.base.count true
  unfold Machine.forwardCount
  dsimp only
  split
  · exact h
  · rename_i hs
    replace hs : s.ptu.state = .stopped := hs
    have hh := w.untimed (.inl hs)
    have hv := w.still (by rw [hs]; decide)
    refine Kept.ptuNotice (Kept.advanceNow (h.setPtu (Ptu.Base.acquire (hb.period _) ?_ ?_) ?_ (h.inv.running hne))) _
    · rw [period_v]; exact hv
    · exact period_empty (u := s.ptu.count true) hh _
    · exact Nat.le_trans (Nat.le_of_eq (period_s (s.ptu.count true) s.now).symm) (acquire_le _)
  · rename_i hs
    replace hs : s.ptu.state = .acquiring := hs
    have hf := w.filling hs
    have hv := w.still (by rw [hs]; decide)
    have hb1 := ((hb.restall (some 0)).period s.now).raise
    have hle : s.ptu.s ≤ ({ s.ptu.count true with stall := some 0 : Ptu }.period s.now).raise.s :=
      Nat.le_trans (Nat.le_of_eq (period_s { s.ptu.count true with stall := some 0 } s.now).symm) (raise_le _)
    split
    · rename_i hfull
      refine Kept.ptuNotice (Kept.advanceNow (h.setPtu ?_ ?_ (h.inv.running hne))) _
      · refine Ptu.Base.tracking (Ptu.Base.setV (hb1.feeding.zeroI.restate .tracking) _) rfl ?_ ⟨?_, ?_⟩
        · show (Ptu.feedForward _).stall.isSome = true
          rw [feeding_stall]
          show (Ptu.period _ _).stall.isSome = true
          rw [period_stall]; rfl
        · show (Ptu.feedForward _).mark.isSome = true
          rw [feeding_mark]
          show (Ptu.period _ _).mark.isSome = true
          rw [period_mark]; rfl
        · show (Ptu.feedForward _).history.length = 2 ^ (Ptu.feedForward _).params.avgExp
          rw [feeding_history, feeding_params]
          exact (Ptu.full_iff _).1 hfull
      · show s.ptu.s ≤ (Ptu.feedForward _).s
        rw [feeding_s]; exact hle
    · rename_i hfull
      refine Kept.advanceNow (h.setPtu (hb1.acquiring ?_ ?_ ?_ ⟨?_, ?_⟩) hle (h.inv.running hne))
      · show (Ptu.period _ _).state = _; rw [period_state]; exact hs
      · show (Ptu.period _ _).v = _; rw [period_v]; exact hv
      · show (Ptu.period _ _).stall.isSome = _; rw [period_stall]; rfl
      · show (Ptu.period _ _).history.length < 2 ^ (Ptu.period _ _).params.avgExp
        rw [Ptu.full_iff] at hfull
        replace hfull : ¬ (Ptu.period _ _).history.length = 2 ^ (Ptu.period _ _).params.avgExp := hfull
        cases hm : s.ptu.mark with
        | none =>
          rw [period_empty (u := { s.ptu.count true with stall := some 0 }) ⟨hf.2 hm, hm⟩]
          exact Nat.two_pow_pos _
        | some t =>
          have h1 : s.ptu.history.length < 2 ^ s.ptu.params.avgExp := hf.1
          have hl : (({ s.ptu.count true with stall := some 0 : Ptu }.period s.now)).history.length =
              s.ptu.history.length + 1 :=
            (period_length (u := { s.ptu.count true with stall := some 0 }) hm s.now (Nat.le_of_lt hf.1)).trans
              (if_neg (Nat.ne_of_lt h1))
          rw [period_params] at hfull ⊢
          rw [hl] at hfull ⊢
          show s.ptu.history.length + 1 < 2 ^ s.ptu.params.avgExp
          replace hfull : ¬ s.ptu.history.length + 1 = 2 ^ s.ptu.params.avgExp := hfull
          omega
      · intro e
        replace e : (Ptu.period _ _).mark = none := e
        rw [period_mark] at e; cases e
  · rename_i hs
    replace hs : s.ptu.state = .tracking := hs
    have hf := w.filled hs
    obtain ⟨t, ht⟩ := Option.isSome_iff_exists.1 hf.1
    have hb1 := ((hb.restall (some 0)).period s.now).feeding
    have hl : (({ s.ptu.count true with stall := some 0 : Ptu }.period s.now)).history.length =
        2 ^ s.ptu.params.avgExp :=
      (period_length (u := { s.ptu.count true with stall := some 0 }) ht s.now (Nat.le_of_eq hf.2)).trans (if_pos hf.2)
    have hw : (({ s.ptu.count true with stall := some 0 : Ptu }.period s.now).feedForward).Wf := by
      refine hb1.tracking (by rw [feeding_state, period_state]; exact hs) (by rw [feeding_stall, period_stall]; rfl)
        ⟨by rw [feeding_mark, period_mark]; rfl, ?_⟩
      rw [feeding_history, feeding_params, period_params]; exact hl
    have hle : s.ptu.s ≤ (({ s.ptu.count true with stall := some 0 : Ptu }.period s.now).feedForward).s := by
      rw [feeding_s, period_s]; exact Nat.le_refl _
    have hst : (({ s.ptu.count true with stall := some 0 : Ptu }.period s.now).feedForward).state = .tracking := by
      rw [feeding_state, period_state]; exact hs
    generalize (({ s.ptu.count true with stall := some 0 : Ptu }.period s.now).feedForward) = u at hw hle hst hb1
    unfold Machine.correct
    dsimp only [State.setPtu_ptu]
    split
    · rename_i he
      have hsl := slip_le hw.position he
      refine (Kept.advanceNow (h.setPtu (u := u.slip) ?_ (Nat.le_trans hle hsl) (h.inv.running hne))).submitCondition _ _
      exact (hb1.slip hsl).tracking hst (hw.timer.2 (.inr hst)) (hw.filled hst)
    · split
      · exact Kept.ptuNotice (h.setPtu (u := u.halt .holding) (hb1.halted (.inr rfl)) hle (h.inv.running hne)) _
      · exact h.setPtu (u := u.piUpdate u.error)
          ((hb1.piUpdate _).tracking hst (hw.timer.2 (.inr hst)) (hw.filled hst)) hle (h.inv.running hne)
  · rename_i hs
    replace hs : s.ptu.state = .holding := hs
    have hh := w.untimed (.inr hs)
    have hv := w.still (by rw [hs]; decide)
    have hw : (s.ptu.count true).Wf := hb.stopped (.inr hs) hv (w.stall_none (by rw [hs]; decide) (by rw [hs]; decide)) hh
    split
    · rename_i hc
      unfold Machine.catchUp
      rw [if_pos (by rw [period_s]; have : ((s.ptu.count true).period s.now).m = (s.ptu.count true).m := by
                       unfold Ptu.period; split <;> rfl
                     rw [this]; exact hc)]
      refine Kept.ptuNotice (Kept.advanceNow (h.setPtu (Ptu.Base.acquire (hb.period _) ?_ ?_) ?_ (h.inv.running hne))) _
      · rw [period_v]; exact hv
      · exact period_empty (u := s.ptu.count true) hh _
      · exact Nat.le_trans (Nat.le_of_eq (period_s (s.ptu.count true) s.now).symm) (acquire_le _)
    · rename_i hc
      unfold Machine.catchUp
      rw [if_neg hc]
      exact h.setPtu hw (Nat.le_refl _) (h.inv.running hne)

theorem Kept.backwardCount (h : Kept k s) (hne : s.ptu.state ≠ .off) : Kept k (backwardCount s) := by
  have w := h.inv.ptu
  have hb := w.base.count false
  unfold Machine.backwardCount
  dsimp only
  split
  · exact h
  · rename_i hs
    replace hs : s.ptu.state = .stopped := hs
    exact h.setPtu (hb.stopped (.inl hs) (w.still (by rw [hs]; decide))
      (w.stall_none (by rw [hs]; decide) (by rw [hs]; decide)) (w.untimed (.inl hs))) (Nat.le_refl _) (h.inv.running hne)
  · exact Kept.ptuNotice (h.setPtu (hb.halted (.inr rfl)) (Nat.le_refl _) (h.inv.running hne)) _
  · exact Kept.ptuNotice (h.setPtu (hb.halted (.inr rfl)) (Nat.le_refl _) (h.inv.running hne)) _
  · rename_i hs
    replace hs : s.ptu.state = .holding := hs
    have hv := w.still (by rw [hs]; decide)
    have hh := w.untimed (.inr hs)
    unfold Machine.catchUp
    split
    · exact Kept.ptuNotice (Kept.advanceNow (h.setPtu (hb.acquire hv hh.1) (acquire_le (s.ptu.count false)) (h.inv.running hne))) _
    · exact h.setPtu (hb.stopped (.inr hs) hv (w.stall_none (by rw [hs]; decide) (by rw [hs]; decide)) hh)
        (Nat.le_refl _) (h.inv.running hne)

theorem take_progress {i : Input} {f : Nat} (hp : i.progress ≤ f) (x : Bool) : (i.take x).progress ≤ f := by
  unfold Input.take; dsimp only
  split
  · exact hp
  · exact Nat.zero_le f

theorem sample_progress {i : Input} {f : Nat} (_ : i.progress ≤ f) (x : Bool) : (i.sample f x).progress ≤ f := by
  unfold Input.sample
  split
  · exact Nat.zero_le _
  · split
    · exact Nat.zero_le _
    · rename_i h2; dsimp only; omega

theorem Ptu.Wf.inputs {u : Ptu} (h : u.Wf) {a b : Input} (ha : a.progress ≤ u.params.encFilter)
    (hb : b.progress ≤ u.params.encFilter) : { u with encA := a, encB := b : Ptu }.Wf :=
  ⟨h.params, h.measured, h.position, h.velocity, h.integrator, h.feedForward, h.periods, h.still, h.timer, h.untimed,
    h.filling, h.filled, h.presented, ⟨ha, hb⟩⟩

theorem Kept.decodePair (h : Kept k s) (new : Bool × Bool) : Kept k (decodePair new s) := by
  have w := h.inv.ptu
  have h1 : Kept k (s.setPtu { s.ptu with encA := s.ptu.encA.take new.1, encB := s.ptu.encB.take new.2 }) :=
    h.setPtu (w.inputs (take_progress w.filters.1 _) (take_progress w.filters.2 _)) (Nat.le_refl _)
      fun hl => (h.inv.loading hl).1
  unfold Machine.decodePair
  dsimp only
  split
  · exact h1
  · rename_i hne
    have hs : (s.setPtu { s.ptu with encA := s.ptu.encA.take new.1, encB := s.ptu.encB.take new.2 }).ptu.state ≠ .off :=
      fun e => hne (.inl e)
    split
    · split
      · exact h1.backwardCount hs
      · exact h1.forwardCount hs
    · split
      · split
        · exact h1.forwardCount hs
        · exact h1.backwardCount hs
      · exact h1

theorem Kept.stallExpire (h : Kept k s) (ht : s.ptu.stall.isSome = true) : Kept k (stallExpire s) := by
  have w := h.inv.ptu
  have hne : s.ptu.state ≠ .off := fun e => by
    rcases w.timer.1 ht with h' | h' <;> rw [e] at h' <;> cases h'
  exact Kept.ptuNotice ((h.setPtu (w.base.halted (.inl rfl)) (Nat.le_refl _) (h.inv.running hne)).submit _) _

theorem stallDue_isSome {u : Ptu} (h : u.stallDue = true) : u.stall.isSome = true := by
  unfold Ptu.stallDue at h
  split at h
  · cases h
  · rename_i e; rw [e]; rfl

/-! ## Commands -/

theorem Kept.enterOff (h : Kept k s) (r : PtuReason) : Kept k (enterOff r s) := by
  have w := h.inv.ptu
  unfold Machine.enterOff
  split
  · exact h
  · refine Kept.ptuNotice (h.setPtu (u := { s.ptu with state := .off, v := 0, stall := none, presented := s.position })
      (Ptu.Base.off ?_ rfl rfl rfl) (Nat.le_refl _) fun _ => rfl) r
    exact ⟨w.params, w.measured, w.position, Nat.zero_le _, w.integrator, w.feedForward, w.periods, Nat.le_refl _,
      w.filters⟩

theorem roundEncFilter_mem (x : Nat) : roundEncFilter x ∈ [0, 2, 4, 8, 16] := by
  unfold roundEncFilter
  repeat' split
  all_goals simp

/-- A parameter that is carried is adjusted into its range, and one that is absent keeps its value. -/
theorem getD_map {α : Type} {p : α → Prop} (o : Option Nat) (f : Nat → α) (d : α) (hf : ∀ x, p (f x)) (hd : p d) :
    p ((o.map f).getD d) := by
  cases o with
  | none => exact hd
  | some x => exact hf x

theorem PtuParams.Wf.adjusted {q : PtuParams} (h : q.Wf) {a : PositionArgs}
    (hr : ∀ r, a.lineRatio = some r → ratioOk r = true) : (q.adjusted a).Wf := by
  refine ⟨?_, ?_, ?_, ⟨?_, ?_⟩, ?_, ?_, ?_, ?_⟩
  · show 256 ≤ a.lineRatio.getD q.lineRatio ∧ a.lineRatio.getD q.lineRatio ≤ 4194304
    cases e : a.lineRatio with
    | none => exact h.ratio
    | some r => simpa [ratioOk] using hr r e
  · exact getD_map (p := fun x => x ≤ 5) _ _ _ (fun x => Nat.min_le_right x 5) h.exponent
  · exact getD_map (p := fun x => x ∈ [0, 2, 4, 8, 16]) _ _ _ roundEncFilter_mem h.filter
  · exact getD_map (p := fun x => x ≤ 65535) _ _ _ (fun x => Nat.min_le_right x 65535) h.gains.1
  · exact getD_map (p := fun x => x ≤ 65535) _ _ _ (fun x => Nat.min_le_right x 65535) h.gains.2
  · exact getD_map (p := fun x => x ≤ 2 ^ 31 - 1) _ _ _ (fun x => Nat.min_le_right x (2 ^ 31 - 1)) h.ilim
  · exact getD_map (p := fun x => 1 ≤ x ∧ x ≤ 2 ^ 32 - 1) _ _ _ (clampNat_bounds (by decide)) h.vmax
  · exact getD_map (p := fun x => 65536 ≤ x ∧ x ≤ 16777216) _ _ _ (clampNat_bounds (by decide)) h.slip
  · exact getD_map (p := fun x => 25000 ≤ x ∧ x ≤ 16777215) _ _ _ (clampNat_bounds (by decide)) h.stall

/-- Parameters taken: those that only OFF takes are unchanged, or the PTU is OFF. -/
theorem Ptu.Wf.withParams {u : Ptu} (h : u.Wf) {q : PtuParams} (hq : q.Wf) {a : PositionArgs}
    (hv : a.vmax = none → q.vmax = u.params.vmax) (hi : a.ilim = none → q.ilim = u.params.ilim)
    (ho : u.state = .off ∨ q.avgExp = u.params.avgExp) :
    (u.withParams q a).Wf ∧ (u.withParams q a).s = u.s ∧ (u.withParams q a).state = u.state ∧
      (u.withParams q a).stall = u.stall := by
  have hf : ∀ i : Input, i.restart.progress ≤ q.encFilter := fun i => Nat.zero_le _
  have key : ∀ v i ea eb, v ≤ q.vmax → (u.state ≠ .tracking → v = 0) → (-(q.ilim : Int) ≤ i ∧ i ≤ q.ilim) →
      (ea.progress ≤ q.encFilter ∧ eb.progress ≤ q.encFilter) →
      { u with params := q, v := v, i := i, encA := ea, encB := eb : Ptu }.Wf := fun v i ea eb h1 h2 h3 h4 => by
    refine ⟨hq, h.measured, h.position, h1, h3, h.feedForward, h.periods, h2, h.timer, h.untimed, fun hs => ?_,
      fun hs => ?_, h.presented, h4⟩
    · rcases ho with ho | ho
      · rw [ho] at hs; cases hs
      · have := h.filling hs; rw [← ho] at this; exact this
    · rcases ho with ho | ho
      · rw [ho] at hs; cases hs
      · have := h.filled hs; rw [← ho] at this; exact this
  have hsetv : ∀ w : Ptu, w.v = u.v → u.state ≠ .tracking → (w.setV w.v).v = 0 := fun w hw hs => by
    have := h.still hs
    simp only [Ptu.setV, hw, this]
    unfold clampInt; omega
  unfold Ptu.withParams
  dsimp only
  by_cases e : q.encFilter = u.params.encFilter
  · rw [if_pos e]
    have he : u.encA.progress ≤ q.encFilter ∧ u.encB.progress ≤ q.encFilter := e ▸ h.filters
    cases ev : a.vmax <;> cases ei : a.ilim <;> simp only [Option.isSome_none, Option.isSome_some, if_true,
      Bool.false_eq_true, if_false] <;>
      refine ⟨?_, by first | rfl | trivial, by first | rfl | trivial, by first | rfl | trivial⟩
    · exact key _ _ _ _ (hv ev ▸ h.velocity) h.still (hi ei ▸ h.integrator) he
    · exact key _ _ _ _ (hv ev ▸ h.velocity) h.still (setI_bounds { u with params := q } _) he
    · exact key _ _ _ _ (setV_le { u with params := q } _) (hsetv { u with params := q } rfl) (hi ei ▸ h.integrator) he
    · exact key _ _ _ _ (setV_le { u with params := q } _) (hsetv { u with params := q } rfl)
        (setI_bounds { u with params := q } _) he
  · rw [if_neg e]
    have he : u.encA.restart.progress ≤ q.encFilter ∧ u.encB.restart.progress ≤ q.encFilter := ⟨hf _, hf _⟩
    cases ev : a.vmax <;> cases ei : a.ilim <;> simp only [Option.isSome_none, Option.isSome_some, if_true,
      Bool.false_eq_true, if_false] <;>
      refine ⟨?_, by first | rfl | trivial, by first | rfl | trivial, by first | rfl | trivial⟩
    · exact key _ _ _ _ (hv ev ▸ h.velocity) h.still (hi ei ▸ h.integrator) he
    · exact key _ _ _ _ (hv ev ▸ h.velocity) h.still (setI_bounds { u with params := q } _) he
    · exact key _ _ _ _ (setV_le { u with params := q } _) (hsetv { u with params := q } rfl) (hi ei ▸ h.integrator) he
    · exact key _ _ _ _ (setV_le { u with params := q } _) (hsetv { u with params := q } rfl)
        (setI_bounds { u with params := q } _) he

theorem Kept.takeParams (h : Kept k s) {q : PtuParams} (hq : q.Wf) {a : PositionArgs}
    (hv : a.vmax = none → q.vmax = s.ptu.params.vmax) (hi : a.ilim = none → q.ilim = s.ptu.params.ilim)
    (ho : s.ptu.state = .off ∨ q.avgExp = s.ptu.params.avgExp) : Kept k (takeParams q a s) := by
  obtain ⟨h1, h2, h3, h4⟩ := h.inv.ptu.withParams hq hv hi ho
  have hk : Kept k (s.setPtu (s.ptu.withParams q a)) :=
    h.setPtu h1 (Nat.le_of_eq h2.symm) fun hl => h3 ▸ (h.inv.loading hl).1
  unfold Machine.takeParams
  dsimp only
  split
  · rename_i hd
    simp only [Bool.and_eq_true] at hd
    exact hk.stallExpire (stallDue_isSome hd.2)
  · exact hk

/-- A refusal leaves the state, and what follows a test that fails is all that is left to show. -/
theorem Kept.unless (h : Kept k s) {c : Bool} {r : ResultCode} {p : Reply} (hp : c = false → Kept k p.state) :
    Kept k (if c = true then Reply.refuse r s else p).state := by
  cases c
  · exact hp rfl
  · exact h

theorem Kept.cmdSetPosition (h : Kept k s) (a : PositionArgs) : Kept k (cmdSetPosition a s).state := by
  unfold Machine.cmdSetPosition
  by_cases h1 : s.ptu.state ≠ .off ∧ offOnly a = true
  · rw [if_pos h1]; exact h
  · rw [if_neg h1]
    refine h.unless fun h2 => ?_
    simp only [Bool.or_eq_false_iff] at h2
    have hq : (s.ptu.params.adjusted a).Wf := h.inv.ptu.params.adjusted fun r hr => by
      have := h2.1; rw [hr] at this; simpa using this
    refine h.takeParams hq (fun e => by simp [PtuParams.adjusted, e]) (fun e => by simp [PtuParams.adjusted, e]) ?_
    by_cases hs : s.ptu.state = .off
    · exact .inl hs
    · right
      have : offOnly a = false := by
        cases ho : offOnly a
        · rfl
        · exact absurd ⟨hs, ho⟩ h1
      simp only [offOnly, Bool.or_eq_false_iff, Option.isSome_eq_false_iff, Option.isNone_iff_eq_none] at this
      simp [PtuParams.adjusted, this.1.1.2]

theorem Kept.cmdPositionOn (h : Kept k s) (hl : s.loading ≠ true) : Kept k (cmdPositionOn s).state := by
  have w := h.inv.ptu
  unfold Machine.cmdPositionOn
  split
  · exact h
  · rename_i hs
    have hs' : s.ptu.state = .off := by simpa using hs
    refine Kept.ptuNotice (h.setPtu (u := { s.ptu.clearHistory with state := .stopped, i := 0, v := 0 })
      (Ptu.Base.stopped ?_ (.inl rfl) rfl ?_ ⟨rfl, rfl⟩) (Nat.le_refl _) fun e => absurd e hl) _
    · exact ⟨w.params, w.measured, w.position, Nat.zero_le _, w.base.zeroI.integrator, w.feedForward,
        by simp [Ptu.clearHistory], w.presented, w.filters⟩
    · exact w.stall_none (by rw [hs']; decide) (by rw [hs']; decide)

/-! ## The Trigger Qualifier -/

theorem Qualifier.Wf.toIdle {t : Qualifier} (h : t.Wf) : t.toIdle.Wf :=
  ⟨h.params, h.newParams, by simp [Qualifier.toIdle], by simp [Qualifier.toIdle], rfl, h.filter⟩

theorem Kept.qualify (h : Kept k s) (hs : s.trig.state = .candidate) : Kept k (qualify s) := by
  have w := h.inv.trig
  refine Kept.deliverTrigger (h.setTrig (x := { s.trig with state := .qualified, timer := none })
    ⟨w.params, w.newParams, ?_, ?_, rfl, w.filter⟩) _
  · simpa [hs] using w.capture
  · simpa [hs] using w.start

theorem Kept.dropoutExpire (h : Kept k s) : Kept k (dropoutExpire s) :=
  ((h.setTrig h.inv.trig.toIdle).bump _).submit _

theorem Kept.minOffExpire (h : Kept k s) : Kept k (minOffExpire s) := h.setTrig h.inv.trig.toIdle

theorem Kept.goesActive (h : Kept k s) : Kept k (goesActive s) := by
  have w := h.inv.trig
  unfold Machine.goesActive
  split
  · rename_i hs
    have ht := w.timer
    rw [hs] at ht
    exact h.setTrig ⟨w.params, w.newParams, by simp, by simp, ht, w.filter⟩
  · rename_i hs
    have h1 : Kept k (s.setTrig { s.trig with state := .candidate, timer := none }) :=
      h.setTrig ⟨w.params, w.newParams, by simpa [hs] using w.capture, by simpa [hs] using w.start, rfl, w.filter⟩
    dsimp only
    split
    · exact h1.qualify rfl
    · exact h1
  · rename_i hs
    exact h.setTrig ⟨w.params, w.newParams, by simpa [hs] using w.capture, by simpa [hs] using w.start, rfl, w.filter⟩
  · exact h
  · exact h

theorem Kept.goesInactive (h : Kept k s) : Kept k (goesInactive s) := by
  have w := h.inv.trig
  unfold Machine.goesInactive
  split
  · rename_i hs
    have h1 : Kept k (s.setTrig { s.trig with state := .dropout, timer := some (.dropout, s.now + s.trig.params.dropout * Config.ticksPerUs) }) :=
      h.setTrig ⟨w.params, w.newParams, by simpa [hs] using w.capture, by simpa [hs] using w.start, rfl, w.filter⟩
    dsimp only
    split
    · exact h1.dropoutExpire
    · exact h1
  · rename_i hs
    have h1 : Kept k (s.setTrig { s.trig with state := .releasing, timer := some (.minOff, s.now + s.trig.params.minOff * Config.ticksPerUs) }) :=
      h.setTrig ⟨w.params, w.newParams, by simpa [hs] using w.capture, by simpa [hs] using w.start, rfl, w.filter⟩
    dsimp only
    split
    · exact h1.minOffExpire
    · exact h1
  · exact h
  · exact h
  · exact h

theorem Kept.triggerLevel (h : Kept k s) (x : Bool) : Kept k (triggerLevel x s) := by
  have w := h.inv.trig
  have hq : s.trig.nextParams.Wf := by
    unfold Qualifier.nextParams
    cases e : s.trig.newParams with
    | none => exact w.params
    | some q => exact w.newParams q e
  have h1 : Kept k (s.setTrig { s.trig with params := s.trig.nextParams, newParams := none, input := s.trig.input.take x }) :=
    h.setTrig ⟨hq, by simp, w.capture, w.start, w.timer, take_progress w.filter x⟩
  unfold Machine.triggerLevel
  dsimp only
  split
  · exact h1.goesActive
  · exact h1.goesInactive

theorem TrigParams.Wf.adjusted {q : TrigParams} (h : q.Wf) (a : TriggerArgs) : (q.adjusted a).Wf :=
  ⟨getD_map (p := fun x => 1 ≤ x ∧ x ≤ 65535) _ _ _ (clampNat_bounds (by decide)) h.minOn,
    getD_map (p := fun x => x ≤ 65535) _ _ _ (fun x => Nat.min_le_right x 65535) h.dropout,
    getD_map (p := fun x => x ≤ 65535) _ _ _ (fun x => Nat.min_le_right x 65535) h.minOff⟩

theorem Kept.newTrigParams (h : Kept k s) {q : TrigParams} (hq : q.Wf) :
    Kept k (s.setTrig { s.trig with newParams := some q }) := by
  have w := h.inv.trig
  exact h.setTrig ⟨w.params, fun r hr => by cases hr; exact hq, w.capture, w.start, w.timer, w.filter⟩

theorem Kept.cmdSetTrigger (h : Kept k s) (a : TriggerArgs) : Kept k (cmdSetTrigger a s).state := by
  exact h.unless fun _ => h.newTrigParams (h.inv.trig.params.adjusted a)

end Sys2Proof.Machine
end

