-- ==== Sys2Proof/Laws/Lanes.lean ====
section
/-!
SUPPORT. The Head Lanes keep the invariant: entries to UP, FAULTED and DOWN, negotiation, training, status, settings.
-/

namespace Sys2Proof.Machine

variable {k : Floor} {s : State}

/-! ## Entering and leaving UP -/

theorem Kept.enterFaulted (h : Kept k s) {i : Head} (hs : (s.lane i).state = .up) : Kept k (enterFaulted i s) := by
  have w := h.inv.lanes i
  have hn := w.notTraining (by rw [hs]; decide)
  unfold Machine.enterFaulted
  refine Kept.laneLeftUp (Kept.laneNotice (h.changeLane ?_) i .fault) i
  have ht : (s.lane i).timer = none := by
    cases e : (s.lane i).timer
    · rfl
    · rcases w.timer (by simp [e]) with h' | h' <;> rw [hs] at h' <;> cases h'
  exact ⟨w.settings, by simpa [hs, Lane.cutOff] using w.grade, fun _ => w.gradeSet (.inr (.inl hs)),
    by simp [Lane.cutOff, hn.1], by simp [Lane.cutOff, hn.2], w.band, w.badCount, w.faultCode, by simp, by simp,
    by simp [Lane.cutOff, ht], by simp [Lane.cutOff], w.pulse, w.filters⟩

theorem Lane.Wf.raised {l : Lane} (h : l.Wf) (hs : l.state = .training ∨ l.state = .faulted) : l.raised.Wf := by
  have hg : l.grade.isSome = true := h.grade.2 (hs.imp id .inr)
  have hset : l.gradeSet.isSome = true := h.gradeSet (hs.imp id .inr)
  exact ⟨h.settings, by simpa [Lane.raised] using hg, fun _ => hset, by simp [Lane.raised], by simp [Lane.raised],
    by simp [Lane.raised], by simp [Lane.raised], h.faultCode, by simp [Lane.raised], by simp [Lane.raised],
    by simp [Lane.raised], h.waiting, h.pulse, h.filters⟩

theorem send_state (l : Lane) (r : LaneRecord) : (l.send r).state = l.state := by
  unfold Lane.send; split <;> rfl

theorem startPreload_state (i j : Head) (x : HeadRec) (c : Cursor) {t : State} (h : startPreload i x c s = some t) :
    (t.lane j).state = (s.lane j).state := by
  unfold startPreload at h
  split at h
  · cases h
  · split at h
    · cases h
    · simp only [Option.some.injEq] at h
      have hp : ∀ (p : Plane) (x : PlaneStore) (u : State), (putPlane p x u).lane j = u.lane j := fun p x u => by
        unfold putPlane; split
        · rfl
        · exact (quiet_setFlowPending _).lane j
      have ht : (takeOf i c true s).lane j = s.lane j := by
        unfold takeOf; split
        · rfl
        · exact hp _ _ _
      subst h
      simp only [State.setHead_lane]
      unfold changeLane
      rw [State.setLane_lane_if]
      split
      · rename_i e
        subst e
        rw [← ht]
        exact send_state _ _
      · rw [ht]

theorem tryPreload_state (i j : Head) (s : State) : ((tryPreload i s).lane j).state = (s.lane j).state := by
  unfold tryPreload
  split
  · cases h : startPreload i (s.head i) _ s with
    | none => rfl
    | some t => exact startPreload_state _ _ _ _ h
  · rfl

theorem Kept.enterUp (h : Kept k s) {i : Head} {r : LaneReason}
    (hs : (s.lane i).state = .training ∨ (s.lane i).state = .faulted) : Kept k (enterUp i r s) := by
  have h1 := Kept.tryPreload (Kept.laneNotice (h.changeLane ((h.inv.lanes i).raised hs)) i r) i
  unfold Machine.enterUp
  dsimp only
  split
  · refine h1.enterFaulted ?_
    rw [tryPreload_state, (quiet_laneNotice i r _).lane, changeLane_lane]
    rfl
  · exact h1

/-! ## Negotiation and training -/

theorem trialOf_ne (set : List Grade) (c : Option Grade) : trialOf set c ≠ [] := by
  have key : ∀ l : List Grade, (if l.isEmpty = true then [Grade.a] else l) ≠ [] := fun l => by cases l <;> simp
  exact key _

theorem Lane.Wf.trying {l : Lane} (h : l.Wf) (hs : l.state = .training) {t : List Grade} (ht : t ≠ []) :
    (l.tryGrade t).Wf := by
  have hg : l.gradeSet.isSome = true := h.gradeSet (.inl hs)
  have hu := h.notUp (by rw [hs]; decide)
  refine Lane.Wf.send ?_ _
  refine ⟨h.settings, ?_, fun _ => hg, ⟨hs, rfl⟩, ⟨hs, Nat.zero_le _⟩, h.band, h.badCount, h.faultCode,
    by simp [hu.1], by simp [hu.2], by simp, h.waiting, h.pulse, h.filters⟩
  cases t with
  | nil => exact absurd rfl ht
  | cons g t => simp [hs]

/-- A change of a lane in TRAINING to another grade, whatever its training items stood at. -/
theorem Kept.takeCaps (h : Kept k s) {i : Head} {m : List Grade} (hs : (s.lane i).state = .negotiating) :
    Kept k (takeCaps i m s) := by
  have w := h.inv.lanes i
  have hu := w.notUp (by rw [hs]; decide)
  refine Kept.laneNotice (h.changeLane ?_) i .caps
  dsimp only
  have hne := trialOf_ne (gradeSetOf (s.lane i).settings.mask m) (s.lane i).ceiling
  refine Lane.Wf.send ?_ _
  refine ⟨w.settings, ?_, fun _ => rfl, ⟨rfl, rfl⟩, ⟨rfl, Nat.zero_le _⟩, w.band, w.badCount, w.faultCode,
    by simp [hu.1], by simp [hu.2], by simp, w.waiting, w.pulse, w.filters⟩
  generalize trialOf (gradeSetOf (s.lane i).settings.mask m) (s.lane i).ceiling = t at hne
  cases t with
  | nil => exact absurd rfl hne
  | cons g t => simp

theorem Kept.gradeFails (h : Kept k s) {i : Head} (hs : (s.lane i).state = .training) : Kept k (gradeFails i s) := by
  unfold Machine.gradeFails
  split
  · exact h.failDown (by rw [hs]; decide)
  · exact h.changeLane ((h.inv.lanes i).trying hs (by simp))

theorem Kept.echoMatches (h : Kept k s) {i : Head} (hs : (s.lane i).state = .training) : Kept k (echoMatches i s) := by
  have w := h.inv.lanes i
  unfold Machine.echoMatches
  dsimp only
  split
  · rename_i hp
    refine h.changeLane (Lane.Wf.send ?_ _)
    refine ⟨w.settings, w.grade, w.gradeSet, w.trial, ⟨hs, by omega⟩, w.band, w.badCount, w.faultCode, w.downshift,
      w.status, by simp, w.waiting, w.pulse, w.filters⟩
  · exact h.enterUp (.inl hs)

theorem Kept.takeEcho (h : Kept k s) (i : Head) (body : List Byte) : Kept k (takeEcho i body s) := by
  unfold Machine.takeEcho
  split
  · exact h
  · rename_i hs
    have hs' : (s.lane i).state = .training := by simpa using hs
    split
    · exact h.echoMatches hs'
    · exact h.gradeFails hs'

/-! ## Board status -/

theorem bandUp_le (bands : List Band) (t m i : Nat) (hi : i ≤ 3) (hl : bands.length ≤ 4) : bandUp bands t m i ≤ 3 := by
  induction m generalizing i with
  | zero => exact hi
  | succ m ih =>
    unfold bandUp
    split
    · split
      · rename_i hc; exact ih (i + 1) (by omega)
      · exact hi
    · exact hi

theorem bandDown_le (bands : List Band) (t y i : Nat) : bandDown bands t y i ≤ i := by
  induction i with
  | zero => exact Nat.le_refl _
  | succ i ih =>
    unfold bandDown
    split
    · split
      · omega
      · exact Nat.le_refl _
    · exact Nat.le_refl _

theorem takeWhile_lt {α : Type} (p : α → Bool) (l : List α) (x : α) (hx : l.getLast? = some x) (hp : p x = false) :
    (l.takeWhile p).length < l.length := by
  induction l with
  | nil => cases hx
  | cons a l ih =>
    simp only [List.takeWhile_cons]
    cases l with
    | nil =>
      simp only [List.getLast?_singleton, Option.some.injEq] at hx
      subst hx; simp [hp]
    | cons c l =>
      rw [List.getLast?_cons_cons] at hx
      split
      · have := ih hx; simp only [List.length_cons] at this ⊢; omega
      · simp

theorem moveBand_le {bands : List Band} (hl : bands.length ≤ 4) (hb : bands.getLast?.map Band.bound = some 255)
    {t : Nat} (ht : t ≤ 255) (y : Nat) (i : Option Nat) : moveBand bands t y i ≤ 3 := by
  obtain ⟨z, hz, hz'⟩ := Option.map_eq_some_iff.1 hb
  unfold moveBand
  split
  · have := takeWhile_lt (fun x : Band => decide (x.bound < t)) bands z hz (by simp [hz']; omega)
    omega
  · rename_i j
    dsimp only
    split
    · exact bandUp_le _ _ _ _ (by omega) hl
    · have := bandDown_le bands t y (min j (bands.length - 1)); omega

theorem Lane.Wf.band_set {l : Lane} (h : l.Wf) {j : Nat} (hj : j ≤ 3) {e : Option Nat}
    (he : e.isSome = true → l.state = .up) : { l with band := some j, status := e : Lane }.Wf :=
  ⟨h.settings, h.grade, h.gradeSet, h.trial, h.progress, fun x hx => by cases hx; exact hj, h.badCount, h.faultCode,
    h.downshift, he, h.timer, h.waiting, h.pulse, h.filters⟩

theorem Kept.takeCode (h : Kept k s) (i : Head) {c : Nat} (hc : c ≤ 15) : Kept k (takeCode i c s) := by
  unfold Machine.takeCode
  dsimp only
  have key : ∀ t, Kept k t → Kept k (Machine.changeLane i (fun l => { l with faultCode := some c }) t) := fun t ht => by
    have w := ht.inv.lanes i
    exact ht.changeLane ⟨w.settings, w.grade, w.gradeSet, w.trial, w.progress, w.band, w.badCount,
      fun x hx => by cases hx; exact hc, w.downshift, w.status, w.timer, w.waiting, w.pulse, w.filters⟩
  have key2 : ∀ d : Bool, Kept k (if d = true then Machine.submit (.boardCode i (s.lane i).faultCode c) s else s) := fun d => by
    cases d
    · exact h
    · exact h.submit _
  exact key _ (key2 _)

theorem Kept.takeCount (h : Kept k s) (i : Head) {c : Nat} (hc : c ≤ 65535) : Kept k (takeCount i c s) := by
  have w := h.inv.lanes i
  have h1 : Kept k (s.setLane i { s.lane i with badCount := some c }) :=
    h.setLane ⟨w.settings, w.grade, w.gradeSet, w.trial, w.progress, w.band, fun x hx => by cases hx; exact hc,
      w.faultCode, w.downshift, w.status, w.timer, w.waiting, w.pulse, w.filters⟩
  unfold Machine.takeCount
  dsimp only
  split
  · exact h1
  · rename_i old hold
    split
    · have h2 := h1.submitCondition (.degraded i) (.degraded i ((c + 65536 - old) % 65536) (s.lane i).grade)
      have hl : (Machine.submitCondition (.degraded i) (.degraded i ((c + 65536 - old) % 65536) (s.lane i).grade)
          (s.setLane i { s.lane i with badCount := some c })).lane i = { s.lane i with badCount := some c } := by
        rw [(quiet_submitCondition _ _ _).lane, State.setLane_lane]
      split
      · rename_i hd
        refine h2.changeLane ?_
        have v := h2.inv.lanes i
        rw [hl] at v ⊢
        exact ⟨v.settings, v.grade, v.gradeSet, v.trial, v.progress, v.band, v.badCount, v.faultCode,
          fun _ => ⟨hd.1, hd.2.1⟩, v.status, v.timer, v.waiting, v.pulse, v.filters⟩
      · exact h2
    · exact h1

theorem leNat_lt (bs : List Byte) : leNat bs < 256 ^ bs.length := by
  induction bs with
  | nil => exact Nat.zero_lt_one
  | cons x bs ih =>
    have := x.isLt
    simp only [leNat, List.length_cons, Nat.pow_succ]
    omega

theorem leNat_take (bs : List Byte) (w : Nat) : leNat (bs.take w) < 256 ^ w :=
  Nat.lt_of_lt_of_le (leNat_lt _) (Nat.pow_le_pow_right (by decide) (List.length_take_le _ _))

theorem Kept.takeStatus (h : Kept k s) (i : Head) {t c f : Nat} (ht : t ≤ 255) (hc : c ≤ 65535) (hf : f ≤ 15) :
    Kept k (takeStatus i t c f s) := by
  have w := h.inv.lanes i
  unfold Machine.takeStatus
  dsimp only
  split
  · exact h
  · have hb := h.inv.banks.tables s.banks.active i
    refine Kept.testDownshift (Kept.takeCode (Kept.takeCount (h.setLane (w.band_set ?_ ?_)) i hc) i hf) i
    · exact moveBand_le hb.bands.1 hb.bands.2 ht _ _
    · split
      · rename_i e; exact fun _ => e
      · exact w.status

theorem Kept.boardRecord (h : Kept k s) (i : Head) (d : LaneDelivery) : Kept k (boardRecord i d s) := by
  unfold Machine.boardRecord
  split
  · split
    · rename_i hs; exact h.takeCaps hs
    · exact h
  · exact h.takeEcho i _
  · rename_i t c f hd
    unfold LaneDelivery.read at hd
    dsimp only at hd
    split_ifs at hd <;> simp only [BoardRecord.status.injEq] at hd
    all_goals
      obtain ⟨rfl, rfl, rfl⟩ := hd
      refine h.takeStatus i ?_ ?_ ?_
      · have := leNat_take (d.bytes.drop 1) 1; omega
      · have := leNat_take (d.bytes.drop 2) 2; omega
      · omega
  · split
    · rename_i hs; exact h.gradeFails hs
    · exact h
  · exact h

/-! ## Ends, timers and sidebands -/

theorem Lane.Wf.statusOff {l : Lane} (h : l.Wf) : { l with status := none : Lane }.Wf :=
  ⟨h.settings, h.grade, h.gradeSet, h.trial, h.progress, h.band, h.badCount, h.faultCode, h.downshift, by simp, h.timer,
    h.waiting, h.pulse, h.filters⟩

theorem Kept.statusExpire (h : Kept k s) (i : Head) : Kept k (statusExpire i s) :=
  (h.changeLane (h.inv.lanes i).statusOff).submitCondition _ _

theorem Kept.fireSent (h : Kept k s) (i : Head) : Kept k (fireSent i s) :=
  (h.changeLane (h.inv.lanes i).ended).transmissionEnded i

theorem Lane.Wf.timed {l : Lane} (h : l.Wf) (hs : l.state = .negotiating ∨ l.state = .training) (e : Option Nat) :
    { l with timer := e : Lane }.Wf :=
  ⟨h.settings, h.grade, h.gradeSet, h.trial, h.progress, h.band, h.badCount, h.faultCode, h.downshift, h.status,
    fun _ => hs, h.waiting, h.pulse, h.filters⟩

theorem Kept.capsSent (h : Kept k s) (i : Head) : Kept k (capsSent i s) := by
  have w := (h.inv.lanes i).ended
  refine h.changeLane ?_
  dsimp only
  split
  · rename_i hs; exact w.timed (.inl hs.1) _
  · exact w

theorem Kept.trainSent (h : Kept k s) (i : Head) : Kept k (trainSent i s) := by
  have w := (h.inv.lanes i).ended
  refine h.changeLane ?_
  dsimp only
  split
  · rename_i hs; exact w.timed (.inr hs.1) _
  · exact w

theorem Lane.Wf.inputs {l : Lane} (h : l.Wf) {a c : Input} (ha : a.progress ≤ l.settings.filter)
    (hc : c.progress ≤ l.settings.filter) : { l with hold := a, fault := c : Lane }.Wf :=
  ⟨h.settings, h.grade, h.gradeSet, h.trial, h.progress, h.band, h.badCount, h.faultCode, h.downshift, h.status,
    h.timer, h.waiting, h.pulse, ⟨ha, hc⟩⟩

theorem Kept.holdLevel (h : Kept k s) (i : Head) (x : Bool) : Kept k (holdLevel i x s) := by
  have w := h.inv.lanes i
  have h1 : Kept k (Machine.changeLane i (fun l => { l with hold := l.hold.take x }) s) :=
    h.changeLane (w.inputs (take_progress w.filters.1 x) w.filters.2)
  unfold Machine.holdLevel
  dsimp only
  split
  · exact h1.tryPreload i
  · exact h1

theorem Kept.faultLevel (h : Kept k s) (i : Head) (x : Bool) : Kept k (faultLevel i x s) := by
  have w := h.inv.lanes i
  have h1 : Kept k (Machine.changeLane i (fun l => { l with fault := l.fault.take x }) s) :=
    h.changeLane (w.inputs w.filters.1 (take_progress w.filters.2 x))
  unfold Machine.faultLevel
  dsimp only
  split
  · rename_i hc
    simp only [Bool.and_eq_true, beq_iff_eq] at hc
    exact h1.enterFaulted hc.2
  · exact h1

/-! ## Settings and commands -/

theorem roundSideFilter_mem (x : Nat) : roundSideFilter x ∈ [0, 4, 8, 16] := by
  unfold roundSideFilter
  repeat' split
  all_goals simp

theorem LaneSettings.Wf.adjusted {q : LaneSettings} (h : q.Wf) (m : Option (List Grade)) (d : Option Bool) (a : LaneArgs) :
    (q.adjusted m d a).Wf :=
  ⟨getD_map (p := fun x => 1 ≤ x ∧ x ≤ 16) _ _ _ (clampNat_bounds (by decide)) h.pulse,
    getD_map (p := fun x => x ∈ [0, 4, 8, 16]) _ _ _ roundSideFilter_mem h.filter,
    getD_map (p := fun x => x ≤ 255) _ _ _ (fun x => Nat.min_le_right x 255) h.degrade,
    getD_map (p := fun x => 1 ≤ x ∧ x ≤ 255) _ _ _ (clampNat_bounds (by decide)) h.timeout,
    getD_map (p := fun x => x ≤ 7) _ _ _ (fun x => Nat.min_le_right x 7) h.hyst⟩

theorem Lane.Wf.withSettings {l : Lane} (h : l.Wf) {q : LaneSettings} (hq : q.Wf) : (l.withSettings q).Wf := by
  have hd : (l.downshift && q.autoDown) = true → l.state = .up ∧ q.autoDown = true := fun e => by
    simp only [Bool.and_eq_true] at e
    exact ⟨(h.downshift e.1).1, e.2⟩
  unfold Lane.withSettings
  dsimp only
  split
  · rename_i e
    exact ⟨hq, h.grade, h.gradeSet, h.trial, h.progress, h.band, h.badCount, h.faultCode, hd, h.status, h.timer,
      h.waiting, h.pulse, by
        show l.hold.progress ≤ q.filter ∧ l.fault.progress ≤ q.filter
        rw [e]; exact h.filters⟩
  · exact ⟨hq, h.grade, h.gradeSet, h.trial, h.progress, h.band, h.badCount, h.faultCode, hd, h.status, h.timer,
      h.waiting, h.pulse, ⟨Nat.zero_le _, Nat.zero_le _⟩⟩

theorem Kept.takeSettings (h : Kept k s) (i : Head) {q : LaneSettings} (hq : q.Wf) (e : Bool) :
    Kept k (takeSettings i q e s) := by
  have h1 : Kept k (Machine.changeLane i (fun l => l.withSettings q) s) := h.changeLane ((h.inv.lanes i).withSettings hq)
  unfold Machine.takeSettings
  dsimp only
  split
  · exact h1.statusExpire i
  · exact h1

theorem Kept.withHead (h : Kept k s) {n : Nat} {f : Head → State → Reply} (hf : ∀ i, Kept k (f i s).state) :
    Kept k (withHead n f s).state := by
  unfold Machine.withHead
  split
  · exact hf _
  · exact h

theorem Kept.cmdSetLane (h : Kept k s) (a : LaneArgs) : Kept k (cmdSetLane a s).state :=
  h.withHead fun i => h.unless fun _ => h.takeSettings i ((h.inv.lanes i).settings.adjusted _ _ _) _

theorem Kept.cmdLaneUp (h : Kept k s) (n : Nat) : Kept k (cmdLaneUp n s).state := by
  refine h.withHead fun i => ?_
  split
  · rename_i hs; exact h.enterNegotiating hs
  · exact h

theorem Kept.laneDown (h : Kept k s) (i : Head) : Kept k (laneDown i s) := by
  have h1 : Kept k (Machine.changeLane i (fun l => { l.down with ceiling := none }) s) :=
    h.changeLane ((h.inv.lanes i).down.ceiling none)
  refine Kept.laneNotice ?_ i .command
  split
  · exact h1.laneLeftUp i
  · exact h1

theorem Kept.cmdLaneDown (h : Kept k s) (n : Nat) : Kept k (cmdLaneDown n s).state := by
  refine h.withHead fun i => ?_
  split
  · exact h.changeLane (f := fun l => { l with ceiling := none }) ((h.inv.lanes i).ceiling none)
  · exact h.laneDown i

theorem Kept.cmdLaneResume (h : Kept k s) (n : Nat) : Kept k (cmdLaneResume n s).state := by
  refine h.withHead fun i => ?_
  split
  · rename_i hs; exact h.enterUp (.inr hs.1)
  · exact h

theorem Kept.enabled (h : Kept k s) (i : Head) (e : Bool) : Kept k (s.setHead i { s.head i with enabled := e }) :=
  h.setHead ⟨(h.inv.heads i).cursor, (h.inv.heads i).flight⟩

theorem Kept.cmdHeadOn (h : Kept k s) (n : Nat) : Kept k (cmdHeadOn n s).state := h.withHead fun i => h.enabled i true

theorem Kept.cmdHeadOff (h : Kept k s) (n : Nat) : Kept k (cmdHeadOff n s).state :=
  h.withHead fun i => (h.enabled i false).giveUpHead i

end Sys2Proof.Machine
end

