-- ==== Sys2Proof/Laws/Link.lean ====
section
/-!
SUPPORT. The Link Port, the Table Banks and the loader keep the invariant.
-/

namespace Sys2Proof.Machine

variable {k : Floor} {s : State}

/-! ## Line frames and reception -/

theorem rulingOf_taken {next n : Nat} {x : PlaneStore} {px : List Dot}
    (h : rulingOf next x n px = .stored ∨ rulingOf next x n px = .replaced) :
    px.length = x.width ∧ x.base ≤ n ∧ n < x.base + x.depth ∧ n < next := by
  unfold rulingOf at h
  split at h
  · simp at h
  · split at h
    · simp at h
    · split at h
      · simp at h
      · split at h
        · simp at h
        · rename_i h1 h2 h3 h4
          simp only [not_or, Decidable.not_not] at h1 h3
          exact ⟨h1.2, by omega, by omega, by omega⟩

theorem Kept.lineFrame (h : Kept k s) (p : Plane) (n : Nat) (px : List Dot) : Kept k (lineFrame p n px s) := by
  have key : ∀ c, (rulingOf (s.jobs.next.get p) (s.plane p) n px = .stored ∨
      rulingOf (s.jobs.next.get p) (s.plane p) n px = .replaced) → Kept k (Machine.storeData p n px (Machine.bump c s)) := fun c hr => by
    obtain ⟨h1, h2⟩ := rulingOf_taken hr
    have q := quiet_bump c s
    exact (h.bump c).storeData (by rw [q.plane]; exact h1) (by rw [q.plane, q.jobs]; exact h2)
  unfold Machine.lineFrame
  split
  · exact (h.bump _).submitCondition _ _
  · rename_i hr; exact key _ (.inr hr)
  · rename_i hr
    dsimp only
    split
    · exact key _ (.inl hr)
    · exact (key _ (.inl hr)).lineReady _ _ _

theorem Kept.joinQueue (h : Kept k s) (hk : k.queues = none) (f : Frame) : Kept k (joinQueue f s) := by
  unfold Machine.joinQueue
  split
  · rename_i hlt
    have l := h.inv.link
    refine h.setLink ⟨?_, l.answers, l.batch, l.sending, l.busy⟩ h.inv.batch rfl fun _ e => by rw [hk] at e; cases e
    simp only [List.length_append, List.length_cons, List.length_nil]; omega
  · exact (h.bump _).submitCondition _ _

theorem Kept.receive (h : Kept k s) (hk : k.queues = none) (d : Delivery) : Kept k (receive d s) := by
  unfold Machine.receive
  split
  · exact (h.bump _).submitCondition _ _
  · have h1 := h.bump (.link .framesOk)
    unfold dispatch
    split
    · split
      · exact h1.bump _
      · exact h1.lineFrame _ _ _
    · exact h1.joinQueue hk _

theorem Kept.linkUp (h : Kept k s) (hu : s.link.up = false) : Kept k (linkUp s) := by
  have l := h.inv.link
  have q := quiet_arbitrate (s.setLink { s.link with up := true, flowPending := true })
  refine h.relink (by unfold Machine.linkUp; rw [q.rest]; rfl) ⟨?_, arbitrate_wf ⟨l.inbound, l.answers, l.batch,
    fun o ho => ?_⟩, ?_⟩ q.loader fun _ _ => by rw [show (Machine.linkUp s).link.answers = _ from q.answers, show (Machine.linkUp s).link.inbound = _ from q.inbound]; rfl
  · unfold Machine.linkUp; simpa using h.inv.notices
  · have := (l.sending o ho).1; rw [hu] at this; cases this
  · unfold Machine.linkUp; simpa using h.inv.batch

theorem Kept.linkDown (h : Kept k s) : Kept k (linkDown s) := by
  have l := h.inv.link
  exact Kept.submitCondition (h.setLink (x := { s.link with up := false, outbound := none })
    ⟨l.inbound, l.answers, l.batch, by simp, by simp⟩ h.inv.batch rfl fun _ _ => rfl) _ _

theorem Kept.outboundDone (h : Kept k s) {o : Outbound} (hk : k.queues = none) : Kept k (outboundDone o s) := by
  have l := h.inv.link
  have ha : ∀ l, k.queues = some l → False := fun l e => by rw [hk] at e; cases e
  have hop : ({ s.link with outbound := none } : LinkPort).Open := ⟨l.inbound, l.answers, l.batch, by simp⟩
  unfold Machine.outboundDone
  dsimp only
  split
  · have q := quiet_arbitrate (s.setLink { s.link with outbound := none })
    exact h.relink (by rw [q.rest]; rfl) ⟨by simpa using h.inv.notices, arbitrate_wf hop, by simpa using h.inv.batch⟩
      q.loader fun l e => (ha l e).elim
  · have q := quiet_arbitrate ((s.setLink { s.link with outbound := none }).setLink
      { (s.setLink { s.link with outbound := none }).link with
        answers := (s.setLink { s.link with outbound := none }).link.answers.drop 1 })
    refine h.relink (by rw [q.rest]; rfl) ⟨by simpa using h.inv.notices, arbitrate_wf ⟨l.inbound, ?_, l.batch, by simp⟩,
      by simpa using h.inv.batch⟩ q.loader fun l e => (ha l e).elim
    exact Nat.le_trans (List.drop_sublist 1 _).length_le l.answers
  · have hn := h.inv.notices
    generalize hs' : (s.setLink { s.link with outbound := none }).setLink
      { (s.setLink { s.link with outbound := none }).link with batch := none } = s'
    have hlink : s'.link.Open := by
      subst hs'; exact ⟨l.inbound, l.answers, (fun b e => by cases e), by simp⟩
    have hu : (if s.notices.queue.isEmpty then { s.notices with batchWaiting := false }
        else { s.notices with batchWaiting := false : NoticeUnit }.startIdle).Loose := by
      have hl : ({ s.notices with batchWaiting := false } : NoticeUnit).Loose :=
        ⟨hn.queue, hn.lost, hn.level, hn.idle, hn.idleTimer, hn.releaseDue, hn.counters⟩
      split
      · exact hl
      · rename_i he; exact startIdle_loose hl (by simpa using he)
    have hnot : s'.notices = s.notices := by subst hs'; rfl
    have q1 := quiet_batchDone s'
    have q2 := quiet_arbitrate (batchDone s')
    have q := q1.trans q2
    have hb : s'.link.batch = none := by subst hs'; rfl
    have hopen := testRelease_open (s := s'.setNotices (if s'.notices.queue.isEmpty then { s'.notices with batchWaiting := false }
        else { s'.notices with batchWaiting := false : NoticeUnit }.startIdle)) (by rw [hnot]; exact hu) hlink (by
      show (if s'.notices.queue.isEmpty then { s'.notices with batchWaiting := false }
        else { s'.notices with batchWaiting := false : NoticeUnit }.startIdle).batchWaiting = s'.link.batch.isSome
      rw [hb]; split <;> rfl)
    change (batchDone s').notices.Wf ∧ (batchDone s').link.Open ∧
      (batchDone s').notices.batchWaiting = (batchDone s').link.batch.isSome at hopen
    refine h.relink (by rw [q.rest]; subst hs'; rfl) ⟨by simpa using hopen.1, arbitrate_wf hopen.2.1,
      by simpa using hopen.2.2⟩ (q.loader.trans (by subst hs'; rfl)) fun l e => (ha l e).elim

/-! ## Banks -/

@[simp] theorem setTables_tables (x : Banks) (i j : BankId) (t : Tables) :
    (x.setTables i t).tables j = if j = i then t else x.tables j := by
  simp only [Banks.setTables, Banks.setBank, Banks.tables, get_put_if]
  split <;> rfl

@[simp] theorem setTables_bound (x : Banks) (i j : BankId) (t : Tables) : (x.setTables i t).bound j = x.bound j := by
  simp only [Banks.setTables, Banks.setBank, Banks.bound, get_put_if]
  split
  · rename_i e; rw [e]
  · rfl

theorem Banks.Wf.setTables {x : Banks} {l : List JobRec} (h : x.Wf l) (i : BankId) {t : Tables}
    (ht : ∀ c, (t.head c).Wf) : (x.setTables i t).Wf l := by
  refine ⟨fun j c => ?_, fun j => by rw [setTables_bound]; exact h.bound j, ?_⟩
  · rw [setTables_tables]
    split
    · exact ht c
    · exact h.tables j c
  · have hl := h.law
    show match x.other with
      | .draining => 0 < (x.setTables i t).bound x.otherId
      | .shadow | .copying _ => (x.setTables i t).bound x.otherId = 0
    rw [setTables_bound]; exact hl

theorem closeBands_length (l : List Band) : (closeBands l).length = l.length := by
  induction l with
  | nil => rfl
  | cons a l ih =>
    cases l with
    | nil => rfl
    | cons b l => simp only [closeBands, List.length_cons] at ih ⊢; omega

theorem closeBands_last {l : List Band} (h : l ≠ []) : (closeBands l).getLast?.map Band.bound = some 255 := by
  induction l with
  | nil => exact absurd rfl h
  | cons a l ih =>
    cases l with
    | nil => rfl
    | cons b l =>
      have := ih (by simp)
      simp only [closeBands]
      have hne : closeBands (b :: l) ≠ [] := by
        intro e; have := closeBands_length (b :: l); rw [e] at this; simp at this
      obtain ⟨c, m, hm⟩ := List.exists_cons_of_ne_nil hne
      rw [hm] at this ⊢
      rw [List.getLast?_cons_cons]; exact this

theorem closeBands_waveform {l : List Band} (h : ∀ b ∈ l, b.waveform ≤ 15) : ∀ b ∈ closeBands l, b.waveform ≤ 15 := by
  induction l with
  | nil => simp [closeBands]
  | cons a l ih =>
    cases l with
    | nil => intro b hb; simp only [closeBands, List.mem_singleton] at hb; subst hb; exact h a (by simp)
    | cons c l =>
      intro b hb
      simp only [closeBands, List.mem_cons] at hb
      rcases hb with hb | hb
      · subst hb; exact h b (by simp)
      · exact ih (fun x hx => h x (List.mem_cons_of_mem _ hx)) b hb

theorem sparseWriteRun_lt {α : Type} [DecidableEq α] {d : α} (vs : List α) {m : Sparse α} {i n : Nat}
    (hm : ∀ e ∈ m, e.1 < n) (hi : i + vs.length ≤ n) : ∀ e ∈ sparseWriteRun d m i vs, e.1 < n := by
  induction vs generalizing m i with
  | nil => exact hm
  | cons v vs ih =>
    simp only [List.length_cons] at hi
    refine ih (fun e he => ?_) (by omega)
    rcases sparseWrite_mem he with he | he
    · subst he; show i < n; omega
    · exact hm e he

theorem sparseOfList_lt {α : Type} [DecidableEq α] {d : α} (vs : List α) (i : Nat) :
    ∀ e ∈ sparseOfList d i vs, e.1 < i + vs.length := by
  induction vs generalizing i with
  | nil => simp [sparseOfList]
  | cons v vs ih =>
    intro e he
    simp only [sparseOfList] at he
    have key : e ∈ sparseOfList d (i + 1) vs → e.1 < i + (v :: vs).length := fun h => by
      have := ih (i + 1) e h; simp only [List.length_cons]; omega
    split at he
    · exact key he
    · rcases List.mem_cons.1 he with he | he
      · subst he; simp
      · exact key he

theorem HeadTables.Wf.write {t : HeadTables} (h : t.Wf) {y : TableBody} (hy : bodyInRange y = true) : (writeHead y t).Wf := by
  cases y with
  | nozzleRange f es =>
    simp only [bodyInRange, Bool.and_eq_true, decide_eq_true_eq] at hy
    refine ⟨⟨sparseWriteRun_wf _ _ h.map.1, sparseWriteRun_lt _ h.map.2 ?_⟩, h.nozzles, h.bands, h.waveforms⟩
    simp only [List.length_map, Config.mapEntries]; omega
  | geometry p n o r =>
    simp only [bodyInRange, decide_eq_true_eq] at hy
    exact ⟨h.map, ⟨hy.2.1, hy.2.2.1, hy.2.2.2.1⟩, h.bands, h.waveforms⟩
  | bands l =>
    simp only [bodyInRange, Bool.and_eq_true, decide_eq_true_eq, List.all_eq_true] at hy
    refine ⟨h.map, h.nozzles, ⟨?_, closeBands_last ?_⟩, closeBands_waveform ?_⟩
    · show (closeBands _).length ≤ 4
      rw [closeBands_length, List.length_map]; exact hy.1.2
    · intro e
      have := congrArg List.length e
      simp only [List.length_map, List.length_nil] at this
      omega
    · intro b hb
      obtain ⟨x, hx, rfl⟩ := List.mem_map.1 hb
      exact (hy.2 x hx).2
  | dropMap a b c d => exact h

theorem Tables.write_wf {t : Tables} (h : ∀ c, (t.head c).Wf) (target : Target) {y : TableBody} (hy : bodyInRange y = true)
    (c : Head) : ((t.write target y).head c).Wf := by
  unfold Tables.write
  split
  · split <;> exact h c
  · exact h c
  · simp only [Tables.head, get_mapAll]
    split
    · exact (h c).write hy
    · exact h c

theorem HeadTables.default_wf : HeadTables.default.Wf :=
  ⟨⟨⟨List.Pairwise.nil, by simp [HeadTables.default]⟩, by simp [HeadTables.default]⟩,
    by simp [HeadTables.default], by decide, by decide⟩

theorem adjustNozzles_range (n : Nat) : 64 ≤ adjustNozzles n ∧ adjustNozzles n ≤ 2048 ∧ adjustNozzles n % 64 = 0 := by
  unfold adjustNozzles clampNat; omega

/-- The layout gives every head of an image its entries and four bands. -/
def ImageHead.Full (i : ImageHead) : Prop := i.entries.length = Config.mapEntries ∧ i.bands.length = 4

theorem ImageHead.tables_wf {i : ImageHead} (h : i.Full) : i.tables.Wf := by
  refine ⟨⟨sparseOfList_wf _ _, fun e he => ?_⟩, adjustNozzles_range _, ?_, ?_⟩
  · have := sparseOfList_lt _ _ e he
    simpa [h.1] using this
  · by_cases hc : 1 ≤ i.bandCount ∧ i.bandCount ≤ 4
    · have e : i.tables.bands =
          closeBands ((i.bands.take i.bandCount).map fun x => { bound := x.1, waveform := imageWaveformId x.2 }) := if_pos hc
      rw [e, closeBands_length]
      refine ⟨?_, closeBands_last ?_⟩
      · simp only [List.length_map, List.length_take]; omega
      · intro e
        have := congrArg List.length e
        simp only [List.length_map, List.length_take, List.length_nil, h.2] at this
        omega
    · have e : i.tables.bands = defaultBands := if_neg hc
      rw [e]; exact ⟨by decide, by decide⟩
  · by_cases hc : 1 ≤ i.bandCount ∧ i.bandCount ≤ 4
    · have e : i.tables.bands =
          closeBands ((i.bands.take i.bandCount).map fun x => { bound := x.1, waveform := imageWaveformId x.2 }) := if_pos hc
      rw [e]
      refine closeBands_waveform fun b hb => ?_
      obtain ⟨x, -, rfl⟩ := List.mem_map.1 hb
      show imageWaveformId x.2 ≤ 15
      unfold imageWaveformId
      split
      · omega
      · have := (Config.imageWaveform x.2).isLt; omega
    · have e : i.tables.bands = defaultBands := if_neg hc
      rw [e]; decide

theorem Image.tables_wf {i : Image} (h : ∀ x ∈ i.heads, x.Full) (c : Head) : (i.tables.head c).Wf := by
  have e : i.tables.head c = match i.heads[c.val]? with
      | some x => x.tables
      | none => HeadTables.default := get_ofFn _ _
  rw [e]
  split
  · rename_i x hx; exact ImageHead.tables_wf (h x (List.mem_of_getElem? hx))
  · exact HeadTables.default_wf

theorem readMany_spec {α : Type} {p : α → Prop} {read : List Byte → Option (α × List Byte)}
    (hp : ∀ bs r, read bs = some r → p r.1) (n : Nat) (bs : List Byte) (r : List α × List Byte)
    (h : readMany read n bs = some r) : r.1.length = n ∧ ∀ x ∈ r.1, p x := by
  induction n generalizing bs r with
  | zero => cases h; simp
  | succ n ih =>
    unfold readMany at h
    split at h
    · cases h
    · rename_i x bs' hx
      split at h
      · cases h
      · rename_i xs bs'' hxs
        cases h
        have := ih _ _ hxs
        refine ⟨by simpa using this.1, fun y hy => ?_⟩
        rcases List.mem_cons.1 hy with hy | hy
        · subst hy; exact hp _ _ hx
        · exact this.2 y hy

theorem readImageHead_full {bs : List Byte} {r : ImageHead × List Byte} (h : readImageHead bs = some r) : r.1.Full := by
  unfold readImageHead at h
  simp only [Option.bind_eq_bind, Option.bind_eq_some_iff] at h
  obtain ⟨⟨p, b1⟩, -, ⟨n, b2⟩, -, ⟨o, b3⟩, -, ⟨f, b4⟩, -, ⟨es, b5⟩, h5, ⟨bc, b6⟩, -, ⟨bands, b7⟩, h7, h8⟩ := h
  cases h8
  exact ⟨(readMany_spec (p := fun _ => True) (fun _ _ _ => trivial) _ _ _ h5).1,
    (readMany_spec (p := fun _ => True) (fun _ _ _ => trivial) _ _ _ h7).1⟩

theorem readImage_full {bs : List Byte} {i : Image} (h : readImage bs = some i) : ∀ x ∈ i.heads, x.Full := by
  unfold readImage at h
  simp only [Option.bind_eq_bind, Option.bind_eq_some_iff] at h
  obtain ⟨⟨m, b1⟩, -, ⟨l, b2⟩, -, ⟨d, b3⟩, -, ⟨pl, b4⟩, -, ⟨dr, b5⟩, -, ⟨hs, b6⟩, h6, ⟨po, b7⟩, -, ⟨tr, b8⟩, -,
    ⟨la, b9⟩, -, h10⟩ := h
  cases h10
  exact (readMany_spec (fun _ _ hr => readImageHead_full hr) _ _ _ h6).2

theorem loadImage_full {bs : List Byte} {i : Image} (h : loadImage bs = .ok i) : ∀ x ∈ i.heads, x.Full := by
  unfold loadImage at h
  dsimp only at h
  split at h
  · cases h
  · split at h
    · cases h
    · split at h
      · cases h
      · split at h
        · cases h
        · rename_i j hj
          cases h; exact readImage_full hj

theorem loadBanks_wf {t : Tables} (ht : ∀ c, (t.head c).Wf) {x : Banks} (ho : x.other = .shadow) :
    (loadBanks t x).Wf [] := by
  have h1 : ∀ i, (loadBanks t x).banks.get i = { tables := t, bound := 0 } := fun i => get_replicate _ _
  refine ⟨fun i c => ?_, fun i => ?_, ?_⟩
  · simp only [Banks.tables, h1]; exact ht c
  · simp only [Banks.bound, h1]; rfl
  · have : (loadBanks t x).other = .shadow := ho
    rw [this]
    simp only [Banks.bound, h1]

/-! ## The loader -/

theorem Kept.startLoading (h : Kept k s) (c : LoadCause) (hr : s.jobs.records = []) (hb : s.banks.other = .shadow) :
    Kept k (startLoading c s) := by
  have w := h.inv.ptu
  unfold Machine.startLoading Machine.enterOff
  split
  · rename_i hs
    exact h.setLoader (.inr ⟨hs, hr, hb⟩)
  · have hu : ({ s.ptu with state := .off, v := 0, stall := none, presented := s.position } : Ptu).Wf :=
      Ptu.Base.off ⟨w.params, w.measured, w.position, Nat.zero_le _, w.integrator, w.feedForward, w.periods, Nat.le_refl _,
        w.filters⟩ rfl rfl rfl
    exact Kept.ptuNotice ((h.setPtu hu (Nat.le_refl _) fun _ => rfl).setLoader (x := .loading c 0) (.inr ⟨rfl, hr, hb⟩)) _

theorem quiet_loadNotices (m : List NoticeKind) (l i : Nat) (s : State) : Quiet s (loadNotices m l i s) :=
  ((quiet_setNotices s _).trans (quiet_takeLevel l _)).trans (quiet_takeIdle i _)

theorem Kept.loadNotices (h : Kept k s) (m : List NoticeKind) (l i : Nat) : Kept k (loadNotices m l i s) :=
  h.quiet (quiet_loadNotices m l i s) (((h.inv.reported.takeMask m).takeLevel l).takeIdle i)

theorem adjusted_wf {next : Nat} {x : PlaneStore} (h : x.Wf next) (w d hi lo : Option Nat) :
    (x.adjusted w d hi lo).reformed.Wf next := by
  have hd : 16 ≤ (x.adjusted w d hi lo).depth ∧ (x.adjusted w d hi lo).depth ≤ 16384 := by
    show 16 ≤ (match d with | none => x.depth | some v => clampNat 16 16384 v) ∧
      (match d with | none => x.depth | some v => clampNat 16 16384 v) ≤ 16384
    cases d with
    | none => exact h.depth
    | some v => exact clampNat_bounds (by decide) v
  have hh : 2 ≤ (x.adjusted w d hi lo).high ∧ (x.adjusted w d hi lo).high ≤ (x.adjusted w d hi lo).depth :=
    clampNat_bounds (lo := 2) (hi := (x.adjusted w d hi lo).depth) (by omega) (hi.getD x.high)
  have hl : 1 ≤ (x.adjusted w d hi lo).low ∧ (x.adjusted w d hi lo).low ≤ (x.adjusted w d hi lo).high - 1 :=
    clampNat_bounds (lo := 1) (hi := (x.adjusted w d hi lo).high - 1) (by omega) (lo.getD x.low)
  have hw : (x.adjusted w d hi lo).width % 64 = 0 ∧ (x.adjusted w d hi lo).width ≤ 16384 := by
    cases w with
    | none => exact h.width
    | some v =>
      have e : (x.adjusted (some v) d hi lo).width = clampNat 0 16384 (v / 64 * 64) := rfl
      rw [e]; unfold clampNat; omega
  exact ⟨⟨List.Pairwise.nil, by simp [PlaneStore.reformed]⟩, hw, hd, ⟨hl.1, by show _ < _; simp only [PlaneStore.reformed]; omega, hh.2⟩,
    h.base, by simp [PlaneStore.reformed], by simp [PlaneStore.reformed]⟩

theorem loadPlanes_wf {v : Vector PlaneStore 4} {next : Vector Nat 4} (h : ∀ p, (v.get p).Wf (next.get p))
    (args : List PlaneArgs) :
    (∀ p, ((loadPlanes args v).get p).Wf (next.get p)) ∧ depthSum (loadPlanes args v) ≤ Config.storeDepth := by
  unfold loadPlanes
  dsimp only
  split
  · rename_i hc
    exact ⟨fun p => by rw [get_mapAll]; exact adjusted_wf (h p) _ _ _ _, hc⟩
  · refine ⟨fun p => by rw [get_mapAll]; exact adjusted_wf (h p) _ _ _ _, ?_⟩
    have hd : ∀ p : Plane, ((mapAll (fun p x => loadPlane { args.getD p.val defaultPlaneArgs with depth := some Config.defaultDepth } x) v).get p).depth = 8192 :=
      fun p => by rw [get_mapAll]; rfl
    unfold depthSum
    rw [show (allPlanes.map fun p => ((mapAll (fun p x => loadPlane { args.getD p.val defaultPlaneArgs with depth := some Config.defaultDepth } x) v).get p).depth) =
      allPlanes.map fun _ => 8192 from List.map_congr_left fun p _ => hd p]
    decide

theorem Kept.loadTables (h : Kept k s) (hl : s.loading = true) {t : Tables} (ht : ∀ c, (t.head c).Wf) :
    Kept k (loadTables t s) := by
  obtain ⟨-, hr, ho⟩ := h.inv.loading hl
  exact h.setBanks (by rw [hr]; exact loadBanks_wf ht ho) fun _ => ho

theorem PtuParams.Wf.inverted {q : PtuParams} (h : q.Wf) (x : Bool) : { q with invert := x : PtuParams }.Wf :=
  ⟨h.ratio, h.exponent, h.filter, h.gains, h.ilim, h.vmax, h.slip, h.stall⟩

theorem Kept.loadPosition (h : Kept k s) (hl : s.loading = true) (a : PositionArgs) : Kept k (loadPosition a s) := by
  have ho := (h.inv.loading hl).1
  unfold Machine.loadPosition
  dsimp only
  have hr : ∀ r, (some (match a.lineRatio with | some r => if ratioOk r = true then r else 65536 | none => 65536)) = some r →
      ratioOk r = true := by
    intro r hr
    simp only [Option.some.injEq] at hr
    subst hr
    split
    · split
      · assumption
      · decide
    · decide
  have hq := h.inv.ptu.params.adjusted (a := { a with lineRatio := some (match a.lineRatio with
    | some r => if ratioOk r = true then r else 65536
    | none => 65536) }) hr
  refine Kept.takeParams h (hq.inverted _)
    (fun e => ?_) (fun e => ?_) (.inl ho)
  · simp [PtuParams.adjusted, e]
  · simp [PtuParams.adjusted, e]

theorem Kept.loadLane (h : Kept k s) (i : Head) {q : LaneSettings} (hq : q.Wf) (e : Bool) : Kept k (loadLane i q e s) := by
  have h1 := h.takeSettings i hq true
  have h2 : Kept k (Machine.changeLane i (fun l => { l with enable := e }) (Machine.takeSettings i q true s)) := by
    have w := h1.inv.lanes i
    exact h1.changeLane (f := fun l => { l with enable := e }) ⟨w.settings, w.grade, w.gradeSet, w.trial, w.progress, w.band,
      w.badCount, w.faultCode, w.downshift, w.status, w.timer, w.waiting, w.pulse, w.filters⟩
  unfold Machine.loadLane
  dsimp only
  split
  · rename_i hs; exact h2.enterNegotiating hs.1
  · exact h2

theorem Kept.finishLoading (h : Kept k s) (w : Option DefaultReason) (c : Option Failure) :
    Kept k (finishLoading w c s) := by
  unfold Machine.finishLoading
  split
  · exact h
  · dsimp only
    have h1 : ∀ t, Kept k t → Kept k (match w with
        | some r => Machine.submitCondition .configDefaulted (.configDefaulted r) t
        | none => t) := fun t ht => by
      cases w
      · exact ht
      · exact ht.submitCondition _ _
    exact Kept.setLoader ((h1 s h).submit _) (.inl rfl)

theorem LaneSettings.default_wf : LaneSettings.default.Wf := ⟨by decide, by decide, by decide, by decide, by decide⟩

theorem TrigParams.default_wf : TrigParams.default.Wf := ⟨by decide, by decide, by decide⟩

/-- Steps 2 to 5 of R171. -/
theorem Kept.loadBlocks (h : Kept k s) (hl : s.loading = true) (args : List PlaneArgs) {t : Tables}
    (ht : ∀ c, (t.head c).Wf) (a : PositionArgs) {q : TrigParams} (hq : q.Wf) :
    Kept k (loadTrigger q (Machine.loadPosition a (Machine.loadTables t (s.setStore (loadPlanes args s.store))))) := by
  have hp := loadPlanes_wf h.inv.store args
  exact (((h.setStore hp.1 hp.2).loadTables hl ht).loadPosition hl a).newTrigParams hq

theorem Tables.default_wf (c : Head) : (Tables.default.head c).Wf := by
  show ((Vector.replicate 16 HeadTables.default).get c).Wf
  rw [get_replicate]; exact HeadTables.default_wf

theorem loadNotices_loading (m : List NoticeKind) (l i : Nat) (hl : s.loading = true) :
    (loadNotices m l i s).loading = true := by rw [(quiet_loadNotices m l i s).loading]; exact hl

/-- Every step of R171, whatever the sections hold. -/
theorem Kept.loadAll (h : Kept k s) (hl : s.loading = true) (m : List NoticeKind) (level idle : Nat)
    (args : List PlaneArgs) {t : Tables} (ht : ∀ c, (t.head c).Wf) (a : PositionArgs) {q : TrigParams} (hq : q.Wf)
    {f : Head → State → State} (hf : ∀ j u, Kept k u → Kept k (f j u)) (w : Option DefaultReason) (c : Option Failure) :
    Kept k (Machine.finishLoading w c (Machine.forEach allHeads f (loadTrigger q (Machine.loadPosition a (Machine.loadTables t
      ((Machine.loadNotices m level idle s).setStore (loadPlanes args (Machine.loadNotices m level idle s).store))))))) :=
  Kept.finishLoading (Kept.forEach (Kept.loadBlocks (h.loadNotices m level idle)
    (loadNotices_loading m level idle hl) args ht a hq) _ _ fun j _ u hu => hf j u hu) w c

theorem Kept.applyImage (h : Kept k s) (hl : s.loading = true) {i : Image} (hi : ∀ x ∈ i.heads, x.Full) :
    Kept k (applyImage i s) := by
  unfold Machine.applyImage
  dsimp only
  refine h.loadAll hl _ _ _ _ (Image.tables_wf hi) _ (TrigParams.default_wf.adjusted _) (fun j u hu => ?_) _ _
  split
  · exact hu.loadLane j (LaneSettings.default_wf.adjusted _ _ _) _
  · exact hu

theorem Kept.applyDefaults (h : Kept k s) (hl : s.loading = true) (w : DefaultReason) : Kept k (applyDefaults w s) := by
  unfold Machine.applyDefaults
  dsimp only
  exact h.loadAll hl _ _ _ _ Tables.default_wf _ TrigParams.default_wf
    (fun j u hu => hu.loadLane j LaneSettings.default_wf _) _ _

theorem Kept.completeLoading (h : Kept k s) {r : Except DefaultReason Image}
    (hr : ∀ i, r = .ok i → ∀ x ∈ i.heads, x.Full) : Kept k (completeLoading r s) := by
  unfold Machine.completeLoading
  split
  · rename_i hl
    split
    · exact h.applyImage hl (hr _ rfl)
    · exact h.applyDefaults hl _
  · exact h

end Sys2Proof.Machine
end

