-- ==== Sys2Proof/Laws/Commands.lean ====
section
/-!
SUPPORT. Every request that the Control Unit executes, and every event of the part, keeps the invariant.
-/

namespace Sys2Proof.Machine

variable {k : Floor} {s : State}

/-! ## Set Plane, Write Table, Commit Bank and the copy -/

theorem Kept.cmdSetPlane (h : Kept k s) (a : PlaneArgs) : Kept k (cmdSetPlane a s).state := by
  unfold Machine.cmdSetPlane
  split
  · rename_i hp
    dsimp only
    split
    · exact h
    · split
      · exact h
      · split
        · exact h
        · rename_i hd
          split
          · exact h
          · exact h.setPlane (adjusted_wf (h.inv.store ⟨a.plane, hp⟩) _ _ _ _) (by
              have e : ∀ (v : Vector PlaneStore 4) (p : Plane) (x : PlaneStore),
                  depthSum (put v p x.reformed) = depthSum (put v p x) := fun v p x => by
                unfold depthSum
                congr 1
                apply List.map_congr_left
                intro r _
                rw [get_put_if, get_put_if]
                split <;> rfl
              rw [e]; omega)
  · exact h

theorem Kept.cmdWriteTable (h : Kept k s) (a : Option WriteArgs) : Kept k (cmdWriteTable a s).state := by
  unfold Machine.cmdWriteTable
  split
  · exact h
  · split
    · exact h
    · dsimp only
      split
      · rename_i hr
        exact h.setBanks (h.inv.banks.setTables _ (Tables.write_wf (h.inv.banks.tables _) _
          (by simp only [Bool.and_eq_true] at hr; exact hr.2))) fun hl => (h.inv.loading hl).2.2
      · exact h

theorem Banks.committed_otherId (b : Banks) : (committed b).otherId = b.active := by
  have : ∀ x : BankId, (if (if x = 0 then 1 else 0 : BankId) = 0 then 1 else 0 : BankId) = x := by decide
  exact this b.active

theorem Banks.Wf.committed {l : List JobRec} {b : Banks} (h : b.Wf l) : (committed b).Wf l := by
  refine ⟨h.tables, h.bound, ?_⟩
  rw [Banks.committed_otherId]
  show match (if 0 < b.bound b.active then OtherBank.draining else .copying 0) with
    | .draining => 0 < b.bound b.active
    | .shadow | .copying _ => b.bound b.active = 0
  split <;> rename_i he <;> split at he <;> first | omega | cases he

theorem Kept.cmdCommitBank (h : Kept k s) (hl : s.loading ≠ true) : Kept k (cmdCommitBank s).state := by
  unfold Machine.cmdCommitBank
  split
  · exact h
  · split
    · exact h
    · exact h.setBanks h.inv.banks.committed fun e => absurd e hl

theorem Banks.Wf.finishCopy {l : List JobRec} {b : Banks} (h : b.Wf l) (hc : b.copyDue = true) : (finishCopy b).Wf l := by
  have hz : b.bound b.otherId = 0 := by
    have := h.law
    unfold Banks.copyDue at hc
    split at hc
    · rename_i e; rw [e] at this; exact this
    · cases hc
    · cases hc
  have w := h.setTables b.otherId (t := b.tables b.active) (h.tables b.active)
  refine ⟨w.tables, w.bound, ?_⟩
  show (b.setTables b.otherId (b.tables b.active)).bound b.otherId = 0
  rw [setTables_bound]; exact hz

/-! ## Stream Reset -/

theorem PlaneStore.Wf.cleared {next : Nat} {x : PlaneStore} (h : x.Wf next) : x.cleared.Wf 0 :=
  ⟨⟨List.Pairwise.nil, by simp [PlaneStore.cleared]⟩, h.width, h.depth, h.watermarks, Nat.le_refl _,
    by simp [PlaneStore.cleared], by simp [PlaneStore.cleared]⟩

/-- The state of R47, R70 and R152 together, from which no block can be seen half reset. -/
theorem Kept.reset (h : Kept k s) (hn : ∀ p, k.next.get p = 0) {y : Banks} (hy : y.Wf [])
    (hb : s.loading = true → y.other = .shadow) :
    Kept k ((((s.setJobs s.jobs.cleared).setBanks y).setTrig s.trig.toIdle).setStore
      (mapAll (fun _ (x : PlaneStore) => x.cleared) s.store)) := by
  obtain ⟨i, hp, hx', hnow, hq, ha⟩ := h
  have hz : ∀ p, s.jobs.cleared.next.get p = 0 := fun p => get_replicate _ p
  refine ⟨⟨i.ptu, i.trig.toIdle, ?_, fun p => ?_, ?_, i.heads, i.lanes, hy, i.notices, i.link, i.batch,
    fun e => ⟨(i.loading e).1, rfl, hb e⟩⟩, hp, fun p => ?_, hnow, hq, ha⟩
  · exact ⟨Nat.zero_le _, List.Pairwise.nil, by simp [JobQueue.cleared], List.Pairwise.nil,
      fun p => by rw [State.setStore_jobs, State.setTrig_jobs, State.setBanks_jobs, State.setJobs_jobs, hz]; exact Nat.zero_le _⟩
  · show ((mapAll (fun _ (x : PlaneStore) => x.cleared) s.store).get p).Wf (s.jobs.cleared.next.get p)
    rw [hz, get_mapAll]; exact (i.store p).cleared
  · have : depthSum (mapAll (fun _ (x : PlaneStore) => x.cleared) s.store) = depthSum s.store := by
      unfold depthSum
      simp only [get_mapAll]; rfl
    show depthSum (mapAll (fun _ (x : PlaneStore) => x.cleared) s.store) ≤ _
    rw [this]; exact i.depths
  · rw [hn p]; exact Nat.zero_le _

theorem Banks.Wf.reset {l : List JobRec} (h : s.banks.Wf l) : (resetBanks s).banks.Wf [] := by
  have e : (resetBanks s).banks = (if s.banks.other = .draining then
      { (s.banks.setBound 0 0).setBound 1 0 with other := .copying 0 } else (s.banks.setBound 0 0).setBound 1 0) := rfl
  have hb : ∀ i : BankId, ((s.banks.setBound 0 0).setBound 1 0).bound i = 0 := fun i => by
    rw [setBound_bound, setBound_bound]
    revert i; intro i
    match i with
    | 0 => rfl
    | 1 => rfl
  have ht : ∀ i c, ((((s.banks.setBound 0 0).setBound 1 0).tables i).head c).Wf := fun i c => by
    rw [setBound_tables, setBound_tables]; exact h.tables i c
  rw [e]
  split
  · exact ⟨ht, hb, hb _⟩
  · rename_i hd
    refine ⟨ht, hb, ?_⟩
    have : ((s.banks.setBound 0 0).setBound 1 0).other = s.banks.other := rfl
    rw [this]
    split
    · rename_i hd'; exact absurd hd' hd
    · exact hb _
    · exact hb _

theorem Kept.resetHeads (h : Kept k s) : Kept k (resetHeads s) := by
  refine h.setHeads fun i => ?_
  rw [get_mapAll]
  refine ⟨by simp, ?_⟩
  intro f hf
  simp only [HeadRec.discarded, Option.map_eq_some_iff] at hf
  obtain ⟨a, -, rfl⟩ := hf
  rfl

theorem Kept.streamReset (h : Kept k s) (hn : ∀ p, k.next.get p = 0) : Kept k (streamReset s) := by
  have hb : s.loading = true → (resetBanks (s.setJobs s.jobs.cleared)).banks.other = .shadow := fun hl => by
    have ho := (h.inv.loading hl).2.2
    show (if s.banks.other = .draining then
      { (s.banks.setBound 0 0).setBound 1 0 with other := .copying 0 } else (s.banks.setBound 0 0).setBound 1 0).other = _
    rw [ho]; rw [if_neg (by intro e; cases e)]; exact ho
  have h1 := h.reset hn (y := (resetBanks (s.setJobs s.jobs.cleared)).banks)
    (Banks.Wf.reset (s := s.setJobs s.jobs.cleared) h.inv.banks) hb
  have h2 : Kept k (resetStore (resetQualifier (resetBanks (s.setJobs s.jobs.cleared)))) := by
    unfold Machine.resetStore
    dsimp only
    split
    · exact h1.setFlowPending
    · exact h1
  exact h2.resetHeads.forEach _ _ fun i _ t ht => ht.testDownshift i

/-! ## The Notice Unit's commands -/

theorem Kept.reported (h : Kept k s) {f : State → State} (hq : Quiet s (f s)) (hr : Reported (f s)) : Kept k (f s) :=
  h.quiet hq hr

theorem Kept.takeMask (h : Kept k s) (m : List NoticeKind) : Kept k (takeMask m s) :=
  h.quiet (quiet_setNotices s _) (h.inv.reported.takeMask m)

theorem Kept.takeLevel (h : Kept k s) (x : Nat) : Kept k (takeLevel x s) :=
  h.quiet (quiet_takeLevel x s) (h.inv.reported.takeLevel x)

theorem Kept.takeIdle (h : Kept k s) (x : Nat) : Kept k (takeIdle x s) :=
  h.quiet (quiet_takeIdle x s) (h.inv.reported.takeIdle x)

theorem Kept.cmdSetNotices (h : Kept k s) (a : NoticesArgs) : Kept k (cmdSetNotices a s).state := by
  refine h.unless fun _ => ?_
  have h1 : Kept k (match a.mask with | some l => Machine.takeMask (kindsOf l) s | none => s) := by
    split
    · exact h.takeMask _
    · exact h
  have h2 : ∀ t, Kept k t → Kept k (match a.level with | some x => Machine.takeLevel x t | none => t) := fun t ht => by
    split
    · exact ht.takeLevel _
    · exact ht
  have h3 : ∀ t, Kept k t → Kept k (match a.idle with | some x => Machine.takeIdle x t | none => t) := fun t ht => by
    split
    · exact ht.takeIdle _
    · exact ht
  exact h3 _ (h2 _ h1)

theorem Kept.clearFlags (h : Kept k s) (l : List CondName) : Kept k (clearFlags l s) :=
  h.forEach l _ fun _ _ t ht => ht.quiet (quiet_setNotices t _) ⟨ht.inv.notices.flagged _, ht.inv.link, ht.inv.batch⟩

theorem Kept.cmdClearConditions (h : Kept k s) (a : FlagArgs) : Kept k (cmdClearConditions a s).state := by
  cases a with
  | all =>
    have w := h.clearFlags allConditions
    simpa only [Machine.cmdClearConditions, Reply.ok] using w
  | some l =>
    refine h.unless fun _ => ?_
    have w := h.clearFlags (l.filterMap condOfCodes)
    simpa only [Reply.ok] using w

theorem Kept.cmdReadCounters (h : Kept k s) (g : Nat) : Kept k (cmdReadCounters g s).state := by
  unfold Machine.cmdReadCounters
  split <;> exact h

theorem Kept.setCounters (h : Kept k s) {v : Vector Nat 146} (hv : ∀ i, v.get i ≤ Config.counterMax) :
    Kept k (s.setNotices { s.notices with counters := v }) := by
  have w := h.inv.notices
  exact h.quiet (quiet_setNotices s _) ⟨⟨w.queue, w.lost, w.level, w.idle, w.idleTimer, w.released, w.releaseDue, hv⟩,
    h.inv.link, h.inv.batch⟩

theorem Kept.cmdClearCounters (h : Kept k s) (g : Nat) : Kept k (cmdClearCounters g s).state := by
  unfold Machine.cmdClearCounters
  split
  · exact h
  · simp only [Reply.ok]
    refine h.setCounters fun i => ?_
    rw [get_mapAll]
    split
    · exact Nat.zero_le _
    · exact h.inv.notices.counters i

/-! ## The Job Queue's commands -/

theorem Kept.cmdJob (h : Kept k s) (hl : s.loading ≠ true) {f : Option JobFields}
    (hp : ∀ x, f = some x → x.planes.Nodup) : Kept k (cmdJob f s).state := by
  unfold Machine.cmdJob
  split
  · exact h
  · rename_i f
    split
    · exact h
    · rename_i hs
      refine h.unless fun hd => ?_
      dsimp only
      cases hr : jobInRange s f
      · exact h
      · refine Kept.testChain (h.append hl (by omega) (fun r hr he => ?_) hr (hp f rfl))
        rw [List.any_eq_false] at hd
        exact hd r hr (by simpa using he)

theorem Kept.cmdPrintOn (h : Kept k s) : Kept k (cmdPrintOn s).state := by
  show Kept k (if s.jobs.print then s else _)
  split
  · exact h
  · have w := h.inv.jobs
    exact Kept.testChain (h.setJobs ⟨w.size, w.ids, w.records, w.order, w.counters⟩ (fun _ => Nat.le_refl _)
      (fun _ => rfl) fun hl => (h.inv.loading hl).2.1)

theorem Kept.cmdPrintOff (h : Kept k s) : Kept k (cmdPrintOff s).state := by
  have w := h.inv.jobs
  exact h.setJobs ⟨w.size, w.ids, w.records, w.order, w.counters⟩ (fun _ => Nat.le_refl _)
    (fun _ => rfl) fun hl => (h.inv.loading hl).2.1

theorem Kept.cmdAbortJob (h : Kept k s) (id : Nat) : Kept k (cmdAbortJob id s).state := by
  unfold Machine.cmdAbortJob
  split
  · exact h
  · rename_i r hf
    have hr : r.id = id := by simpa using List.find?_some hf
    show Kept k (match r.active with | none => Machine.abortQueued r s | some a => Machine.abortActive r a s)
    split
    · rename_i ha; exact h.abortQueued (hr ▸ hf) ha
    · exact h.abortActive (hr ▸ hf) _

theorem Kept.cmdQueryJob (h : Kept k s) (id : Nat) : Kept k (cmdQueryJob id s).state := by
  unfold Machine.cmdQueryJob
  split <;> exact h

theorem Kept.cmdReadTable (h : Kept k s) (a : Option ReadArgs) : Kept k (cmdReadTable a s).state := by
  unfold Machine.cmdReadTable
  split
  · exact h
  · split
    · exact h
    · split <;> exact h

theorem Kept.cmdReloadConfig (h : Kept k s) : Kept k (cmdReloadConfig s).state := by
  unfold Machine.cmdReloadConfig
  split
  · exact h
  · split <;> exact h

/-- The loader starts only from a state with no job and a SHADOW bank (R173). -/
theorem cmdReloadConfig_reloads (hr : (cmdReloadConfig s).reloads = true) :
    s.jobs.records = [] ∧ s.banks.other = .shadow := by
  unfold cmdReloadConfig at hr
  split at hr
  · cases hr
  · rename_i h1
    split at hr
    · cases hr
    · rename_i h2
      exact ⟨by simpa using h1, by simpa using h2⟩

/-! ## A frame taken -/

theorem Kept.runRequest (h : Kept k s) (hl : s.loading ≠ true) {r : Request}
    (hp : ∀ x, r = .job (some x) → x.planes.Nodup) (hn : r = .streamReset → ∀ p, k.next.get p = 0) :
    Kept k (runRequest r s).state := by
  cases r with
  | job f => exact h.cmdJob hl fun x e => hp x (by rw [e])
  | setPosition a => exact h.cmdSetPosition a
  | positionOn => exact h.cmdPositionOn hl
  | positionOff => exact h.enterOff _
  | printOn => exact h.cmdPrintOn
  | printOff => exact h.cmdPrintOff
  | abortJob id => exact h.cmdAbortJob id
  | queryJob id => exact h.cmdQueryJob id
  | setTrigger a => exact h.cmdSetTrigger a
  | softTrigger => exact h.deliverTrigger _
  | setPlane a => exact h.cmdSetPlane a
  | streamReset =>
    have w := h.streamReset (hn rfl)
    simpa only [Machine.runRequest, Machine.cmdStreamReset, Reply.ok] using w
  | headOn n => exact h.cmdHeadOn n
  | headOff n => exact h.cmdHeadOff n
  | setLane a => exact h.cmdSetLane a
  | laneUp n => exact h.cmdLaneUp n
  | laneDown n => exact h.cmdLaneDown n
  | laneResume n => exact h.cmdLaneResume n
  | writeTable a => exact h.cmdWriteTable a
  | readTable a => exact h.cmdReadTable a
  | commitBank => exact h.cmdCommitBank hl
  | setNotices a => exact h.cmdSetNotices a
  | clearConditions a => exact h.cmdClearConditions a
  | readStatus => exact h
  | readCounters g => exact h.cmdReadCounters g
  | clearCounters g => exact h.cmdClearCounters g
  | reloadConfig => exact h.cmdReloadConfig
  | unknown c => exact h

theorem reloads_withHead (n : Nat) (f : Head → State → Reply) (hf : ∀ i t, (f i t).reloads = false) :
    (withHead n f s).reloads = false := by
  unfold withHead
  split
  · exact hf _ _
  · rfl

/-- Reload Config alone starts the loader, and it leaves the state as it was. -/
theorem runRequest_reloads {r : Request} (hr : (runRequest r s).reloads = true) :
    s.jobs.records = [] ∧ s.banks.other = .shadow ∧ (runRequest r s).state = s := by
  have key : (runRequest r s).reloads = false ∨ r = .reloadConfig := by
    cases r <;> first
      | exact .inr rfl
      | (left; rfl)
      | (left
         simp only [runRequest, cmdJob, cmdSetPosition, cmdPositionOn, cmdAbortJob, cmdQueryJob, cmdSetTrigger, cmdSetPlane,
           cmdWriteTable, cmdReadTable, cmdCommitBank, cmdSetNotices, cmdClearConditions, cmdReadCounters, cmdClearCounters,
           cmdHeadOn, cmdHeadOff, cmdSetLane, cmdLaneUp, cmdLaneDown, cmdLaneResume]
         first
           | (refine reloads_withHead _ _ fun i t => ?_; first | rfl | (split <;> rfl))
           | (repeat' split) <;> rfl)
  rcases key with e | e
  · rw [e] at hr; cases hr
  · subst e
    obtain ⟨h1, h2⟩ := cmdReloadConfig_reloads hr
    refine ⟨h1, h2, ?_⟩
    show (cmdReloadConfig s).state = s
    unfold cmdReloadConfig
    split
    · rfl
    · split <;> rfl

theorem Frame.request_planes {f : Frame} {x : JobFields} (h : f.request = .job (some x)) : x.planes.Nodup := by
  have hc : ∀ c bs r, parseCommand c bs = some r → ∀ y, r ≠ .job y := by
    intro c bs r hr y e
    subst e
    unfold parseCommand at hr
    dsimp only at hr
    split at hr <;> first
      | (simp only [Option.map_eq_some_iff, reduceCtorEq, and_false, exists_false] at hr)
      | (split at hr <;> cases hr)
      | cases hr
  unfold Frame.request at h
  split at h
  · simp only [Request.job.injEq] at h
    unfold parseJob at h
    split at h
    · cases h
    · dsimp only at h
      split at h
      · cases h
      · simp only [Option.some.injEq] at h
        subst h
        exact List.Nodup.filter _ (by decide)
  · exfalso
    unfold parseControl at h
    split at h
    · cases h
    · rename_i c bs hb
      cases hp : parseCommand c.toNat bs with
      | none => rw [hp] at h; cases h
      | some r => rw [hp] at h; exact hc _ _ _ hp _ h

end Sys2Proof.Machine
end

