-- ==== Sys2Proof/Laws/Events.lean ====
section
/-!
SUPPORT. The take of a frame, every event of the part, the tick and the power-on state keep the invariant.
-/

namespace Sys2Proof.Machine

variable {k : Floor} {s : State}

/-! ## The Control Unit -/

theorem Kept.placeAnswer (h : Kept k s) (hk : k.queues = none) (hs : s.link.answers.length < Config.answerQueueMax)
    (a : Answer) : Kept k (placeAnswer a s) := by
  refine h.relink ?_ (h.inv.reported.placeAnswer a hs) ?_ fun l e => by rw [hk] at e; cases e
  · unfold Machine.placeAnswer
    have q := quiet_arbitrate (s.setLink { s.link with answers := s.link.answers ++ [a] })
    have e := q.rest
    rw [e]; rfl
  · unfold Machine.placeAnswer
    exact (quiet_arbitrate _).loader

/-- The floor of an operation that places no answer. -/
def Floor.silent (k : Floor) (l : List Answer × List Frame) : Floor := { k with queues := some l }

theorem Kept.silent (h : Kept k s) : Kept (k.silent (s.link.answers, s.link.inbound)) s :=
  ⟨h.inv, h.position, h.next, h.now, h.pending, fun l e => by cases e; rfl⟩

theorem Kept.unsilent {l : List Answer × List Frame} (h : Kept (k.silent l) s) (hk : k.queues = none) : Kept k s :=
  ⟨h.inv, h.position, h.next, h.now, h.pending, fun l e => by rw [hk] at e; cases e⟩

theorem Kept.takeFrame (h : Kept k s) (hk : k.queues = none) {f : Frame} {rest : List Frame}
    (ht : s.takeable = some (f, rest)) (hn : f.request = .streamReset → ∀ p, k.next.get p = 0) :
    Kept k (takeFrame f rest (Machine.runRequest f.request) s) := by
  have hin : s.link.inbound = f :: rest ∧ s.link.answers.length < Config.answerQueueMax := by
    unfold State.takeable at ht
    split at ht
    · cases ht
    · rename_i g l hg
      split at ht
      · rename_i hl; cases ht; exact ⟨hg, hl⟩
      · cases ht
  have hL := h.inv.link
  have h1 : Kept k (s.setLink { s.link with inbound := rest }) :=
    h.setLink ⟨by have := hL.inbound; rw [hin.1] at this; simp only [List.length_cons] at this ⊢; omega,
      hL.answers, hL.batch, hL.sending, hL.busy⟩ h.inv.batch rfl fun l e => by rw [hk] at e; cases e
  unfold Machine.takeFrame
  dsimp only
  split
  · exact h1.placeAnswer hk (by simpa using hin.2) _
  · rename_i hl
    have h2 := h1.silent.runRequest hl (r := f.request) (fun x e => Frame.request_planes e) hn
    have h3 := (h2.unsilent hk).placeAnswer hk (by have := congrArg Prod.fst (h2.queues _ rfl); dsimp only at this; rw [this]; exact hin.2)
      (f.answer (Machine.runRequest f.request (s.setLink { s.link with inbound := rest })).result
        (Machine.runRequest f.request (s.setLink { s.link with inbound := rest })).payload)
    split
    · rename_i hr
      obtain ⟨e1, e2, e3⟩ := runRequest_reloads hr
      refine h3.startLoading _ ?_ ?_
      · unfold Machine.placeAnswer; rw [(quiet_arbitrate _).jobs, e3]; exact e1
      · unfold Machine.placeAnswer; rw [(quiet_arbitrate _).banks, e3]; exact e2
    · exact h3

/-- A frame taken by its command, other than Stream Reset from a floor above 0 (R69). -/
theorem Kept.takeWith (h : Kept k s) (hk : k.queues = none) {r : Request} {cmd : State → Reply} (tag : Byte)
    (hc : cmd = Machine.runRequest r) (hn : r = .streamReset → ∀ p, k.next.get p = 0) : Kept k (takeWith tag r cmd s) := by
  unfold Machine.takeWith
  split
  · exact h
  · rename_i f rest ht
    split
    · rename_i he; subst hc
      obtain ⟨-, rfl⟩ := he
      exact h.takeFrame hk ht hn
    · exact h

theorem Kept.takeOldest (h : Kept k s) (hk : k.queues = none) (hn : ∀ p, k.next.get p = 0) : Kept k (takeOldest s) := by
  unfold Machine.takeOldest
  split
  · exact h
  · rename_i f rest ht; exact h.takeFrame hk ht fun _ => hn

/-! ## Events -/

theorem Kept.advanceEvent (h : Kept k s) : Kept k (advanceEvent s) := by
  unfold Machine.advanceEvent
  split
  · exact h.presentAdvance
  · exact h

theorem Kept.encoderEvent (h : Kept k s) : Kept k (encoderEvent s) := by
  unfold Machine.encoderEvent
  split
  · exact h
  · exact h.decodePair _

theorem Kept.stallEvent (h : Kept k s) : Kept k (stallEvent s) := by
  unfold Machine.stallEvent
  split
  · rename_i hd; exact h.stallExpire (stallDue_isSome hd)
  · exact h

theorem Kept.triggerEvent (h : Kept k s) : Kept k (triggerEvent s) := by
  unfold Machine.triggerEvent
  split
  · exact h
  · exact h.triggerLevel _

theorem Kept.newTriggerLevel (h : Kept k s) (x : Bool) : Kept k (newTriggerLevel x s) := by
  unfold Machine.newTriggerLevel
  split
  · exact h
  · exact h.triggerLevel _

theorem Kept.minOnEvent (h : Kept k s) : Kept k (minOnEvent s) := by
  unfold Machine.minOnEvent
  split
  · rename_i hd
    unfold State.minOnDue at hd
    simp only [Bool.and_eq_true, beq_iff_eq] at hd
    exact h.qualify hd.1
  · exact h

theorem Kept.dropoutEvent (h : Kept k s) : Kept k (dropoutEvent s) := by
  unfold Machine.dropoutEvent
  split
  · exact h.dropoutExpire
  · exact h

theorem Kept.minOffEvent (h : Kept k s) : Kept k (minOffEvent s) := by
  unfold Machine.minOffEvent
  split
  · exact h.minOffExpire
  · exact h

theorem Kept.fireSentEvent (h : Kept k s) (i : Head) : Kept k (fireSentEvent i s) := by
  unfold Machine.fireSentEvent
  split
  · exact h.fireSent i
  all_goals exact h

theorem Kept.capsSentEvent (h : Kept k s) (i : Head) : Kept k (capsSentEvent i s) := by
  unfold Machine.capsSentEvent
  split
  · exact h.capsSent i
  all_goals exact h

theorem Kept.trainSentEvent (h : Kept k s) (i : Head) : Kept k (trainSentEvent i s) := by
  unfold Machine.trainSentEvent
  split
  · exact h.trainSent i
  all_goals exact h

theorem Kept.negotiationEvent (h : Kept k s) (i : Head) : Kept k (negotiationEvent i s) := by
  unfold Machine.negotiationEvent
  split
  · rename_i hd
    unfold Lane.negotiationDue at hd
    simp only [Bool.and_eq_true, beq_iff_eq] at hd
    exact h.failDown (by rw [hd.1]; decide)
  · exact h

theorem Kept.echoEvent (h : Kept k s) (i : Head) : Kept k (echoEvent i s) := by
  unfold Machine.echoEvent
  split
  · rename_i hd
    unfold Lane.echoDue at hd
    simp only [Bool.and_eq_true, beq_iff_eq] at hd
    exact h.gradeFails hd.1
  · exact h

theorem Kept.statusEvent (h : Kept k s) (i : Head) : Kept k (statusEvent i s) := by
  unfold Machine.statusEvent
  split
  · exact h.statusExpire i
  · exact h

theorem Kept.pulseEvent (h : Kept k s) (i : Head) : Kept k (pulseEvent i s) := by
  unfold Machine.pulseEvent
  split
  · exact h.changeLane (f := fun l => { l with fire := .low }) ((h.inv.lanes i).fireLine fun n e => by cases e)
  · exact h

theorem Kept.holdEvent (h : Kept k s) (i : Head) : Kept k (holdEvent i s) := by
  unfold Machine.holdEvent
  split
  · exact h
  · exact h.holdLevel i _

theorem Kept.faultEvent (h : Kept k s) (i : Head) : Kept k (faultEvent i s) := by
  unfold Machine.faultEvent
  split
  · exact h
  · exact h.faultLevel i _

theorem Kept.newHoldLevel (h : Kept k s) (i : Head) (x : Bool) : Kept k (newHoldLevel i x s) := by
  unfold Machine.newHoldLevel
  split
  · exact h
  · exact h.holdLevel i _

theorem Kept.newFaultLevel (h : Kept k s) (i : Head) (x : Bool) : Kept k (newFaultLevel i x s) := by
  unfold Machine.newFaultLevel
  split
  · exact h
  · exact h.faultLevel i _

theorem Kept.copyEvent (h : Kept k s) : Kept k (copyEvent s) := by
  unfold Machine.copyEvent
  split
  · rename_i hc
    exact (h.setBanks (h.inv.banks.finishCopy hc) fun _ => rfl).submit _
  · exact h

theorem Kept.deadlineEvent (h : Kept k s) : Kept k (deadlineEvent s) := by
  unfold Machine.deadlineEvent
  split
  · exact h.completeLoading fun i e => by cases e
  · exact h

theorem Kept.idleEvent (h : Kept k s) : Kept k (idleEvent s) := by
  unfold Machine.idleEvent
  split
  · rename_i hd
    have hi : s.notices.idleTimer.isSome = true := by
      unfold NoticeUnit.idleDue at hd
      split at hd
      · cases hd
      · rename_i e; rw [e]; rfl
    obtain ⟨hq, hz⟩ := h.inv.notices.idleTimer hi
    exact h.quiet (quiet_idleExpire s) (h.inv.reported.idleExpire hq hz)
  · exact h

/-! ## The tick -/

theorem Kept.settleLane (h : Kept k s) (i : Head) : Kept k (settleLane i s) :=
  ((((((((h.holdEvent i).faultEvent i).fireSentEvent i).capsSentEvent i).trainSentEvent i).negotiationEvent i).echoEvent
    i).statusEvent i).pulseEvent i

theorem Kept.settle (h : Kept k s) (hk : k.queues = none) (hn : ∀ p, k.next.get p = 0) : Kept k (settle s) := by
  have h1 : Kept k (Machine.minOffEvent (Machine.dropoutEvent (Machine.minOnEvent (Machine.triggerEvent (Machine.stallEvent (Machine.encoderEvent
      (Machine.advanceEvent s))))))) := h.advanceEvent.encoderEvent.stallEvent.triggerEvent.minOnEvent.dropoutEvent.minOffEvent
  have h2 := (h1.forEach allHeads Machine.settleLane fun i _ t ht => ht.settleLane i).copyEvent.deadlineEvent.idleEvent
  unfold Machine.settle
  dsimp only
  exact h2.forEach _ _ fun f _ t ht => ht.takeOldest hk hn

theorem Ptu.Wf.tick {u : Ptu} (h : u.Wf) (a b : Bool) : (u.tick a b).Wf := by
  have hs : u.s ≤ min Config.sMax (u.s + u.v) := by have := h.position; omega
  exact ⟨h.params, h.measured, Nat.min_le_left _ _, h.velocity, h.integrator, h.feedForward, h.periods, h.still,
    by simpa [Ptu.tick] using h.timer, h.untimed, h.filling, h.filled,
    Nat.le_trans h.presented (Nat.div_le_div_right hs),
    ⟨sample_progress h.filters.1 a, sample_progress h.filters.2 b⟩⟩

theorem Lane.Wf.tick {l : Lane} (h : l.Wf) (a b : Bool) : (l.tick a b).Wf := by
  have hf : ∀ n, l.fireTick = .high n → n ≤ 200 := fun n e => by
    unfold Lane.fireTick at e
    split at e
    · cases e
    · simp only [FireLine.high.injEq] at e; subst e; exact pulseTicks_le h.settings.pulse.2
    · rename_i m hm; simp only [FireLine.high.injEq] at e; subst e; have := h.pulse m hm; omega
  exact ⟨h.settings, h.grade, h.gradeSet, h.trial, h.progress, h.band, h.badCount, h.faultCode, h.downshift,
    by simpa [Lane.tick] using h.status, by simpa [Lane.tick] using h.timer, by simpa [Lane.tick] using h.waiting, hf,
    ⟨sample_progress h.filters.1 a, sample_progress h.filters.2 b⟩⟩

theorem Qualifier.Wf.sampled {t : Qualifier} (h : t.Wf) (x : Bool) :
    { t with input := t.input.sample Config.triggerFilter x : Qualifier }.Wf :=
  ⟨h.params, h.newParams, h.capture, h.start, h.timer, sample_progress h.filter _⟩

theorem NoticeUnit.Wf.tick {u : NoticeUnit} (h : u.Wf) :
    { u with idleTimer := u.idleTimer.map fun e => e + 1 : NoticeUnit }.Wf :=
  ⟨h.queue, h.lost, h.level, h.idle, fun e => h.idleTimer (by simpa using e), h.released, h.releaseDue, h.counters⟩

theorem Banks.Wf.tick {l : List JobRec} {b : Banks} (h : b.Wf l) : b.tick.Wf l := by
  refine ⟨h.tables, h.bound, ?_⟩
  have := h.law
  show match b.tick.other with
    | .draining => 0 < b.bound b.otherId
    | .shadow | .copying _ => b.bound b.otherId = 0
  unfold Banks.tick
  cases e : b.other <;> rw [e] at this <;> exact this

theorem tickAll_loading (l : Levels) (s : State) : (tickAll l s).loading = s.loading := by
  show (match s.link.loader.tick with | .idle => false | .loading _ _ => true) = _
  unfold State.loading Loader.tick
  cases s.link.loader <;> rfl

/-- The tick itself keeps the invariant. -/
theorem State.Inv.tickAll (h : s.Inv) (l : Levels) : (tickAll l s).Inv := by
  refine ⟨h.ptu.tick _ _, h.trig.sampled _, h.jobs, h.store, h.depths, h.heads, fun i => ?_, h.banks.tick,
    h.notices.tick, ⟨h.link.inbound, h.link.answers, h.link.batch, h.link.sending, h.link.busy⟩, h.batch, fun e => ?_⟩
  · have : (Machine.tickAll l s).lane i = (s.lane i).tick (l.hold.get i) (l.fault.get i) := get_mapAll _ _ _
    rw [this]; exact (h.lanes i).tick _ _
  · rw [tickAll_loading] at e
    obtain ⟨h1, h2, h3⟩ := h.loading e
    refine ⟨h1, h2, ?_⟩
    show s.banks.tick.other = _
    unfold Banks.tick; rw [h3]

/-- S does not decrease at a tick. -/
theorem State.Inv.tickAll_position (h : s.Inv) (l : Levels) : s.ptu.s ≤ (Machine.tickAll l s).ptu.s := by
  show s.ptu.s ≤ min Config.sMax (s.ptu.s + s.ptu.v)
  have := h.ptu.position; omega

/-! ## Power-on -/

theorem PtuParams.default_wf : PtuParams.default.Wf :=
  ⟨by decide, by decide, by decide, by decide, by decide, by decide, by decide, by decide⟩

theorem Ptu.powerOn_wf (a b : Bool) : (Ptu.powerOn a b).Wf := by
  refine ⟨PtuParams.default_wf, ?_, ?_, ?_, ?_, ?_, ?_, ?_, ?_, ?_, ?_, ?_, ?_, ?_⟩ <;>
    simp [Ptu.powerOn, PtuParams.default, Input.atLevel, Config.mMin, Config.mMax]

theorem Qualifier.powerOn_wf (x : Bool) : (Qualifier.powerOn x).Wf :=
  ⟨TrigParams.default_wf, (by intro q e; cases e), by simp [Qualifier.powerOn], by simp [Qualifier.powerOn], rfl,
    by simp [Qualifier.powerOn, Input.atLevel]⟩

theorem Lane.powerOn_wf (a b : Bool) : (Lane.powerOn a b).Wf := by
  refine ⟨LaneSettings.default_wf, ?_, ?_, ?_, ?_, ?_, ?_, ?_, ?_, ?_, ?_, ?_, ?_, ?_⟩ <;>
    simp [Lane.powerOn, Input.atLevel]

theorem JobQueue.powerOn_wf : JobQueue.powerOn.Wf :=
  ⟨by decide, List.Pairwise.nil, (by intro r hr; cases hr), List.Pairwise.nil, by decide⟩

theorem PlaneStore.powerOn_wf : PlaneStore.powerOn.Wf 0 :=
  ⟨⟨List.Pairwise.nil, by decide⟩, by decide, by decide, by decide, by decide, (by intro e he; cases he),
    by intro e he; cases he⟩

theorem HeadRec.powerOn_wf : HeadRec.powerOn.Wf := ⟨by decide, by intro f e; cases e⟩

theorem Banks.powerOn_wf : Banks.powerOn.Wf [] := by
  have e : ∀ i, Banks.powerOn.banks.get i = { tables := Tables.default, bound := 0 } := fun i => get_replicate _ _
  refine ⟨fun i c => ?_, fun i => ?_, ?_⟩
  · simp only [Banks.tables, e]; exact Tables.default_wf c
  · simp only [Banks.bound, e]; rfl
  · show Banks.powerOn.bound _ = 0
    simp only [Banks.bound, e]

theorem NoticeUnit.powerOn_wf : NoticeUnit.powerOn.Wf :=
  ⟨by decide, ⟨by decide, by intro e he; cases he⟩, by decide, by decide, by decide, by decide, by decide,
    fun i => by show (Vector.replicate 146 0).get i ≤ _; rw [get_replicate]; exact Nat.zero_le _⟩

theorem LinkPort.powerOn_wf : LinkPort.powerOn.Wf :=
  ⟨by decide, by decide, (by intro x e; cases e), (by intro x e; cases e), by intro e; cases e⟩

/-- Every block at its power-on values meets the invariant, whatever levels the inputs show. -/
theorem State.powerOn_inv (l : Levels) : (State.powerOn l).Inv := by
  refine ⟨Ptu.powerOn_wf _ _, Qualifier.powerOn_wf _, JobQueue.powerOn_wf, fun p => ?_, ?_,
    fun i => ?_, fun i => ?_, Banks.powerOn_wf, NoticeUnit.powerOn_wf, LinkPort.powerOn_wf, rfl, fun _ => ⟨rfl, rfl, rfl⟩⟩
  · show ((Vector.replicate 4 PlaneStore.powerOn).get p).Wf ((Vector.replicate 4 0).get p)
    rw [get_replicate, get_replicate]; exact PlaneStore.powerOn_wf
  · show depthSum (Vector.replicate 4 PlaneStore.powerOn) ≤ _
    decide
  · show ((Vector.replicate 16 HeadRec.powerOn).get i).Wf
    rw [get_replicate]; exact HeadRec.powerOn_wf
  · show (Vector.get (Vector.ofFn fun h => Lane.powerOn (l.hold.get h) (l.fault.get h)) i).Wf
    rw [get_ofFn]; exact Lane.powerOn_wf _ _

end Sys2Proof.Machine
end

