-- ==== Sys2Proof/Laws/PerInstr.lean ====
section
/-!
SUPPORT. One lemma per command: a command is well formed exactly when every request it takes from the control queue
can be carried by a frame.
-/

namespace Sys2Proof.Laws.WellFormedCarried

/-- A command is well formed exactly when the request of the frame it takes, if it takes one, fits its layout. -/
def Statement (i : Instr) : Prop := i.wf = true ↔ ∀ t r, i.taken = some (t, r) → r.ok = true

theorem of_taken {i : Instr} {t : Byte} {r : Request} (h : i.taken = some (t, r)) : Statement i := by
  simp only [Statement, Instr.wf, h, Option.some.injEq, Prod.mk.injEq, and_imp]
  exact ⟨fun e _ _ _ hr => hr ▸ e, fun e => e t r rfl rfl⟩

theorem of_none {i : Instr} (h : i.taken = none) : Statement i := by
  simp [Statement, Instr.wf, h]

theorem powerOnReset (levels : Levels) : Statement (.powerOnReset levels) := of_none rfl
theorem noMemoryTimeout : Statement .noMemoryTimeout := of_none rfl
theorem loaderDeadlineExpiry : Statement .loaderDeadlineExpiry := of_none rfl
theorem loadingComplete (image : List Byte) : Statement (.loadingComplete image) := of_none rfl
theorem forwardCount : Statement .forwardCount := of_none rfl
theorem backwardCount : Statement .backwardCount := of_none rfl
theorem stallExpiry : Statement .stallExpiry := of_none rfl
theorem advance : Statement .advance := of_none rfl
theorem firePulseEnd (lane : Head) : Statement (.firePulseEnd lane) := of_none rfl
theorem transmissionEnd (lane : Head) : Statement (.transmissionEnd lane) := of_none rfl
theorem lineFrame (d : Delivery) : Statement (.lineFrame d) := of_none rfl
theorem frameDiscarded (d : Delivery) : Statement (.frameDiscarded d) := of_none rfl
theorem controlFrameArrival (d : Delivery) : Statement (.controlFrameArrival d) := of_none rfl
theorem jobFrame (tag : Byte) (fields : Option JobFields) : Statement (.jobFrame tag fields) := of_taken rfl
theorem triggerInputActive : Statement .triggerInputActive := of_none rfl
theorem triggerInputInactive : Statement .triggerInputInactive := of_none rfl
theorem minOnElapsed : Statement .minOnElapsed := of_none rfl
theorem dropoutExpiry : Statement .dropoutExpiry := of_none rfl
theorem minOffExpiry : Statement .minOffExpiry := of_none rfl
theorem setPosition (tag : Byte) (a : PositionArgs) : Statement (.setPosition tag a) := of_taken rfl
theorem positionOn (tag : Byte) : Statement (.positionOn tag) := of_taken rfl
theorem positionOff (tag : Byte) : Statement (.positionOff tag) := of_taken rfl
theorem printOn (tag : Byte) : Statement (.printOn tag) := of_taken rfl
theorem printOff (tag : Byte) : Statement (.printOff tag) := of_taken rfl
theorem abortJob (tag : Byte) (id : Nat) : Statement (.abortJob tag id) := of_taken rfl
theorem queryJob (tag : Byte) (id : Nat) : Statement (.queryJob tag id) := of_taken rfl
theorem setTrigger (tag : Byte) (a : TriggerArgs) : Statement (.setTrigger tag a) := of_taken rfl
theorem softTrigger (tag : Byte) : Statement (.softTrigger tag) := of_taken rfl
theorem setPlane (tag : Byte) (a : PlaneArgs) : Statement (.setPlane tag a) := of_taken rfl
theorem streamReset (tag : Byte) : Statement (.streamReset tag) := of_taken rfl
theorem headOn (tag : Byte) (n : Nat) : Statement (.headOn tag n) := of_taken rfl
theorem headOff (tag : Byte) (n : Nat) : Statement (.headOff tag n) := of_taken rfl
theorem setLane (tag : Byte) (a : LaneArgs) : Statement (.setLane tag a) := of_taken rfl
theorem laneUp (tag : Byte) (n : Nat) : Statement (.laneUp tag n) := of_taken rfl
theorem laneDown (tag : Byte) (n : Nat) : Statement (.laneDown tag n) := of_taken rfl
theorem laneResume (tag : Byte) (n : Nat) : Statement (.laneResume tag n) := of_taken rfl
theorem writeTable (tag : Byte) (a : Option WriteArgs) : Statement (.writeTable tag a) := of_taken rfl
theorem readTable (tag : Byte) (a : Option ReadArgs) : Statement (.readTable tag a) := of_taken rfl
theorem commitBank (tag : Byte) : Statement (.commitBank tag) := of_taken rfl
theorem setNotices (tag : Byte) (a : NoticesArgs) : Statement (.setNotices tag a) := of_taken rfl
theorem clearConditions (tag : Byte) (a : FlagArgs) : Statement (.clearConditions tag a) := of_taken rfl
theorem readStatus (tag : Byte) : Statement (.readStatus tag) := of_taken rfl
theorem readCounters (tag : Byte) (group : Nat) : Statement (.readCounters tag group) := of_taken rfl
theorem clearCounters (tag : Byte) (group : Nat) : Statement (.clearCounters tag group) := of_taken rfl
theorem reloadConfig (tag : Byte) : Statement (.reloadConfig tag) := of_taken rfl
theorem unknownCommand (tag : Byte) (code : Nat) : Statement (.unknownCommand tag code) := of_taken rfl
theorem capsQuerySent (lane : Head) : Statement (.capsQuerySent lane) := of_none rfl
theorem capsRecord (lane : Head) (d : LaneDelivery) : Statement (.capsRecord lane d) := of_none rfl
theorem negotiationTimeout (lane : Head) : Statement (.negotiationTimeout lane) := of_none rfl
theorem trainRecordSent (lane : Head) : Statement (.trainRecordSent lane) := of_none rfl
theorem echoRecord (lane : Head) (d : LaneDelivery) : Statement (.echoRecord lane d) := of_none rfl
theorem echoTimeout (lane : Head) : Statement (.echoTimeout lane) := of_none rfl
theorem damagedLaneRecord (lane : Head) (d : LaneDelivery) : Statement (.damagedLaneRecord lane d) := of_none rfl
theorem boardStatusRecord (lane : Head) (d : LaneDelivery) : Statement (.boardStatusRecord lane d) := of_none rfl
theorem statusTimeout (lane : Head) : Statement (.statusTimeout lane) := of_none rfl
theorem holdActive (lane : Head) : Statement (.holdActive lane) := of_none rfl
theorem holdInactive (lane : Head) : Statement (.holdInactive lane) := of_none rfl
theorem faultActive (lane : Head) : Statement (.faultActive lane) := of_none rfl
theorem faultInactive (lane : Head) : Statement (.faultInactive lane) := of_none rfl
theorem copyComplete : Statement .copyComplete := of_none rfl
theorem linkUp : Statement .linkUp := of_none rfl
theorem linkDown : Statement .linkDown := of_none rfl
theorem outboundComplete : Statement .outboundComplete := of_none rfl
theorem idleTimerExpiry : Statement .idleTimerExpiry := of_none rfl
theorem tick (levels : Levels) : Statement (.tick levels) := of_none rfl
theorem encoderReferenceUpdate (a b : Bool) : Statement (.encoderReferenceUpdate a b) := of_none rfl

end Sys2Proof.Laws.WellFormedCarried
end

