-- ==== Sys2Proof/Tests/Slice0.lean ====
section
/-!
SUPPORT. The tests of the model: the well-formedness checks, the manual's worked examples, and for every statement a
named theorem that meets its hypotheses on a state written out.
-/

open Sys2Proof Sys2Proof.Machine

namespace Sys2Proof.Tests

-- One proof is checked after another: each kernel check at a time keeps the compiler's threads and memory few.
set_option Elab.async false

/-! ## Well-formed commands: each check refuses a term -/

def noPosition : PositionArgs := ⟨none, none, none, none, none, none, none, none, none, none⟩
def noTrigger : TriggerArgs := ⟨none, none, none, none⟩
def noPlane (p : Nat) : PlaneArgs := ⟨p, none, none, none, none⟩
def noLane (h : Nat) : LaneArgs := ⟨h, none, none, none, none, none, none, none, none⟩
def noNotices : NoticesArgs := ⟨none, none, none⟩
def someJob : JobFields := ⟨9, 3, [0], 0, 0, 0, none⟩
def someWrite (b : TableBody) : Instr := .writeTable 7 (some ⟨.head 1, b⟩)
def someRead (k : TableKind) (first count : Nat) : Instr := .readTable 7 (some ⟨.active, k, .plane 1, first, count⟩)

theorem wf_accepts : ([.setPosition 7 { noPosition with lineRatio := some 16777215 }, .jobFrame 7 (some someJob),
    .jobFrame 7 none, .abortJob 7 65535, .setTrigger 7 { noTrigger with minOn := some 65535 }, .setPlane 7 (noPlane 255),
    .setLane 7 { noLane 3 with mask := some [1, 6] }, .setNotices 7 { noNotices with mask := some [4] },
    .clearConditions 7 .all, .clearConditions 7 (.some [(12, 3), (13, 0)]), .headOn 7 255,
    someWrite (.bands [(255, 0)]), someRead .bands 0 0, .tick Levels.low] : List Instr).all Instr.wf = true := by
  decide +kernel

theorem wf_refuses_wide_number : fits 1 256 = false ∧ fitsOpt 2 (some 65536) = false := by decide
theorem wf_refuses_wide_set_member : setOk [256] = false := by decide
theorem wf_refuses_unordered_set : setOkOpt (some [4, 4]) = false ∧ setOk [5, 4] = false := by decide
theorem wf_refuses_long_set : setOk (List.range 256) = false := by decide +kernel
theorem wf_refuses_wide_flag : FlagArgs.ok (.some [(256, 0)]) = false := by decide
theorem wf_refuses_unordered_flags : FlagArgs.ok (.some [(13, 0), (12, 3)]) = false := by decide
theorem wf_refuses_many_flags : FlagArgs.ok (.some ((List.range 255).map fun n => (0, n))) = false := by decide +kernel
theorem wf_refuses_job : (Instr.jobFrame 7 (some { someJob with id := 65536 })).wf = false ∧
    (Instr.jobFrame 7 (some { someJob with planes := [1, 0] })).wf = false := by decide
theorem wf_refuses_position : (Instr.setPosition 7 { noPosition with stall := some 16777216 }).wf = false := by decide
theorem wf_refuses_trigger : (Instr.setTrigger 7 { noTrigger with dropout := some 65536 }).wf = false := by decide
theorem wf_refuses_plane : (Instr.setPlane 7 { noPlane 0 with depth := some 65536 }).wf = false := by decide
theorem wf_refuses_lane : (Instr.setLane 7 { noLane 0 with mask := some [2, 1] }).wf = false ∧
    (Instr.setLane 7 (noLane 256)).wf = false := by decide
theorem wf_refuses_notices : (Instr.setNotices 7 { noNotices with idle := some 256 }).wf = false := by decide
theorem wf_refuses_target : Target.ok (.head 256) = false ∧ Target.ok (.plane 256) = false := by decide
theorem wf_refuses_body : (someWrite (.nozzleRange 65536 [])).wf = false ∧ (someWrite (.geometry 0 64 16777216 0)).wf = false ∧
    (someWrite (.bands [(256, 0)])).wf = false ∧ (someWrite (.dropMap 0 1 2 256)).wf = false := by decide
theorem wf_refuses_read : (someRead .nozzleRange 0 65536).wf = false ∧ (someRead .geometry 1 0).wf = false := by decide
theorem wf_refuses_numbers : (Instr.abortJob 7 65536).wf = false ∧ (Instr.queryJob 7 65536).wf = false ∧
    (Instr.laneUp 7 256).wf = false ∧ (Instr.readCounters 7 256).wf = false ∧
    (Instr.unknownCommand 7 256).wf = false := by decide

/-! ## States and frames -/

/-- The part at its power-on values with its loader idle. -/
def calm : State := State.reset.setLink { LinkPort.powerOn with loader := .idle }

/-- A control frame with tag 7. -/
def ctl (body : List Byte) : Frame := ⟨false, 7, body⟩

/-- The state with one frame in the inbound control queue. -/
def asked (f : Frame) (s : State) : State := s.setLink { s.link with inbound := [f], answers := [], loader := .idle }

theorem taking {f : Frame} {r : Request} (s : State) (h : f.request = r) : Taking (asked f s) f.tag r f [] :=
  ⟨rfl, Nat.zero_lt_succ 7, rfl, h, rfl⟩

/-- The state that a command leaves. -/
def after (c : Instr) (s : State) : State :=
  match exec c s with
  | .next t => t
  | .fault _ => s
  | .refused _ => s

/-- The newest answer. -/
def lastAnswer (s : State) : Option (ResultCode × List Byte) := s.link.answers.getLast?.map fun a => (a.result, a.payload)

/-! ## The manual's worked examples -/

/-- The check value of the CRC of 10.1 over the nine digits: the standard value of that CRC. -/
theorem test_crc : crc32 [0x31, 0x32, 0x33, 0x34, 0x35, 0x36, 0x37, 0x38, 0x39] = 0xCBF43926#32 := by decide +kernel

/-- The parameters of 1.9. -/
def worked : PtuParams := { PtuParams.default with lineRatio := 98304, kp := 400, ki := 40 }

/-- 1.9.1 after count 8. -/
def eighth : State := { calm.setPtu { (Ptu.powerOn false false) with
  params := worked, state := .acquiring, m := 786432, s := 786432 * 65536, history := List.replicate 7 2000,
  mark := some 24000, stall := some 1999, presented := 3072 } with now := 26000 }

/-- 1.9.1, count 9: TRACKING, V 3,221,225, S at 13.5 lines. -/
theorem test_acquired : (after .forwardCount eighth).ptu.state = .tracking ∧ (after .forwardCount eighth).ptu.v = 3221225 ∧
    (after .forwardCount eighth).ptu.m = 884736 ∧ (after .forwardCount eighth).ptu.s = 57982058496 ∧
    (after .forwardCount eighth).ptu.history = List.replicate 8 2000 := by decide +kernel

/-- TRACKING with the parameters of 1.9 before a count that makes M `m` against an S of floor(S / 2^16) = `s`. -/
def tracked (m : Int) (s : Nat) : State := { calm.setPtu { (Ptu.powerOn false false) with
  params := worked, state := .tracking, m := m - 98304, s := s * 65536, history := List.replicate 8 2000,
  mark := some 26000, stall := some 1999, presented := s / 256, v := 3221225, vff := 3221225 } with now := 28000 }

/-- 1.9.2, count 10: e = 1, I = 0, V = 3,221,226. -/
theorem test_first_correction :
    let t := after .forwardCount ((tracked 983040 0).setPtu { (tracked 983040 0).ptu with s := 64424508496 })
    t.ptu.v = 3221226 ∧ t.ptu.i = 0 ∧ t.ptu.s = 64424508496 ∧ t.position = 3839 := by decide +kernel

/-- 1.9.3: e = 1,311 and e = -1,311. -/
theorem test_pi_update :
    (after .forwardCount (tracked 1001311 1000000)).ptu.v = 3223477 ∧
    (after .forwardCount (tracked 1001311 1000000)).ptu.i = 204 ∧
    (after .forwardCount (tracked 998689 1000000)).ptu.v = 3218971 ∧
    (after .forwardCount (tracked 998689 1000000)).ptu.i = -205 := by decide +kernel

/-- 1.9.4: the clamp of the error. -/
theorem test_error_clamp :
    let s := tracked 3000000 1000000
    let t := after .forwardCount (s.setPtu { s.ptu with params := { worked with slip := 4194304 } })
    t.ptu.i = 163840 ∧ t.ptu.v = 5023465 := by decide +kernel

/-- 1.9.5: e = -300,000 enters HOLDING, and e = 300,000 slips S. -/
theorem test_slips :
    (after .forwardCount (tracked 700000 1000000)).ptu.state = .holding ∧
    (after .forwardCount (tracked 700000 1000000)).ptu.s = 1000000 * 65536 ∧
    (after .forwardCount (tracked 1300000 1000000)).ptu.state = .tracking ∧
    (after .forwardCount (tracked 1300000 1000000)).ptu.s = 1300000 * 65536 ∧
    (after .forwardCount (tracked 1300000 1000000)).ptu.v = 3221225 ∧
    (after .forwardCount (tracked 1300000 1000000)).condition .slip = true := by decide +kernel

/-- 5.4.1: the thresholds of lines 1,004 to 1,007 in columns 60 to 63. -/
theorem test_thresholds : ([1004, 1005, 1006, 1007].map fun n => [60, 61, 62, 63].map (stitchThreshold n)) =
    [[0, 7, 14, 5], [1, 8, 15, 6], [2, 9, 0, 7], [3, 10, 1, 8]] := by decide

/-- The drop map of 5.4. -/
def capped : Vector Dot 4 := #v[0, 1, 2, 2]

/-- The pixels of 5.4.2: columns 60 to 63, then 70 and 71, in a line of 128. -/
def workedLine (a b c d e f : Dot) : List Dot :=
  List.replicate 60 0 ++ [a, b, c, d] ++ List.replicate 6 0 ++ [e, f] ++ List.replicate 56 0

/-- Head 4 of 5.4. -/
def head4 : HeadTables := {
  plane := some 0, nozzles := 64, offset := 0, reverse := false, bands := [⟨90, 2⟩, ⟨255, 5⟩]
  map := ((List.range 60).map fun j => (j, .pixel j)) ++
    [(60, .stitchLow 60 12), (61, .stitchLow 61 9), (62, .stitchLow 62 6), (63, .stitchLow 63 3)] }

/-- Head 5 of 5.4. -/
def head5 : HeadTables := {
  plane := some 0, nozzles := 64, offset := 10240, reverse := true, bands := [⟨255, 7⟩]
  map := [(0, .stitchHigh 60 12), (1, .stitchHigh 61 9), (2, .stitchHigh 62 6), (3, .stitchHigh 63 3)] ++
    ((List.range 6).map fun j => (j + 4, .pixel (j + 64))) ++ [(10, .dead 70 11 true)] ++
    ((List.range 53).map fun j => (j + 11, .pixel (j + 71))) }

/-- 5.4.3 and 5.4.4: head 4's places 60 to 63 and head 5's places 52, 53 and 60 to 63, on the four lines. -/
theorem test_outputs :
    ([(1004, workedLine 3 1 2 0 2 1), (1005, workedLine 2 2 3 1 0 3), (1006, workedLine 1 3 1 2 3 0),
      (1007, workedLine 0 1 2 3 1 2)].map fun x =>
        ((nozzleValues head4 capped x.2 x.1).drop 60, ((nozzleValues head5 capped x.2 x.1).drop 52).take 2,
          (nozzleValues head5 capped x.2 x.1).drop 60)) =
    [([2, 1, 0, 0], [3, 0], [0, 2, 0, 0]), ([2, 2, 0, 0], [2, 0], [1, 2, 0, 0]), ([1, 0, 1, 0], [3, 0], [2, 0, 2, 0]),
      ([0, 0, 2, 0], [2, 0], [2, 0, 1, 0])] := by decide +kernel

/-- 10.5: the record of head 4 for line 1,004, with waveform 2 at band 0. -/
theorem test_fire_record_layout :
    let r : FireRecord := ⟨4, 1004, 31, waveformOf head4.bands (some 0), 64,
      nozzleValues head4 capped (workedLine 3 1 2 0 2 1) 1004⟩
    (LaneRecord.fire r).bytes.take 16 = [1, 4, 2, 0, 0xEC, 3, 0x1F, 0, 0x40, 0, 0, 0, 0, 0, 0, 0] ∧
      (LaneRecord.fire r).bytes[31]? = some 6 ∧ (LaneRecord.fire r).bytes.length = 36 := by decide +kernel

/-- R116's table: the ticks of the smallest and the largest fire record at each grade. -/
theorem test_transmission_ticks :
    allGrades.map (fun g => transmissionTicks g (List.replicate 36 0)) = [72, 36, 24, 18, 12, 9] ∧
    allGrades.map (fun g => transmissionTicks g (List.replicate 532 0)) = [1064, 532, 355, 266, 178, 133] := by
  decide +kernel

/-- 6.8.2: the bands of the status records 85, 102, 99, 96, 60 and 130, and the table of two bands. -/
theorem test_bands :
    ([(none, 85), (some 1, 102), (some 2, 99), (some 2, 96), (some 1, 60), (some 0, 130)].map fun x =>
      moveBand [⟨80, 1⟩, ⟨100, 3⟩, ⟨255, 6⟩] x.2 4 x.1) = [1, 2, 2, 1, 0, 2] ∧
    moveBand [⟨80, 1⟩, ⟨255, 3⟩] 130 4 (some 2) = 1 := by decide

/-- A board record as its lane delivers it whole. -/
def board (bs : List Byte) : LaneDelivery := ⟨false, closed bs⟩

/-- 6.8.1: the caps record of A, B, C and D. -/
theorem test_caps :
    let s := calm.setLane 6 { Lane.powerOn false false with state := .negotiating, timer := some 0 }
    let t := after (.capsRecord 6 (board [0x12, 0x0F, 0, 0, 0, 0, 0, 0])) s
    (t.lane 6).state = .training ∧ (t.lane 6).trial = some [.d, .c, .b, .a] ∧ (t.lane 6).grade = some .d ∧
      (t.lane 6).tx.map (fun x => (x.record, x.remaining)) = some (.train 0, 16) := by decide +kernel

/-- Lane 11 of 6.8.3, with its stored count. -/
def lane11 (count : Nat) : Lane :=
  { Lane.powerOn false false with
    state := .up, grade := some .d, gradeSet := some [.a, .b, .c, .d], badCount := some count, status := some 0,
    settings := { LaneSettings.default with degrade := 10, autoDown := true } }

/-- Lane 11 of 6.8.3 and its head with a cursor. -/
def degrading (count : Nat) : State :=
  (calm.setLane 11 (lane11 count)).setHead 11 ⟨true, some ⟨1, 0⟩, .waitingLine, none⟩

/-- 6.8.3: the counts 65,533, 4 and 14. -/
theorem test_degraded :
    ([(65533, 4), (4, 14)].map fun x =>
      let t := after (.boardStatusRecord 11 (board ([0x11, 60] ++ leBytes 2 x.2 ++ [0, 0, 0, 0]))) (degrading x.1)
      ((t.lane 11).badCount, t.condition (.degraded 11), (t.lane 11).downshift)) =
    [(some 4, false, false), (some 14, true, true)] := by decide +kernel

/-! ## Witnesses: the machine, reset and loading

For each statement with hypotheses, states and operands that meet them, one for each clause, at the boundaries of the
clauses. -/

theorem calm_inv : calm.Inv := State.ok_inv (by decide +kernel)

/-- A lane replaced by one that passes its check. -/
theorem setLane_inv {s : State} {h : Head} {l : Lane} (hs : s.Inv) (hl : l.ok = true) : (s.setLane h l).Inv :=
  { hs with
    lanes := fun i => by
      rw [State.setLane_lane_if]
      split
      · exact Lane.ok_wf hl
      · exact hs.lanes i }

/-- A state that asks for a command, and meets the invariant where its check does. -/
theorem asked_inv {f : Frame} {s : State} (h : (asked f s).ok = true) : (asked f s).Inv := State.ok_inv h

/-- The part with a PTU and the rest at rest. -/
def withPtu (u : Ptu) : State := calm.setPtu u

/-- The PTU at power-on in a state, with M, S and a stall timer. -/
def ptuAt (st : PtuState) (m : Int) (s : Nat) (stall : Option Nat) : Ptu :=
  { Ptu.powerOn false false with state := st, m := m, s := s, stall := stall }

/-- A PTU in TRACKING at the parameters' defaults. -/
def ptuTracking (m : Int) (s stall : Nat) : Ptu :=
  { ptuAt .tracking m s (some stall) with history := List.replicate 8 2000, mark := some 0, v := 7 }

theorem witness_StepRunsFrontCommand : ({ calm with pending := [.advance, .linkUp] } : State).pending = .advance :: [.linkUp] ∧
    calm.pending = [] := ⟨rfl, rfl⟩

theorem witness_EveryCommandAnswers : calm.Inv ∧ ∃ t, exec .linkUp calm = .next t := ⟨calm_inv, _, rfl⟩

theorem witness_InvariantKept : ∃ s t : State, s.Inv ∧ s.pending = [.linkUp] ∧ step s = .next t :=
  ⟨{ calm with pending := [.linkUp] }, after .linkUp calm, State.ok_inv (by decide +kernel), rfl, rfl⟩

theorem witness_PositionNeverGoesBack :
    (∃ s t : State, s.Inv ∧ s.ptu.v = 7 ∧ exec (.tick Levels.low) s = .next t) ∧
    (∃ s t : State, s.Inv ∧ 0 < s.ptu.s ∧ exec (.powerOnReset Levels.low) s = .next t) :=
  ⟨⟨withPtu (ptuTracking 0 0 0), after (.tick Levels.low) (withPtu (ptuTracking 0 0 0)),
    State.ok_inv (by decide +kernel), rfl, rfl⟩,
   ⟨withPtu (ptuAt .holding 0 5 none), State.powerOn Levels.low, State.ok_inv (by decide +kernel), by decide, rfl⟩⟩

/-- The next-line counters moved on. -/
def counted : State := calm.setJobs { JobQueue.powerOn with next := #v[9, 0, 0, 0] }

theorem witness_NextLinesNeverGoBack :
    (∃ t, counted.Inv ∧ exec (.powerOnReset Levels.low) counted = .next t) ∧
    (∃ s t, s.Inv ∧ s.jobs = counted.jobs ∧ s.link.inbound = [ctl [11]] ∧ exec (.streamReset 7) s = .next t) ∧
    (∃ t, counted.Inv ∧ exec (.tick Levels.low) counted = .next t) ∧
    (∃ t, counted.Inv ∧ exec .linkUp counted = .next t) :=
  have h : counted.Inv := State.ok_inv (by decide +kernel)
  ⟨⟨_, h, rfl⟩, ⟨asked (ctl [11]) counted, _, asked_inv (by decide +kernel), rfl, rfl, rfl⟩, ⟨_, h, rfl⟩, ⟨_, h, rfl⟩⟩

theorem witness_OneAnswerPerFrame :
    let s := asked (ctl [4]) calm
    s.Inv ∧ (Instr.printOn 7).taken = some (7, .printOn) ∧ s.link.inbound = [ctl [4]] ∧ s.link.answers.length < 8 ∧
      (ctl [4]).tag = 7 ∧ (ctl [4]).request = .printOn :=
  ⟨asked_inv (by decide +kernel), rfl, rfl, by decide, rfl, rfl⟩

theorem witness_ControlFrameGuards :
    (∃ s : State, s.link.inbound = [ctl [4]] ∧ s.link.answers.length < 8 ∧ (ctl [4]).request = .printOn ∧
      s.loading = true) ∧
    (∀ f rest, (asked (ctl [5]) calm).link.inbound = f :: rest → f.request ≠ .printOn) ∧
    calm.link.inbound = [] :=
  ⟨⟨State.reset.setLink { LinkPort.powerOn with inbound := [ctl [4]] }, rfl, by decide, rfl, rfl⟩,
    by rintro f rest ⟨⟩; decide, rfl⟩

/-- The part `e` ticks after its loader began. -/
def loadingFor (e : Nat) : State := State.reset.setLink { LinkPort.powerOn with loader := .loading .powerOn e }

theorem loadingFor_inv (e : Nat) : (loadingFor e).Inv := by
  have h : State.reset.Inv := State.ok_inv (by decide +kernel)
  exact ⟨h.ptu, h.trig, h.jobs, h.store, h.depths, h.heads, h.lanes, h.banks, h.notices,
    LinkPort.ok_wf (by simp [LinkPort.ok, LinkPort.powerOn, loadingFor, Config.controlQueueMax, Config.answerQueueMax]),
    h.batch, fun _ => ⟨rfl, rfl, rfl⟩⟩

theorem witness_UnusableImageTakesDefaults :
    (∀ e, (loadingFor e).Inv ∧ (loadingFor e).link.loader = .loading .powerOn e) ∧
    24999 < 25000 ∧ 25000 ≤ 25000 ∧ 6249999 < 6250000 ∧ 6250000 ≤ 6250000 ∧
    [0] ≠ ([] : List Byte) ∧ loadImage [0] = .error .badHeader ∧ loadImage [0x4E, 0x42] = .error .badCheck :=
  ⟨fun e => ⟨loadingFor_inv e, rfl⟩, by decide, by decide, by decide, by decide, by decide, by decide +kernel,
    by decide +kernel⟩

/-! ## Witnesses: position -/

theorem witness_CountInStopped : ∀ m ∈ ([0, -(2 ^ 55), 2 ^ 55 - 1] : List Int),
    let s := withPtu (ptuAt .stopped m 0 none)
    s.ptu.Wf ∧ s.ptu.state = .stopped ∧ s.loading = false := by
  intro m h
  refine ⟨Ptu.ok_wf ?_, rfl, rfl⟩
  revert m; decide +kernel

/-- ACQUIRING with n periods. -/
def acquiring (mark : Option Nat) (n : Nat) : State :=
  withPtu { ptuAt .acquiring 0 0 (some 3) with history := List.replicate n 2000, mark := mark }

theorem witness_CountInAcquiring :
    ((acquiring none 0).ptu.Wf ∧ (acquiring none 0).loading = false ∧ (acquiring none 0).ptu.state = .acquiring ∧
      (acquiring none 0).ptu.mark = none) ∧
    ∀ n ∈ [6, 7], (acquiring (some 0) n).ptu.Wf ∧ (acquiring (some 0) n).ptu.state = .acquiring ∧
      (acquiring (some 0) n).loading = false ∧ (acquiring (some 0) n).ptu.mark = some 0 ∧
      (acquiring (some 0) n).ptu.history.length + 1 = n + 1 ∧ 2 ^ (acquiring (some 0) n).ptu.params.avgExp = 8 :=
  ⟨⟨Ptu.ok_wf (by decide +kernel), rfl, rfl, rfl⟩, fun n h =>
    ⟨Ptu.ok_wf (by revert n; decide +kernel), rfl, rfl, rfl, by simp [acquiring, withPtu, State.setPtu], rfl⟩⟩

/-- The error at its boundaries: the slip threshold 262,144 and one beyond it, on both sides. -/
theorem witness_CountInTracking : ∀ e ∈ ([262144, 262145, -262144, -262145] : List Int),
    let s := tracked (1000000 + e) 1000000
    s.ptu.Wf ∧ s.ptu.state = .tracking ∧ s.loading = false ∧ s.ptu.mark = some 26000 ∧
      s.ptu.history = 2000 :: List.replicate 7 2000 ∧ s.ptu.params.slip = 262144 ∧
      min (s.ptu.m + s.ptu.params.lineRatio) (2 ^ 55 - 1) - (s.ptu.s / 2 ^ 16 : Nat) = e := by
  intro e h
  refine ⟨Ptu.ok_wf ?_, rfl, rfl, rfl, rfl, rfl, ?_⟩ <;> revert e <;> decide +kernel

theorem witness_CountInHolding : ∀ x ∈ [0, 1],
    (∀ m ∈ ([0, 131072] : List Int), (withPtu (ptuAt .holding m (65536 * 65536 + x) none)).ptu.Wf) ∧
    (withPtu (ptuAt .holding 0 (65536 * 65536 + x) none)).loading = false ∧
    (decide (((65536 * 65536 + x : Nat) : Int) ≤ min (0 + 65536) (2 ^ 55 - 1) * 2 ^ 16) = (x == 0)) ∧
    (decide (((65536 * 65536 + x : Nat) : Int) ≤ max (131072 - 65536) (-(2 ^ 55)) * 2 ^ 16) = (x == 0)) := by
  intro x h
  refine ⟨fun m hm => Ptu.ok_wf ?_, rfl, ?_, ?_⟩
  · revert x m; decide +kernel
  · revert x; decide +kernel
  · revert x; decide +kernel

theorem witness_EncoderStep :
    calm.ptu.reference = (false, false) ∧ forwardPair calm.ptu.reference = (true, false) ∧
    backwardPair calm.ptu.reference = (false, true) ∧ calm.ptu.reference = (!true, !true) ∧
    calm.ptu.state = .off ∧ calm.ptu.reference ≠ (true, true) ∧ State.reset.loading = true := by decide +kernel

theorem witness_StallExpiry :
    (∃ s : State, s.ptu.stall = some 2500000 ∧ s.ptu.params.stallTimeout ≤ 2500000) ∧
    (∃ s : State, s.ptu.stall = some 2499999 ∧ 2499999 < s.ptu.params.stallTimeout) ∧ calm.ptu.stall = none :=
  ⟨⟨withPtu (ptuTracking 0 0 2500000), rfl, by decide⟩, ⟨withPtu (ptuTracking 0 0 2499999), rfl, by decide⟩, rfl⟩

/-- An advance due by one position unit, and none due. -/
theorem witness_AdvanceTakesEveryReachedDue :
    (∃ s : State, s.Inv ∧ s.ptu.state ≠ .off ∧ s.ptu.presented < s.ptu.s / 2 ^ 24) ∧
    (∃ s : State, s.Inv ∧ s.ptu.state ≠ .off ∧ s.ptu.s / 2 ^ 24 ≤ s.ptu.presented) ∧ calm.Inv ∧ calm.ptu.state = .off :=
  ⟨⟨withPtu (ptuAt .holding 0 (2 ^ 24) none), State.ok_inv (by decide +kernel), by decide, by decide⟩,
   ⟨withPtu (ptuAt .holding 0 (2 ^ 24 - 1) none), State.ok_inv (by decide +kernel), by decide, by decide⟩, calm_inv, rfl⟩

/-- A lane with everything that counts, one tick before its end. -/
def busyLane : Lane :=
  { Lane.powerOn false false with
    state := .up, tx := some ⟨.capsQuery, [], 1⟩, fire := .high 1, status := some 499999, grade := some .a,
    gradeSet := some [.a] }

/-- Every timer runs and none is due. -/
def quiet : State :=
  ((((tracked 1000000 1000000).setLanes (Vector.replicate 16 busyLane)).setBanks { Banks.powerOn with other := .copying 37499 }).setNotices
    { NoticeUnit.powerOn with queue := [⟨.stall .tracking, 0, none⟩], idleTimer := some 24999 }).setTrig
    { Qualifier.powerOn true with state := .candidate, p := some 0, t0 := some 15501 }

theorem quiet_inv : quiet.Inv := State.ok_inv (by decide +kernel)

theorem witness_QuietTick : quiet.Settled := by
  have lane : ∀ h, quiet.lane h = busyLane := by decide +kernel
  refine ⟨.inr (by decide +kernel), ⟨rfl, rfl⟩, ?_, rfl, ?_, ?_, ?_, ?_, ?_, ?_, .inl rfl⟩
  · intro e h; cases h; decide
  · intro _ t h; cases h; decide
  · intro k t h; cases h
  · intro h; rw [lane]
    refine ⟨rfl, rfl, ?_, ?_, ?_, ?_, by decide⟩ <;> intro e h <;> cases h <;> decide
  · intro e h; cases h; decide
  · intro c e h; cases h
  · intro e h; cases h; exact .inr (by decide)

/-- The filter at its setting's count of samples and one more. -/
theorem witness_FilterTakesLevel : ∀ f ∈ [0, 4, 16], (Input.atLevel false).taken = !true ∧
    (Input.atLevel false).progress = 0 ∧ f ≤ f ∧ f < f + 1 := by decide

/-- A Set Position of the line ratio. -/
def ratioFrame (r : Nat) : Frame := ctl ([1, 1, 0] ++ leBytes 3 r)

/-- A Set Position of the stall timeout 25,000. -/
def stallFrame : Frame := ctl [1, 0, 2, 0xA8, 0x61, 0]

theorem witness_SetPosition :
    (let a := { noPosition with lineRatio := some 256 }
     let s := asked (ratioFrame 256) (withPtu (ptuTracking 0 0 0))
     Taking s 7 (.setPosition a) (ratioFrame 256) [] ∧ s.ptu.state ≠ .off ∧ a.lineRatio.isSome = true) ∧
    (∀ r ∈ [255, 4194305], Taking (asked (ratioFrame r) calm) 7 (.setPosition { noPosition with lineRatio := some r })
      (ratioFrame r) [] ∧ (asked (ratioFrame r) calm).ptu.state = .off ∧ (r < 256 ∨ 4194304 < r)) ∧
    (∀ r ∈ [256, 4194304], Taking (asked (ratioFrame r) calm) 7 (.setPosition { noPosition with lineRatio := some r })
      (ratioFrame r) [] ∧ (asked (ratioFrame r) calm).ptu.state = .off ∧ 256 ≤ r ∧ r ≤ 4194304) ∧
    (∀ x ∈ [1, 2], Taking (asked (ctl [1, 8, 0, byte x]) calm) 7 (.setPosition { noPosition with invert := some x })
      (ctl [1, 8, 0, byte x]) []) ∧
    ∀ e ∈ [24999, 25000], let s := asked stallFrame (withPtu (ptuTracking 0 0 e))
      Taking s 7 (.setPosition { noPosition with stall := some 25000 }) stallFrame [] ∧ s.ptu.state = .tracking ∧
        s.ptu.stall = some e ∧ max 25000 (min 25000 16777215) = 25000 := by
  refine ⟨⟨taking _ (by decide +kernel), by decide, rfl⟩, fun r h => ⟨taking _ ?_, rfl, ?_⟩,
    fun r h => ⟨taking _ ?_, rfl, ?_⟩, fun x h => taking _ ?_,
    fun e _ => ⟨taking _ (by decide +kernel), rfl, rfl, by decide⟩⟩ <;> first
      | (revert r; decide +kernel)
      | (revert x; decide +kernel)

theorem witness_PositionOnOff :
    (let s := asked (ctl [2]) calm
     Taking s 7 .positionOn (ctl [2]) [] ∧ s.ptu.state = .off) ∧
    (let s := asked (ctl [2]) (withPtu (ptuAt .stopped 0 0 none))
     Taking s 7 .positionOn (ctl [2]) [] ∧ s.ptu.state ≠ .off) ∧
    (let s := asked (ctl [3]) calm
     Taking s 7 .positionOff (ctl [3]) [] ∧ s.ptu.state = .off) ∧
    (let s := asked (ctl [3]) (withPtu (ptuTracking 0 0 0))
     Taking s 7 .positionOff (ctl [3]) [] ∧ s.ptu.state ≠ .off) :=
  ⟨⟨taking _ rfl, rfl⟩, ⟨taking _ rfl, by decide⟩, ⟨taking _ rfl, rfl⟩, ⟨taking _ rfl, by decide⟩⟩

/-! ## Witnesses: the trigger input -/

/-- The qualifier in a state with a level taken, at tick `now`. -/
def withTrig (st : TrigState) (seen : Bool) (timer : Option (TrigTimer × Nat)) (params : TrigParams) (now : Nat) : State :=
  { calm.setTrig { Qualifier.powerOn seen with
      state := st, params := params, p := if st = .idle then none else some 0, t0 := if st = .idle then none else some 0,
      timer := timer } with now := now }

/-- Each state under the pending set of both polarities, at the last tick before min_on and at min_on, and with timers
of 0. The times follow R43's defaults: 12,500 ticks. -/
theorem witness_TriggerInputLevel :
    (∀ st ∈ [TrigState.idle, .candidate, .qualified, .releasing], ∀ x : Bool,
      (withTrig st x none TrigParams.default 0).trig.state = st ∧ (withTrig st x none TrigParams.default 0).trig.input.seen = x ∧
        (withTrig st x none TrigParams.default 0).trig.newParams.getD TrigParams.default = TrigParams.default) ∧
    (∀ now ∈ [12499, 12500], let s := withTrig .dropout false (some (.dropout, 20000)) TrigParams.default now
      s.trig.state = .dropout ∧ s.trig.p = some 0 ∧ s.trig.t0 = some 0 ∧ s.trig.input.seen = s.trig.params.activeLow ∧
        s.now - 0 = now ∧ s.trig.params.minOn * 25 = 12500) ∧
    (let q := { TrigParams.default with dropout := 0, minOff := 0 }
     ∀ st ∈ [TrigState.candidate, .qualified], let s := withTrig st true none q 0
      s.trig.state = st ∧ s.trig.params.dropout = 0 ∧ s.trig.params.minOff = 0 ∧
        s.trig.input.seen = !s.trig.params.activeLow ∧ s.trig.p = some 0) := by decide +kernel

theorem witness_TriggerTimes :
    (∀ now ∈ [12499, 12500], let s := withTrig .candidate true none TrigParams.default now
      s.trig.state = .candidate ∧ s.trig.p = some 0 ∧ s.trig.t0 = some 0 ∧ s.trig.params.minOn * 25 = 12500 ∧
        s.now - 0 = now) ∧
    (∀ now ∈ [2499, 2500], let s := withTrig .dropout false (some (.dropout, 2500)) TrigParams.default now
      s.trig.state = .dropout ∧ s.trig.p = some 0 ∧ s.trig.timer = some (.dropout, 2500) ∧ s.now = now) ∧
    (∀ now ∈ [2499, 2500], let s := withTrig .releasing false (some (.minOff, 2500)) TrigParams.default now
      s.trig.state = .releasing ∧ s.trig.timer = some (.minOff, 2500) ∧ s.now = now) ∧
    calm.trig.state ≠ .candidate ∧ calm.trig.state ≠ .dropout ∧ calm.trig.state ≠ .releasing := by decide +kernel

theorem witness_SetTrigger : ∀ x ∈ [1, 2],
    Taking (asked (ctl [8, 1, byte x]) calm) 7 (.setTrigger { noTrigger with polarity := some x }) (ctl [8, 1, byte x]) [] :=
  fun x h => taking _ (by revert x; decide +kernel)

/-! ## Witnesses: jobs -/

/-- Job 1: lines 0 to 2 of plane 0. -/
def job1 (a : Option Activation) : JobRec := ⟨1, 3, [⟨0, 0⟩], .triggered, 0, 0, none, a⟩

/-- Job 2: lines 3 and 4 of plane 0. -/
def job2 (m : StartMode) : JobRec := ⟨2, 2, [⟨0, 3⟩], m, 0, 0, none, none⟩

/-- Job 1 bound to bank 0, with head 0 as its taker. -/
def act1 : Activation := { t := 0, bank := 0, takers := [(0, [0])], progress := 1, fired := 0, shortfall := 0 }

/-- The tables with head 0 at plane 0. -/
def tables0 : Tables := { Tables.default with heads := put Tables.default.heads 0 { HeadTables.default with plane := some 0 } }

/-- Plane 0 at width 64 with the slots given. -/
def plane0 (slots : Sparse Slot) : PlaneStore := { PlaneStore.powerOn with width := 64, slots := slots }

/-- A head on a line of job 1. -/
def onLine (n : Nat) (st : HeadState) (f : Option InFlight) : HeadRec := ⟨true, some ⟨1, n⟩, st, f⟩

/-- Plane 0 in use by head 0, with the records given, its next line 5, and the print state ON. -/
def printing (records : List JobRec) (x : HeadRec) (slots : Sparse Slot) (u : Ptu) : State :=
  { calm with
    ptu := u, jobs := { JobQueue.powerOn with records := records, next := #v[5, 0, 0, 0], print := true },
    store := put calm.store 0 (plane0 slots), heads := put calm.heads 0 x,
    banks := { Banks.powerOn with banks := #v[⟨tables0, boundTo records 0⟩, ⟨Tables.default, 0⟩] } }

/-- Job 1 ACTIVE, its head waiting on line 0. -/
def active1 (more : List JobRec) : State :=
  printing (job1 (some act1) :: more) (onLine 0 .waitingLine none) [] (ptuTracking 0 0 0)

/-- Records QUEUED behind nothing, at position p, after an activation at T = 0 with L = 3. -/
def queued (records : List JobRec) (u : Ptu) : State :=
  let s := printing records HeadRec.powerOn [] u
  s.setJobs { s.jobs with lastT := some 0, lastL := some 3 }

/-- A PTU in TRACKING at a position in position units. -/
def ptuAtPosition (p : Nat) : Ptu := { ptuTracking 0 (p * 2 ^ 24) 0 with presented := p }

/-- Job 1 ACTIVE with no head on it. -/
def idle1 : State :=
  printing [job1 (some { act1 with takers := [(0, [])], progress := 0 })] HeadRec.powerOn [] (ptuTracking 0 0 0)

/-- A line of plane 0 that is READY. -/
def readySlot (rendered : Bool) : Slot := ⟨.ready (List.replicate 64 0), some [0], rendered⟩

/-- A lane in UP at grade A, sending a record. -/
def upLane (tx : Option LaneTx) : Lane :=
  { Lane.powerOn false false with
    state := .up, grade := some .a, gradeSet := some [.a], status := some 0, tx := tx }

/-- A fire record under way, with its ticks remaining. -/
def firing (n : Nat) : LaneTx :=
  let r : FireRecord := ⟨0, 0, 1, 0, 64, List.replicate 64 0⟩
  ⟨.fire r, (LaneRecord.fire r).bytes, n⟩

/-- A head that an activation takes, on no line. -/
def freeHead (f : Option InFlight) : HeadRec := ⟨true, none, .idle, f⟩

/-- Each case of the ruling; the spacing of R34 at its last refused position, 767, and its first allowed one, 768; and
with no job before, a CHAINED or a TRIGGERED record behind. -/
theorem witness_SoftTrigger :
    (let s := asked (ctl [9]) calm
     Taking s 7 .softTrigger (ctl [9]) [] ∧ s.Inv ∧ s.jobs.print = false) ∧
    (let s := asked (ctl [9]) (queued [job1 none] (ptuAt .stopped 0 0 none))
     Taking s 7 .softTrigger (ctl [9]) [] ∧ s.Inv ∧ s.jobs.print = true ∧ s.ptu.state ≠ .tracking) ∧
    (let s := asked (ctl [9]) (active1 [])
     Taking s 7 .softTrigger (ctl [9]) [] ∧ s.Inv ∧ s.jobs.print = true ∧ s.ptu.state = .tracking ∧
      ∀ r ∈ s.jobs.records, r.active.isSome = true) ∧
    (let s := asked (ctl [9]) (active1 [job2 .chained])
     Taking s 7 .softTrigger (ctl [9]) [] ∧ s.Inv ∧ s.jobs.records = [job1 (some act1)] ++ job2 .chained :: [] ∧
      (job2 .chained).mode = .chained) ∧
    (∀ m ∈ [StartMode.chained, .triggered],
      let s := asked (ctl [9]) (printing [job1 none, job2 m] (freeHead none) [] (ptuAtPosition 0))
      Taking s 7 .softTrigger (ctl [9]) [] ∧ s.Inv ∧ s.jobs.print = true ∧ s.ptu.state = .tracking ∧
        s.jobs.records = [] ++ job1 none :: [job2 m] ∧ s.jobs.lastT = none ∧
        ((∀ y ∈ [job2 m].head?, y.mode = .triggered) ↔ m = .triggered)) ∧
    ∀ p ∈ [767, 768], let s := asked (ctl [9]) (queued [job1 none] (ptuAtPosition p))
      Taking s 7 .softTrigger (ctl [9]) [] ∧ s.Inv ∧ s.jobs.print = true ∧ s.ptu.state = .tracking ∧
        s.jobs.records = [] ++ job1 none :: [] ∧ (job1 none).mode = .triggered ∧ s.jobs.lastT = some 0 ∧
        s.jobs.lastL = some 3 ∧ s.ptu.s / 2 ^ 24 + (job1 none).delay = p ∧ 0 + (3 + (job1 none).gap) * 256 = 768 := by
  refine ⟨⟨taking _ rfl, asked_inv (by decide +kernel), rfl⟩,
    ⟨taking _ rfl, asked_inv (by decide +kernel), rfl, by decide⟩,
    ⟨taking _ rfl, asked_inv (by decide +kernel), rfl, rfl, by decide +kernel⟩,
    ⟨taking _ rfl, asked_inv (by decide +kernel), rfl, rfl⟩,
    fun m h => ⟨taking _ rfl, asked_inv ?_, rfl, rfl, rfl, rfl, by cases m <;> simp [job2]⟩,
    fun p h => ⟨taking _ rfl, asked_inv ?_, rfl, rfl, rfl, rfl, rfl, rfl, ?_, rfl⟩⟩ <;> first
      | (revert m; decide +kernel)
      | (revert p; decide +kernel)

/-- A job frame of one plane set byte. -/
def jobBytes (j : JobFields) (set : Byte) : Frame :=
  ⟨true, 7, leBytes 2 j.id ++ leBytes 4 j.length ++ [set, byte j.mode] ++ leBytes 4 j.delay ++ leBytes 2 j.gap ++
    (match j.tag with
      | none => [0, 0, 0, 0, 0, 0]
      | some t => [1, 0] ++ leBytes 4 t)⟩

/-- The cases: a body too short, 32 records, a record of the id, each value out of range by the least amount, and the
largest values in range, with and without a predecessor. -/
theorem witness_JobFrame :
    (⟨true, 7, []⟩ : Frame).request = .job none ∧
    (∀ j ∈ [someJob, { someJob with length := 0 }, { someJob with length := 1048576 }, { someJob with mode := 2 },
        { someJob with delay := 16777216 }, { someJob with length := 1048575, mode := 1, delay := 16777215, gap := 65535 },
        { someJob with tag := some 5 }, { someJob with id := 1 }],
      (jobBytes j 1).request = .job (some j)) ∧
    (jobBytes { someJob with planes := [] } 0).request = .job (some { someJob with planes := [] }) ∧
    (jobBytes { someJob with planes := [0, 1, 2, 3] } 15).request = .job (some { someJob with planes := [0, 1, 2, 3] }) ∧
    32 ≤ (calm.setJobs { JobQueue.powerOn with records := List.replicate 32 (job1 none) }).jobs.records.length ∧
    (∃ r ∈ (active1 []).jobs.records, r.id = 1) ∧ (∀ r ∈ (active1 []).jobs.records, r.id ≠ someJob.id) ∧
    (calm.plane 0).width = 0 ∧ ((active1 []).plane 0).width = 64 ∧
    (∀ n ∈ [2 ^ 32 - 3, 2 ^ 32 - 2], let s := (active1 []).setJobs { (active1 []).jobs with next := #v[n, 0, 0, 0] }
      (2 ^ 32 < s.jobs.next.get 0 + someJob.length) = (n = 2 ^ 32 - 2)) ∧
    (active1 []).Inv ∧ (active1 []).jobs.print = true ∧ (active1 []).jobs.records = [] ++ [job1 (some act1)] ∧
    (job1 (some act1)).active = some act1 ∧ (calm.jobs.Unchained) ∧ (active1 [job2 .triggered]).jobs.Unchained := by
  refine ⟨rfl, by decide +kernel, by decide +kernel, by decide +kernel, by decide +kernel, by decide +kernel, by decide +kernel,
    by decide +kernel, by decide +kernel, ?_, State.ok_inv (by decide +kernel), rfl, rfl, rfl, (fun h => by cases h), ?_⟩
  · intro n h
    simp only [List.mem_cons, List.not_mem_nil, or_false] at h
    rcases h with rfl | rfl <;> decide +kernel
  · intro _ pre r post h ha hr hm
    obtain _ | ⟨x, _ | ⟨y, z⟩⟩ := pre
    · rfl
    · cases h; exact absurd hm (by decide)
    · cases z <;> cases h

/-- Print is OFF in front of a record CHAINED behind an ACTIVE one. -/
def printOff1 (more : List JobRec) : State := (active1 more).setJobs { (active1 more).jobs with print := false }

/-- Job 3: line 5 of plane 0. -/
def job3 (m : StartMode) : JobRec := ⟨3, 1, [⟨0, 5⟩], m, 0, 0, none, none⟩

/-- Print is OFF in front of job 2, CHAINED behind job 1, with job 3 behind it. -/
def printOff3 (m : StartMode) : State :=
  (active1 []).setJobs { JobQueue.powerOn with
    records := [job1 (some act1), job2 .chained, job3 m], next := #v[6, 0, 0, 0] }

theorem witness_PrintOnOff :
    Taking (asked (ctl [5]) (active1 [])) 7 .printOff (ctl [5]) [] ∧
    (let s := asked (ctl [4]) (active1 [])
     Taking s 7 .printOn (ctl [4]) [] ∧ s.jobs.print = true) ∧
    (let s := asked (ctl [4]) calm
     Taking s 7 .printOn (ctl [4]) [] ∧ s.jobs.print = false ∧ { s.jobs with print := true }.Unchained) ∧
    (let s := asked (ctl [4]) (printOff1 [job2 .chained])
     Taking s 7 .printOn (ctl [4]) [] ∧ s.jobs.print = false ∧ s.Inv ∧
      s.jobs.records = [] ++ job1 (some act1) :: job2 .chained :: [] ∧ (job1 (some act1)).active = some act1 ∧
      (job2 .chained).active = none ∧ (job2 .chained).mode = .chained) ∧
    (∀ m ∈ [StartMode.chained, .triggered], let s := asked (ctl [4]) (printOff3 m)
      Taking s 7 .printOn (ctl [4]) [] ∧ s.jobs.print = false ∧ s.Inv ∧
        s.jobs.records = [] ++ job1 (some act1) :: job2 .chained :: [job3 m]) := by
  refine ⟨taking _ rfl, ⟨taking _ rfl, rfl⟩, ⟨taking _ rfl, rfl, ?_⟩,
    ⟨taking _ rfl, rfl, asked_inv (by decide +kernel), rfl, rfl, rfl, rfl⟩,
    fun m h => ⟨taking _ rfl, rfl, asked_inv (by revert m; decide +kernel), rfl⟩⟩
  intro _ pre r post h
  cases pre <;> cases h

/-- Head 0's view of job 1. -/
def view1 (a : Activation) : JobView := ⟨job1 (some a), a, tables0, 0, 0⟩

/-- Job 1 as an activation at T = 1,000 leaves it. -/
def act1000 : Activation := { act1 with t := 1000 }

/-- A record QUEUED, with its head enabled and not; its head coming to line 0, at the last position before the due,
without data, with data, and with a record in flight, and a head that is on another line; the chain condition with a
record behind and without one. -/
theorem witness_RecordActivates :
    (∀ x ∈ [HeadRec.powerOn, freeHead none], let s := printing [job1 none, job2 .chained] x [] (ptuAtPosition 0)
      s.Inv ∧ s.jobs.records = [] ++ job1 none :: [job2 .chained] ∧ (job1 none).active = none) ∧
    (∀ x ∈ [freeHead none, freeHead (some ⟨⟨7, 0⟩, .discard⟩), onLine 1 .waitingLine none], ∀ ready : Bool,
      let s := (printing [job1 (some act1000)] x (if ready then [(0, readySlot false)] else []) (ptuAtPosition 999)).setLane 0
        (upLane none)
      s.jobView 0 1 = some (view1 act1000) ∧ s.ptu.s / 2 ^ 24 = 999 ∧ (view1 act1000).due 0 0 = 1000 ∧ s.head 0 = x ∧
        (s.lane 0).state = .up ∧ (s.lane 0).hold.seen = false ∧ (((s.plane 0).slot 0).data.isSome = ready)) ∧
    calm.jobs.Unchained ∧
    (let s := active1 [job2 .chained]
     s.Inv ∧ s.jobs.print = true ∧ s.jobs.records = [] ++ job1 (some act1) :: job2 .chained :: [] ∧
      (job1 (some act1)).active = some act1 ∧ (job2 .chained).active = none ∧ (job2 .chained).mode = .chained) := by
  refine ⟨fun x h => ⟨State.ok_inv (by revert x; decide +kernel), rfl, rfl⟩, fun x h ready => ?_, (fun h => by cases h),
    State.ok_inv (by decide +kernel), rfl, rfl, rfl, rfl, rfl⟩
  revert x ready
  decide +kernel

/-- Job 1 ACTIVE, its only head at the due of its last line. -/
def lastDue : State :=
  printing [job1 (some act1)] (onLine 2 .waitingLine none) [] { ptuAtPosition 512 with presented := 511 }

/-- Job 1 ACTIVE with heads 0 and 1 on its lines. -/
def twoTakers : State :=
  let t : Tables := { tables0 with heads := put tables0.heads 1 { HeadTables.default with plane := some 0 } }
  let r := job1 (some { act1 with takers := [(0, [0, 1])], progress := 2 })
  ((printing [r] (onLine 0 .waitingLine none) [] (ptuTracking 0 0 0)).setHead 1 (onLine 2 .waitingLine none)).setBanks
    { Banks.powerOn with banks := #v[⟨t, 1⟩, ⟨Tables.default, 0⟩] }

/-- No record of the id; progress 0, 1 and 2; and the last due, in the ACTIVE bank and in a bank that drains. -/
theorem witness_RecordRetires :
    (∀ r ∈ (active1 []).jobs.records, r.id ≠ 9) ∧
    (idle1.Inv ∧ idle1.jobs.records = [] ++ job1 (some { act1 with takers := [(0, [])], progress := 0 }) :: []) ∧
    ((active1 []).Inv ∧ (active1 []).jobs.records = [] ++ job1 (some act1) :: [] ∧ act1.progress = 1 ∧
      (job1 none).length = 3) ∧
    (twoTakers.Inv ∧ twoTakers.jobs.records.map (fun r => r.active.map Activation.progress) = [some 2]) ∧
    ∀ d : Bool, let s := if d then lastDue.setBanks { lastDue.banks with active := 1, other := .draining } else lastDue
      s.Inv ∧ s.ptu.state ≠ .off ∧ s.ptu.presented < s.ptu.s / 2 ^ 24 ∧ (s.head 0).cursor = some ⟨1, 2⟩ ∧
        s.jobView 0 1 = some (view1 act1) ∧ (view1 act1).due 0 2 = 512 ∧ s.ptu.s / 2 ^ 24 = 512 ∧
        (s.lane 0).downshift = false ∧ (∀ i, i ≠ 0 → (s.head i).cursor = none) ∧ s.banks.bound 0 = 1 ∧
        (act1.bank = s.banks.otherId ∧ s.banks.other = .draining ↔ d = true) := by
  refine ⟨by decide +kernel, ⟨State.ok_inv (by decide +kernel), rfl⟩, ⟨State.ok_inv (by decide +kernel), rfl, rfl, rfl⟩,
    ⟨State.ok_inv (by decide +kernel), by decide +kernel⟩, fun d => ⟨State.ok_inv ?_, ?_⟩⟩ <;> revert d <;> decide +kernel

/-- Job 2 ACTIVE behind job 1. -/
def job2Active : JobRec := { job2 .chained with active := some { act1 with t := 768 } }

/-- Job 1 ACTIVE with its head on line 1, before job 2 in the same state. -/
def twoActive (x : HeadRec) (tx : Option LaneTx) : State :=
  (printing [job1 (some act1), job2Active] x [(3, readySlot false)] (ptuTracking 0 0 0)).setLane 0 (upLane tx)

/-- An id of no record, a QUEUED record, an ACTIVE one without a cursor and one with, whose lines lie in the window; the
last of two ACTIVE records and the first, with a transmission in flight and without. -/
theorem witness_AbortJob :
    (let s := asked (ctl [6, 9, 0]) (active1 [])
     Taking s 7 (.abortJob 9) (ctl [6, 9, 0]) [] ∧ ∀ r ∈ s.jobs.records, r.id ≠ 9) ∧
    (let s := asked (ctl [6, 2, 0]) (active1 [job2 .chained])
     Taking s 7 (.abortJob 2) (ctl [6, 2, 0]) [] ∧ s.Inv ∧ job2 .chained ∈ s.jobs.records ∧ (job2 .chained).active = none ∧
      { s.jobs with records := s.jobs.records.filter fun x => x.id != 2 }.Unchained) ∧
    (let s := asked (ctl [6, 1, 0]) idle1
     Taking s 7 (.abortJob 1) (ctl [6, 1, 0]) [] ∧ s.Inv ∧ (∃ r ∈ s.jobs.records, r.id = 1 ∧ r.active.isSome = true) ∧
      ∀ h, (s.head h).cursor = none) ∧
    (let s := asked (ctl [6, 1, 0]) (active1 [])
     Taking s 7 (.abortJob 1) (ctl [6, 1, 0]) [] ∧ s.Inv ∧ job1 (some act1) ∈ s.jobs.records ∧
      (s.plane 0).base ≤ 0 ∧ 2 < (s.plane 0).base + (s.plane 0).depth) ∧
    (let s := asked (ctl [6, 2, 0]) (twoActive (onLine 1 .waitingLine none) none)
     Taking s 7 (.abortJob 2) (ctl [6, 2, 0]) [] ∧ s.Inv ∧
      s.jobs.records = [job1 (some act1)] ++ job2Active :: [] ∧ (∀ h, (s.lane h).downshift = false)) ∧
    (∀ x ∈ [(onLine 1 .waitingLine none, none), (onLine 1 .loading (some ⟨⟨1, 1⟩, .keep⟩), some (firing 5))],
      let s := asked (ctl [6, 1, 0]) (twoActive x.1 x.2)
      Taking s 7 (.abortJob 1) (ctl [6, 1, 0]) [] ∧ s.Inv ∧ s.jobs.records = [] ++ job1 (some act1) :: [job2Active] ∧
        (s.head 0).cursor.map Cursor.job = some 1 ∧ (∀ h, (s.lane h).downshift = false) ∧
        [job2Active].find? (fun y => y.takenBy 0) = some job2Active ∧
        (s.jobView 0 2).map (fun v => decide (s.ptu.s / 2 ^ 24 < v.due 0 0)) = some true) := by
  refine ⟨⟨taking _ (by decide +kernel), by decide +kernel⟩,
    ⟨taking _ (by decide +kernel), asked_inv (by decide +kernel), by decide +kernel, rfl, ?_⟩,
    ⟨taking _ (by decide +kernel), asked_inv (by decide +kernel), by decide +kernel, by decide +kernel⟩,
    ⟨taking _ (by decide +kernel), asked_inv (by decide +kernel), by decide +kernel, by decide +kernel, by decide +kernel⟩,
    ⟨taking _ (by decide +kernel), asked_inv (by decide +kernel), rfl, by decide +kernel⟩,
    fun x h => ⟨taking _ (by decide +kernel), asked_inv (by revert x; decide +kernel), rfl, by revert x; decide +kernel⟩⟩
  intro _ pre r post h ha hr hm
  obtain _ | ⟨x, _ | ⟨y, z⟩⟩ := pre
  · rfl
  · cases h
  · cases h

/-- The commands that read, each with a frame that asks for it. -/
theorem witness_ReadCommandsChangeNothing :
    Taking (asked (ctl [7, 9, 0]) (active1 [])) 7 (.queryJob 9) (ctl [7, 9, 0]) [] ∧
    (∀ r ∈ (active1 []).jobs.records, r.id ≠ 9) ∧
    Taking (asked (ctl [7, 1, 0]) (active1 [])) 7 (.queryJob 1) (ctl [7, 1, 0]) [] ∧
    (active1 []).jobs.records = [] ++ job1 (some act1) :: [] ∧
    Taking (asked (ctl [23]) calm) 7 .readStatus (ctl [23]) [] ∧
    (∀ g ∈ [0, 1, 2, 3, 4, 5], (ctl [24, byte g]).request = .readCounters g) ∧
    Taking (asked (ctl [19]) calm) 7 (.readTable none) (ctl [19]) [] ∧
    (ctl [19, 1, 1, 0, 3]).request = .readTable (some ⟨.shadow, .geometry, .head 3, 0, 0⟩) ∧
    ({ Banks.powerOn with other := .draining } : Banks).other ≠ .shadow ∧
    (ctl [19, 0, 0, 0, 15, 0xFF, 7, 1, 0]).request = .readTable (some ⟨.active, .nozzleRange, .head 15, 2047, 1⟩) ∧
    (15 < 16 ∧ 2047 ≤ 2047 ∧ 1 ≤ 1 ∧ 1 ≤ 256 ∧ 2047 + 1 ≤ 2048) ∧
    (ctl [19, 0, 0, 0, 15, 0xFF, 7, 2, 0]).request = .readTable (some ⟨.active, .nozzleRange, .head 15, 2047, 2⟩) ∧
    ¬ 2047 + 2 ≤ 2048 ∧
    (∀ n ∈ [3, 4], (ctl [19, 0, 3, 1, byte n]).request = .readTable (some ⟨.active, .dropMap, .plane n, 0, 0⟩)) ∧
    (∀ n ∈ [15, 16], (ctl [19, 0, 2, 0, byte n]).request = .readTable (some ⟨.active, .bands, .head n, 0, 0⟩)) :=
  ⟨taking _ (by decide +kernel), by decide +kernel, taking _ (by decide +kernel), rfl, taking _ rfl, by decide +kernel,
    taking _ (by decide +kernel), by decide +kernel, by decide, by decide +kernel, by decide, by decide +kernel, by decide,
    by decide +kernel, by decide +kernel⟩

/-! ## Witnesses: the Line Store -/

/-- A line frame of plane 0 with k bytes of pixels, all 0. -/
def lineOf (n k : Nat) : Delivery := .whole (frameBytes 1 7 ([0, 0, 0, 0] ++ leBytes 4 n ++ List.replicate k 0))

/-- Plane 0 as given, its next line and nothing else. -/
def withPlane (x : PlaneStore) (next : Nat) : State :=
  { calm with jobs := { JobQueue.powerOn with next := #v[next, 0, 0, 0] }, store := put calm.store 0 x }

/-- Each row of R56, at the last line that another row takes and the first that it takes itself: next line 5, base line 3,
window of 16, watermarks 2 and 1. -/
theorem witness_LineFrame :
    (∀ x ∈ [(2, 16), (3, 16), (4, 16), (5, 16), (15, 16), (16, 16), (0, 15), (0, 16), (1, 16)],
      checkEnvelope (lineOf x.1 x.2) = .ok (.line 0 x.1 (List.replicate (4 * x.2) 0))) ∧
    (loadingFor 0).Inv ∧ (loadingFor 0).loading = true ∧
    (calm.Inv ∧ calm.loading = false ∧ (calm.plane 0).width = 0) ∧
    (let s := withPlane (plane0 []) 5
     s.Inv ∧ s.loading = false ∧ (s.plane 0).width = 64 ∧ (List.replicate (4 * 15) (0 : Dot)).length ≠ 64 ∧
      s.jobs.next.get 0 ≤ 5 ∧ 4 < s.jobs.next.get 0 ∧ ((s.plane 0).slot 4).state = .expected ∧
      ((s.plane 0).slot 4).takers = none) ∧
    (let s := withPlane { plane0 [(3, ⟨.spent, none, false⟩)] with base := 3 } 5
     s.Inv ∧ 2 < (s.plane 0).base ∧ ((s.plane 0).slot 3).state = .spent) ∧
    (let s := withPlane { plane0 [] with depth := 16, high := 16, low := 1 } 20
     s.Inv ∧ (s.plane 0).base + (s.plane 0).depth ≤ 16 ∧ 15 < (s.plane 0).base + (s.plane 0).depth) ∧
    (∀ b : Bool, let s := withPlane (plane0 [(0, readySlot b)]) 5
      s.Inv ∧ ((s.plane 0).slot 0).state = .ready (List.replicate 64 0) ∧ ((s.plane 0).slot 0).rendered = b) ∧
    (let s := withPlane { plane0 [(0, readySlot false)] with high := 2, low := 1 } 5
     s.Inv ∧ ((s.plane 0).slot 1).state = .expected ∧ (s.plane 0).paused = false ∧ (s.plane 0).high ≤ (s.plane 0).fill + 1) ∧
    (let s := withPlane { plane0 [] with high := 2, low := 1, paused := true } 5
     s.Inv ∧ ((s.plane 0).slot 0).state = .expected ∧ (s.plane 0).paused = true ∧ (s.plane 0).fill + 1 ≤ (s.plane 0).low) ∧
    (let s := withPlane (plane0 [(0, ⟨.expected, some [0], false⟩)]) 5
     s.Inv ∧ ((s.plane 0).slot 0).takers = some [0] ∧ ∀ h ∈ [(0 : Head)], (s.head h).state ≠ .waitingLine) ∧
    (let s := (printing [job1 (some act1)] (onLine 0 .waitingLine none) [(0, ⟨.expected, some [0], false⟩)]
       (ptuTracking 0 0 0)).setLane 0 (upLane none)
     s.Inv ∧ ((s.plane 0).slot 0).state = .expected ∧ ((s.plane 0).slot 0).takers = some [0] ∧
      (s.head 0).state = .waitingLine ∧ (s.head 0).cursor = some ⟨1, 0⟩ ∧ s.jobView 0 1 = some (view1 act1) ∧
      (view1 act1).plane = 0 ∧ (view1 act1).line 0 = 0 ∧ (s.lane 0).state = .up ∧ (s.lane 0).hold.seen = false ∧
      (s.plane 0).width = 64 ∧ 0 < s.jobs.next.get 0 ∧ s.loading = false) := by
  refine ⟨by decide +kernel, loadingFor_inv 0, rfl, ⟨calm_inv, rfl, rfl⟩, ⟨State.ok_inv (by decide +kernel), ?_⟩,
    ⟨State.ok_inv (by decide +kernel), ?_⟩, ⟨State.ok_inv (by decide +kernel), ?_⟩,
    fun b => ⟨State.ok_inv (by revert b; decide +kernel), ?_⟩, ⟨State.ok_inv (by decide +kernel), ?_⟩,
    ⟨State.ok_inv (by decide +kernel), ?_⟩, ⟨State.ok_inv (by decide +kernel), ?_⟩, ⟨State.ok_inv (by decide +kernel), ?_⟩⟩
  all_goals first | decide +kernel | (revert b; decide +kernel)

/-- The base line taken by one of two takers and by the only one, and the last line of the window below the next line. -/
theorem witness_LastTakerSpendsLine :
    (let s := withPlane (plane0 [(0, ⟨.expected, some [0, 1], false⟩), (4, ⟨.ready (List.replicate 64 0), some [0], true⟩)]) 5
     s.Inv ∧ (s.plane 0).base = 0 ∧ 4 < (s.plane 0).base + (s.plane 0).depth ∧ 4 < s.jobs.next.get 0 ∧
      ((s.plane 0).slot 0).takers = some [0, 1] ∧ ((s.plane 0).slot 0).state ≠ .spent ∧
      ([0, 1] : List Head).filter (fun i => i != 0) ≠ [] ∧ ((s.plane 0).slot 4).takers = some [0] ∧
      ([0] : List Head).filter (fun i => i != 0) = []) ∧
    (let s := withPlane (plane0 [(0, readySlot false)]) 5
     s.Inv ∧ (s.plane 0).base = 0 ∧ ((s.plane 0).slot 0).takers = some [0]) := by
  refine ⟨⟨State.ok_inv (by decide +kernel), ?_⟩, ⟨State.ok_inv (by decide +kernel), ?_⟩⟩ <;> decide +kernel

/-- Tables whose head 0 names column 64 of plane 0. -/
def wideTables : Tables :=
  { Tables.default with
    heads := put Tables.default.heads 0 { HeadTables.default with plane := some 0, map := [(0, .pixel 64)] } }

/-- Tables whose heads 0 and 1 lie 15 lines apart over plane 0, which asks for a depth of 17. -/
def apartTables : Tables :=
  { tables0 with heads := put tables0.heads 1 { HeadTables.default with plane := some 0, offset := 3840 } }

/-- The part at rest with one table in its ACTIVE bank. -/
def withActive (x : Tables) : State := calm.setBanks { Banks.powerOn with banks := #v[⟨x, 0⟩, ⟨Tables.default, 0⟩] }

/-- A plane number outside the range, no parameter, a record present, a depth one too great and the greatest, and tables
that fit, and that the new width or depth fails by one for each reason. -/
theorem witness_SetPlane :
    Taking (asked (ctl [10, 4, 0]) calm) 7 (.setPlane (noPlane 4)) (ctl [10, 4, 0]) [] ∧
    Taking (asked (ctl [10, 3, 0]) calm) 7 (.setPlane (noPlane 3)) (ctl [10, 3, 0]) [] ∧
    Taking (asked (ctl [10, 0, 1, 64, 0]) (active1 [])) 7 (.setPlane { noPlane 0 with width := some 64 })
      (ctl [10, 0, 1, 64, 0]) [] ∧ (active1 []).jobs.records ≠ [] ∧
    (∀ d ∈ [8192, 8193], Taking (asked (ctl ([10, 0, 2] ++ leBytes 2 d)) calm) 7 (.setPlane { noPlane 0 with depth := some d })
      (ctl ([10, 0, 2] ++ leBytes 2 d)) [] ∧ calm.jobs.records = [] ∧
      (32768 < (allPlanes.map fun q => if q = 0 then d else (calm.plane q).depth).sum) = (d = 8193)) ∧
    checkPlaneBanks 0 64 8192 calm.banks = none ∧
    (∀ x ∈ [(tables0, 0, 8192, some (⟨.geometry, 0, 0, none⟩ : Failure)), (tables0, 64, 8192, none),
        (wideTables, 64, 8192, some ⟨.column, 0, 0, some 0⟩), (wideTables, 128, 8192, none),
        (apartTables, 64, 16, some ⟨.spread, 0, 1, none⟩), (apartTables, 64, 17, none)],
      let s := asked (ctl ([10, 0, 3] ++ leBytes 2 x.2.1 ++ leBytes 2 x.2.2.1)) (withActive x.1)
      Taking s 7 (.setPlane { noPlane 0 with width := some x.2.1, depth := some x.2.2.1 })
        (ctl ([10, 0, 3] ++ leBytes 2 x.2.1 ++ leBytes 2 x.2.2.1)) [] ∧ s.Inv ∧
        checkPlaneBanks 0 x.2.1 x.2.2.1 s.banks = x.2.2.2) := by
  refine ⟨taking _ (by decide +kernel), taking _ (by decide +kernel), taking _ (by decide +kernel), by decide,
    fun d h => ⟨taking _ (by revert d; decide +kernel), rfl, ?_⟩, by decide +kernel,
    fun x h => ⟨taking _ (by revert x; decide +kernel), asked_inv (by revert x; decide +kernel), by revert x; decide +kernel⟩⟩
  simp only [List.mem_cons, List.not_mem_nil, or_false] at h
  rcases h with rfl | rfl <;> decide +kernel

/-- Lane 11 of 6.8.3 with its downshift pending. -/
def shifting : Lane := { lane11 4 with downshift := true }

/-- No plane paused, with and without a pending downshift; and a plane paused with the link DOWN and UP. -/
theorem witness_StreamReset :
    (∀ l ∈ [lane11 4, shifting], let s := asked (ctl [11]) ((active1 []).setLane 0 l)
      Taking s 7 .streamReset (ctl [11]) [] ∧ (∀ p, (s.plane p).paused = false) ∧ (s.lane 0).state = .up ∧
        (s.lane 0).downshift = l.downshift) ∧
    (∀ up : Bool, let s := asked (ctl [11]) ((withPlane { plane0 [(0, readySlot false)] with paused := true } 5).setLink
        { LinkPort.powerOn with up := up })
      Taking s 7 .streamReset (ctl [11]) [] ∧ (s.plane 0).paused = true ∧ s.link.up = up ∧ s.link.outbound = none) ∧
    ((after (.streamReset 7) (asked (ctl [11]) ((active1 []).setLane 0 shifting))).lane 0).state = .negotiating :=
  ⟨fun l h => ⟨taking _ rfl, by revert l; decide +kernel, by revert l; decide +kernel, rfl⟩, fun _ => ⟨taking _ rfl, rfl, rfl, rfl⟩,
    by decide +kernel⟩

/-! ## Witnesses: the heads -/

theorem witness_HeadOn :
    (∀ n ∈ [15, 16], (ctl [12, byte n]).request = .headOn n) ∧
    Taking (asked (ctl [12, 16]) calm) 7 (.headOn 16) (ctl [12, 16]) [] ∧
    (let s := State.reset.setLink { LinkPort.powerOn with inbound := [ctl [12, 3]] }
     s.link.inbound = [ctl [12, 3]] ∧ s.link.answers.length < 8 ∧ (ctl [12, 3]).request = .headOn 3 ∧ s.loading = true) :=
  ⟨by decide +kernel, taking _ (by decide +kernel), rfl, by decide, by decide +kernel, rfl⟩

/-- A number outside the range, a head without a cursor and a head on a line of an ACTIVE job, with and without a pending
downshift. -/
theorem witness_HeadOff :
    Taking (asked (ctl [13, 16]) calm) 7 (.headOff 16) (ctl [13, 16]) [] ∧
    Taking (asked (ctl [13, 15]) calm) 7 (.headOff 15) (ctl [13, 15]) [] ∧ (calm.head 15).cursor = none ∧
    (∀ l ∈ [lane11 4, shifting], let s := asked (ctl [13, 0]) ((active1 [job2 .triggered]).setLane 0 l)
      Taking s 7 (.headOff 0) (ctl [13, 0]) [] ∧ s.Inv ∧ (s.lane 0).downshift = l.downshift ∧
      (s.head 0).cursor = some ⟨1, 0⟩ ∧ s.jobs.records = [] ++ job1 (some act1) :: [job2 .triggered] ∧
      (job1 (some act1)).id = 1) ∧
    ((after (.headOff 7 0) (asked (ctl [13, 0]) ((active1 []).setLane 0 shifting))).lane 0).state = .negotiating :=
  ⟨taking _ (by decide +kernel), taking _ (by decide +kernel), rfl, fun l h => ⟨taking _ (by decide +kernel),
    asked_inv (by revert l; decide +kernel), rfl, rfl, rfl, rfl⟩,
    by decide +kernel⟩

/-- Head 0 and lane 0 with job 1 ACTIVE. -/
def onLane (x : HeadRec) (l : Lane) (u : Ptu) : State := (printing [job1 (some act1)] x [] u).setLane 0 l

/-- Head 0 in DISCARDING on line 1, whose due is 256, over a lane at the end of a record, with the line READY or not. -/
def discardingAt (p : Nat) (slots : Sparse Slot) (hold : Bool) : State :=
  (printing [job1 (some act1)] (onLine 1 .discarding (some ⟨⟨1, 0⟩, .discard⟩)) slots (ptuAtPosition p)).setLane 0
    { upLane (some (firing 0)) with hold := Input.atLevel hold }

/-- LOADING and IDLE; DISCARDING on line 1 at the last position before its due and at it, with the line READY and not, over
a lane that takes it and in HOLD; and a transmission one tick too early. -/
theorem witness_TransmissionEnd :
    (∃ s : State, s.Inv ∧ (s.lane 0).tx = some (firing 0) ∧ (firing 0).remaining = 0 ∧ (s.lane 0).waiting = none ∧
      (s.head 0).state = .loading ∧ (s.head 0).inFlight = some ⟨⟨1, 0⟩, .keep⟩) ∧
    (∃ s : State, (s.lane 0).tx = some (firing 0) ∧ (s.head 0).state = .idle ∧
      (s.head 0).inFlight = some ⟨⟨1, 0⟩, .discard⟩) ∧
    (∀ p ∈ [255, 256], ∀ slots ∈ [[], [(1, readySlot false)]], ∀ hold : Bool, let s := discardingAt p slots hold
      s.ok = true ∧ (s.lane 0).tx = some (firing 0) ∧ (s.lane 0).waiting = none ∧ (s.head 0).state = .discarding ∧
      (s.head 0).inFlight = some ⟨⟨1, 0⟩, .discard⟩ ∧ (s.head 0).cursor = some ⟨1, 1⟩ ∧ (s.lane 0).state = .up ∧
      (s.lane 0).hold.seen = hold ∧ (s.cursorData 0 ⟨1, 1⟩).isSome = !slots.isEmpty ∧ s.jobView 0 1 = some (view1 act1) ∧
      s.ptu.s / 2 ^ 24 = p ∧ (view1 act1).due 0 1 = 256 ∧ 1 + 1 < (view1 act1).job.length ∧ p < (view1 act1).due 0 2) ∧
    (∃ s : State, (s.lane 0).tx = some (firing 1) ∧ 0 < (firing 1).remaining) ∧ (calm.lane 0).tx = none := by
  refine ⟨⟨onLane (onLine 0 .loading (some ⟨⟨1, 0⟩, .keep⟩)) (upLane (some (firing 0))) (ptuAtPosition 0), State.ok_inv ?_, ?_⟩,
    ⟨onLane ⟨true, none, .idle, some ⟨⟨1, 0⟩, .discard⟩⟩ (upLane (some (firing 0))) (ptuAtPosition 0), ?_⟩, ?_,
    ⟨onLane HeadRec.powerOn (upLane (some (firing 1))) (ptuAtPosition 0), ?_⟩, rfl⟩ <;> decide +kernel

/-- A READY line starts a preload before its due; at the due, without data, the head goes on to line 2. -/
theorem test_discard_ends :
    ((after (.transmissionEnd 0) (discardingAt 255 [(1, readySlot false)] false)).head 0).state = .loading ∧
    ((after (.transmissionEnd 0) (discardingAt 256 [] false)).head 0).cursor = some ⟨1, 2⟩ := by decide +kernel

/-- A due reached at its own position, and an IDLE head. -/
theorem witness_DueOutcomeRows :
    (active1 []).Inv ∧ (active1 []).reachedDue 0 = some ⟨1, 0⟩ ∧ ((active1 []).head 1).state = .idle :=
  ⟨State.ok_inv (by decide +kernel), by decide +kernel, by decide +kernel⟩

/-- Heads 0 and 1 on lines of job 1 at position 300, past the dues of lines 0 and 1 and before that of line 2; lane 0 is
DOWN and lane 1 in HOLD. -/
def twoHeads (line : Nat) : State :=
  ((((twoTakers.setPtu { ptuAtPosition 300 with presented := 0 }).setHead 0 (onLine 0 .waitingLine none)).setHead 1
    (onLine line .waitingLine none)).setLane 0 (Lane.powerOn false false)).setLane 1
    { upLane none with hold := Input.atLevel true }

/-- The view of the job of `twoHeads`. -/
def view2 : JobView :=
  ⟨job1 (some { act1 with takers := [(0, [0, 1])], progress := 2 }), { act1 with takers := [(0, [0, 1])], progress := 2 },
    { tables0 with heads := put tables0.heads 1 { HeadTables.default with plane := some 0 } }, 0, 0⟩

/-- Line 0 LOADED at the last position before the due of line 1; each other outcome there: a head without data, one whose
next line is READY, one whose transmission is in flight, and HOLD, FAULTED and DOWN; a second head on a line that is not yet
due; and two heads with two dues each, and with two and one. -/
theorem witness_HeadMeetsDue :
    (let s := onLane (onLine 0 .loaded none) (upLane none) { ptuAtPosition 255 with presented := 254 }
     s.Inv ∧ s.ptu.state ≠ .off ∧ s.ptu.presented < s.ptu.s / 2 ^ 24 ∧ (s.head 0).state = .loaded ∧
      (s.head 0).cursor = some ⟨1, 0⟩ ∧ (s.lane 0).state = .up ∧ (s.lane 0).hold.seen = false ∧
      (s.lane 0).fault.seen = false ∧ (∃ v, s.jobView 0 1 = some v ∧ v.due 0 0 ≤ s.ptu.s / 2 ^ 24 ∧ 0 + 1 < v.job.length ∧
        s.ptu.s / 2 ^ 24 < v.due 0 (0 + 1)) ∧ ∀ i, i ≠ 0 → (s.head i).cursor = none) ∧
    (∀ x ∈ [(onLine 0 .waitingLine none, upLane none, ([] : Sparse Slot), DueOutcome.underrun, HeadState.waitingLine),
        (onLine 0 .waitingLine none, upLane none, [(1, readySlot false)], .underrun, .loading),
        (onLine 0 .loading (some ⟨⟨1, 0⟩, .keep⟩), upLane (some (firing 5)), [], .late, .discarding),
        (onLine 0 .loaded none, { upLane none with hold := Input.atLevel true }, [], .missedHold, .waitingLine),
        (onLine 0 .void none, { upLane none with state := .faulted, status := none }, [], .missedFault, .waitingLine),
        (onLine 0 .waitingLine none, Lane.powerOn false false, [], .missedDown, .waitingLine)],
      let s := (printing [job1 (some act1)] x.1 x.2.2.1 { ptuAtPosition 255 with presented := 254 }).setLane 0 x.2.1
      s.ok = true ∧ s.ptu.state ≠ .off ∧ s.ptu.presented < s.ptu.s / 2 ^ 24 ∧ (s.head 0).cursor = some ⟨1, 0⟩ ∧
        dueOutcome (s.lane 0) (s.head 0).state = x.2.2.2.1 ∧ x.2.2.2.1 ≠ .fired ∧ s.jobView 0 1 = some (view1 act1) ∧
        (view1 act1).due 0 0 ≤ s.ptu.s / 2 ^ 24 ∧ s.ptu.s / 2 ^ 24 < (view1 act1).due 0 1 ∧
        (∀ i, i ≠ 0 → (s.head i).cursor = none) ∧ ((after .advance s).head 0).state = x.2.2.2.2) ∧
    ((twoHeads 2).jobView 0 1 = some view2 ∧ (twoHeads 2).jobView 1 1 = some view2 ∧ 300 < view2.due 1 2) ∧
    (∀ n ∈ [0, 1], let s := twoHeads n
      s.ok = true ∧ s.ptu.state ≠ .off ∧ s.ptu.presented < s.ptu.s / 2 ^ 24 ∧ s.ptu.s / 2 ^ 24 = 300 ∧
        (∀ i, 2 ≤ i.val → (s.head i).cursor = none) ∧ (s.head 0).cursor = some ⟨1, 0⟩ ∧ (s.head 1).cursor = some ⟨1, n⟩ ∧
        (s.head 0).state = .waitingLine ∧ (s.head 1).state = .waitingLine ∧ (s.lane 0).state ≠ .up ∧
        (s.lane 1).hold.seen = true ∧ s.jobView 0 1 = some view2 ∧ s.jobView 1 1 = some view2) ∧
    2 < view2.job.length ∧ (∀ h ∈ [(0 : Head), 1], ∀ j ∈ [0, 1], view2.due h j ≤ 300) ∧
    (∀ h ∈ [(0 : Head), 1], 300 < view2.due h 2) ∧
    ((after .advance (twoHeads 1)).head 1).cursor = some ⟨1, 2⟩ := by
  refine ⟨⟨State.ok_inv (by decide +kernel), by decide, by decide +kernel, rfl, rfl, rfl, rfl, rfl, ⟨view1 act1, ?_⟩, ?_⟩, ?_,
    ?_, ?_, ?_, ?_, ?_, ?_⟩ <;> decide +kernel

/-! ## Witnesses: rendering -/

/-- Head 4 has two bands: an unknown band, each of the two, and a band that only an earlier table had. -/
theorem witness_NozzleValuesInRange :
    let v : JobView := ⟨job1 none, act1, { Tables.default with heads := put Tables.default.heads 4 head4 }, 0, 0⟩
    (v.tables.head 4).bands = [⟨90, 2⟩, ⟨255, 5⟩] ∧
      [none, some 0, some 1, some 2].map (fun b => (fireRecord 4 v 0 [] b).waveform) = [2, 2, 5, 5] := by decide +kernel

theorem witness_StitchThreshold : ∀ s ∈ [0, 1, 15], s ≤ 15 ∧ 0 ≤ 15 ∧ (fun _ => 3 : Nat → Nat) 60 ≠ 0 := by decide

theorem witness_ReverseFlagOrdersValues : ∀ t ∈ [head4, head5], 0 < t.nozzles ∧ 63 < t.nozzles := by decide

theorem witness_SubstitutionRaisesToMaximum :
    head5.Wf ∧ 11 < head5.nozzles ∧ (∀ c, mappedValue capped (workedLine 3 1 2 0 2 1) c ≤ 3) ∧
      head5.entry 10 = .dead 70 11 true ∧ (head5.entry 11).canSubstitute = true ∧
      1 ≤ mappedValue capped (workedLine 3 1 2 0 2 1) 70 := by
  refine ⟨HeadTables.ok_wf (by decide +kernel), by decide, fun c => ?_, by decide +kernel, by decide +kernel,
    by decide +kernel⟩
  unfold mappedValue
  split <;> omega

/-! ## Witnesses: the lanes -/

/-- One lane as given, its head at rest. -/
def withLane (h : Head) (l : Lane) : State := calm.setLane h l

theorem withLane_inv {h : Head} {l : Lane} (hl : l.ok = true) : (withLane h l).Inv := setLane_inv calm_inv hl

/-- Head 0 waiting on a READY line of job 1, over a lane. -/
def ready0 (l : Lane) : State :=
  (printing [job1 (some act1)] (onLine 0 .waitingLine none) [(0, readySlot false)] (ptuTracking 0 0 0)).setLane 0 l

theorem ready0_inv {l : Lane} (hl : l.ok = true) : (ready0 l).Inv := setLane_inv (State.ok_inv (by decide +kernel)) hl

/-- A lane in a state that holds a grade. -/
def gradedLane (st : LaneState) : Lane :=
  { Lane.powerOn false false with state := st, grade := some .b, gradeSet := some [.a, .b] }

/-- A lane in TRAINING after `n` echoes at the first of the trial list. -/
def trainingLane (trial : List Grade) (n : Nat) (timer : Option Nat) : Lane :=
  { gradedLane .training with
    trial := some (.b :: trial), progress := some n, lastTrain := some n, timer := timer }

/-- Head 0 DISCARDING on line 1 at the last position before its due, its lane in UP. -/
def discarding1 : State := onLane (onLine 1 .discarding (some ⟨⟨1, 0⟩, .discard⟩)) (upLane (some (firing 5))) (ptuAtPosition 255)

theorem discarding1_dueAhead : discarding1.Inv ∧ (discarding1.lane 0).state = .up ∧ (discarding1.head 0).state = .discarding ∧
    discarding1.DueAhead 0 := by
  refine ⟨State.ok_inv (by decide +kernel), rfl, rfl, fun _ => ⟨⟨1, 1⟩, rfl, fun v hv => ?_⟩⟩
  have h : discarding1.jobView 0 1 = some ⟨job1 (some act1), act1, tables0, 0, 0⟩ := by decide +kernel
  cases h.symm.trans hv
  decide +kernel

/-- A head that does not wait starts no preload, and one that does not discard is ahead of no due. -/
theorem calm_nothingToLoad (l : Lane) (h : Head) : (withLane h l).NothingToLoad h ∧ (withLane h l).DueAhead h := by
  have k : ((withLane h l).head h).state = .idle := by
    show (calm.head h).state = .idle
    revert h; decide +kernel
  exact ⟨fun x => (by rw [k] at x; cases x), fun x => (by rw [k] at x; cases x)⟩

/-- Each state of the lane, with a record under way and without; and for Lane Resume FAULT active, HOLD active, and a head
with a READY line. -/
theorem witness_LaneUpDownResume :
    Taking (asked (ctl [15, 16]) calm) 7 (.laneUp 16) (ctl [15, 16]) [] ∧
    Taking (asked (ctl [16, 16]) calm) 7 (.laneDown 16) (ctl [16, 16]) [] ∧
    (∀ l ∈ [Lane.powerOn false false, { Lane.powerOn false false with tx := some ⟨.capsQuery, [], 9⟩ }, upLane none],
      Taking (asked (ctl [15, 15]) (withLane 15 l)) 7 (.laneUp 15) (ctl [15, 15]) [] ∧
        (asked (ctl [15, 15]) (withLane 15 l)).lane 15 = l) ∧
    (∀ l ∈ [Lane.powerOn false false, { Lane.powerOn false false with state := .negotiating }, trainingLane [.a] 0 none,
        gradedLane .faulted],
      Taking (asked (ctl [16, 15]) (withLane 15 l)) 7 (.laneDown 15) (ctl [16, 15]) [] ∧
        (asked (ctl [16, 15]) (withLane 15 l)).lane 15 = l) ∧
    Taking (asked (ctl [16, 0]) discarding1) 7 (.laneDown 0) (ctl [16, 0]) [] ∧
    Taking (asked (ctl [17, 16]) calm) 7 (.laneResume 16) (ctl [17, 16]) [] ∧
    (∀ l ∈ [upLane none, { gradedLane .faulted with fault := Input.atLevel true },
        { gradedLane .faulted with hold := Input.atLevel true }, gradedLane .faulted],
      Taking (asked (ctl [17, 0]) (ready0 l)) 7 (.laneResume 0) (ctl [17, 0]) [] ∧ (ready0 l).Inv ∧ (ready0 l).lane 0 = l ∧
        ((ready0 l).head 0).state = .waitingLine ∧ ((ready0 l).head 0).cursor = some ⟨1, 0⟩ ∧
        ((ready0 l).cursorData 0 ⟨1, 0⟩).isSome = true) := by
  refine ⟨taking _ (by decide +kernel), taking _ (by decide +kernel), fun l h => ⟨taking _ (by decide +kernel), rfl⟩,
    fun l h => ⟨taking _ (by decide +kernel), rfl⟩, taking _ (by decide +kernel), taking _ (by decide +kernel),
    fun l h => ⟨taking _ (by decide +kernel), ready0_inv ?_, ?_⟩⟩ <;> revert l <;> decide +kernel

/-- Each refusal; a shortened timeout at the last tick it allows and at its own: 1 ms, 25,000 ticks. -/
theorem witness_SetLane :
    Taking (asked (ctl [14, 16, 0]) calm) 7 (.setLane (noLane 16)) (ctl [14, 16, 0]) [] ∧
    Taking (asked (ctl [14, 15, 8, 2]) calm) 7 (.setLane { noLane 15 with mode := some 2 }) (ctl [14, 15, 8, 2]) [] ∧
    (∀ c ∈ [(6 : Byte), 7], Taking (asked (ctl [14, 15, 1, 2, 1, c]) calm) 7
      (.setLane { noLane 15 with mask := some [1, c.toNat] }) (ctl [14, 15, 1, 2, 1, c]) []) ∧
    (∀ x ∈ [1, 2], Taking (asked (ctl [14, 15, 32, byte x]) calm) 7 (.setLane { noLane 15 with autoDown := some x })
      (ctl [14, 15, 32, byte x]) []) ∧
    ∀ e ∈ [24999, 25000],
      let s := asked (ctl [14, 0, 64, 1]) (withLane 0 { upLane none with status := some e })
      Taking s 7 (.setLane { noLane 0 with timeout := some 1 }) (ctl [14, 0, 64, 1]) [] ∧ (s.lane 0).status = some e ∧
        max 1 (min 1 255) * 25000 = 25000 :=
  ⟨taking _ (by decide +kernel), taking _ (by decide +kernel), fun c h => taking _ (by revert c; decide +kernel),
    fun x h => taking _ (by revert x; decide +kernel), fun _ _ => ⟨taking _ (by decide +kernel), rfl, rfl⟩⟩

/-- A caps record intact, and one that is damaged. -/
theorem witness_CapsRecord :
    LaneDelivery.read (board [0x12, 0x0F, 0, 0, 0, 0, 0, 0]) = .caps [.a, .b, .c, .d] ∧
    LaneDelivery.read ⟨true, closed [0x12, 0x0F, 0, 0, 0, 0, 0, 0]⟩ = .damagedOther ∧
    ((withLane 6 { Lane.powerOn false false with state := .negotiating, timer := some 0 }).lane 6).state = .negotiating ∧
    (calm.lane 6).state ≠ .negotiating := by decide +kernel

/-- A lane that the next echo brings to UP, with FAULT at a level and a transmission or none. -/
def trainedUnder (x : Bool) (tx : Option LaneTx) : Lane :=
  { trainingLane [] 3 none with fault := Input.atLevel x, tx := tx }

/-- Echoes 0 to 3, a wrong echo, a damaged one, one before any train record, and the echo timer at 4,999 and 5,000 ticks,
with a further grade and without; and FAULT active and not at the entry to UP, over an IDLE head and over one that waits on
a READY line, where train record 3 has been sent or is still being sent. -/
theorem witness_EchoRecords :
    (∀ n ∈ [0, 1, 2, 3], LaneDelivery.read (board (0x13 :: trainBody n)) = .echo (trainBody n) ∧
      trainBody n ≠ trainBody ((n + 1) % 4)) ∧
    LaneDelivery.read ⟨true, []⟩ = .damagedEcho ∧ (calm.lane 3).state ≠ .training ∧
    (∀ n ∈ [0, 1, 2, 3], ∀ trial ∈ [[], [Grade.a]], ∀ e ∈ [4999, 5000],
      let s := withLane 3 (trainingLane trial n (some e))
      s.Inv ∧ (s.lane 3).state = .training ∧ (s.lane 3).lastTrain = some n ∧ (s.lane 3).progress = some n ∧
        (s.lane 3).trial = some (.b :: trial) ∧ (s.lane 3).timer = some e ∧ s.NothingToLoad 3 ∧ s.DueAhead 3) ∧
    (let l := { trainingLane [] 0 none with lastTrain := none }
     (withLane 3 l).Inv ∧ (withLane 3 l).lane 3 = l) ∧
    (∀ x : Bool, let l := { trainingLane [] 3 none with fault := Input.atLevel x }
      ((withLane 3 l).lane 3) = l ∧ (l.settings.latch && l.fault.seen) = x) ∧
    (∀ x : Bool, ∀ tx ∈ [none, some ⟨.train 3, (LaneRecord.train 3).bytes, 9⟩], let s := ready0 (trainedUnder x tx)
      s.ok = true ∧ (s.lane 0).state = .training ∧ (s.lane 0).lastTrain = some 3 ∧ (s.lane 0).progress = some 3 ∧
        (s.lane 0).hold.seen = false ∧ ((s.lane 0).settings.latch && (s.lane 0).fault.seen) = x ∧
        (s.head 0).state = .waitingLine ∧ (s.head 0).cursor = some ⟨1, 0⟩ ∧ (s.cursorData 0 ⟨1, 0⟩).isSome = true ∧
        ((after (.echoRecord 0 (board (0x13 :: trainBody 3))) s).head 0).state = if x then .void else .loading) := by
  refine ⟨by decide +kernel, by decide +kernel, by decide +kernel,
    fun n hn trial ht e he => ⟨withLane_inv ?_, rfl, rfl, rfl, rfl, rfl, (calm_nothingToLoad _ 3).1, (calm_nothingToLoad _ 3).2⟩,
    ⟨withLane_inv (by decide +kernel), rfl⟩, fun x => ⟨rfl, by cases x <;> rfl⟩, by decide +kernel⟩
  revert n trial e; decide +kernel

/-- A record at its end and one tick before it, with and without a record that waits; the negotiation timer at 49,999 and
50,000, the status timer at 499,999 and 500,000, FIRE at its last tick and its end. -/
theorem witness_LaneOwnTimes :
    (∀ k ∈ [LaneRecord.capsQuery, .train 3], ∀ w ∈ [none, some (LaneRecord.train 0)], ∀ n ∈ [0, 1],
      let s := withLane 3 { trainingLane [.a] 3 none with tx := some ⟨k, k.bytes, n⟩, waiting := w }
      s.Inv ∧ (s.lane 3).tx = some ⟨k, k.bytes, n⟩ ∧ (s.lane 3).waiting = w) ∧
    (∀ e ∈ [49999, 50000], let s := withLane 3 { Lane.powerOn false false with state := .negotiating, timer := some e }
      s.Inv ∧ (s.lane 3).state = .negotiating ∧ (s.lane 3).timer = some e) ∧
    (∀ e ∈ [499999, 500000], let s := withLane 3 { upLane none with status := some e }
      s.Inv ∧ (s.lane 3).status = some e ∧ (s.lane 3).settings.timeout * 25000 = 500000) ∧
    (∀ n ∈ [0, 1], ((withLane 3 { upLane none with fire := .high n }).lane 3).fire = .high n) ∧ (calm.lane 3).fire = .low := by
  refine ⟨fun k hk w hw n hn => ⟨withLane_inv ?_, rfl, rfl⟩, fun e h => ⟨withLane_inv ?_, rfl, rfl⟩,
    fun e h => ⟨withLane_inv ?_, rfl, ?_⟩, fun _ _ => rfl, by decide +kernel⟩ <;> first
      | (revert k w n; decide +kernel)
      | (revert e; decide +kernel)

/-- A status record with temperature code 60, count 14 and board fault code `c`. -/
def status14 (c : Byte) : LaneDelivery := board ([0x11, 60] ++ leBytes 2 14 ++ [c, 0, 0, 0])

/-- Lane 11 after a status record of `status14`: a downshift pending or not. -/
def lane11After (count : Nat) (down : Bool) : Lane :=
  { lane11 count with
    band := some 0, status := some 0, badCount := some 14, faultCode := some 0, downshift := down }

/-- Delta 10, which reaches the threshold, and 9; a new fault code and none; a head on a line and an IDLE one; a lane in no
state that takes the record; and a next lower grade. -/
theorem witness_BoardStatus :
    ([⟨80, 1⟩, ⟨255, 6⟩].getLast?.map Band.bound) = some 255 ∧
    LaneDelivery.read (status14 0) = .status 60 14 0 ∧ LaneDelivery.read (status14 3) = .status 60 14 3 ∧
    (calm.lane 11).state ≠ .up ∧ (calm.lane 11).state ≠ .faulted ∧
    (14 + 65536 - 4) % 65536 = 10 ∧ (14 + 65536 - 5) % 65536 = 9 ∧
    (∀ x ∈ [(4, true), (5, false)], let s := degrading x.1
      let l := s.lane 11
      l = lane11 x.1 ∧ l.state = .up ∧ l.badCount = some x.1 ∧ l.downshift = false ∧ l.settings.degrade = 10 ∧
        l.settings.autoDown = true ∧ l.nextLower = some .c ∧ l.faultCode = none ∧
        lane11After x.1 x.2 = { l with
          band := some (moveBand ((s.banks.tables s.banks.active).head 11).bands 60 l.settings.hyst l.band)
          status := some 0, badCount := some 14, faultCode := some 0
          downshift := (lane11After x.1 x.2).downshift } ∧ (lane11After x.1 x.2).downshift = x.2) ∧
    ((degrading 4).head 11).state = .waitingLine ∧ ((withLane 11 (lane11 4)).head 11).state = .idle := by
  decide +kernel

/-- Each level with each mode, a waiting head with a READY line, and a head that discards. -/
theorem witness_Sidebands :
    (∀ x : Bool, let s := withLane 3 { upLane none with hold := Input.atLevel x, fault := Input.atLevel x }
      (s.lane 3).hold.seen = x ∧ (s.lane 3).fault.seen = x ∧ s.NothingToLoad 3 ∧ s.DueAhead 3) ∧
    (let s := ready0 { upLane none with hold := Input.atLevel true }
     s.Inv ∧ (s.lane 0).hold.seen = true ∧ (s.lane 0).state = .up ∧ (s.head 0).state = .waitingLine ∧
      (s.head 0).cursor = some ⟨1, 0⟩ ∧ (s.cursorData 0 ⟨1, 0⟩).isSome = true) ∧
    (discarding1.lane 0).settings.latch = true ∧ (discarding1.lane 0).state = .up ∧ (discarding1.lane 0).fault.seen = false ∧
    discarding1.DueAhead 0 ∧ (calm.lane 3).state ≠ .up :=
  ⟨fun _ => ⟨rfl, rfl, (calm_nothingToLoad _ 3).1, (calm_nothingToLoad _ 3).2⟩,
    ⟨ready0_inv (by decide +kernel), rfl, rfl, rfl, rfl, by decide +kernel⟩, rfl, rfl, rfl,
    discarding1_dueAhead.2.2.2, by decide +kernel⟩

/-! ## Witnesses: the table banks -/

/-- The bank that is not ACTIVE in a state. -/
def withOther (x : OtherBank) : State := calm.setBanks { Banks.powerOn with other := x }

/-- The targets and the fields that R144 allows, as `WriteTable` spells them. -/
def inTarget (x : WriteArgs) : Prop :=
  match x.target, x.body with
  | .head _, .dropMap .. => False
  | .head n, .nozzleRange .. | .head n, .geometry .. | .head n, .bands .. => n < 16
  | .plane n, _ => n < 4

def inFields (x : WriteArgs) : Prop :=
  match x.body with
  | .nozzleRange g es => g ≤ 2047 ∧ 1 ≤ es.length ∧ es.length ≤ 256 ∧ g + es.length ≤ 2048 ∧
    ∀ w ∈ es, let n := w.toNat
      n % 8 ≤ 4 ∧ (n % 8 = 2 ∨ n % 8 = 3 → 1 ≤ n / 2 ^ 18 % 16)
  | .geometry p n o r => p ≤ 4 ∧ 64 ≤ n ∧ n ≤ 2048 ∧ n % 64 = 0 ∧ o ≤ 16777215 ∧ r ≤ 1
  | .bands l => 1 ≤ l.length ∧ l.length ≤ 4 ∧ ∀ w ∈ l, w.1 ≤ 255 ∧ w.2 ≤ 15
  | .dropMap v0 v1 v2 v3 => v0 ≤ 3 ∧ v1 ≤ 3 ∧ v2 ≤ 3 ∧ v3 ≤ 3

/-- The SHADOW bank lists nozzle 0 of head 0. -/
def mapped : State :=
  calm.setBanks { Banks.powerOn with banks := #v[⟨Tables.default, 0⟩,
    ⟨{ Tables.default with heads := put Tables.default.heads 0 { HeadTables.default with map := [(0, .pixel 5)] } }, 0⟩] }

/-- A body too short, each kind of body, OFF written over a listed nozzle, each target and field at its last value, and one
beyond it. -/
theorem witness_WriteTable :
    Taking (asked (ctl [18]) calm) 7 (.writeTable none) (ctl [18]) [] ∧
    (∀ v ∈ [3, 4], let a : WriteArgs := ⟨.plane 0, .dropMap 0 1 2 v⟩
      Taking (asked (ctl [18, 3, 1, 0, 0, 1, 2, byte v]) calm) 7 (.writeTable (some a)) (ctl [18, 3, 1, 0, 0, 1, 2, byte v]) [] ∧
        (asked (ctl [18, 3, 1, 0, 0, 1, 2, byte v]) calm).Inv ∧ calm.banks.other = .shadow ∧ inTarget a ∧
        (inFields a ↔ v = 3)) ∧
    (∀ x ∈ [((⟨.head 0, .nozzleRange 0 [0, 0x11]⟩ : WriteArgs), ([18, 0, 0, 0, 0, 0, 2, 0, 0, 0, 0, 0, 0x11, 0, 0, 0] : List Byte)),
        (⟨.plane 3, .geometry 4 2048 16777215 1⟩, [18, 1, 1, 3, 4, 0, 8, 255, 255, 255, 1]),
        (⟨.head 0, .bands [(9, 15)]⟩, [18, 2, 0, 0, 1, 9, 15])],
      let s := asked (ctl x.2) mapped
      Taking s 7 (.writeTable (some x.1)) (ctl x.2) [] ∧ s.Inv ∧ s.banks.other = .shadow) ∧
    (let s := after (.writeTable 7 (some ⟨.head 0, .nozzleRange 0 [0, 0x11]⟩))
        (asked (ctl [18, 0, 0, 0, 0, 0, 2, 0, 0, 0, 0, 0, 0x11, 0, 0, 0]) mapped)
     ((s.banks.tables 1).head 0).map = [(1, .pixel 1)]) ∧
    (withOther .draining).banks.other ≠ .shadow ∧
    (∀ x ∈ ([⟨.head 15, .nozzleRange 2047 [1]⟩, ⟨.plane 3, .geometry 4 2048 16777215 1⟩, ⟨.head 0, .bands [(9, 15)]⟩] :
      List WriteArgs), inTarget x ∧ inFields x) ∧
    (∀ x ∈ ([⟨.head 16, .nozzleRange 2047 [1]⟩, ⟨.plane 4, .geometry 4 2048 0 1⟩, ⟨.head 0, .dropMap 0 0 0 0⟩] :
      List WriteArgs), ¬ inTarget x) ∧
    ∀ x ∈ ([⟨.head 15, .nozzleRange 2047 [1, 1]⟩, ⟨.head 0, .nozzleRange 0 [5]⟩, ⟨.head 0, .nozzleRange 0 [2]⟩,
      ⟨.head 0, .geometry 4 2112 0 1⟩, ⟨.head 0, .geometry 4 64 0 2⟩, ⟨.head 0, .bands []⟩,
      ⟨.head 0, .bands [(9, 16)]⟩] : List WriteArgs), ¬ inFields x := by
  refine ⟨taking _ (by decide +kernel), fun v h => ⟨taking _ (by revert v; decide +kernel),
    asked_inv (by revert v; decide +kernel), rfl, ?_⟩, fun x h => ⟨taking _ (by revert x; decide +kernel),
    asked_inv (by revert x; decide +kernel), rfl⟩, by decide +kernel, by decide, ?_, ?_, ?_⟩
  · simp only [List.mem_cons, List.not_mem_nil, or_false] at h
    rcases h with rfl | rfl <;> simp [inTarget, inFields]
  all_goals simp [inTarget, inFields]

/-- Every head on plane 0 with one pixel; heads 5 and 7 as given. -/
def tablesWith (x y : HeadTables → HeadTables) : Tables :=
  let z : HeadTables := { HeadTables.default with plane := some 0, map := [(0, .pixel 3)] }
  { Tables.default with heads := put (put (Vector.replicate 16 z) 5 (x z)) 7 (y z) }

/-- Four planes of 64 pixels and 16 lines. -/
def narrow : Vector PlaneStore 4 := Vector.replicate 4 { plane0 [] with depth := 16, high := 2, low := 1 }

/-- Tables that pass; and a failure of each reason, where heads 5 and 7 both fail and head 5 at two places: the first head,
and in it the first nozzle or band, are named, and for SPREAD the first head of the largest offset. -/
theorem witness_ValidationPasses : (∀ h, sparseWf .off (tables0.head h).map) ∧
    validate narrow (tablesWith id id) 1 = none ∧
    ∀ x ∈ [((fun t => { t with nozzles := 65 } : HeadTables → HeadTables), CheckReason.geometry, none),
        (fun t => { t with map := [(2, .pixel 64), (3, .pixel 70)] }, .column, some 2),
        (fun t => { t with map := [(0, .pixel 3), (1, .dead 0 0 true), (2, .dead 0 2 true)] }, .substitute, some 2),
        (fun t => { t with map := [(1, .stitchLow 5 3), (4, .stitchLow 6 3)] }, .stitch, some 1),
        (fun t => { t with bands := [⟨3, 0⟩, ⟨4, 0⟩, ⟨4, 0⟩, ⟨255, 0⟩] }, .bands, some 2),
        (fun t => { t with offset := 3585 }, .spread, none)],
      (∀ h, sparseWf .off ((tablesWith x.1 x.1).head h).map) ∧
        validate narrow (tablesWith x.1 x.1) 1 = some ⟨x.2.1, 1, 5, x.2.2⟩ := by decide +kernel

/-- Banks whose SHADOW bank fails, and passes with and without a job bound to the ACTIVE bank; a copy at 37,499 and
37,500 ticks. -/
theorem witness_CommitBank :
    (∀ x ∈ [OtherBank.shadow, .draining], Taking (asked (ctl [20]) (withOther x)) 7 .commitBank (ctl [20]) [] ∧
      (withOther x).banks.other = x) ∧
    (let b := { Banks.powerOn with banks := #v[⟨Tables.default, 0⟩, ⟨tables0, 0⟩] }
     b.other = .shadow ∧ (validate calm.store (b.tables b.otherId) b.otherId).isSome = true) ∧
    (let s := active1 []
     s.Inv ∧ s.banks.other = .shadow ∧ validate s.store (s.banks.tables s.banks.otherId) s.banks.otherId = none ∧
      s.banks.bound s.banks.active = 1) ∧
    validate calm.store (calm.banks.tables calm.banks.otherId) calm.banks.otherId = none ∧
    calm.banks.bound calm.banks.active = 0 ∧
    (∀ e ∈ [37499, 37500], (withOther (.copying e)).banks.other = .copying e) :=
  ⟨fun _ _ => ⟨taking _ rfl, rfl⟩, by decide +kernel, ⟨State.ok_inv (by decide +kernel), rfl, by decide +kernel, rfl⟩,
    by decide +kernel, rfl, fun _ _ => rfl⟩

/-! ## Witnesses: the raster link and the Control Unit -/

theorem witness_ReloadAndUnknown :
    Taking (asked (ctl [99]) calm) 7 (.unknown 99) (ctl [99]) [] ∧ Taking (asked (ctl []) calm) 7 (.unknown 255) (ctl []) [] ∧
    Taking (asked (ctl [4, 0]) calm) 7 (.unknown 4) (ctl [4, 0]) [] ∧
    Taking (asked (ctl [26]) (active1 [])) 7 .reloadConfig (ctl [26]) [] ∧ (active1 []).jobs.records ≠ [] ∧
    (withOther (.copying 0)).banks.other ≠ .shadow ∧
    (let s := asked (ctl [26]) calm
     Taking s 7 .reloadConfig (ctl [26]) [] ∧ s.jobs.records = [] ∧ s.banks.other = .shadow ∧ s.ptu.state = .off) ∧
    (let s := asked (ctl [26]) (withPtu (ptuTracking 0 0 0))
     Taking s 7 .reloadConfig (ctl [26]) [] ∧ s.jobs.records = [] ∧ s.banks.other = .shadow ∧ s.ptu.state ≠ .off) :=
  ⟨taking _ (by decide +kernel), taking _ (by decide +kernel), taking _ (by decide +kernel), taking _ rfl, by decide,
    by decide, ⟨taking _ rfl, rfl, rfl, rfl⟩, ⟨taking _ rfl, rfl, rfl, by decide⟩⟩

/-- A link with n frames in the inbound control queue. -/
def inboundOf (n : Nat) : State := calm.setLink { calm.link with inbound := List.replicate n (ctl [4]) }

/-- A control frame arriving on a queue of 7 and of 8; a line frame of two pixel bytes; and each failure, by one byte. -/
theorem witness_FrameArrival :
    (List.replicate 4224 (0 : Byte)).length ≤ 4224 ∧ (List.replicate 7 (0 : Byte)).length < 8 ∧
    ((4 : Byte) ≠ 1 ∧ (4 : Byte) ≠ 2 ∧ (4 : Byte) ≠ 3) ∧
    checkEnvelope (.whole (frameBytes 3 7 [4])) = .ok (.control (ctl [4])) ∧
    checkEnvelope (.whole (frameBytes 4 7 [4])) = .error .badKind ∧
    checkEnvelope (.whole (frameBytes 1 7 [0xFE, 9, 9, 9, 1, 2, 3, 4, 0xE4, 0x1B])) =
      .ok (.line 2 0x04030201 [0, 1, 2, 3, 3, 2, 1, 0]) ∧
    checkEnvelope (.whole ([3, 7, 1, 0, 4] ++ [0, 0, 0, 0])) = .error .badCheck ∧
    ([0, 0, 0, 0] : List Byte) ≠ crcBytes [3, 7, 1, 0, 4] ∧
    checkEnvelope (.whole [3, 7, 1, 0, 4, 0, 0, 0]) = .error .badCheck ∧ [(4 : Byte), 0, 0, 0].length < 1 + 4 ∧
    checkEnvelope (.whole (frameBytes 3 7 [4] ++ [0])) = .error .badLength ∧
    (List.replicate 4225 (0 : Byte)).length = (0x81 : Byte).toNat + (0x10 : Byte).toNat * 2 ^ 8 ∧
    (∀ n ∈ [7, 8], (inboundOf n).Inv ∧ (inboundOf n).link.inbound.length = n) :=
  ⟨Nat.le_of_eq List.length_replicate, by decide, by decide, by decide +kernel, by decide +kernel, by decide +kernel,
    by decide +kernel, by decide +kernel, by decide +kernel, by decide, by decide +kernel,
    (by rw [List.length_replicate]; decide), fun n h => ⟨State.ok_inv (by revert n; decide +kernel), List.length_replicate⟩⟩

/-- An entry of the notice queue. -/
def entry : Entry := ⟨.stall .tracking, 0, none⟩

/-- The Notice Unit with n entries waiting, one batch at the arbiter or none. -/
def noticesOf (n : Nat) (batch : Bool) : NoticeUnit :=
  { NoticeUnit.powerOn with
    queue := List.replicate n entry, batchWaiting := batch, idleTimer := if n = 0 then none else some 0 }

/-- The link UP with a frame of a kind being sent, and n entries behind the batch. -/
def sending (k : OutKind) (n : Nat) : State :=
  (calm.setNotices (noticesOf n true)).setLink
    { calm.link with
      up := true, answers := [⟨7, 4, .ok, []⟩], batch := some [entry], outbound := some ⟨k, []⟩ }

theorem sending_inv {k : OutKind} {n : Nat} (h : (noticesOf n true).ok = true) (g : (sending k n).link.ok = true) :
    (sending k n).Inv :=
  { calm_inv with notices := NoticeUnit.ok_wf h, link := LinkPort.ok_wf g, batch := rfl }

/-- The link in both states, each kind of frame at its end, and a queue one below the trigger level and at it. -/
theorem witness_LinkEvents :
    calm.Inv ∧ calm.link.up = false ∧ calm.link.outbound = none ∧
    ∀ k ∈ [OutKind.flow, .answer, .notice], ∀ n ∈ [0, 7, 8, 17], (sending k n).Inv ∧ (sending k n).link.up = true ∧
      (sending k n).link.outbound = some ⟨k, []⟩ ∧ (sending k n).notices.queue.length = n ∧
      (sending k n).notices.level = 8 := by
  refine ⟨calm_inv, rfl, rfl, fun k hk n hn => ⟨sending_inv ?_ ?_, rfl, rfl, List.length_replicate, rfl⟩⟩
  · revert n; decide +kernel
  · revert k n; decide +kernel

/-! ## Witnesses: notices, conditions and counters -/

/-- The queue one below the trigger level and at it, full, with a batch at the arbiter and without. -/
theorem witness_NoticeSubmission :
    (Notice.glitch 0).kind ∈ calm.notices.mask ∧ (Notice.stall .tracking).kind ∉ calm.notices.mask ∧
    (∀ n ∈ [6, 7], (noticesOf n false).queue.length = n ∧ (noticesOf n false).level = 8 ∧ (noticesOf n false).ok = true) ∧
    (∀ n ∈ [63, 64], (noticesOf n true).queue.length = n ∧ (noticesOf n true).ok = true) ∧
    calm.condition .slip = false ∧
    (calm.setNotices { calm.notices with conditions := Vector.replicate 56 true }).condition .slip = true := by
  decide +kernel

/-- Each command with a refusal and without, each setting, and the idle timer at 24,999 and 25,000 ticks. -/
theorem witness_NoticeCommands :
    (∀ k : NoticeKind, k.code ≠ 255) ∧
    Taking (asked (ctl [21, 1, 1, 255]) calm) 7 (.setNotices { noNotices with mask := some [255] }) (ctl [21, 1, 1, 255]) [] ∧
    Taking (asked (ctl [21, 1, 1, 4]) calm) 7 (.setNotices { noNotices with mask := some [4] }) (ctl [21, 1, 1, 4]) [] ∧
    NoticeKind.ptuState.code ≤ 19 ∧
    (∀ b : Bool, Taking (asked (ctl [21, 2, 4]) (calm.setNotices (noticesOf 4 b))) 7
      (.setNotices { noNotices with level := some 4 }) (ctl [21, 2, 4]) []) ∧
    (∀ x ∈ [0, 1, 20], Taking (asked (ctl [21, 4, byte x]) (calm.setNotices (noticesOf 4 false))) 7
      (.setNotices { noNotices with idle := some x }) (ctl [21, 4, byte x]) []) ∧
    Taking (asked (ctl [22, 255]) calm) 7 (.clearConditions .all) (ctl [22, 255]) [] ∧
    Taking (asked (ctl [22, 1, 12, 15]) calm) 7 (.clearConditions (.some [(12, 15)])) (ctl [22, 1, 12, 15]) [] ∧
    (CondName.shortfall 15).codes = (12, 15) ∧
    Taking (asked (ctl [22, 1, 12, 16]) calm) 7 (.clearConditions (.some [(12, 16)])) (ctl [22, 1, 12, 16]) [] ∧
    (∀ c : CondName, c.codes ≠ (12, 16)) ∧
    (∀ g ∈ [0, 4, 5], Taking (asked (ctl [25, byte g]) calm) 7 (.clearCounters g) (ctl [25, byte g]) []) ∧
    ∀ e ∈ [24999, 25000], ∀ b : Bool, let u := { noticesOf 4 b with idleTimer := some e }
      u.ok = true ∧ u.idleTimer = some e ∧ u.idle * 1250 = 25000 ∧ u.queue ≠ [] ∧ u.batchWaiting = b := by
  refine ⟨fun k => by cases k <;> decide, taking _ (by decide +kernel), taking _ (by decide +kernel), by decide,
    fun b => taking _ (by decide +kernel), fun x h => taking _ ?_, taking _ (by decide +kernel), taking _ (by decide +kernel),
    by decide, taking _ (by decide +kernel), ?_, fun g h => taking _ ?_, fun e he b => ?_⟩
  · revert x; decide +kernel
  · intro c
    cases c <;> simp only [CondName.codes] <;> intro h <;> (have := congrArg Prod.snd h; simp only at this; omega)
  · revert g; decide +kernel
  · revert e b; decide +kernel

/-! ## Witness: a usable image -/

theorem length_leBytes (w n : Nat) : (leBytes w n).length = w := by
  induction w generalizing n with
  | zero => rfl
  | succ w ih => simp [leBytes, ih]

theorem leNat_leBytes {w n : Nat} (h : n < 256 ^ w) : leNat (leBytes w n) = n := by
  induction w generalizing n with
  | zero => simp at h; simp [leBytes, leNat, h]
  | succ w ih =>
    have : n / 256 < 256 ^ w := by rw [Nat.pow_succ, Nat.mul_comm] at h; exact Nat.div_lt_of_lt_mul h
    simp only [leBytes, leNat, ih this, BitVec.toNat_ofNat]
    omega

theorem readNum_leBytes {w n : Nat} (rest : List Byte) (h : n < 256 ^ w) :
    readNum w (leBytes w n ++ rest) = some (n, rest) := by
  have l := length_leBytes w n
  simp [readNum, l, leNat_leBytes h]

theorem readOpt_leBytes {m b w n : Nat} (rest : List Byte) (hb : m.testBit b = true) (h : n < 256 ^ w) :
    readOpt m b w (leBytes w n ++ rest) = some (some n, rest) := by
  simp [readOpt, hb, readNum_leBytes rest h]

/-- Fields of one kind, each written alike. -/
theorem readMany_replicate {α : Type} {read : List Byte → Option (α × List Byte)} {x : List Byte} {v : α}
    (h : ∀ rest, read (x ++ rest) = some (v, rest)) (n : Nat) (rest : List Byte) :
    readMany read n ((List.replicate n x).flatten ++ rest) = some (List.replicate n v, rest) := by
  induction n with
  | zero => rfl
  | succ n ih => simp [readMany, List.replicate_succ, h, ih]

/-- The sections of an image (R169), each at its default but for a depth d, a band count n and one grade code g. -/
def imageHead (n : Nat) : List Byte :=
  leBytes 1 4 ++ (leBytes 2 64 ++ (leBytes 3 0 ++ (leBytes 1 0 ++ ((List.replicate 2048 (leBytes 4 0)).flatten ++
    (leBytes 1 n ++ (List.replicate 4 [255, 0]).flatten)))))

def imagePlane (d : Nat) : List Byte := leBytes 2 0 ++ (leBytes 2 d ++ (leBytes 2 6144 ++ leBytes 2 2048))

def imagePosition : List Byte :=
  leBytes 3 65536 ++ (leBytes 1 3 ++ (leBytes 1 2 ++ (leBytes 1 1 ++ (leBytes 2 256 ++ (leBytes 2 16 ++
    (leBytes 4 1048576 ++ (leBytes 4 2147483648 ++ (leBytes 4 262144 ++ leBytes 3 2500000))))))))

def imageTrigger : List Byte := leBytes 1 0 ++ (leBytes 2 500 ++ (leBytes 2 100 ++ leBytes 2 2000))

def imageLane (g : Byte) (e : Nat) : List Byte :=
  [1, g] ++ (leBytes 1 4 ++ (leBytes 1 4 ++ (leBytes 1 1 ++ (leBytes 1 0 ++ (leBytes 1 1 ++
    (leBytes 1 1 ++ (leBytes 1 2 ++ leBytes 1 e)))))))

def imageBody (d n : Nat) (g : Byte) (e : Nat) : List Byte :=
  [1, 4] ++ (leBytes 1 8 ++ (leBytes 1 20 ++ ((List.replicate 4 (imagePlane d)).flatten ++
    ((List.replicate 4 (List.replicate 4 (leBytes 1 0)).flatten).flatten ++ ((List.replicate 16 (imageHead n)).flatten ++
      (imagePosition ++ (imageTrigger ++ (List.replicate 16 (imageLane g e)).flatten)))))))

theorem readWord_zero (rest : List Byte) : readWord (leBytes 4 0 ++ rest) = some (0, rest) := by
  simp [readWord, readNum_leBytes rest (show 0 < 256 ^ 4 by decide)]

theorem readPair_cons (rest : List Byte) : readPair ([255, 0] ++ rest) = some ((255, 0), rest) := rfl

/-- A head's part of an image, for any nozzle map bytes. -/
theorem readImageHead_parts {ws bs : List Byte} {l : List (BitVec 32)} {b : List (Nat × Nat)}
    (hw : ∀ rest, readMany readWord Config.mapEntries (ws ++ rest) = some (l, rest))
    (hb : ∀ rest, readMany readPair 4 (bs ++ rest) = some (b, rest)) {n : Nat} (hn : n < 256) (rest : List Byte) :
    readImageHead ((leBytes 1 4 ++ (leBytes 2 64 ++ (leBytes 3 0 ++ (leBytes 1 0 ++ (ws ++ (leBytes 1 n ++ bs)))))) ++ rest) =
      some (⟨4, 64, 0, 0, l, n, b⟩, rest) := by
  simp only [List.append_assoc, readImageHead, Option.bind_eq_bind, Option.bind_some, hw, hb,
    readNum_leBytes _ (show 4 < 256 ^ 1 by decide), readNum_leBytes _ (show 64 < 256 ^ 2 by decide),
    readNum_leBytes _ (show 0 < 256 ^ 3 by decide), readNum_leBytes _ (show 0 < 256 ^ 1 by decide),
    readNum_leBytes _ (show n < 256 ^ 1 by omega)]

/-- The head that `imageHead` writes. -/
def headRead (n : Nat) : ImageHead := ⟨4, 64, 0, 0, List.replicate 2048 0, n, List.replicate 4 (255, 0)⟩

theorem readImageHead_of {n : Nat} (hn : n < 256) (rest : List Byte) :
    readImageHead (imageHead n ++ rest) = some (headRead n, rest) :=
  readImageHead_parts (readMany_replicate readWord_zero 2048) (readMany_replicate readPair_cons 4) hn rest

/-- The plane that `imagePlane` writes. -/
def planeRead (d : Nat) : PlaneArgs := ⟨0, some 0, some d, some 6144, some 2048⟩

theorem readPlane_of {d : Nat} (hd : d < 65536) (rest : List Byte) :
    readPlane 0 15 (imagePlane d ++ rest) = some (planeRead d, rest) := by
  simp only [imagePlane, planeRead, List.append_assoc, readPlane, Option.bind_eq_bind, Option.bind_some,
    readOpt_leBytes _ (show Nat.testBit 15 0 = true by decide) (show 0 < 256 ^ 2 by decide),
    readOpt_leBytes _ (show Nat.testBit 15 1 = true by decide) (show d < 256 ^ 2 by omega),
    readOpt_leBytes _ (show Nat.testBit 15 2 = true by decide) (show 6144 < 256 ^ 2 by decide),
    readOpt_leBytes _ (show Nat.testBit 15 3 = true by decide) (show 2048 < 256 ^ 2 by decide)]

theorem readDrops_default (rest : List Byte) :
    readDrops ((List.replicate 4 (leBytes 1 0)).flatten ++ rest) = some (List.replicate 4 0, rest) :=
  readMany_replicate (fun r => readNum_leBytes r (show 0 < 256 ^ 1 by decide)) 4 rest

theorem readPosition_default (rest : List Byte) : readPosition 1023 (imagePosition ++ rest) =
    some (⟨some 65536, some 3, some 2, some 1, some 256, some 16, some 1048576, some 2147483648, some 262144,
      some 2500000⟩, rest) := by
  simp only [imagePosition, List.append_assoc, readPosition, Option.bind_eq_bind, Option.bind_some,
    readOpt_leBytes _ (show Nat.testBit 1023 0 = true by decide) (show 65536 < 256 ^ 3 by decide),
    readOpt_leBytes _ (show Nat.testBit 1023 1 = true by decide) (show 3 < 256 ^ 1 by decide),
    readOpt_leBytes _ (show Nat.testBit 1023 2 = true by decide) (show 2 < 256 ^ 1 by decide),
    readOpt_leBytes _ (show Nat.testBit 1023 3 = true by decide) (show 1 < 256 ^ 1 by decide),
    readOpt_leBytes _ (show Nat.testBit 1023 4 = true by decide) (show 256 < 256 ^ 2 by decide),
    readOpt_leBytes _ (show Nat.testBit 1023 5 = true by decide) (show 16 < 256 ^ 2 by decide),
    readOpt_leBytes _ (show Nat.testBit 1023 6 = true by decide) (show 1048576 < 256 ^ 4 by decide),
    readOpt_leBytes _ (show Nat.testBit 1023 7 = true by decide) (show 2147483648 < 256 ^ 4 by decide),
    readOpt_leBytes _ (show Nat.testBit 1023 8 = true by decide) (show 262144 < 256 ^ 4 by decide),
    readOpt_leBytes _ (show Nat.testBit 1023 9 = true by decide) (show 2500000 < 256 ^ 3 by decide)]

theorem readTrigger_default (rest : List Byte) : readTrigger 15 (imageTrigger ++ rest) =
    some (⟨some 0, some 500, some 100, some 2000⟩, rest) := by
  simp only [imageTrigger, List.append_assoc, readTrigger, Option.bind_eq_bind, Option.bind_some,
    readOpt_leBytes _ (show Nat.testBit 15 0 = true by decide) (show 0 < 256 ^ 1 by decide),
    readOpt_leBytes _ (show Nat.testBit 15 1 = true by decide) (show 500 < 256 ^ 2 by decide),
    readOpt_leBytes _ (show Nat.testBit 15 2 = true by decide) (show 100 < 256 ^ 2 by decide),
    readOpt_leBytes _ (show Nat.testBit 15 3 = true by decide) (show 2000 < 256 ^ 2 by decide)]

/-- The lane that `imageLane` writes. -/
def laneRead (g : Byte) (e : Nat) : ImageLane :=
  ⟨⟨0, some [g.toNat], some 4, some 4, some 1, some 0, some 1, some 1, some 2⟩, e⟩

theorem readImageLane_of (g : Byte) {e : Nat} (he : e < 256) (rest : List Byte) :
    readImageLane (imageLane g e ++ rest) = some (laneRead g e, rest) := by
  have h (r : List Byte) : readSet ([1, g] ++ r) = some ([g.toNat], r) := by simp [readSet]
  simp only [imageLane, laneRead, List.append_assoc, readImageLane, readLaneRest, Option.bind_eq_bind, Option.bind_some, h,
    readNum_leBytes _ (show e < 256 ^ 1 from he),
    readOpt_leBytes _ (show Nat.testBit 255 1 = true by decide) (show 4 < 256 ^ 1 by decide),
    readOpt_leBytes _ (show Nat.testBit 255 2 = true by decide) (show 4 < 256 ^ 1 by decide),
    readOpt_leBytes _ (show Nat.testBit 255 3 = true by decide) (show 1 < 256 ^ 1 by decide),
    readOpt_leBytes _ (show Nat.testBit 255 4 = true by decide) (show 0 < 256 ^ 1 by decide),
    readOpt_leBytes _ (show Nat.testBit 255 5 = true by decide) (show 1 < 256 ^ 1 by decide),
    readOpt_leBytes _ (show Nat.testBit 255 6 = true by decide) (show 1 < 256 ^ 1 by decide),
    readOpt_leBytes _ (show Nat.testBit 255 7 = true by decide) (show 2 < 256 ^ 1 by decide)]

/-- The sections one after another. -/
theorem readImage_parts {m pl dr hd po tr la : List Byte} {ms : List Nat} {ps : List PlaneArgs} {ds : List (List Nat)}
    {hs : List ImageHead} {p : PositionArgs} {t : TriggerArgs} {ls : List ImageLane}
    (hm : ∀ r, readSet (m ++ r) = some (ms, r)) (hp : ∀ r, readMany (readPlane 0 15) 4 (pl ++ r) = some (ps, r))
    (hd' : ∀ r, readMany readDrops 4 (dr ++ r) = some (ds, r)) (hh : ∀ r, readMany readImageHead 16 (hd ++ r) = some (hs, r))
    (hq : ∀ r, readPosition 1023 (po ++ r) = some (p, r)) (ht : ∀ r, readTrigger 15 (tr ++ r) = some (t, r))
    (hl : ∀ r, readMany readImageLane 16 (la ++ r) = some (ls, r)) :
    readImage (m ++ (leBytes 1 8 ++ (leBytes 1 20 ++ (pl ++ (dr ++ (hd ++ (po ++ (tr ++ la)))))))) =
      some ⟨ms, 8, 20, ps, ds, hs, p, t, ls⟩ := by
  have hl := hl []
  rw [List.append_nil] at hl
  simp only [readImage, Option.bind_eq_bind, Option.bind_some, hm, hp, hd', hh, hq, ht, hl,
    readNum_leBytes _ (show 8 < 256 ^ 1 by decide), readNum_leBytes _ (show 20 < 256 ^ 1 by decide)]

theorem readImage_of {d n e : Nat} (hd : d < 65536) (hn : n < 256) (he : e < 256) (g : Byte) :
    ∃ i, readImage (imageBody d n g e) = some i ∧ i.planes = List.replicate 4 (planeRead d) ∧
      i.drops = List.replicate 4 (List.replicate 4 0) ∧ i.heads = List.replicate 16 (headRead n) ∧
      i.lanes = List.replicate 16 (laneRead g e) :=
  ⟨_, readImage_parts (ms := [4]) (fun r => by simp [readSet, BitVec.toNat_ofNat]) (readMany_replicate (readPlane_of hd) 4)
    (readMany_replicate readDrops_default 4) (readMany_replicate (readImageHead_of hn) 16) readPosition_default
    readTrigger_default (readMany_replicate (readImageLane_of g he) 16), rfl, rfl, rfl, rfl⟩

theorem length_flatten_replicate (n : Nat) (x : List Byte) : (List.replicate n x).flatten.length = n * x.length := by
  induction n with
  | zero => simp
  | succ n ih => rw [List.replicate_succ, List.flatten_cons, List.length_append, ih, Nat.succ_mul, Nat.add_comm]

theorem imageHead_length (n : Nat) : (imageHead n).length = 8 + 2048 * 4 + 8 := by
  have h := length_flatten_replicate 2048 (leBytes 4 0)
  unfold imageHead
  generalize (List.replicate 2048 (leBytes 4 0)).flatten = ws at h
  simp only [length_leBytes] at h
  simp only [length_leBytes, List.length_append, length_flatten_replicate, List.length_cons, List.length_nil, h]

theorem sections_length (m pl dr hd po tr la : List Byte) :
    (m ++ (leBytes 1 8 ++ (leBytes 1 20 ++ (pl ++ (dr ++ (hd ++ (po ++ (tr ++ la)))))))).length =
      m.length + (1 + (1 + (pl.length + (dr.length + (hd.length + (po.length + (tr.length + la.length))))))) := by
  simp only [List.length_append, length_leBytes]

theorem imageBody_length (d n : Nat) (g : Byte) (e : Nat) : (imageBody d n g e).length = 2 + (1 + (1 + (4 * 8 + (4 * (4 * 1) + (16 * (8 + 2048 * 4 + 8) + (25 +
    (7 + 16 * 10))))))) := by
  refine (sections_length _ _ _ _ _ _ _).trans ?_
  rw [length_flatten_replicate 16 (imageHead n), imageHead_length, length_flatten_replicate 4 (imagePlane d),
    length_flatten_replicate 16 (imageLane g e), length_flatten_replicate 4 (List.replicate 4 (leBytes 1 0)).flatten,
    length_flatten_replicate 4 (leBytes 1 0)]
  rfl

/-- A body that reads, behind its header. -/
theorem loadImage_of {body : List Byte} {i : Image} (hi : readImage body = some i) (hs : 52 ≤ body.length)
    (hm : body.length ≤ 262132) :
    loadImage ([0x4E, 0x42, 0x01, 0x00] ++ (leBytes 4 (12 + body.length) ++ (crcBytes body ++ body))) = .ok i := by
  have hc : (crcBytes body).length = 4 := length_leBytes _ _
  have hn : leNat (leBytes 4 (12 + body.length)) = 12 + body.length := leNat_leBytes (by omega)
  have hb : (leBytes 4 (12 + body.length)).length = 4 := length_leBytes _ _
  generalize leBytes 4 (12 + body.length) = n at hn hb
  generalize hk : crcBytes body = k at hc
  obtain ⟨n0, n1, n2, n3, rfl⟩ : ∃ a b c d, n = [a, b, c, d] := by
    match n, hb with
    | [a, b, c, d], _ => exact ⟨a, b, c, d, rfl⟩
  obtain ⟨k0, k1, k2, k3, rfl⟩ : ∃ a b c d, k = [a, b, c, d] := by
    match k, hc with
    | [a, b, c, d], _ => exact ⟨a, b, c, d, rfl⟩
  have ht : (0x4E :: 0x42 :: 0x01 :: 0x00 :: n0 :: n1 :: n2 :: n3 :: k0 :: k1 :: k2 :: k3 :: body).take (12 + body.length) =
      0x4E :: 0x42 :: 0x01 :: 0x00 :: n0 :: n1 :: n2 :: n3 :: k0 :: k1 :: k2 :: k3 :: body :=
    List.take_of_length_le (by simp; omega)
  simp only [loadImage, List.cons_append, List.nil_append, List.drop_succ_cons, List.drop_zero, List.take_succ_cons,
    List.take_zero, hn, ht, hk, hi, List.length_cons]
  rw [if_neg (by omega), if_neg (by simp; omega), if_neg (by simp; omega)]

/-- At the end of loading, lane 3 is UP with a status timer that the image's timeout ends, lane 4 is DOWN with a record
under way, and the others are DOWN at rest. -/
def loadingLanes : State :=
  ((loadingFor 40000).setLane 3 { upLane none with status := some 400000 }).setLane 4
    { Lane.powerOn false false with tx := some ⟨.capsQuery, LaneRecord.capsQuery.bytes, 9⟩ }

/-- Images with every section present: four depths that sum to the store and to 4 more, a band count in 1..4 and beyond
it on both sides, a grade mask of the last grade and of a code that names none, and the enable flag clear and set; over lanes
in each state that the last clause tells apart. -/
theorem witness_UsableImageApplied :
    (loadingLanes.Inv ∧ loadingLanes.link.loader = .loading .powerOn 40000 ∧ (loadingLanes.lane 0).state = .down ∧
      (loadingLanes.lane 3).status = some 400000 ∧ (loadingLanes.lane 4).tx.isSome = true) ∧
    4 * 8192 ≤ 32768 ∧ 32768 < 4 * 8193 ∧
    ∀ d ∈ [8192, 8193], ∀ n ∈ [0, 1, 4, 5], ∀ g ∈ [(6 : Byte), 7], ∀ e ∈ [0, 1], ∃ bs i, loadImage bs = .ok i ∧
      i.planes = List.replicate 4 (planeRead d) ∧ i.drops = List.replicate 4 (List.replicate 4 0) ∧
      i.heads = List.replicate 16 (headRead n) ∧ i.lanes = List.replicate 16 (laneRead g e) := by
  refine ⟨⟨setLane_inv (setLane_inv (loadingFor_inv 40000) (by decide +kernel)) (by decide +kernel), rfl, rfl, rfl, rfl⟩,
    by decide, by decide, fun d hd n hn g _ e he => ?_⟩
  have hd : d < 65536 := by revert d; decide
  have hn : n < 256 := by revert n; decide
  have he : e < 256 := by revert e; decide
  obtain ⟨i, hi, h⟩ := readImage_of hd hn he g
  exact ⟨_, i, loadImage_of hi (by rw [imageBody_length]; decide) (by rw [imageBody_length]; decide), h⟩

/-! ## No word spells a command -/

/-- The table of commands gives no row any bits (log 32). -/
theorem test_no_word (nbits w : Nat) : decodeTableWord nbits w = none := rfl

end Sys2Proof.Tests
end

section
/-!
PROOFS. The statements of chapter 4 on Head On (R88) and on the due outcome (R81, R84), with the rules they rest on: the
take of a frame by its command, one increment of a counter, and the operations that leave every counter as it is.
-/

namespace Sys2Proof.Machine

variable {s : State} {f : Frame} {rest : List Frame} {tag : Byte} {r : Request} {cmd : State → Reply}

/-! ## The take of a frame by its command (R159, R160) -/

theorem takeWith_front (hq : s.link.inbound = f :: rest) (hroom : s.link.answers.length < Config.answerQueueMax)
    (ht : f.tag = tag) (hr : f.request = r) : takeWith tag r cmd s = takeFrame f rest cmd s := by
  simp [takeWith, State.takeable, hq, hroom, ht, hr]

@[simp] theorem State.took_loading (s : State) (rest : List Frame) : (s.took rest).loading = s.loading := rfl

theorem takeFrame_loading (hl : s.loading = true) : takeFrame f rest cmd s = answered f .notReady [] (s.took rest) :=
  if_pos hl

theorem takeFrame_executed (hl : s.loading ≠ true) (hr : (cmd (s.took rest)).reloads = false) :
    takeFrame f rest cmd s =
      answered f (cmd (s.took rest)).result (cmd (s.took rest)).payload (cmd (s.took rest)).state :=
  (if_neg hl).trans (if_neg (by rw [Bool.not_eq_true]; exact hr))

theorem Taking.not_loading (h : Taking s tag r f rest) : s.loading ≠ true := by simp [State.loading, h.loader]

/-- A command that does not start the loader, over the frame that the Control Unit may take. -/
theorem Taking.takeWith (h : Taking s tag r f rest) (hr : (cmd (s.took rest)).reloads = false) :
    takeWith tag r cmd s =
      answered f (cmd (s.took rest)).result (cmd (s.took rest)).payload (cmd (s.took rest)).state :=
  (takeWith_front h.queue h.room h.tag h.request).trans (takeFrame_executed h.not_loading hr)

theorem withHead_val (g : Head → State → Reply) (h : Head) (s : State) : withHead h.val g s = g h s := dif_pos h.isLt

theorem withHead_refuses (g : Head → State → Reply) {n : Nat} (hn : 16 ≤ n) (s : State) :
    withHead n g s = Reply.refuse .badValue s := dif_neg (Nat.not_lt.2 hn)

/-! ## Head On (R35, R88) -/

theorem exec_headOn (tag : Byte) (n : Nat) (s : State) :
    exec (.headOn tag n) s = .next (takeWith tag (.headOn n) (cmdHeadOn n) s) := rfl

theorem cmdHeadOn_val (h : Head) (s : State) :
    cmdHeadOn h.val s = Reply.ok [] (s.setHead h { s.head h with enabled := true }) := withHead_val _ h s

theorem cmdHeadOn_refuses {n : Nat} (hn : 16 ≤ n) (s : State) : cmdHeadOn n s = Reply.refuse .badValue s :=
  withHead_refuses _ hn s

theorem exec_headOn_refuses {n : Nat} (h : Taking s tag (.headOn n) f rest) (hn : 16 ≤ n) :
    exec (.headOn tag n) s = .next (answered f .badValue [] (s.took rest)) := by
  have hc : cmdHeadOn n (s.took rest) = Reply.refuse .badValue (s.took rest) := cmdHeadOn_refuses hn _
  rw [exec_headOn, h.takeWith (by rw [hc]; rfl), hc]
  rfl

theorem exec_headOn_enables {i : Head} (h : Taking s tag (.headOn i.val) f rest) :
    exec (.headOn tag i.val) s =
      .next (answered f .ok [] ((s.took rest).setHead i { s.head i with enabled := true })) := by
  have hc := cmdHeadOn_val i (s.took rest)
  rw [exec_headOn, h.takeWith (by rw [hc]; rfl), hc]
  rfl

theorem mem_allHeads (h : Head) : h ∈ allHeads := by revert h; decide

theorem mem_assigned {t : Tables} {p : Plane} {h : Head} : h ∈ t.assigned p ↔ (t.head h).plane = some p := by
  simp [Tables.assigned, mem_allHeads]

theorem mem_takersFor {p : Plane} {h : Head} : h ∈ s.takersFor p ↔
    ((s.banks.tables s.banks.active).head h).plane = some p ∧ (s.head h).enabled = true := by
  rw [State.takersFor, List.mem_filter, mem_assigned]

/-- Settles O35: a frame taken outside loading runs Head On, and one taken while loading is answered NOT_READY. -/
theorem headOn : Obligations.HeadOn := by
  refine ⟨fun tag n s f rest => ⟨fun h => ⟨exec_headOn_refuses h, ?_⟩, fun hq hroom ht hr hl => ?_⟩,
    fun _ _ _ => mem_takersFor⟩
  · rintro i rfl
    exact exec_headOn_enables h
  · rw [exec_headOn, takeWith_front hq hroom ht hr, takeFrame_loading hl]

/-! ## The rows of the due outcome (R81) -/

section
variable {l : Lane} {st : HeadState}

theorem dueOutcome_missedFault (h : l.state = .faulted ∨ l.fault.seen = true) : dueOutcome l st = .missedFault :=
  if_pos h

theorem dueOutcome_missedDown (hs : l.state ≠ .faulted) (hf : l.fault.seen = false)
    (h : l.state = .down ∨ l.state = .negotiating ∨ l.state = .training) : dueOutcome l st = .missedDown :=
  (if_neg (by simp [hs, hf])).trans (if_pos h)

theorem dueOutcome_missedHold (hs : l.state = .up) (hf : l.fault.seen = false) (hh : l.hold.seen = true) :
    dueOutcome l st = .missedHold := by simp [dueOutcome, hs, hf, hh]

theorem dueOutcome_fired (hs : l.state = .up) (hf : l.fault.seen = false) (hh : l.hold.seen = false)
    (h : st = .loaded) : dueOutcome l st = .fired := by simp [dueOutcome, hs, hf, hh, h]

theorem dueOutcome_late (hs : l.state = .up) (hf : l.fault.seen = false) (hh : l.hold.seen = false)
    (h : st = .loading ∨ st = .discarding ∨ st = .void) : dueOutcome l st = .late := by
  rcases h with rfl | rfl | rfl <;> simp [dueOutcome, hs, hf, hh]

theorem dueOutcome_underrun (hs : l.state = .up) (hf : l.fault.seen = false) (hh : l.hold.seen = false)
    (h : st = .waitingLine) : dueOutcome l st = .underrun := by simp [dueOutcome, hs, hf, hh, h]

/-- A lane that is not UP, or shows FAULT or HOLD, meets one of the first three rows, and these are misses. -/
theorem up_of_dueOutcome_fired (h : dueOutcome l st = .fired) :
    l.state = .up ∧ l.fault.seen = false ∧ l.hold.seen = false := by
  have hs : l.state ≠ .faulted := fun e => by simp [dueOutcome_missedFault (.inl e)] at h
  have hf : l.fault.seen = false := by
    by_contra e
    simp [dueOutcome_missedFault (.inr (Bool.of_not_eq_false e))] at h
  have hu : l.state = .up := by
    by_contra e
    have hd : l.state = .down ∨ l.state = .negotiating ∨ l.state = .training := by
      cases hl : l.state <;> simp [hl] at hs e ⊢
    simp [dueOutcome_missedDown hs hf hd] at h
  refine ⟨hu, hf, ?_⟩
  by_contra e
  simp [dueOutcome_missedHold hu hf (Bool.of_not_eq_false e)] at h

end

/-- An IDLE head has no cursor, and so no due (R72, R76). -/
theorem reachedDue_idle {h : Head} (w : (s.head h).Wf) (hi : (s.head h).state = .idle) : s.reachedDue h = none := by
  have hc : (s.head h).cursor = none := by
    have := w.cursor
    simpa [hi] using this
  simp [State.reachedDue, hc]

/-! ## One increment of a counter (R185) -/

/-- The rows of the counter table are in the order of the names. -/
theorem HeadCounter.ofNat_row (c : HeadCounter) : HeadCounter.ofNat c.row.val = c := by cases c <;> rfl

theorem CounterName.head_index_inj {c d : HeadCounter} {h : Head} :
    (CounterName.head c h).index = (CounterName.head d h).index ↔ c = d := by
  refine ⟨fun e => ?_, fun e => by rw [e]⟩
  have hv : c.row.val * 16 + h.val = d.row.val * 16 + h.val := congrArg Fin.val e
  have hr : c.row.val = d.row.val := by omega
  rw [← c.ofNat_row, hr, d.ofNat_row]

theorem bump_head_counter (c d : HeadCounter) (h : Head) (s : State) : (bump (.head c h) s).counter (.head d h) =
    if d = c then min Config.counterMax (s.counter (.head c h) + 1) else s.counter (.head d h) := by
  simp only [bump, State.counter, State.setNotices_notices, get_put_if, CounterName.head_index_inj]

theorem DueOutcome.counter_inj {d o : DueOutcome} : d.counter = o.counter ↔ d = o := by
  cases d <;> cases o <;> decide

theorem State.counter_congr {t : State} (h : t.notices.counters = s.notices.counters) (c : CounterName) :
    t.counter c = s.counter c := by rw [State.counter, h, State.counter]

/-! ## What leaves every counter as it is: the notices and the condition flags -/

@[simp] theorem releaseBatch_counters (s : State) : (releaseBatch s).notices.counters = s.notices.counters := by
  simp [releaseBatch]

@[simp] theorem testRelease_counters (s : State) : (testRelease s).notices.counters = s.notices.counters := by
  unfold testRelease
  split
  · exact releaseBatch_counters s
  · rfl

@[simp] theorem offer_counters (n : Notice) (s : State) : (offer n s).notices.counters = s.notices.counters := by
  unfold offer
  dsimp only
  split
  · exact testRelease_counters _
  · rfl

@[simp] theorem submit_counters (n : Notice) (s : State) : (submit n s).notices.counters = s.notices.counters := by
  unfold submit
  split
  · rfl
  · exact offer_counters n s

@[simp] theorem submitCondition_counters (c : CondName) (n : Notice) (s : State) :
    (submitCondition c n s).notices.counters = s.notices.counters := by
  unfold submitCondition
  split
  · rfl
  · exact submit_counters n _

@[simp] theorem countOutcome_counters (h : Head) (o : DueOutcome) (c : Cursor) (s : State) :
    (countOutcome h o c s).notices.counters = (bump (.head o.counter h) s).notices.counters := by
  unfold countOutcome
  dsimp only
  split
  · rfl
  · exact submitCondition_counters _ _ _

/-! ## What leaves every counter as it is: the blocks that a due event reaches -/

@[simp] theorem setFlowPending_notices (s : State) : (setFlowPending s).notices = s.notices := arbitrate_notices _

@[simp] theorem putPlane_notices (p : Plane) (x : PlaneStore) (s : State) : (putPlane p x s).notices = s.notices := by
  unfold putPlane
  split
  · rfl
  · exact setFlowPending_notices _

@[simp] theorem storeChange_notices (p : Plane) (g : PlaneStore → PlaneStore) (s : State) :
    (storeChange p g s).notices = s.notices := putPlane_notices _ _ s

@[simp] theorem takeLine_notices (h : Head) (p : Plane) (n : Nat) (byRender : Bool) (s : State) :
    (takeLine h p n byRender s).notices = s.notices := storeChange_notices _ _ s

@[simp] theorem takeOf_notices (h : Head) (c : Cursor) (byRender : Bool) (s : State) :
    (takeOf h c byRender s).notices = s.notices := by
  unfold takeOf
  split
  · rfl
  · exact takeLine_notices _ _ _ _ s

@[simp] theorem changeLane_notices (h : Head) (g : Lane → Lane) (s : State) : (changeLane h g s).notices = s.notices :=
  rfl

theorem startPreload_notices {h : Head} {x : HeadRec} {c : Cursor} {t : State} (ht : startPreload h x c s = some t) :
    t.notices = s.notices := by
  unfold startPreload at ht
  split at ht
  · cases ht
  · split at ht
    · cases ht
    · cases ht
      exact takeOf_notices h c true s

@[simp] theorem arriveOn_notices (h : Head) (x : HeadRec) (c : Cursor) (s : State) :
    (arriveOn h x c s).notices = s.notices := by
  unfold arriveOn
  split
  · rfl
  · cases hp : startPreload h x c s with
    | none => rfl
    | some t => exact startPreload_notices hp

@[simp] theorem laneNotice_counters (h : Head) (r : LaneReason) (s : State) :
    (laneNotice h r s).notices.counters = s.notices.counters := submit_counters _ s

@[simp] theorem enterNegotiating_counters (h : Head) (r : LaneReason) (s : State) :
    (enterNegotiating h r s).notices.counters = s.notices.counters := laneNotice_counters _ _ _

@[simp] theorem testDownshift_counters (h : Head) (s : State) :
    (testDownshift h s).notices.counters = s.notices.counters := by
  unfold testDownshift
  dsimp only
  split
  · rw [enterNegotiating_counters, laneNotice_counters]
    rfl
  · rfl

@[simp] theorem becomeIdle_counters (h : Head) (x : HeadRec) (s : State) :
    (becomeIdle h x s).notices.counters = s.notices.counters := testDownshift_counters _ _

@[simp] theorem goTo_counters (h : Head) (x : HeadRec) (c : Option Cursor) (s : State) :
    (goTo h x c s).notices.counters = s.notices.counters := by
  cases c with
  | none => exact becomeIdle_counters h x s
  | some c => exact congrArg NoticeUnit.counters (arriveOn_notices h x c s)

@[simp] theorem retire_counters (id : Nat) (s : State) : (retire id s).notices.counters = s.notices.counters := by
  unfold retire
  split
  · rfl
  · split
    · rfl
    · exact submit_counters _ _

@[simp] theorem report_counters (job n : Nat) (fired retires : Bool) (s : State) :
    (report job n fired retires s).notices.counters = s.notices.counters := by
  unfold report
  split
  · rfl
  · split
    · rfl
    · dsimp only
      split
      · exact retire_counters _ _
      · rfl

/-! ## The counters at a due event (R81, R84) -/

/-- Of all that a due event does, only the count of its outcome changes a counter. -/
theorem dueEvent_counters (h : Head) (c : Cursor) (s : State) : (dueEvent h c s).notices.counters =
    (bump (.head (dueOutcome (s.lane h) (s.head h).state).counter h) s).notices.counters := by
  unfold dueEvent
  dsimp only
  rw [goTo_counters]
  split <;> split <;> simp

/-- Settles O38: the table row by row; then the due event counts the outcome that the rows decide, and each other counter
keeps its value, which the law of R185 bounds. -/
theorem dueOutcomeRows : Obligations.DueOutcomeRows := by
  refine ⟨fun l st => ⟨dueOutcome_missedFault, fun hs hf => ⟨dueOutcome_missedDown hs hf, fun hu =>
      ⟨dueOutcome_missedHold hu hf, fun hh =>
        ⟨dueOutcome_fired hu hf hh, dueOutcome_late hu hf hh, dueOutcome_underrun hu hf hh⟩⟩⟩, up_of_dueOutcome_fired⟩,
    fun s h hinv => ⟨reachedDue_idle (hinv.heads h), fun c _ d => ?_⟩⟩
  have hmax : s.counter (.head d.counter h) ≤ 2 ^ 32 - 1 := hinv.notices.counters _
  rw [State.counter_congr (dueEvent_counters h c s), bump_head_counter]
  simp only [DueOutcome.counter_inj]
  by_cases hd : d = dueOutcome (s.lane h) (s.head h).state
  · rw [if_pos hd, if_pos hd, ← hd]
    rfl
  · rw [if_neg hd, if_neg hd]
    omega

end Sys2Proof.Machine
end

section
/-!
PROOFS. The statements of chapter 5 on the stitch threshold and its shares (R103) and on the order of a fire record's
values (R108). The shares rest on the rule's own reason: over 16 consecutive lines the thresholds of a column are a
permutation of 0..15, so a count over the lines is a count over 0..15.
-/

namespace Sys2Proof.Machine

/-! ## The stitch threshold (R103) -/

section
variable (n c s k : Nat)

theorem stitchThreshold_lt : stitchThreshold n c < 16 := Nat.mod_lt _ (by decide)

theorem stitchThreshold_add_line : stitchThreshold (n + k) c = (stitchThreshold n c + k) % 16 := by
  simp only [stitchThreshold]
  omega

theorem stitchThreshold_next_column : stitchThreshold n (c + 1) = (stitchThreshold n c + 7) % 16 := by
  simp only [stitchThreshold]
  omega

/-- A column's thresholds on the 16 plane lines from line n. -/
def thresholdsFrom (n c : Nat) : List Nat := (List.range 16).map fun k => stitchThreshold (n + k) c

theorem thresholdsFrom_nodup : (thresholdsFrom n c).Nodup := by
  refine List.nodup_range.map_on fun k hk j hj h => ?_
  rw [List.mem_range] at hk hj
  rw [stitchThreshold_add_line, stitchThreshold_add_line] at h
  omega

theorem thresholdsFrom_subset : thresholdsFrom n c ⊆ List.range 16 := by
  intro t ht
  obtain ⟨k, _, rfl⟩ := List.mem_map.1 ht
  exact List.mem_range.2 (stitchThreshold_lt (n + k) c)

theorem thresholdsFrom_perm : (thresholdsFrom n c).Perm (List.range 16) :=
  (List.subperm_of_subset (thresholdsFrom_nodup n c) (thresholdsFrom_subset n c)).perm_of_length_le
    (by simp [thresholdsFrom])

/-- Over 16 consecutive lines, a test of the threshold alone holds as often as over 0..15. -/
theorem length_filter_stitchThreshold (P : Nat → Bool) :
    ((List.range 16).filter fun k => P (stitchThreshold (n + k) c)).length = (List.range 16).countP P := by
  calc
    _ = (thresholdsFrom n c).countP P := by rw [← List.countP_eq_length_filter, thresholdsFrom, List.countP_map]; rfl
    _ = (List.range 16).countP P := (thresholdsFrom_perm n c).countP_eq P

end

/-! ## The shares of a stitch pair (R102, R103) -/

section
variable {v : Nat → Nat} {c : Nat}

theorem baseOutput_stitchLow_passes (hv : v c ≠ 0) (n s : Nat) :
    (baseOutput v n (.stitchLow c s) == v c) = decide (stitchThreshold n c < s) := by
  by_cases h : stitchThreshold n c < s <;> simp [baseOutput, h, hv.symm]

theorem baseOutput_stitchHigh_passes (hv : v c ≠ 0) (n s : Nat) :
    (baseOutput v n (.stitchHigh c s) == v c) = decide (s ≤ stitchThreshold n c) := by
  by_cases h : s ≤ stitchThreshold n c <;> simp [baseOutput, h, hv.symm]

end

section
variable {s m : Nat}

theorem countP_range_lt (h : s ≤ m) : (List.range m).countP (fun t => decide (t < s)) = s := by
  induction m, h using Nat.le_induction with
  | base => simpa using List.countP_eq_length.2 fun t (ht : t ∈ List.range s) => decide_eq_true (List.mem_range.1 ht)
  | succ m h ih => simp [List.range_succ, ih, Nat.not_lt.2 h]

theorem countP_range_le (h : s ≤ m) : (List.range m).countP (fun t => decide (s ≤ t)) = m - s := by
  have hall := List.length_eq_countP_add_countP (fun t => decide (t < s)) (l := List.range m)
  simp only [List.length_range, countP_range_lt h, decide_eq_true_eq, Nat.not_lt] at hall
  omega

end

/-- Settles O41: the thresholds of 16 consecutive lines are a permutation of 0..15, of which one is x, s lie below s, and
16 - s do not. -/
theorem stitchThreshold_spec : Obligations.StitchThreshold := by
  intro n c s x v hs hx hv
  refine ⟨rfl, Nat.le_of_lt_succ (stitchThreshold_lt n c), stitchThreshold_next_column n c, ?_, ?_, ?_⟩
  · rw [length_filter_stitchThreshold n c (· == x)]
    exact List.count_eq_one_of_mem List.nodup_range (List.mem_range.2 (Nat.lt_succ_of_le hx))
  · simp only [baseOutput_stitchLow_passes hv]
    rw [length_filter_stitchThreshold n c fun t => decide (t < s)]
    exact countP_range_lt (Nat.le_succ_of_le hs)
  · simp only [baseOutput_stitchHigh_passes hv]
    rw [length_filter_stitchThreshold n c fun t => decide (s ≤ t)]
    exact countP_range_le (Nat.le_succ_of_le hs)

/-! ## The number of outputs (R102, R105) -/

section
variable (t : HeadTables) (v : Nat → Nat)

theorem substitute_length (j : Nat) (e : NozzleEntry) (out : List Nat) :
    (substitute t v j e out).length = out.length := by
  cases e with
  | dead c k b =>
    rw [substitute]
    split
    · exact List.length_set
    · rfl
  | off | pixel | stitchLow | stitchHigh => rfl

theorem foldl_substitute_length (es : Sparse NozzleEntry) (out : List Nat) :
    (es.foldl (fun out e => substitute t v e.1 e.2 out) out).length = out.length := by
  induction es generalizing out with
  | nil => rfl
  | cons e es ih => rw [List.foldl_cons, ih, substitute_length]

@[simp] theorem outputs_length (n : Nat) : (outputs t v n).length = t.nozzles := by
  simp [outputs, foldl_substitute_length]

end

/-! ## The order of the values (R108) -/

section
variable {t : HeadTables} {drops : Vector Dot 4} {px : List Dot} {n q : Nat}

theorem nozzleValues_forward (hr : t.reverse = false) :
    nozzleValues t drops px n = outputs t (mappedValue drops px) n := by simp [nozzleValues, hr]

theorem nozzleValues_reverse (hr : t.reverse = true) :
    nozzleValues t drops px n = (outputs t (mappedValue drops px) n).reverse := by simp [nozzleValues, hr]

theorem nozzleValues_reverse_getElem? (hr : t.reverse = true) (hq : q < t.nozzles) :
    (nozzleValues t drops px n)[q]? = (outputs t (mappedValue drops px) n)[t.nozzles - 1 - q]? := by
  rw [nozzleValues_reverse hr, List.getElem?_reverse (by rwa [outputs_length]), outputs_length]

end

theorem fireRecord_values (h : Head) (v : JobView) (i : Nat) (px : List Dot) (band : Option Nat) :
    (fireRecord h v i px band).values =
      nozzleValues (v.tables.head h) (v.tables.drops.get v.plane) px (v.first + i) := rfl

theorem substitute_setReverse (t : HeadTables) (b : Bool) : substitute { t with reverse := b } = substitute t := rfl

theorem outputs_setReverse (t : HeadTables) (b : Bool) : outputs { t with reverse := b } = outputs t := by
  funext v n
  rw [outputs, substitute_setReverse]
  rfl

/-- Settles O42: the flag chooses between the outputs and their reverse, which has N_h places, and no step before that
reads it. -/
theorem reverseFlagOrdersValues : Obligations.ReverseFlagOrdersValues := by
  refine ⟨fun h v i px band q hq => ⟨fun hr => ?_, fun hr => ?_⟩, fun t v n b => ?_⟩
  · rw [fireRecord_values, nozzleValues_forward hr]
  · rw [fireRecord_values, nozzleValues_reverse_getElem? hr hq]
  · rw [outputs_setReverse]

end Sys2Proof.Machine
end

section
/-!
PROOFS. The statements about the machine as a whole: a step, the answer of every command, the invariant, the position S, the
next-line counters and the answer to a frame taken. What a command keeps is said once, as a floor under the state it
leaves.
-/

namespace Sys2Proof.Machine

variable {s t : State} {c : Instr} {tag : Byte} {r : Request} {f : Frame} {rest : List Frame}

/-! ## The rows that take a frame -/

/-- A row of the Control Unit is the take of the oldest frame by the row's request (log 5). -/
theorem exec_taken (h : c.taken = some (tag, r)) (s : State) : exec c s = .next (takeWith tag r (runRequest r) s) := by
  cases c <;> cases h <;> rfl

theorem takeWith_void {cmd : State → Reply}
    (h : ∀ f rest, s.link.inbound = f :: rest → s.link.answers.length < Config.answerQueueMax → f.tag ≠ tag ∨ f.request ≠ r) :
    takeWith tag r cmd s = s := by
  unfold takeWith State.takeable
  cases hq : s.link.inbound with
  | nil => rfl
  | cons f rest =>
    by_cases hroom : s.link.answers.length < Config.answerQueueMax
    · simp only [if_pos hroom]
      exact if_neg fun e => (h f rest hq hroom).elim (· e.1) (· e.2)
    · simp only [if_neg hroom]

/-- Settles O8, by the three guards of the take. -/
theorem controlFrameGuards : Obligations.ControlFrameGuards := by
  intro c tag r s hc
  rw [exec_taken hc]
  refine ⟨fun f rest hq hroom ht hr hl => ?_, fun hv => ?_⟩
  · rw [takeWith_front hq hroom ht hr, takeFrame_loading hl]
  · rw [takeWith_void hv]

/-! ## What a command keeps -/

/-- The floor under a command that may place an answer or take a frame. -/
def State.openFloor (s : State) : Floor := { s.floor with queues := none }

/-- The floor under a command that may bring the next-line counters back to 0. -/
def State.resetFloor (s : State) : Floor := { s.openFloor with next := Vector.replicate 4 0 }

theorem State.Inv.keptOpen (h : s.Inv) : Kept s.openFloor s :=
  ⟨h, Nat.le_refl _, fun _ => Nat.le_refl _, rfl, rfl, fun _ e => by cases e⟩

theorem State.Inv.keptReset (h : s.Inv) : Kept s.resetFloor s :=
  ⟨h, Nat.le_refl _, fun p => by simp [State.resetFloor], rfl, rfl, fun _ e => by cases e⟩

theorem State.resetFloor_next (s : State) (p : Plane) : s.resetFloor.next.get p = 0 := get_replicate _ _

variable {k : Floor}

theorem Kept.ite {b : Prop} [Decidable b] (hs : Kept k s) (ht : b → Kept k t) : Kept k (if b then t else s) := by
  split
  · exact ht ‹_›
  · exact hs

theorem Kept.ite' {b : Prop} [Decidable b] (hs : Kept k s) (ht : ¬ b → Kept k t) : Kept k (if b then s else t) := by
  split
  · exact hs
  · exact ht ‹_›

theorem taken_streamReset (h : c.taken = some (tag, .streamReset)) : c = .streamReset tag := by
  cases c <;> cases h; rfl

/-- A row that takes no frame, other than a reset and a tick, keeps its floor. -/
theorem exec_untaken_kept (h : Kept k s) (hk : k.queues = none) (hc : c.taken = none) (hp : ∀ l, c ≠ .powerOnReset l)
    (ht : ∀ l, c ≠ .tick l) : ∃ t, exec c s = .next t ∧ Kept k t := by
  cases c with
  | powerOnReset l => exact absurd rfl (hp l)
  | tick l => exact absurd rfl (ht l)
  | noMemoryTimeout => exact ⟨_, rfl, h.ite fun _ => h.completeLoading fun _ e => by cases e⟩
  | loaderDeadlineExpiry => exact ⟨_, rfl, h.deadlineEvent⟩
  | loadingComplete bs => exact ⟨_, rfl, h.ite' fun _ => h.completeLoading fun _ e => loadImage_full e⟩
  | forwardCount => exact ⟨_, rfl, h.decodePair _⟩
  | backwardCount => exact ⟨_, rfl, h.decodePair _⟩
  | stallExpiry => exact ⟨_, rfl, h.stallEvent⟩
  | advance => exact ⟨_, rfl, h.advanceEvent⟩
  | encoderReferenceUpdate a b => exact ⟨_, rfl, h.ite' fun _ => h.decodePair _⟩
  | triggerInputActive => exact ⟨_, rfl, h.newTriggerLevel _⟩
  | triggerInputInactive => exact ⟨_, rfl, h.newTriggerLevel _⟩
  | minOnElapsed => exact ⟨_, rfl, h.minOnEvent⟩
  | dropoutExpiry => exact ⟨_, rfl, h.dropoutEvent⟩
  | minOffExpiry => exact ⟨_, rfl, h.minOffEvent⟩
  | lineFrame d => exact ⟨_, rfl, h.receive hk d⟩
  | frameDiscarded d => exact ⟨_, rfl, h.receive hk d⟩
  | controlFrameArrival d => exact ⟨_, rfl, h.receive hk d⟩
  | linkUp => exact ⟨_, rfl, h.ite' fun hu => h.linkUp (by simpa using hu)⟩
  | linkDown => exact ⟨_, rfl, h.ite fun _ => h.linkDown⟩
  | outboundComplete =>
    refine ⟨_, rfl, ?_⟩
    split
    · exact h.outboundDone hk
    · exact h
  | transmissionEnd i => exact ⟨_, rfl, h.fireSentEvent i⟩
  | firePulseEnd i => exact ⟨_, rfl, h.pulseEvent i⟩
  | capsQuerySent i => exact ⟨_, rfl, h.capsSentEvent i⟩
  | trainRecordSent i => exact ⟨_, rfl, h.trainSentEvent i⟩
  | capsRecord i d => exact ⟨_, rfl, h.boardRecord i d⟩
  | echoRecord i d => exact ⟨_, rfl, h.boardRecord i d⟩
  | damagedLaneRecord i d => exact ⟨_, rfl, h.boardRecord i d⟩
  | boardStatusRecord i d => exact ⟨_, rfl, h.boardRecord i d⟩
  | negotiationTimeout i => exact ⟨_, rfl, h.negotiationEvent i⟩
  | echoTimeout i => exact ⟨_, rfl, h.echoEvent i⟩
  | statusTimeout i => exact ⟨_, rfl, h.statusEvent i⟩
  | holdActive i => exact ⟨_, rfl, h.newHoldLevel i _⟩
  | holdInactive i => exact ⟨_, rfl, h.newHoldLevel i _⟩
  | faultActive i => exact ⟨_, rfl, h.newFaultLevel i _⟩
  | faultInactive i => exact ⟨_, rfl, h.newFaultLevel i _⟩
  | copyComplete => exact ⟨_, rfl, h.copyEvent⟩
  | idleTimerExpiry => exact ⟨_, rfl, h.idleEvent⟩
  | _ => cases hc

/-- Every row other than a reset and a tick keeps a floor, which a Stream Reset needs at 0 for the next-line counters. -/
theorem exec_kept (h : Kept k s) (hk : k.queues = none) (hp : ∀ l, c ≠ .powerOnReset l) (ht : ∀ l, c ≠ .tick l)
    (hn : ∀ tag, c = .streamReset tag → ∀ p, k.next.get p = 0) : ∃ t, exec c s = .next t ∧ Kept k t := by
  cases hc : c.taken with
  | none => exact exec_untaken_kept h hk hc hp ht
  | some x =>
    obtain ⟨tag, r⟩ := x
    exact ⟨_, exec_taken hc s, h.takeWith hk tag rfl fun e => hn tag (taken_streamReset (e ▸ hc))⟩

theorem State.Inv.settle (h : s.Inv) : Kept s.resetFloor (settle s) := h.keptReset.settle rfl s.resetFloor_next

theorem tickAll_pending (l : Levels) (s : State) : (tickAll l s).pending = s.pending := rfl

/-- Every row answers a state of the invariant with the waiting commands kept (log 1). -/
theorem exec_inv (h : s.Inv) (c : Instr) : ∃ t, exec c s = .next t ∧ t.Inv ∧ t.pending = s.pending := by
  by_cases hp : ∃ l, c = .powerOnReset l
  · obtain ⟨l, rfl⟩ := hp
    have hi := State.powerOn_inv l
    exact ⟨_, rfl, ⟨hi.ptu, hi.trig, hi.jobs, hi.store, hi.depths, hi.heads, hi.lanes, hi.banks, hi.notices, hi.link,
      hi.batch, hi.loading⟩, rfl⟩
  by_cases ht : ∃ l, c = .tick l
  · obtain ⟨l, rfl⟩ := ht
    exact ⟨tickAll l (settle s), rfl, h.settle.inv.tickAll l, (tickAll_pending l _).trans h.settle.pending⟩
  · obtain ⟨t, e, ht⟩ := exec_kept h.keptReset rfl (not_exists.1 hp) (not_exists.1 ht) fun _ _ => s.resetFloor_next
    exact ⟨t, e, ht.inv, ht.pending⟩

theorem exec_next (c : Instr) (s : State) : ∃ t, exec c s = .next t := by
  cases c <;> exact ⟨_, rfl⟩

theorem State.Inv.setPending (h : s.Inv) (l : List Instr) : State.Inv { s with pending := l } :=
  ⟨h.ptu, h.trig, h.jobs, h.store, h.depths, h.heads, h.lanes, h.banks, h.notices, h.link, h.batch, h.loading⟩

theorem step_nil (h : s.pending = []) : step s = .next s := by rw [step, h]

theorem step_cons {l : List Instr} (h : s.pending = c :: l) : step s = exec c { s with pending := l } := by rw [step, h]

/-- Settles O1. -/
theorem stepRunsFrontCommand : Obligations.StepRunsFrontCommand := fun _ _ _ => ⟨step_cons, step_nil⟩

/-- Settles O2: every row answers, and from a state of the invariant none touches the queue. -/
theorem everyCommandAnswers : Obligations.EveryCommandAnswers := by
  refine ⟨fun c s => ?_, fun s => ?_⟩
  · obtain ⟨t, e⟩ := exec_next c s
    refine ⟨t, e, fun h => ?_⟩
    obtain ⟨u, e', -, hq⟩ := exec_inv h c
    rw [e] at e'
    cases e'
    exact hq
  · cases hq : s.pending with
    | nil => exact ⟨s, step_nil hq⟩
    | cons c l => rw [Safe, step_cons hq]; exact exec_next _ _

/-- Settles O3: the step is the front command's, and every row keeps the invariant. -/
theorem invariantKept : Obligations.InvariantKept := by
  intro s t h e
  cases hq : s.pending with
  | nil =>
    rw [step_nil hq] at e
    cases e
    exact h
  | cons c l =>
    obtain ⟨u, e', hu, -⟩ := exec_inv (h.setPending l) c
    rw [step_cons hq, e'] at e
    cases e
    exact hu

/-- Settles O4. -/
theorem powerOnMeetsInvariant : Obligations.PowerOnMeetsInvariant := ⟨State.powerOn_inv _, State.powerOn_inv⟩

/-! ## S and the next-line counters (R8, R27) -/

theorem exec_kept_next (h : s.Inv) (hp : ∀ l, c ≠ .powerOnReset l) (ht : ∀ l, c ≠ .tick l) (e : exec c s = .next t) :
    Kept s.resetFloor t := by
  obtain ⟨u, e', hu⟩ := exec_kept h.keptReset rfl hp ht fun _ _ => s.resetFloor_next
  rw [e] at e'
  cases e'
  exact hu

/-- Settles O5: S is at or above the floor of every row but the reset, and a tick adds V to it. -/
theorem positionNeverGoesBack : Obligations.PositionNeverGoesBack := by
  intro c s t h e
  by_cases hp : ∃ l, c = .powerOnReset l
  · obtain ⟨l, rfl⟩ := hp
    cases e
    rfl
  by_cases ht : ∃ l, c = .tick l
  · obtain ⟨l, rfl⟩ := ht
    cases e
    exact h.settle.position.trans (h.settle.inv.tickAll_position l)
  · have hs : s.ptu.s ≤ t.ptu.s := (exec_kept_next h (not_exists.1 hp) (not_exists.1 ht) e).position
    cases c with
    | powerOnReset l => exact absurd ⟨l, rfl⟩ hp
    | _ => exact hs

/-! ## What Stream Reset leaves of the Job Queue -/

theorem enterNegotiating_jobs (h : Head) (x : LaneReason) (s : State) : (enterNegotiating h x s).jobs = s.jobs :=
  (quiet_laneNotice h x _).jobs

theorem testDownshift_jobs (h : Head) (s : State) : (testDownshift h s).jobs = s.jobs := by
  rw [testDownshift]
  split
  · rw [enterNegotiating_jobs, (quiet_laneNotice h .downshift _).jobs]
    rfl
  · rfl

theorem streamReset_jobs (s : State) : (streamReset s).jobs = s.jobs.cleared := by
  have hs : (resetStore (resetQualifier (resetBanks (s.setJobs s.jobs.cleared)))).jobs = s.jobs.cleared := by
    rw [resetStore]
    split
    · exact (quiet_setFlowPending _).jobs
    · rfl
  exact forEach_keeps (P := fun t => t.jobs = s.jobs.cleared) allHeads testDownshift
    (fun h _ t ht => (testDownshift_jobs h t).trans ht) hs

theorem placeAnswer_jobs (a : Answer) (s : State) : (placeAnswer a s).jobs = s.jobs := (quiet_arbitrate _).jobs

theorem answered_jobs (f : Frame) (x : ResultCode) (p : List Byte) (s : State) : (answered f x p s).jobs = s.jobs :=
  placeAnswer_jobs _ _

theorem cmdStreamReset_jobs (s : State) : (cmdStreamReset s).state.jobs = s.jobs.cleared := streamReset_jobs s

theorem takeWith_streamReset_next (tag : Byte) (s : State) :
    (∀ p, (takeWith tag .streamReset cmdStreamReset s).jobs.next.get p = 0) ∨
      (takeWith tag .streamReset cmdStreamReset s).jobs = s.jobs := by
  unfold takeWith
  split
  · exact .inr rfl
  · rename_i f rest _
    split
    · by_cases hl : s.loading = true
      · rw [takeFrame_loading hl]
        exact .inr (placeAnswer_jobs _ _)
      · have hr : (cmdStreamReset (s.took rest)).reloads = false := rfl
        rw [takeFrame_executed hl hr]
        refine .inl fun p => ?_
        rw [answered_jobs, cmdStreamReset_jobs]
        exact get_replicate 0 p
    · exact .inr rfl

/-- Settles O6: the floor of every row but a reset, Stream Reset and TICK holds the next-line counters. -/
theorem nextLinesNeverGoBack : Obligations.NextLinesNeverGoBack := by
  intro c s t h e
  have key (hp : ∀ l, c ≠ .powerOnReset l) (ht : ∀ l, c ≠ .tick l) (hs : ∀ tag, c ≠ .streamReset tag) (p : Plane) :
      s.jobs.next.get p ≤ t.jobs.next.get p := by
    obtain ⟨u, e', hu⟩ := exec_kept h.keptOpen rfl hp ht fun tag e => absurd e (hs tag)
    rw [e] at e'
    cases e'
    exact hu.next p
  cases c with
  | powerOnReset l =>
    cases e
    exact get_replicate 0
  | streamReset tag =>
    cases e
    exact (takeWith_streamReset_next tag s).imp id fun e p => by rw [e]
  | tick l => trivial
  | _ => exact key (fun _ => nofun) (fun _ => nofun) fun _ => nofun

/-! ## One answer for each frame (R159, R160) -/

theorem placeAnswer_answers (a : Answer) (s : State) : (placeAnswer a s).link.answers = s.link.answers ++ [a] :=
  (quiet_arbitrate _).answers

theorem placeAnswer_inbound (a : Answer) (s : State) : (placeAnswer a s).link.inbound = s.link.inbound :=
  (quiet_arbitrate _).inbound

theorem startLoading_queues (x : LoadCause) (s : State) : (startLoading x s).link.inbound = s.link.inbound ∧
    (startLoading x s).link.answers = s.link.answers := by
  unfold startLoading enterOff
  split
  · exact ⟨rfl, rfl⟩
  · have q := quiet_submit (.ptuState .off .loading)
    exact ⟨(q _).inbound, (q _).answers⟩

/-- A request executed touches neither the inbound control queue nor the answer queue. -/
theorem runRequest_queues (h : s.Inv) (hl : s.loading ≠ true) (hf : f.request = r) :
    (runRequest r s).state.link.inbound = s.link.inbound ∧ (runRequest r s).state.link.answers = s.link.answers := by
  have k : Kept { s.floor with next := Vector.replicate 4 0 } s :=
    ⟨h, Nat.le_refl _, fun p => by simp, rfl, rfl, fun _ e => by cases e; rfl⟩
  have := (k.runRequest hl (r := r) (fun x e => Frame.request_planes (hf.trans e)) fun _ => get_replicate 0).queues _ rfl
  exact ⟨(Prod.mk.inj this).2, (Prod.mk.inj this).1⟩

theorem State.Inv.took (h : s.Inv) (hq : s.link.inbound = f :: rest) : (s.took rest).Inv := by
  have hi := h.link.inbound
  rw [hq, List.length_cons] at hi
  exact ⟨h.ptu, h.trig, h.jobs, h.store, h.depths, h.heads, h.lanes, h.banks, h.notices,
    ⟨by simp only [State.took, State.setLink_link]; omega, h.link.answers, h.link.batch, h.link.sending, h.link.busy⟩,
    h.batch, h.loading⟩

theorem takeFrame_reloads {cmd : State → Reply} (hl : s.loading ≠ true) (hr : (cmd (s.took rest)).reloads = true) :
    takeFrame f rest cmd s = startLoading .reload
      (answered f (cmd (s.took rest)).result (cmd (s.took rest)).payload (cmd (s.took rest)).state) :=
  (if_neg hl).trans (if_pos hr)

theorem takeFrame_answers (h : s.Inv) (hq : s.link.inbound = f :: rest) (hf : f.request = r) :
    ∃ a, (takeFrame f rest (runRequest r) s).link.inbound = rest ∧
      (takeFrame f rest (runRequest r) s).link.answers = s.link.answers ++ [a] ∧ a.tag = f.tag ∧ a.code = f.code := by
  by_cases hl : s.loading = true
  · rw [takeFrame_loading hl]
    exact ⟨_, placeAnswer_inbound _ _, placeAnswer_answers _ _, rfl, rfl⟩
  · obtain ⟨hi, ha⟩ := runRequest_queues (h.took hq) hl hf
    refine ⟨f.answer (runRequest r (s.took rest)).result (runRequest r (s.took rest)).payload, ?_⟩
    have hp : ∀ a, (placeAnswer a (runRequest r (s.took rest)).state).link.inbound = rest ∧
        (placeAnswer a (runRequest r (s.took rest)).state).link.answers = s.link.answers ++ [a] := fun a =>
      ⟨(placeAnswer_inbound _ _).trans hi, (placeAnswer_answers _ _).trans (congrArg (· ++ _) ha)⟩
    by_cases hr : (runRequest r (s.took rest)).reloads = true
    · rw [takeFrame_reloads hl hr, (startLoading_queues _ _).1, (startLoading_queues _ _).2]
      exact ⟨(hp _).1, (hp _).2, rfl, rfl⟩
    · rw [takeFrame_executed hl (by simpa using hr)]
      exact ⟨(hp _).1, (hp _).2, rfl, rfl⟩

/-- Settles O7: the take places one answer, and the request it executes touches neither queue. -/
theorem oneAnswerPerFrame : Obligations.OneAnswerPerFrame := by
  intro c tag r s f rest h hc hq hroom ht hr
  obtain ⟨a, hi, ha, h1, h2⟩ := takeFrame_answers h hq hr
  exact ⟨_, a, by rw [exec_taken hc, takeWith_front hq hroom ht hr], hi, ha, h1, h2⟩

end Sys2Proof.Machine
end

section
/-!
PROOFS. What the Head Scheduler's operations leave as it is. Every one of them acts for a head, or for the heads of a set, and
changes beside their records and lanes only the Job Queue's records, the slots, the bound counts and the notices.
-/

namespace Sys2Proof.Machine

/-- State t differs from state s only in the records and lanes of the heads of P, in the Job Queue's records and last
activation, in the slots, in the bound counts and the state of the other bank, and in the notices and what leaves for them. -/
structure Within (P : Head → Prop) (s t : State) : Prop where
  now : t.now = s.now
  ptu : t.ptu = s.ptu
  trig : t.trig = s.trig
  pending : t.pending = s.pending
  next : t.jobs.next = s.jobs.next
  print : t.jobs.print = s.jobs.print
  heads : ∀ i, ¬ P i → t.head i = s.head i
  lanes : ∀ i, ¬ P i → t.lane i = s.lane i
  active : t.banks.active = s.banks.active
  tables : ∀ i, t.banks.tables i = s.banks.tables i
  up : t.link.up = s.link.up
  inbound : t.link.inbound = s.link.inbound
  answers : t.link.answers = s.link.answers
  loader : t.link.loader = s.link.loader

variable {P Q : Head → Prop} {s t u : State} {h : Head}

theorem Within.refl (P : Head → Prop) (s : State) : Within P s s :=
  ⟨rfl, rfl, rfl, rfl, rfl, rfl, fun _ _ => rfl, fun _ _ => rfl, rfl, fun _ => rfl, rfl, rfl, rfl, rfl⟩

theorem Within.trans (a : Within P s t) (b : Within P t u) : Within P s u :=
  ⟨b.now.trans a.now, b.ptu.trans a.ptu, b.trig.trans a.trig, b.pending.trans a.pending, b.next.trans a.next,
    b.print.trans a.print, fun i hi => (b.heads i hi).trans (a.heads i hi), fun i hi => (b.lanes i hi).trans (a.lanes i hi),
    b.active.trans a.active, fun i => (b.tables i).trans (a.tables i), b.up.trans a.up, b.inbound.trans a.inbound,
    b.answers.trans a.answers, b.loader.trans a.loader⟩

theorem Within.mono (a : Within P s t) (h : ∀ i, P i → Q i) : Within Q s t :=
  ⟨a.now, a.ptu, a.trig, a.pending, a.next, a.print, fun i hi => a.heads i fun p => hi (h i p),
    fun i hi => a.lanes i fun p => hi (h i p), a.active, a.tables, a.up, a.inbound, a.answers, a.loader⟩

theorem Within.position (a : Within P s t) : t.position = s.position := by rw [State.position, a.ptu]; rfl

theorem Within.head_ne (a : Within (· = h) s t) {i : Head} (hi : i ≠ h) : t.head i = s.head i := a.heads i hi
theorem Within.lane_ne (a : Within (· = h) s t) {i : Head} (hi : i ≠ h) : t.lane i = s.lane i := a.lanes i hi

/-- What every member's change leaves as it is, the whole run leaves. -/
theorem within_forEach {α : Type} {l : List α} {f : α → State → State} (hf : ∀ a ∈ l, ∀ s, Within P s (f a s)) (s : State) :
    Within P s (forEach l f s) :=
  forEach_keeps (P := Within P s) l f (fun a ha _ hs => hs.trans (hf a ha _)) (.refl P s)

/-! ## The parts of the state -/

theorem Quiet.within (q : Quiet s t) (P : Head → Prop) : Within P s t :=
  ⟨q.now, q.ptu, q.trig, q.pending, by rw [q.jobs], by rw [q.jobs], fun i _ => q.head i, fun i _ => q.lane i, by rw [q.banks],
    fun i => by rw [q.banks], q.up, q.inbound, q.answers, q.loader⟩

theorem within_setHead (hp : P h) (x : HeadRec) (s : State) : Within P s (s.setHead h x) :=
  { Within.refl P s with heads := fun _ hi => State.setHead_head_ne s x fun e => hi (e ▸ hp) }

theorem within_setLane (hp : P h) (x : Lane) (s : State) : Within P s (s.setLane h x) :=
  { Within.refl P s with lanes := fun _ hi => State.setLane_lane_ne s x fun e => hi (e ▸ hp) }

theorem within_changeLane (hp : P h) (f : Lane → Lane) (s : State) : Within P s (changeLane h f s) := within_setLane hp _ s

theorem within_setPlane (P : Head → Prop) (p : Plane) (x : PlaneStore) (s : State) : Within P s (s.setPlane p x) :=
  { Within.refl P s with }

theorem within_setJobs {q : JobQueue} (hn : q.next = s.jobs.next) (hp : q.print = s.jobs.print) (P : Head → Prop) :
    Within P s (s.setJobs q) :=
  { Within.refl P s with next := hn, print := hp }

theorem within_setRecords (P : Head → Prop) (l : List JobRec) (s : State) :
    Within P s (s.setJobs { s.jobs with records := l }) :=
  within_setJobs (q := { s.jobs with records := l }) rfl rfl P

theorem within_update (P : Head → Prop) (id : Nat) (f : JobRec → JobRec) (s : State) :
    Within P s (s.setJobs (s.jobs.update id f)) := within_setRecords P _ s

theorem within_remove (P : Head → Prop) (id : Nat) (s : State) : Within P s (s.setJobs (s.jobs.remove id)) :=
  within_setRecords P _ s

theorem within_setBanks {b : Banks} (ha : b.active = s.banks.active) (ht : ∀ i, b.tables i = s.banks.tables i)
    (P : Head → Prop) : Within P s (s.setBanks b) :=
  { Within.refl P s with active := ha, tables := ht }

theorem within_unbindBank (P : Head → Prop) (i : BankId) (s : State) : Within P s (unbindBank i s) := by
  refine within_setBanks ?_ (fun j => ?_) P
  · split <;> rfl
  · split
    · exact setBound_tables _ _ _ _
    · exact setBound_tables _ _ _ _

theorem within_bindBank (P : Head → Prop) (s : State) : Within P s (bindBank s) :=
  within_setBanks (b := s.banks.setBound _ _) rfl (fun _ => setBound_tables _ _ _ _) P

theorem within_putPlane (P : Head → Prop) (p : Plane) (x : PlaneStore) (s : State) : Within P s (putPlane p x s) := by
  unfold putPlane
  split
  · exact within_setPlane P p x s
  · exact (within_setPlane P p x s).trans ((quiet_setFlowPending _).within P)

theorem within_storeChange (P : Head → Prop) (p : Plane) (f : PlaneStore → PlaneStore) (s : State) :
    Within P s (storeChange p f s) := within_putPlane P p _ s

/-! ## The operations of a head -/

section
variable (c : Cursor) (s : State)

theorem within_retire (P : Head → Prop) (id : Nat) : Within P s (retire id s) := by
  unfold retire
  split
  · exact .refl P s
  · split
    · exact .refl P s
    · exact ((within_remove P id s).trans (within_unbindBank P _ _)).trans ((quiet_submit _ _).within P)

theorem within_report (P : Head → Prop) (job n : Nat) (fired retires : Bool) : Within P s (report job n fired retires s) := by
  unfold report
  split
  · exact .refl P s
  · split
    · exact .refl P s
    · dsimp only
      split
      · exact (within_update P job _ s).trans (within_retire _ P job)
      · exact within_update P job _ s

theorem within_takeOf (P : Head → Prop) (h : Head) (r : Bool) : Within P s (takeOf h c r s) := by
  unfold takeOf
  split
  · exact .refl P s
  · exact within_storeChange P _ _ s

variable {s} in
theorem within_startPreload (hp : P h) {x : HeadRec} (e : startPreload h x c s = some t) : Within P s t := by
  unfold startPreload at e
  split at e
  · cases e
  · split at e
    · cases e
    · cases e
      exact ((within_takeOf c s P h true).trans (within_changeLane hp _ _)).trans (within_setHead hp _ _)

theorem within_startPreload_getD (hp : P h) (x : HeadRec) (ht : Within P s t) :
    Within P s ((startPreload h x c s).getD t) := by
  cases e : startPreload h x c s with
  | none => exact ht
  | some u => exact within_startPreload c hp e

theorem within_tryPreload (hp : P h) : Within P s (tryPreload h s) := by
  unfold tryPreload
  split
  · exact within_startPreload_getD _ s hp _ (.refl P s)
  · exact .refl P s

theorem within_arriveOn (hp : P h) (x : HeadRec) : Within P s (arriveOn h x c s) := by
  unfold arriveOn
  split
  · exact within_setHead hp _ s
  · exact within_startPreload_getD c s hp x (within_setHead hp _ s)

theorem within_laneNotice (P : Head → Prop) (h : Head) (r : LaneReason) : Within P s (laneNotice h r s) :=
  (quiet_laneNotice h r s).within P

theorem within_enterNegotiating (hp : P h) (r : LaneReason) : Within P s (enterNegotiating h r s) :=
  (within_changeLane hp _ s).trans (within_laneNotice _ P h r)

theorem within_testDownshift (hp : P h) : Within P s (testDownshift h s) := by
  unfold testDownshift
  dsimp only
  split
  · exact (((within_setLane hp _ s).trans (within_setHead hp _ _)).trans (within_laneNotice _ P h _)).trans
      (within_enterNegotiating _ hp _)
  · exact .refl P s

theorem within_becomeIdle (hp : P h) (x : HeadRec) : Within P s (becomeIdle h x s) :=
  (within_setHead hp _ s).trans (within_testDownshift _ hp)

theorem within_goTo (hp : P h) (x : HeadRec) (c : Option Cursor) : Within P s (goTo h x c s) := by
  cases c with
  | none => exact within_becomeIdle s hp x
  | some c => exact within_arriveOn c s hp x

theorem within_countOutcome (P : Head → Prop) (h : Head) (o : DueOutcome) : Within P s (countOutcome h o c s) := by
  unfold countOutcome
  dsimp only
  split
  · exact (quiet_bump _ s).within P
  · exact ((quiet_bump _ s).trans (quiet_submitCondition _ _ _)).within P

theorem within_dueEvent (hp : P h) : Within P s (dueEvent h c s) := by
  have ht : ∀ b t, Within P t (if b = true then takeOf h c false t else t) := fun b t => by
    split
    · exact within_takeOf c t P h false
    · exact .refl P t
  have hf : ∀ o t, Within P t (if o = DueOutcome.fired then changeLane h Lane.strobe t else t) := fun o t => by
    split
    · exact within_changeLane hp _ t
    · exact .refl P t
  exact ((((within_countOutcome c s P h _).trans (ht _ _)).trans (within_report _ P _ _ _ _)).trans (hf _ _)).trans
    (within_goTo _ hp _ _)

theorem within_runDues (hp : P h) (n : Nat) : Within P s (runDues h n s) := by
  induction n generalizing s with
  | zero => exact .refl P s
  | succ n ih =>
    unfold runDues
    split
    · exact .refl P s
    · exact (within_dueEvent _ s hp).trans (ih _)

theorem within_arrive (hp : P h) (x : HeadRec) : Within P s (arrive h x c s) :=
  (within_arriveOn c s hp x).trans (within_runDues _ hp _)

/-- Of the PTU an advance moves the position presented alone (R9, log 10). -/
theorem within_presentAdvance (P : Head → Prop) (hp : ∀ h, P h) :
    Within P (s.setPtu { s.ptu with presented := s.position }) (presentAdvance s) :=
  within_forEach (fun h _ t => within_runDues t (hp h) _) _

theorem presentAdvance_ptu : (presentAdvance s).ptu = { s.ptu with presented := s.position } :=
  (within_presentAdvance s (fun _ => True) fun _ => trivial).ptu

theorem within_transmissionEnded (hp : P h) : Within P s (transmissionEnded h s) := by
  unfold transmissionEnded
  dsimp only
  split
  · exact .refl P s
  · split
    · exact within_setHead hp _ s
    · exact within_arrive _ s hp _
    · exact within_setHead hp _ s

theorem within_laneLeftUp (hp : P h) : Within P s (laneLeftUp h s) := by
  unfold laneLeftUp
  dsimp only
  split
  · exact within_setHead hp _ s
  · exact within_setHead hp _ s
  · exact within_arrive _ s hp _
  · exact within_setHead hp _ s
  all_goals exact .refl P s

theorem within_skipLine (P : Head → Prop) (h : Head) (taken retires : Bool) : Within P s (skipLine h c taken retires s) := by
  unfold skipLine
  dsimp only
  have ht : ∀ t, Within P t (if taken = true then takeOf h c false t else t) := fun t => by
    split
    · exact within_takeOf c t P h false
    · exact .refl P t
  exact (((quiet_bump _ s).within P).trans (ht _)).trans (within_report _ P _ _ _ _)

theorem within_skipRun (P : Head → Prop) (h : Head) (retires : Bool) (n : Nat) (taken : Bool) :
    Within P s (skipRun h retires n c taken s) := by
  induction n generalizing c taken s with
  | zero => exact .refl P s
  | succ n ih => exact (within_skipLine c s P h taken retires).trans (ih _ _ _)

theorem within_giveUpHead (hp : P h) : Within P s (giveUpHead h s) := by
  unfold giveUpHead
  split
  · exact .refl P s
  · exact ((within_skipRun _ s P h true _ _).trans (within_forEach (fun _ _ t => within_skipRun _ t P h true _ _) _)).trans
      (within_becomeIdle _ hp _)

theorem within_abortPart (hp : P h) (id length : Nat) : Within P s (abortPart h id length s) := by
  unfold abortPart
  split
  · exact .refl P s
  · split
    · exact ((within_skipRun _ s P h false _ _).trans (within_goTo _ hp _ _)).trans (within_runDues _ hp _)
    · split
      · exact within_skipRun _ s P h false _ _
      · exact .refl P s

theorem within_lineReady (p : Plane) (n : Nat) (ts : List Head) : Within (· ∈ ts) s (lineReady p n ts s) := by
  refine within_forEach (fun h hh t => ?_) s
  split
  · exact .refl _ t
  · split
    · exact .refl _ t
    · split
      · exact within_tryPreload t hh
      · exact .refl _ t

theorem within_handToHeads (id : Nat) (hs : List Head) : Within (· ∈ hs) s (handToHeads id hs s) := by
  refine within_forEach (fun h hh t => ?_) s
  split
  · exact within_arrive _ t hh _
  · exact .refl _ t

end

end Sys2Proof.Machine
end

section
/-!
PROOFS. The statements of chapter 1: the counts, the decoder, the stall, the advance, the filters and the three commands of the
PTU. A count is one stage after the other, and each stage is said once as a record update.
-/

namespace Sys2Proof.Machine

variable {s t : State} {u : Ptu} {c : Instr} {tag : Byte} {r : Request} {f : Frame} {rest : List Frame}

/-! ## A frame taken by its row -/

theorem Taking.exec_reply (h : Taking s tag r f rest) (hc : c.taken = some (tag, r)) {x : ResultCode} {p : List Byte}
    (e : runRequest r (s.took rest) = { state := t, result := x, payload := p, reloads := false }) :
    exec c s = .next (answered f x p t) := by
  rw [exec_taken hc, h.takeWith (by rw [e]), e]

theorem Taking.exec_ok (h : Taking s tag r f rest) (hc : c.taken = some (tag, r)) {p : List Byte}
    (e : runRequest r (s.took rest) = Reply.ok p t) : exec c s = .next (answered f .ok p t) :=
  h.exec_reply hc e

theorem Taking.exec_refuse (h : Taking s tag r f rest) (hc : c.taken = some (tag, r)) {x : ResultCode}
    (e : runRequest r (s.took rest) = Reply.refuse x (s.took rest)) : exec c s = .next (answered f x [] (s.took rest)) :=
  h.exec_reply hc e

@[simp] theorem State.took_ptu (s : State) (l : List Frame) : (s.took l).ptu = s.ptu := rfl
@[simp] theorem State.took_trig (s : State) (l : List Frame) : (s.took l).trig = s.trig := rfl
@[simp] theorem State.took_jobs (s : State) (l : List Frame) : (s.took l).jobs = s.jobs := rfl
@[simp] theorem State.took_store (s : State) (l : List Frame) : (s.took l).store = s.store := rfl
@[simp] theorem State.took_banks (s : State) (l : List Frame) : (s.took l).banks = s.banks := rfl
@[simp] theorem State.took_notices (s : State) (l : List Frame) : (s.took l).notices = s.notices := rfl
@[simp] theorem State.took_head (s : State) (l : List Frame) (h : Head) : (s.took l).head h = s.head h := rfl
@[simp] theorem State.took_lane (s : State) (l : List Frame) (h : Head) : (s.took l).lane h = s.lane h := rfl
@[simp] theorem State.took_plane (s : State) (l : List Frame) (p : Plane) : (s.took l).plane p = s.plane p := rfl

/-! ## The stages of a count -/

theorem Ptu.count_forward (h : Config.mMin ≤ u.m) :
    u.count true = { u with m := min (u.m + u.params.lineRatio) (2 ^ 55 - 1) } := by
  have : clampInt Config.mMin Config.mMax (u.m + u.params.lineRatio) = min (u.m + u.params.lineRatio) (2 ^ 55 - 1) := by
    simp only [clampInt, Config.mMin, Config.mMax] at *
    omega
  simp [Ptu.count, this]

theorem Ptu.count_backward (h : u.m ≤ Config.mMax) :
    u.count false = { u with m := max (u.m - u.params.lineRatio) (-(2 ^ 55)) } := by
  have : clampInt Config.mMin Config.mMax (u.m - u.params.lineRatio) = max (u.m - u.params.lineRatio) (-(2 ^ 55)) := by
    simp only [clampInt, Config.mMin, Config.mMax] at *
    omega
  simp [Ptu.count, this]

/-- M × 2^16 stays below the end of S (R4, R8). -/
theorem Ptu.measured_le (h : u.m ≤ 2 ^ 55 - 1) : u.measured ≤ Config.sMax := by
  simp only [Ptu.measured, Config.sMax]
  omega

theorem Ptu.raise_eq (h : u.m ≤ 2 ^ 55 - 1) : u.raise = { u with s := max u.s (u.m * 2 ^ 16).toNat } := by
  rw [Ptu.raise, min_eq_right (measured_le h)]
  rfl

theorem Ptu.acquire_eq (h : u.m ≤ 2 ^ 55 - 1) :
    u.acquire = { u with state := .acquiring, stall := some 0, s := max u.s (u.m * 2 ^ 16).toNat } := by
  rw [Ptu.acquire, Ptu.raise_eq (u := { u with state := .acquiring, stall := some 0 }) h]

theorem Ptu.period_unmarked (h : u.mark = none) (now : Nat) : u.period now = { u with mark := some now } := by
  rw [Ptu.period, h]

theorem Ptu.period_marked {b : Nat} (h : u.mark = some b) (now : Nat) : u.period now =
    { u with
      history := pushPeriod u.depth u.history (min 16777215 (max 1 (now - b)))
      mark := some now } := by
  rw [Ptu.period, h]
  rfl

theorem pushPeriod_filling {n : Nat} {l : List Nat} (h : l.length < n) (p : Nat) : pushPeriod n l p = l ++ [p] :=
  if_neg (by simpa using h)

theorem pushPeriod_full {n x : Nat} {l : List Nat} (h : (x :: l).length = n) (p : Nat) :
    pushPeriod n (x :: l) p = l ++ [p] := if_pos (by simp [← h])

theorem Ptu.feedForward_full (h : u.history.length = 2 ^ u.params.avgExp) :
    u.feedForward = { u with vff := u.params.lineRatio * 65536 / (u.history.sum / 2 ^ u.params.avgExp) } :=
  if_pos ((Ptu.full_iff u).2 h)

theorem toNat_clampInt_zero (v x : Nat) : (clampInt 0 (v : Int) (x : Int)).toNat = min x v := by
  simp only [clampInt]
  omega

theorem Ptu.setV_natCast (x : Nat) : u.setV x = { u with v := min x u.params.vmax } := by
  rw [Ptu.setV, toNat_clampInt_zero]

/-- V is set from V_ff at the end of acquisition and at a forward slip (R6, R11). -/
theorem Ptu.slip_eq (h : u.m ≤ 2 ^ 55 - 1) :
    u.slip = { u with s := (u.m * 2 ^ 16).toNat, i := 0, v := min u.vff u.params.vmax } := by
  rw [Ptu.slip, min_eq_right (measured_le h), Ptu.setV_natCast]
  rfl

theorem Ptu.piUpdate_eq (e : Int) : u.piUpdate e =
    let ec := max (-1048576) (min e 1048576)
    let i := max (-(u.params.ilim : Int)) (min (u.i + u.params.ki * ec / 256) u.params.ilim)
    { u with i := i, v := (max 0 (min (u.vff + (u.params.kp * ec / 256 + i)) u.params.vmax)).toNat } := by
  simp only [Ptu.piUpdate, Ptu.setI, Ptu.setV, clampInt, Config.errorClamp, Int.fdiv_eq_ediv_of_nonneg _ (by decide : (0 : Int) ≤ 256)]

/-! ## The decoder (R3) -/

theorem forwardPair_ne_backwardPair (p : Bool × Bool) : backwardPair p ≠ forwardPair p := by
  revert p
  decide

@[simp] theorem Ptu.stepped_state (u : Ptu) (b : Bool) : (u.stepped b).state = u.state := rfl
@[simp] theorem Ptu.stepped_params (u : Ptu) (b : Bool) : (u.stepped b).params = u.params := rfl
@[simp] theorem Ptu.stepped_m (u : Ptu) (b : Bool) : (u.stepped b).m = u.m := rfl
@[simp] theorem Ptu.stepped_s (u : Ptu) (b : Bool) : (u.stepped b).s = u.s := rfl
@[simp] theorem Ptu.stepped_i (u : Ptu) (b : Bool) : (u.stepped b).i = u.i := rfl
@[simp] theorem Ptu.stepped_v (u : Ptu) (b : Bool) : (u.stepped b).v = u.v := rfl
@[simp] theorem Ptu.stepped_vff (u : Ptu) (b : Bool) : (u.stepped b).vff = u.vff := rfl
@[simp] theorem Ptu.stepped_history (u : Ptu) (b : Bool) : (u.stepped b).history = u.history := rfl
@[simp] theorem Ptu.stepped_mark (u : Ptu) (b : Bool) : (u.stepped b).mark = u.mark := rfl

/-- The state with a pair of encoder levels taken as the reference. -/
def State.takeEncoder (s : State) (p : Bool × Bool) : State :=
  s.setPtu { s.ptu with encA := s.ptu.encA.take p.1, encB := s.ptu.encB.take p.2 }

theorem decodePair_still (h : s.ptu.state = .off ∨ s.loading = true) (p : Bool × Bool) : decodePair p s = s.takeEncoder p :=
  if_pos h

theorem decodePair_forward (h : ¬ (s.ptu.state = .off ∨ s.loading = true)) :
    decodePair (forwardPair s.ptu.reference) s =
      if s.ptu.params.invert then backwardCount (s.takeEncoder (forwardPair s.ptu.reference))
      else forwardCount (s.takeEncoder (forwardPair s.ptu.reference)) :=
  (if_neg h).trans (if_pos rfl)

theorem decodePair_backward (h : ¬ (s.ptu.state = .off ∨ s.loading = true)) :
    decodePair (backwardPair s.ptu.reference) s =
      if s.ptu.params.invert then forwardCount (s.takeEncoder (backwardPair s.ptu.reference))
      else backwardCount (s.takeEncoder (backwardPair s.ptu.reference)) :=
  ((if_neg h).trans (if_neg (forwardPair_ne_backwardPair _))).trans (if_pos rfl)

theorem decodePair_diagonal {a b : Bool} (h : s.ptu.reference = (!a, !b)) : decodePair (a, b) s = s.takeEncoder (a, b) := by
  have hf : (a, b) ≠ forwardPair (!a, !b) := by cases a <;> cases b <;> decide
  have hb : (a, b) ≠ backwardPair (!a, !b) := by cases a <;> cases b <;> decide
  by_cases hs : s.ptu.state = .off ∨ s.loading = true
  · exact decodePair_still hs _
  · exact ((if_neg hs).trans (if_neg (h ▸ hf))).trans (if_neg (h ▸ hb))

theorem State.setPtu_stepped (s : State) (b : Bool) : s.setPtu (s.ptu.stepped b) =
    s.takeEncoder (if s.ptu.params.invert = b then backwardPair s.ptu.reference else forwardPair s.ptu.reference) := rfl

theorem exec_forwardCount (hs : s.ptu.state ≠ .off) (hl : s.loading = false) :
    exec .forwardCount s = .next (forwardCount (s.setPtu (s.ptu.stepped true))) := by
  have h : ¬ (s.ptu.state = .off ∨ s.loading = true) := by simp [hs, hl]
  rw [State.setPtu_stepped]
  show Host.Outcome.next (decodePair _ s) = _
  cases hi : s.ptu.params.invert
  · simp [decodePair_forward h, hi]
  · simp [decodePair_backward h, hi]

theorem exec_backwardCount (hs : s.ptu.state ≠ .off) (hl : s.loading = false) :
    exec .backwardCount s = .next (backwardCount (s.setPtu (s.ptu.stepped false))) := by
  have h : ¬ (s.ptu.state = .off ∨ s.loading = true) := by simp [hs, hl]
  rw [State.setPtu_stepped]
  show Host.Outcome.next (decodePair _ s) = _
  cases hi : s.ptu.params.invert
  · simp [decodePair_backward h, hi]
  · simp [decodePair_forward h, hi]

theorem exec_count_still (hs : s.ptu.state = .off ∨ s.loading = true) :
    exec .forwardCount s = .next (s.setPtu (s.ptu.stepped true)) ∧
      exec .backwardCount s = .next (s.setPtu (s.ptu.stepped false)) := by
  have key (p : Bool × Bool) : decodePair p s = s.takeEncoder p := decodePair_still hs p
  constructor
  · rw [State.setPtu_stepped]
    exact congrArg _ (key _)
  · rw [State.setPtu_stepped]
    show Host.Outcome.next (decodePair _ s) = _
    rw [key]
    cases s.ptu.params.invert <;> rfl

/-- Settles O16: a new pair is one of the two neighbours of the reference or lies diagonally to it. -/
theorem encoderStep : Obligations.EncoderStep := by
  refine ⟨by decide, fun s a b => ?_⟩
  have hexec (p : Bool × Bool) (hp : p = (a, b)) (hn : p ≠ s.ptu.reference) :
      exec (.encoderReferenceUpdate a b) s = .next (decodePair p s) := by
    subst hp
    exact congrArg _ (if_neg hn)
  have hf : forwardPair s.ptu.reference ≠ s.ptu.reference := by generalize s.ptu.reference = p; revert p; decide
  have hb : backwardPair s.ptu.reference ≠ s.ptu.reference := by generalize s.ptu.reference = p; revert p; decide
  refine ⟨fun e => congrArg _ (if_pos e.symm), fun e => ?_, fun e => ?_, fun e => ?_, fun hs => ?_⟩
  · rw [hexec _ e hf]
    cases hi : s.ptu.params.invert <;> simp [exec, execForwardCount, execBackwardCount, hi]
  · rw [hexec _ e hb]
    cases hi : s.ptu.params.invert <;> simp [exec, execForwardCount, execBackwardCount, hi]
  · rw [hexec _ rfl (by rw [e]; cases a <;> cases b <;> decide), decodePair_diagonal e]
    rfl
  · refine ⟨(exec_count_still hs).1, (exec_count_still hs).2, fun hn => ?_⟩
    rw [hexec _ rfl hn.symm, decodePair_still hs]
    rfl

/-! ## Counts (R15 to R17) -/

theorem advanceNow_ptu_state (s : State) : (advanceNow s).ptu.state = s.ptu.state := by
  unfold advanceNow
  split
  · rw [presentAdvance_ptu]
  · rfl

theorem ptuNotice_advanceNow (x : PtuReason) (u : Ptu) (s : State) :
    ptuNotice x (advanceNow (s.setPtu u)) = submit (.ptuState u.state x) (advanceNow (s.setPtu u)) := by
  rw [ptuNotice, advanceNow_ptu_state]
  rfl

theorem Ptu.Wf.lower (h : u.Wf) : -(2 ^ 55) ≤ u.m := h.measured.1
theorem Ptu.Wf.upper (h : u.Wf) : u.m ≤ 2 ^ 55 - 1 := h.measured.2

@[simp] theorem State.setPtu_setPtu (s : State) (x y : Ptu) : (s.setPtu x).setPtu y = s.setPtu y := rfl

theorem forwardCount_stopped (h : u.state = .stopped) (s : State) : forwardCount (s.setPtu u) =
    submit (.ptuState .acquiring .firstCount) (advanceNow (s.setPtu ((u.count true).period s.now).acquire)) := by
  simp only [forwardCount, State.setPtu_ptu, Ptu.count, h, ptuNotice_advanceNow]
  rfl

theorem backwardCount_stopped (h : u.state = .stopped) (s : State) :
    backwardCount (s.setPtu u) = s.setPtu (u.count false) := by
  simp only [backwardCount, State.setPtu_ptu, State.setPtu_setPtu, Ptu.count, h]

theorem forwardCount_acquiring (h : u.state = .acquiring) (s : State) : forwardCount (s.setPtu u) =
    let x := ({ u.count true with stall := some 0 }.period s.now).raise
    if x.full then submit (.ptuState .tracking .acquired)
      (advanceNow (s.setPtu ({ x.feedForward with i := 0, state := .tracking }.setV x.feedForward.vff)))
    else advanceNow (s.setPtu x) := by
  simp only [forwardCount, State.setPtu_ptu, Ptu.count, h, ptuNotice_advanceNow]
  rfl

theorem forwardCount_tracking (h : u.state = .tracking) (s : State) : forwardCount (s.setPtu u) =
    correct (s.setPtu ({ u.count true with stall := some 0 }.period s.now).feedForward) := by
  simp only [forwardCount, State.setPtu_ptu, State.setPtu_setPtu, State.setPtu_now, Ptu.count, h]

theorem forwardCount_holding (h : u.state = .holding) (s : State) : forwardCount (s.setPtu u) =
    catchUp (if (u.s : Int) ≤ (u.count true).m * 2 ^ 16 then (u.count true).period s.now
      else u.count true) (s.setPtu u) := by
  simp only [forwardCount, State.setPtu_ptu, State.setPtu_now, Ptu.count, h]

theorem backwardCount_holding (h : u.state = .holding) (s : State) :
    backwardCount (s.setPtu u) = catchUp (u.count false) (s.setPtu u) := by
  simp only [backwardCount, State.setPtu_ptu, Ptu.count, h]

/-- A backward count of the two timed states enters HOLDING (R16, R17). -/
theorem backwardCount_timed (h : u.state = .acquiring ∨ u.state = .tracking) (hm : u.m ≤ 2 ^ 55 - 1) (s : State) :
    backwardCount (s.setPtu u) = submit (.ptuState .holding .reverse) (s.setPtu
      { u with
        m := max (u.m - u.params.lineRatio) (-(2 ^ 55)), v := 0, i := 0, history := [], mark := none,
        stall := none, state := .holding }) := by
  have key : backwardCount (s.setPtu u) = ptuNotice .reverse (s.setPtu ((u.count false).halt .holding)) := by
    rcases h with h | h <;> simp only [backwardCount, State.setPtu_ptu, State.setPtu_setPtu, Ptu.count, h]
  rw [key, Ptu.count_backward hm]
  rfl

theorem catchUp_reached (h : (u.s : Int) ≤ u.m * 2 ^ 16) (s : State) :
    catchUp u s = submit (.ptuState .acquiring .caughtUp) (advanceNow (s.setPtu u.acquire)) := by
  rw [catchUp, if_pos h, ptuNotice_advanceNow]
  rfl

theorem catchUp_behind (h : u.m * 2 ^ 16 < u.s) (s : State) : catchUp u s = s.setPtu u := if_neg (not_le.2 h)

/-- Settles O12: a forward count begins to time and acquires, a backward count moves M alone. -/
theorem countInStopped : Obligations.CountInStopped := by
  intro s w hs hl
  obtain ⟨-, hm⟩ := w.untimed (.inl hs)
  refine ⟨?_, ?_⟩
  · dsimp only
    rw [exec_forwardCount (by simp [hs]) hl, forwardCount_stopped (u := s.ptu.stepped true) hs,
      Ptu.count_forward (u := s.ptu.stepped true) w.lower, Ptu.period_unmarked, Ptu.acquire_eq]
    · rfl
    · exact min_le_right _ _
    · exact hm
  · rw [exec_backwardCount (by simp [hs]) hl, backwardCount_stopped (u := s.ptu.stepped false) hs,
      Ptu.count_backward (u := s.ptu.stepped false) w.upper]
    rfl

/-- Settles O13: the first forward count marks the time, the next ones push a period, and the one that fills the history
enters TRACKING. -/
theorem countInAcquiring : Obligations.CountInAcquiring := by
  intro s w hs hl
  obtain ⟨hlen, -⟩ := w.filling hs
  have hne : s.ptu.state ≠ .off := by simp [hs]
  refine ⟨⟨fun hm => ?_, fun b hb => ⟨fun hh => ?_, fun hh => ?_⟩⟩, ?_⟩
  · rw [exec_forwardCount hne hl, forwardCount_acquiring (u := s.ptu.stepped true) hs,
      Ptu.count_forward (u := s.ptu.stepped true) w.lower, Ptu.period_unmarked, Ptu.raise_eq]
    · exact congrArg _ (if_neg fun hf => hlen.ne ((Ptu.full_iff _).1 hf))
    · exact min_le_right _ _
    · exact hm
  · rw [exec_forwardCount hne hl, forwardCount_acquiring (u := s.ptu.stepped true) hs,
      Ptu.count_forward (u := s.ptu.stepped true) w.lower, Ptu.period_marked, Ptu.raise_eq, pushPeriod_filling]
    · exact congrArg _ (if_neg fun hf => hh.ne ((Ptu.full_iff _).1 hf))
    · exact hlen
    · exact min_le_right _ _
    · exact hb
  · rw [exec_forwardCount hne hl, forwardCount_acquiring (u := s.ptu.stepped true) hs,
      Ptu.count_forward (u := s.ptu.stepped true) w.lower, Ptu.period_marked, Ptu.raise_eq, pushPeriod_filling]
    · refine congrArg _ ((if_pos ((Ptu.full_iff _).2 hh)).trans ?_)
      rw [Ptu.feedForward_full hh, Ptu.setV_natCast]
      rfl
    · exact hlen
    · exact min_le_right _ _
    · exact hb
  · rw [exec_backwardCount hne hl]
    exact congrArg _ (backwardCount_timed (u := s.ptu.stepped false) (.inl hs) w.upper s)

theorem correct_slip (h : (s.ptu.params.slip : Int) < s.ptu.error) : correct s =
    submitCondition .slip (.slip s.ptu.error) (advanceNow (s.setPtu s.ptu.slip)) := if_pos h

theorem correct_negativeSlip (h : s.ptu.error < -(s.ptu.params.slip : Int)) : correct s =
    submit (.ptuState .holding (.negativeSlip s.ptu.error)) (s.setPtu (s.ptu.halt .holding)) :=
  (if_neg (by omega)).trans (if_pos h)

theorem correct_within (h : -(s.ptu.params.slip : Int) ≤ s.ptu.error) (h' : s.ptu.error ≤ s.ptu.params.slip) :
    correct s = s.setPtu (s.ptu.piUpdate s.ptu.error) :=
  (if_neg (not_lt.2 h')).trans (if_neg (not_lt.2 h))

/-- Settles O14: the error after the feed-forward stage decides between the two slips and the PI update. -/
theorem countInTracking : Obligations.CountInTracking := by
  intro s b p ps w hs hl hb hp
  have hne : s.ptu.state ≠ .off := by simp [hs]
  have hfull : (p :: ps).length = 2 ^ s.ptu.params.avgExp := hp ▸ (w.filled hs).2
  refine ⟨?_, by rw [exec_backwardCount hne hl]; exact congrArg _ (backwardCount_timed (u := s.ptu.stepped false) (.inr hs) w.upper s)⟩
  intro q m h vff u e ec i
  have hu : ({ (s.ptu.stepped true).count true with stall := some 0 }.period s.now).feedForward = u := by
    rw [Ptu.count_forward (u := s.ptu.stepped true) w.lower, Ptu.period_marked (b := b), Ptu.feedForward_full]
    · simp only [Ptu.depth, Ptu.stepped_history, Ptu.stepped_params, hp, pushPeriod_full hfull]
      rfl
    · simp only [Ptu.depth, Ptu.stepped_history, Ptu.stepped_params, hp, pushPeriod_full hfull]
      simpa using hfull
    · exact hb
  have hx : exec .forwardCount s = .next (correct (s.setPtu u)) := by
    rw [exec_forwardCount hne hl, forwardCount_tracking (u := s.ptu.stepped true) hs]
    exact congrArg (fun x => Host.Outcome.next (correct (s.setPtu x))) hu
  rw [hx]
  refine ⟨fun he => ?_, fun he => ?_, fun h1 h2 => ?_⟩
  · rw [correct_slip (s := s.setPtu u) he, State.setPtu_ptu, Ptu.slip_eq (min_le_right _ _)]
    rfl
  · rw [correct_negativeSlip (s := s.setPtu u) he]
    rfl
  · rw [correct_within (s := s.setPtu u) h1 h2, State.setPtu_ptu, Ptu.piUpdate_eq]
    rfl

/-- Settles O15: a count in HOLDING moves M, and M × 2^16 at or beyond S begins to acquire. -/
theorem countInHolding : Obligations.CountInHolding := by
  intro s w hs hl
  have hne : s.ptu.state ≠ .off := by simp [hs]
  obtain ⟨hh, hm⟩ := w.untimed (.inr hs)
  refine ⟨?_, ?_⟩
  · intro m
    have hx : exec .forwardCount s = .next (catchUp (if (s.ptu.s : Int) ≤ m * 2 ^ 16 then
        { s.ptu.stepped true with m := m, mark := some s.now } else { s.ptu.stepped true with m := m })
        (s.setPtu (s.ptu.stepped true))) := by
      rw [exec_forwardCount hne hl, forwardCount_holding (u := s.ptu.stepped true) hs,
        Ptu.count_forward (u := s.ptu.stepped true) w.lower, Ptu.period_unmarked]
      · rfl
      · exact hm
    rw [hx]
    refine ⟨fun he => ?_, fun he => ?_⟩
    · rw [if_pos he, catchUp_reached he, Ptu.acquire_eq (min_le_right _ _)]
      rw [max_eq_right (by simp only [Ptu.stepped_s]; omega)]
      rfl
    · rw [if_neg (not_le.2 he), catchUp_behind he]
      rfl
  · intro m
    have hx : exec .backwardCount s = .next (catchUp { s.ptu.stepped false with m := m } (s.setPtu (s.ptu.stepped false))) := by
      rw [exec_backwardCount hne hl, backwardCount_holding (u := s.ptu.stepped false) hs,
        Ptu.count_backward (u := s.ptu.stepped false) w.upper]
      rfl
    have hmm : m ≤ 2 ^ 55 - 1 := by have := w.upper; simp only [m]; omega
    rw [hx]
    refine ⟨fun he => ?_, fun he => ?_⟩
    · rw [catchUp_reached he, Ptu.acquire_eq hmm]
      rw [max_eq_right (by simp only [Ptu.stepped_s]; omega)]
      simp only [Ptu.stepped_mark, hm]
      rfl
    · rw [catchUp_behind he]
      rfl

/-! ## The stall (R18) -/

theorem stallExpire_eq (s : State) : stallExpire s = submit (.ptuState .stopped .stall) (submit (.stall s.ptu.state) (s.setPtu
    { s.ptu with v := 0, i := 0, history := [], mark := none, stall := none, state := .stopped })) := by
  unfold stallExpire
  rw [ptuNotice, (quiet_submit _ _).ptu]
  rfl

theorem Ptu.stallDue_iff : u.stallDue = true ↔ ∃ e, u.stall = some e ∧ u.params.stallTimeout ≤ e := by
  unfold Ptu.stallDue
  cases u.stall <;> simp

/-- Settles O17. -/
theorem stallExpiry : Obligations.StallExpiry := by
  intro s
  refine ⟨fun e he hd => ?_, fun h => ?_⟩
  · rw [← stallExpire_eq]
    exact congrArg _ (if_pos (Ptu.stallDue_iff.2 ⟨e, he, hd⟩))
  · refine congrArg _ (if_neg fun hd => ?_)
    obtain ⟨e, he, hd⟩ := Ptu.stallDue_iff.1 hd
    exact absurd hd (not_le.2 (h e he))

/-! ## The filters (R2) -/

/-- Samples of a level that is not the taken one, up to the setting, count and take nothing. -/
theorem Input.sample_replicate_le {f n : Nat} {x : Bool} {i : Input} (ht : i.taken = !x) (hp : i.progress = 0) (h : n ≤ f) :
    (List.replicate n x).foldl (fun i x => i.sample f x) i = { i with progress := n } := by
  induction n with
  | zero => exact congrArg (fun n => ({ i with progress := n } : Input)) hp
  | succ n ih =>
    rw [List.replicate_succ', List.foldl_append, ih (by omega)]
    have hx : x ≠ i.taken := by rw [ht]; cases x <;> decide
    exact (if_neg hx).trans (if_neg (by show ¬ f ≤ n; omega))

theorem Input.sample_taken {x : Bool} {i : Input} (ht : i.taken = x) (f : Nat) : i.sample f x = { i with progress := 0 } :=
  if_pos ht.symm

/-- A level once taken stays taken while the samples show it. -/
theorem Input.sample_replicate_taken {f n : Nat} {x : Bool} {i : Input} (ht : i.taken = x) (hp : i.progress = 0) :
    (List.replicate n x).foldl (fun i x => i.sample f x) i = i := by
  induction n with
  | zero => rfl
  | succ n ih =>
    rw [List.replicate_succ', List.foldl_append, ih]
    exact (Input.sample_taken ht f).trans (by rw [← hp])

/-- Settles O20: f samples count, the next one takes the level, and the later ones leave it. -/
theorem filterTakesLevel : Obligations.FilterTakesLevel := by
  intro f n x i ht hp
  refine ⟨fun h => Input.sample_replicate_le ht hp h, fun h => ?_, fun k => ?_, fun h => ?_⟩
  · obtain ⟨m, rfl⟩ : ∃ m, n = f + (1 + m) := ⟨n - f - 1, by omega⟩
    have hx : x ≠ i.taken := by rw [ht]; cases x <;> decide
    have hs : Input.sample f x { i with progress := f } = { i with taken := x, progress := 0 } :=
      (if_neg hx).trans (if_pos (Nat.le_refl f))
    rw [List.replicate_add, List.foldl_append, Input.sample_replicate_le ht hp (Nat.le_refl f), List.replicate_add,
      List.foldl_append]
    show List.foldl _ (Input.sample f x { i with progress := f }) _ = _
    rw [hs]
    exact Input.sample_replicate_taken rfl rfl
  · exact (Input.sample_taken ht k).trans (by rw [← hp])
  · rw [Input.sample_replicate_le ht hp h]
    exact (Input.sample_taken (i := { i with progress := n }) ht f).trans (by rw [← hp])

/-! ## Commands (R20 to R22) -/

theorem enterOff_of_ne (h : s.ptu.state ≠ .off) (x : PtuReason) : enterOff x s = submit (.ptuState .off x) (s.setPtu
    { s.ptu with state := .off, v := 0, stall := none, presented := s.ptu.s / 2 ^ 24 }) := if_neg h

theorem enterOff_of_off (h : s.ptu.state = .off) (x : PtuReason) : enterOff x s = s := if_pos h

/-- Settles O22. -/
theorem positionOnOff : Obligations.PositionOnOff := by
  intro tag s f rest
  refine ⟨fun ht => ⟨fun hs => ht.exec_ok rfl ?_, fun hs => ht.exec_refuse rfl (if_pos hs)⟩,
    fun ht => ⟨fun hs => ht.exec_ok rfl ?_, fun hs => ht.exec_ok rfl ?_⟩⟩
  · exact if_neg (not_not.2 hs)
  · exact congrArg (Reply.ok []) (enterOff_of_off (s := s.took rest) hs _)
  · exact congrArg (Reply.ok []) (enterOff_of_ne (s := s.took rest) hs _)

theorem PtuParams.adjusted_eq (p : PtuParams) (a : PositionArgs) : p.adjusted a = {
    lineRatio := a.lineRatio.getD p.lineRatio
    avgExp := (a.avgExp.map (min · 5)).getD p.avgExp
    encFilter := (a.encFilter.map fun x =>
      if x = 0 then 0 else if x ≤ 2 then 2 else if x ≤ 4 then 4 else if x ≤ 8 then 8 else 16).getD p.encFilter
    invert := (a.invert.map (· == 0)).getD p.invert
    kp := (a.kp.map (min · 65535)).getD p.kp
    ki := (a.ki.map (min · 65535)).getD p.ki
    ilim := (a.ilim.map (min · (2 ^ 31 - 1))).getD p.ilim
    vmax := (a.vmax.map fun x => max 1 (min x (2 ^ 32 - 1))).getD p.vmax
    slip := (a.slip.map fun x => max 65536 (min x 16777216)).getD p.slip
    stallTimeout := (a.stall.map fun x => max 25000 (min x 16777215)).getD p.stallTimeout } := rfl

theorem Ptu.withParams_eq (u : Ptu) (q : PtuParams) (a : PositionArgs) : u.withParams q a = { u with
    params := q
    encA := if q.encFilter ≠ u.params.encFilter then { u.encA with progress := 0 } else u.encA
    encB := if q.encFilter ≠ u.params.encFilter then { u.encB with progress := 0 } else u.encB
    v := if a.vmax.isSome then min u.v q.vmax else u.v
    i := if a.ilim.isSome then max (-(q.ilim : Int)) (min u.i q.ilim) else u.i } := by
  unfold Ptu.withParams
  by_cases hm : q.encFilter = u.params.encFilter <;> cases a.vmax <;> cases a.ilim <;>
    simp [hm, Ptu.setI, Ptu.setV_natCast, clampInt, Input.restart]

theorem takeParams_timely {q : PtuParams} {a : PositionArgs}
    (h : ¬ (a.stall.isSome = true ∧ ∃ e, s.ptu.stall = some e ∧ q.stallTimeout ≤ e)) :
    takeParams q a s = s.setPtu (s.ptu.withParams q a) := by
  refine if_neg fun hd => h ?_
  obtain ⟨h1, h2⟩ := (Bool.and_eq_true _ _).mp hd
  obtain ⟨e, he⟩ := Ptu.stallDue_iff.1 h2
  exact ⟨h1, e, by rw [State.setPtu_ptu, Ptu.withParams_eq] at he; exact he⟩

theorem takeParams_late {q : PtuParams} {a : PositionArgs} (h1 : a.stall.isSome = true) {e : Nat}
    (he : s.ptu.stall = some e) (hq : q.stallTimeout ≤ e) :
    takeParams q a s = stallExpire (s.setPtu (s.ptu.withParams q a)) := by
  have hd : (s.ptu.withParams q a).stallDue = true := Ptu.stallDue_iff.2 ⟨e, by rw [Ptu.withParams_eq]; exact ⟨he, hq⟩⟩
  refine if_pos ?_
  rw [State.setPtu_ptu, h1, hd]
  exact rfl

theorem cmdSetPosition_badValue {a : PositionArgs} (hs : s.ptu.state = .off ∨ offOnly a = false)
    (h : (∃ r, a.lineRatio = some r ∧ (r < 256 ∨ 4194304 < r)) ∨ (∃ x, a.invert = some x ∧ 2 ≤ x)) :
    cmdSetPosition a s = Reply.refuse .badValue s := by
  unfold cmdSetPosition
  rw [if_neg (fun e => hs.elim e.1 fun o => by simp [o] at e), if_pos]
  rw [Bool.or_eq_true]
  refine h.imp ?_ ?_
  · rintro ⟨r, e, hr⟩
    simp only [e, ratioOk, Bool.not_eq_true', decide_eq_false_iff_not]
    omega
  · rintro ⟨x, e, hx⟩
    simpa [e] using hx

theorem cmdSetPosition_ok {a : PositionArgs} (hs : s.ptu.state = .off ∨ offOnly a = false)
    (hr : ∀ r, a.lineRatio = some r → 256 ≤ r ∧ r ≤ 4194304) (hi : ∀ x, a.invert = some x → x ≤ 1) :
    cmdSetPosition a s = Reply.ok (s.ptu.params.adjusted a).payload (takeParams (s.ptu.params.adjusted a) a s) := by
  unfold cmdSetPosition
  rw [if_neg (fun e => hs.elim e.1 fun o => by simp [o] at e), if_neg]
  rw [Bool.or_eq_true, not_or]
  constructor
  · cases e : a.lineRatio with
    | none => simp
    | some r => simp [ratioOk, hr r e]
  · cases e : a.invert with
    | none => simp
    | some x =>
      have := hi x e
      simp only [decide_eq_true_eq]
      omega

/-- Settles O21. -/
theorem setPosition : Obligations.SetPosition := by
  intro tag a s f rest ht only
  refine ⟨fun hs ho => ht.exec_refuse rfl (if_pos ⟨hs, ho⟩), fun hs hb => ht.exec_refuse rfl (cmdSetPosition_badValue hs hb),
    fun hs hr hi => ?_⟩
  intro p q moved u late
  have hx : runRequest (.setPosition a) (s.took rest) = Reply.ok q.payload (takeParams q a (s.took rest)) :=
    cmdSetPosition_ok hs hr hi
  have hu : s.ptu.withParams q a = u := Ptu.withParams_eq _ _ _
  refine ⟨fun hl => ?_, fun hl => ?_⟩
  · rw [ht.exec_ok rfl hx, takeParams_timely (s := s.took rest) hl]
    exact congrArg (fun v => Host.Outcome.next (answered f .ok q.payload ((s.took rest).setPtu v))) hu
  · obtain ⟨h1, e, he, hq⟩ := hl
    rw [ht.exec_ok rfl hx, takeParams_late (s := s.took rest) h1 he hq, stallExpire_eq, State.setPtu_ptu, State.took_ptu, hu]
    rfl

end Sys2Proof.Machine
end

section
/-!
PROOFS. The tick at which nothing is due, and the statements of the trigger qualifier.
-/

namespace Sys2Proof.Machine

variable {s t : State} {f : Frame} {rest : List Frame} {tag : Byte}

/-! ## A tick with nothing due (log 2) -/

/-- Changes that each leave a state as it is leave it as it is together. -/
theorem forEach_fix {α : Type} {l : List α} {f : α → State → State} {s : State} (h : ∀ a ∈ l, f a s = s) : forEach l f s = s :=
  forEach_keeps (P := (· = s)) l f (fun a ha _ e => e ▸ h a ha) rfl

theorem Lane.Settled.sent {l : Lane} (w : l.Settled) : l.sent = none := by
  unfold Lane.sent
  cases e : l.tx with
  | none => rfl
  | some x => exact if_neg (w.tx x e).ne'

theorem Lane.Settled.negotiationDue {l : Lane} (w : l.Settled) : l.negotiationDue = false := by
  unfold Lane.negotiationDue
  cases e : l.timer with
  | none => simp
  | some n =>
    by_cases hs : l.state = .negotiating
    · rw [hs]
      exact decide_eq_false (not_le.2 (w.negotiation n e hs))
    · simp [hs]

theorem Lane.Settled.echoDue {l : Lane} (w : l.Settled) : l.echoDue = false := by
  unfold Lane.echoDue
  cases e : l.timer with
  | none => simp
  | some n =>
    by_cases hs : l.state = .training
    · rw [hs]
      exact decide_eq_false (not_le.2 (w.echo n e hs))
    · simp [hs]

theorem Lane.Settled.statusDue {l : Lane} (w : l.Settled) : l.statusDue = false := by
  unfold Lane.statusDue
  cases e : l.status with
  | none => rfl
  | some n => exact decide_eq_false (not_le.2 (w.status n e))

theorem Lane.Settled.pulseDue {l : Lane} (w : l.Settled) : l.pulseDue = false := by
  simpa [Lane.pulseDue] using w.pulse

/-- No event of a settled lane is due. -/
theorem settleLane_settled {h : Head} (w : (s.lane h).Settled) : settleLane h s = s := by
  have e1 : holdEvent h s = s := if_pos (beq_iff_eq.2 w.hold)
  have e2 : faultEvent h s = s := if_pos (beq_iff_eq.2 w.fault)
  have e3 : fireSentEvent h s = s := by rw [fireSentEvent, w.sent]
  have e4 : capsSentEvent h s = s := by rw [capsSentEvent, w.sent]
  have e5 : trainSentEvent h s = s := by rw [trainSentEvent, w.sent]
  have e6 : negotiationEvent h s = s := if_neg (by simp [w.negotiationDue])
  have e7 : echoEvent h s = s := if_neg (by simp [w.echoDue])
  have e8 : statusEvent h s = s := if_neg (by simp [w.statusDue])
  have e9 : pulseEvent h s = s := if_neg (by simp [w.pulseDue])
  rw [settleLane, e1, e2, e3, e4, e5, e6, e7, e8, e9]

theorem advanceEvent_void (h : s.ptu.state = .off ∨ s.ptu.s / 2 ^ 24 ≤ s.ptu.presented) : advanceEvent s = s :=
  if_neg fun e => h.elim e.1 (not_le.2 e.2)

theorem stallEvent_void (h : ∀ e, s.ptu.stall = some e → e < s.ptu.params.stallTimeout) : stallEvent s = s :=
  if_neg fun hd => by
    obtain ⟨e, he, hd⟩ := Ptu.stallDue_iff.1 hd
    exact absurd hd (not_le.2 (h e he))

theorem State.minOnElapsed_iff : s.minOnElapsed = true ↔ ∃ b, s.trig.t0 = some b ∧ s.trig.params.minOn * 25 ≤ s.now - b := by
  unfold State.minOnElapsed
  cases s.trig.t0 with
  | none => simp
  | some b => exact decide_eq_true_iff.trans (by simp [Config.ticksPerUs])

theorem State.minOnDue_iff : s.minOnDue = true ↔
    s.trig.state = .candidate ∧ ∃ b, s.trig.t0 = some b ∧ s.trig.params.minOn * 25 ≤ s.now - b := by
  rw [State.minOnDue, Bool.and_eq_true, beq_iff_eq, State.minOnElapsed_iff]

theorem State.trigTimerDue_iff {k : TrigTimer} : s.trigTimerDue k = true ↔ ∃ e, s.trig.timer = some (k, e) ∧ e ≤ s.now := by
  unfold State.trigTimerDue
  cases h : s.trig.timer with
  | none => simp
  | some x => obtain ⟨j, e⟩ := x; simp

theorem State.dropoutDue_iff : s.dropoutDue = true ↔
    s.trig.state = .dropout ∧ ∃ e, s.trig.timer = some (.dropout, e) ∧ e ≤ s.now := by
  rw [State.dropoutDue, Bool.and_eq_true, beq_iff_eq, State.trigTimerDue_iff]

theorem State.minOffDue_iff : s.minOffDue = true ↔
    s.trig.state = .releasing ∧ ∃ e, s.trig.timer = some (.minOff, e) ∧ e ≤ s.now := by
  rw [State.minOffDue, Bool.and_eq_true, beq_iff_eq, State.trigTimerDue_iff]

theorem Banks.copyDue_iff {b : Banks} : b.copyDue = true ↔ ∃ e, b.other = .copying e ∧ 37500 ≤ e := by
  unfold Banks.copyDue
  cases b.other with
  | copying e => exact decide_eq_true_iff.trans (by simp [Config.copyTicks])
  | _ => simp

theorem State.loaderDue_iff {n : Nat} : s.loaderDue n = true ↔ ∃ c e, s.link.loader = .loading c e ∧ n ≤ e := by
  unfold State.loaderDue State.loadElapsed
  cases s.link.loader <;> simp

theorem NoticeUnit.idleDue_iff {u : NoticeUnit} :
    u.idleDue = true ↔ ∃ e, u.idleTimer = some e ∧ u.idle ≠ 0 ∧ u.idle * 1250 ≤ e := by
  unfold NoticeUnit.idleDue
  cases u.idleTimer with
  | none => simp
  | some e =>
    refine (Bool.and_eq_true_iff.trans (and_congr bne_iff_ne decide_eq_true_iff)).trans ?_
    simp [Config.idleUnit]

/-- Nothing is due in a settled state, and nothing is settled. -/
theorem settle_settled (w : s.Settled) : settle s = s := by
  have e1 : advanceEvent s = s := advanceEvent_void w.advance
  have e2 : encoderEvent s = s :=
    if_pos ((Bool.and_eq_true _ _).mpr ⟨beq_iff_eq.2 w.encoder.1, beq_iff_eq.2 w.encoder.2⟩)
  have e3 : stallEvent s = s := stallEvent_void w.stall
  have e4 : triggerEvent s = s := if_pos (beq_iff_eq.2 w.trigger)
  have e5 : minOnEvent s = s := if_neg fun hd => by
    obtain ⟨hc, b, hb, hd⟩ := State.minOnDue_iff.1 hd
    exact absurd hd (not_le.2 (w.minOn hc b hb))
  have e6 : dropoutEvent s = s := if_neg fun hd => by
    obtain ⟨-, e, he, hd⟩ := State.dropoutDue_iff.1 hd
    exact absurd hd (not_le.2 (w.timer _ e he))
  have e7 : minOffEvent s = s := if_neg fun hd => by
    obtain ⟨-, e, he, hd⟩ := State.minOffDue_iff.1 hd
    exact absurd hd (not_le.2 (w.timer _ e he))
  have e8 : forEach allHeads settleLane s = s := forEach_fix fun h _ => settleLane_settled (w.lanes h)
  have e9 : copyEvent s = s := if_neg fun hd => by
    obtain ⟨e, he, hd⟩ := Banks.copyDue_iff.1 hd
    exact absurd hd (not_le.2 (w.copy e he))
  have e10 : deadlineEvent s = s := if_neg fun hd => by
    obtain ⟨c, e, he, hd⟩ := State.loaderDue_iff.1 hd
    exact absurd hd (not_le.2 (w.loader c e he))
  have e11 : idleEvent s = s := if_neg fun hd => by
    obtain ⟨e, he, h0, hd⟩ := NoticeUnit.idleDue_iff.1 hd
    exact (w.idle e he).elim h0 (not_lt.2 hd)
  have e12 : forEach s.link.inbound (fun _ s => takeOldest s) s = s := forEach_fix fun a ha => by
    have hn : s.takeable = none := by
      unfold State.takeable
      split
      · rfl
      · next g gs hg =>
        refine if_neg fun hr => ?_
        rcases w.control with h | h
        · exact absurd (hg.symm.trans h) (by simp)
        · exact absurd hr (not_lt.2 h)
    rw [takeOldest, hn]
  dsimp only [settle]
  rw [e1, e2, e3, e4, e5, e6, e7, e8, e9, e10, e11, e12]

/-- Settles O19. -/
theorem quietTick : Obligations.QuietTick := by
  intro s l w
  refine ⟨tickAll l s, congrArg (fun x => Host.Outcome.next (tickAll l x)) (settle_settled w), rfl, rfl, rfl, fun h => ?_, ?_,
    rfl, ?_, rfl, rfl, rfl, rfl⟩
  · exact (get_mapAll _ _ _).trans rfl
  · show s.banks.tick = _
    unfold Banks.tick
    cases s.banks.other <;> rfl
  · show { s.link with loader := s.link.loader.tick } = _
    unfold Loader.tick
    cases s.link.loader <;> rfl

/-! ## The trigger input (R42, R43) -/

theorem newTriggerLevel_taken {x : Bool} (h : s.trig.input.seen = x) : newTriggerLevel x s = s := if_pos h.symm

/-- A new level brings the pending set into force and is read under it (R45). -/
theorem newTriggerLevel_active (h : s.trig.input.seen = s.trig.nextParams.activeLow) :
    newTriggerLevel s.trig.nextParams.activeLevel s = goesActive (s.setTrig { s.trig with
      params := s.trig.nextParams, newParams := none, input := s.trig.input.take (!s.trig.nextParams.activeLow) }) := by
  refine (if_neg ?_).trans (if_pos rfl)
  rw [h, TrigParams.activeLevel]
  simp

theorem newTriggerLevel_inactive (h : s.trig.input.seen = !s.trig.nextParams.activeLow) :
    newTriggerLevel (!s.trig.nextParams.activeLevel) s = goesInactive (s.setTrig { s.trig with
      params := s.trig.nextParams, newParams := none, input := s.trig.input.take s.trig.nextParams.activeLow }) := by
  have e : (!s.trig.nextParams.activeLevel) = s.trig.nextParams.activeLow := Bool.not_not _
  rw [e]
  refine (if_neg ?_).trans (if_neg ?_)
  · rw [h]; simp
  · rw [TrigParams.activeLevel]; simp

section
variable {u : Qualifier} (s : State)

theorem goesActive_idle (h : u.state = .idle) : goesActive (s.setTrig u) =
    s.setTrig { u with state := .candidate, p := some s.position, t0 := some s.now } := by
  simp only [goesActive, State.setTrig_trig, h]
  rfl

theorem qualify_setTrig {p : Nat} (hp : u.p = some p) :
    qualify (s.setTrig u) = deliverTrigger p (s.setTrig { u with state := .qualified, timer := none }) := by
  unfold qualify
  simp only [State.setTrig_trig, hp]
  rfl

theorem goesActive_dropout (h : u.state = .dropout) : goesActive (s.setTrig u) =
    if (s.setTrig { u with state := .candidate, timer := none }).minOnElapsed = true then
      qualify (s.setTrig { u with state := .candidate, timer := none })
    else s.setTrig { u with state := .candidate, timer := none } := by
  simp only [goesActive, State.setTrig_trig, h]
  rfl

theorem goesActive_releasing (h : u.state = .releasing) : goesActive (s.setTrig u) =
    s.setTrig { u with state := .qualified, timer := none } := by
  simp only [goesActive, State.setTrig_trig, h]
  rfl

theorem goesActive_same (h : u.state = .candidate ∨ u.state = .qualified) : goesActive (s.setTrig u) = s.setTrig u := by
  rcases h with h | h <;> simp only [goesActive, State.setTrig_trig, h]

theorem goesInactive_candidate (h : u.state = .candidate) : goesInactive (s.setTrig u) =
    if u.params.dropout = 0 then dropoutExpire (s.setTrig { u with state := .dropout, timer := some (.dropout, s.now + u.params.dropout * 25) })
    else s.setTrig { u with state := .dropout, timer := some (.dropout, s.now + u.params.dropout * 25) } := by
  simp only [goesInactive, State.setTrig_trig, h]
  rfl

theorem goesInactive_qualified (h : u.state = .qualified) : goesInactive (s.setTrig u) =
    if u.params.minOff = 0 then minOffExpire (s.setTrig { u with state := .releasing, timer := some (.minOff, s.now + u.params.minOff * 25) })
    else s.setTrig { u with state := .releasing, timer := some (.minOff, s.now + u.params.minOff * 25) } := by
  simp only [goesInactive, State.setTrig_trig, h]
  rfl

theorem goesInactive_same (h : u.state = .idle ∨ u.state = .dropout ∨ u.state = .releasing) :
    goesInactive (s.setTrig u) = s.setTrig u := by
  rcases h with h | h | h <;> simp only [goesInactive, State.setTrig_trig, h]

theorem dropoutExpire_setTrig {p : Nat} (hp : u.p = some p) : dropoutExpire (s.setTrig u) =
    submit (.glitch p) (bump (.trigger .glitch) (s.setTrig { u with state := .idle, p := none, t0 := none, timer := none })) := by
  unfold dropoutExpire
  simp only [State.setTrig_trig, hp]
  rfl

end

/-- Settles O23: the level comes under the pending set, and the row of R43 for the state rules on it. -/
theorem triggerInputLevel : Obligations.TriggerInputLevel := by
  intro s q t
  refine ⟨fun h => congrArg _ (newTriggerLevel_taken h), fun h => congrArg _ (newTriggerLevel_taken (h.trans (Bool.not_not _).symm)),
    fun h => ?_, fun h => ?_⟩
  · have hx : exec .triggerInputActive s = .next (goesActive (s.setTrig (t (!q.activeLow)))) :=
      congrArg _ (newTriggerLevel_active h)
    rw [hx]
    refine ⟨fun hs => congrArg _ (goesActive_idle s hs), fun p b hs hp hb => ?_,
      fun hs => congrArg _ (goesActive_releasing s hs), fun hs => congrArg _ (goesActive_same s hs)⟩
    rw [goesActive_dropout (u := t (!q.activeLow)) s hs]
    have elapsed : (s.setTrig { t (!q.activeLow) with state := .candidate, timer := none }).minOnElapsed = true ↔
        ∃ b, s.trig.t0 = some b ∧ q.minOn * 25 ≤ s.now - b := State.minOnElapsed_iff
    refine ⟨fun hd => congrArg _ (if_neg fun he => ?_), fun hd => congrArg _ ((if_pos (elapsed.2 ⟨b, hb, hd⟩)).trans
      (qualify_setTrig (u := { t (!q.activeLow) with state := .candidate, timer := none }) s hp))⟩
    obtain ⟨b', hb', hd'⟩ := elapsed.1 he
    obtain rfl : b = b' := Option.some.inj (hb.symm.trans hb')
    exact absurd hd' (not_le.2 hd)
  · have hx : exec .triggerInputInactive s = .next (goesInactive (s.setTrig (t q.activeLow))) :=
      congrArg _ (newTriggerLevel_inactive h)
    rw [hx]
    refine ⟨fun p hs hp => ?_, fun hs => ?_, fun hs => congrArg _ (goesInactive_same s hs)⟩
    · rw [goesInactive_candidate (u := t q.activeLow) s hs]
      exact ⟨fun hd => congrArg _ (if_neg hd), fun hd => congrArg _ ((if_pos hd).trans (dropoutExpire_setTrig s hp))⟩
    · rw [goesInactive_qualified (u := t q.activeLow) s hs]
      exact ⟨fun hd => congrArg _ (if_neg hd), fun hd => congrArg _ (if_pos hd)⟩

/-- Settles O24: each time acts in its state, at its time. -/
theorem triggerTimes : Obligations.TriggerTimes := by
  intro s
  refine ⟨fun p b hs hp hb => ⟨fun hd => ?_, fun hd => ?_⟩, fun p e hs hp he => ⟨fun hd => ?_, fun hd => ?_⟩,
    fun e hs he => ⟨fun hd => ?_, fun hd => ?_⟩, fun hs => ?_, fun hs => ?_, fun hs => ?_⟩
  · exact congrArg _ ((if_pos (State.minOnDue_iff.2 ⟨hs, b, hb, hd⟩)).trans (qualify_setTrig (u := s.trig) s hp))
  · refine congrArg _ (if_neg fun h => ?_)
    obtain ⟨-, b', hb', hd'⟩ := State.minOnDue_iff.1 h
    obtain rfl : b = b' := Option.some.inj (hb.symm.trans hb')
    exact absurd hd' (not_le.2 hd)
  · exact congrArg _ ((if_pos (State.dropoutDue_iff.2 ⟨hs, e, he, hd⟩)).trans (dropoutExpire_setTrig (u := s.trig) s hp))
  · refine congrArg _ (if_neg fun h => ?_)
    obtain ⟨-, e', he', hd'⟩ := State.dropoutDue_iff.1 h
    obtain rfl : e = e' := (Prod.mk.inj (Option.some.inj (he.symm.trans he'))).2
    exact absurd hd' (not_le.2 hd)
  · exact congrArg _ (if_pos (State.minOffDue_iff.2 ⟨hs, e, he, hd⟩))
  · refine congrArg _ (if_neg fun h => ?_)
    obtain ⟨-, e', he', hd'⟩ := State.minOffDue_iff.1 h
    obtain rfl : e = e' := (Prod.mk.inj (Option.some.inj (he.symm.trans he'))).2
    exact absurd hd' (not_le.2 hd)
  · exact congrArg _ (if_neg fun h => hs (State.minOnDue_iff.1 h).1)
  · exact congrArg _ (if_neg fun h => hs (State.dropoutDue_iff.1 h).1)
  · exact congrArg _ (if_neg fun h => hs (State.minOffDue_iff.1 h).1)

/-- Settles O25. -/
theorem setTrigger : Obligations.SetTrigger := by
  intro tag a s f rest ht
  refine ⟨fun ⟨x, hx, h⟩ => ht.exec_refuse rfl (if_pos (by rw [hx]; exact decide_eq_true h)), fun h => ?_⟩
  refine ht.exec_ok rfl (if_neg ?_)
  cases hp : a.polarity with
  | none => simp
  | some x => simpa using h x hp

end Sys2Proof.Machine
end

section
/-!
PROOFS. The statements of the Notice Unit, of the link's arbiter, of Commit Bank and of Reload Config. Each counter and each
flag has one place of its own, in the order in which the lists name them.
-/

namespace Sys2Proof.Machine

variable {s t : State} {u : NoticeUnit} {f : Frame} {rest : List Frame} {tag : Byte}

/-! ## Places of flags and counters (R179, R185) -/

theorem allConditions_index (c : CondName) : allConditions[c.index.val]? = some c := by
  cases c with
  | shortfall h => revert h; decide
  | lineRefused p => revert p; decide
  | degraded h => revert h; decide
  | statusLost h => revert h; decide
  | _ => rfl

theorem CondName.index_inj {c d : CondName} (h : c.index = d.index) : c = d :=
  Option.some.inj ((allConditions_index c).symm.trans ((by rw [h]) : _ = _) |>.trans (allConditions_index d))

theorem condOfCodes_codes (c : CondName) : condOfCodes c.codes = some c := by
  cases c with
  | shortfall h => revert h; decide
  | lineRefused p => revert p; decide
  | degraded h => revert h; decide
  | statusLost h => revert h; decide
  | _ => rfl

theorem condOfCodes_eq_some {x : Nat × Nat} {c : CondName} : condOfCodes x = some c ↔ c.codes = x := by
  refine ⟨fun h => ?_, fun h => h ▸ condOfCodes_codes c⟩
  simpa using List.find?_some h

theorem condOfCodes_isNone {x : Nat × Nat} : (condOfCodes x).isNone = true ↔ ∀ c : CondName, c.codes ≠ x := by
  rw [Option.isNone_iff_eq_none, Option.eq_none_iff_forall_ne_some]
  simp only [ne_eq, condOfCodes_eq_some]

/-- Every counter, in the order of its places. -/
def headCounters : List CounterName :=
  [HeadCounter.fired, .underrun, .late, .missedHold, .missedFault, .missedDown, .skipped].flatMap
    fun c => allHeads.map (CounterName.head c)

def planeCounters : List CounterName :=
  [PlaneCounter.stored, .replaced, .refusedLate, .refusedAhead, .refusedNoJob, .refusedMalformed].flatMap
    fun c => allPlanes.map (CounterName.plane c)

def linkCounters : List CounterName :=
  [LinkCounter.framesOk, .framesBad, .controlDropped, .linesDiscardedLoading].map CounterName.link

def triggerCounters : List CounterName :=
  [TrigCounter.delivered, .ignored, .notTracking, .orphan, .early, .glitch].map CounterName.trigger

def allCounters : List CounterName := headCounters ++ planeCounters ++ linkCounters ++ triggerCounters

theorem allCounters_index (c : CounterName) : allCounters[c.index.val]? = some c := by
  cases c with
  | head c h => cases c <;> revert h <;> decide
  | plane c p => cases c <;> revert p <;> decide
  | link c => cases c <;> rfl
  | trigger c => cases c <;> rfl

theorem CounterName.index_inj {c d : CounterName} (h : c.index = d.index) : c = d :=
  Option.some.inj ((allCounters_index c).symm.trans ((by rw [h]) : _ = _) |>.trans (allCounters_index d))

theorem bump_counter (d : CounterName) (s : State) : (bump d s).counter d = min (2 ^ 32 - 1) (s.counter d + 1) :=
  get_put _ _ _

theorem bump_counter_ne {c d : CounterName} (h : c ≠ d) (s : State) : (bump d s).counter c = s.counter c :=
  get_put_ne _ _ fun e => h (CounterName.index_inj e.symm)

/-! ## Releases (R182, R183) -/

/-- What a release leaves of the Notice Unit. -/
def NoticeUnit.released (u : NoticeUnit) : NoticeUnit :=
  { u with
    queue := u.queue.drop 16, batchWaiting := true, releaseDue := false
    idleTimer := if u.queue.length ≤ 16 then none else u.idleTimer }

theorem releaseBatch_eq (s : State) : releaseBatch s =
    arbitrate ((s.setNotices s.notices.released).setLink { s.link with batch := some (s.notices.queue.take 16) }) := by
  have h : (if (s.notices.queue.drop 16).isEmpty = true then none else s.notices.idleTimer) =
      if s.notices.queue.length ≤ 16 then none else s.notices.idleTimer := by
    simp only [List.isEmpty_iff, List.drop_eq_nil_iff]
  unfold releaseBatch NoticeUnit.released
  rw [← h]
  rfl

/-- The condition under which a release is made (R182). -/
theorem testRelease_iff : (!u.batchWaiting && u.releaseWanted && !u.queue.isEmpty) = true ↔
    u.batchWaiting = false ∧ u.queue ≠ [] ∧ (u.level ≤ u.queue.length ∨ u.releaseDue = true) := by
  simp only [NoticeUnit.releaseWanted, Bool.and_eq_true, Bool.or_eq_true, Bool.not_eq_true', decide_eq_true_eq,
    List.isEmpty_eq_false_iff]
  tauto

theorem testRelease_void (h : ¬ (u.batchWaiting = false ∧ u.queue ≠ [] ∧ (u.level ≤ u.queue.length ∨ u.releaseDue = true)))
    (s : State) : testRelease (s.setNotices u) = s.setNotices u :=
  if_neg fun e => h (testRelease_iff.1 e)

theorem testRelease_wanted (hb : u.batchWaiting = false) (hq : u.queue ≠ [])
    (hw : u.level ≤ u.queue.length ∨ u.releaseDue = true) (s : State) : testRelease (s.setNotices u) =
      arbitrate ((s.setNotices u.released).setLink { s.link with batch := some (u.queue.take 16) }) :=
  (if_pos (testRelease_iff.2 ⟨hb, hq, hw⟩)).trans (releaseBatch_eq _)

/-- Settles O59. -/
theorem noticeSubmission : Obligations.NoticeSubmission := by
  intro s n c d u e joined
  refine ⟨fun h => if_pos h, fun h hq => (if_neg h).trans (if_neg (not_lt.2 hq)), fun h hq => ?_, fun h => if_pos h,
    fun h => ⟨_, if_neg (by rw [h]; exact Bool.false_ne_true), rfl, get_put _ _ _, fun x hx => get_put_ne _ _ fun hi => hx (CondName.index_inj hi.symm)⟩,
    rfl, bump_counter d s, fun x hx => bump_counter_ne hx s⟩
  have hx : submit n s = testRelease (s.setNotices joined) := (if_neg h).trans (if_pos hq)
  have hl : joined.queue.length = u.queue.length + 1 := by simp [joined]
  refine ⟨fun hw => hx.trans (testRelease_void ?_ s), fun hb hw => (hx.trans (testRelease_wanted (u := joined) hb ?_ ?_ s)).trans ?_⟩
  · rintro ⟨h1, -, h3⟩
    rcases hw with hw | ⟨hw, hd⟩
    · exact absurd h1 (by simp [joined, hw])
    · rcases h3 with h3 | h3
      · exact absurd (hl ▸ h3 : u.level ≤ u.queue.length + 1) (by omega)
      · exact absurd h3 (by simp [joined, hd])
  · simp [joined]
  · exact hw.imp (fun h => hl ▸ h) id
  · have hi : (if joined.queue.length ≤ 16 then none else joined.idleTimer) =
        if u.queue.length < 16 then none else joined.idleTimer := by rw [hl]; simp only [Nat.succ_le_iff]
    rw [← hi]
    rfl

/-! ## The arbiter (R162) -/

theorem arbitrate_setNotices (s : State) (u : NoticeUnit) : arbitrate (s.setNotices u) = (arbitrate s).setNotices u := by
  have h : (s.setNotices u).nextOutbound = s.nextOutbound := rfl
  unfold arbitrate
  rw [h, State.setNotices_link]
  split
  · cases h : s.nextOutbound <;> rfl
  · rfl

theorem arbitrate_sending {o : Outbound} (h : s.link.outbound = some o) : arbitrate s = s :=
  if_neg (by rw [h]; simp)

theorem arbitrate_some {k : LinkPort} {o : Outbound} (hu : k.up = true) (ho : k.outbound = none)
    (hn : (s.setLink k).nextOutbound = some o) :
    arbitrate (s.setLink k) = s.setLink { k with outbound := some o, flowPending := k.flowPending && o.kind != .flow } := by
  refine (if_pos (by rw [State.setLink_link, hu, ho]; rfl)).trans ?_
  rw [hn]
  rfl

theorem arbitrate_none {k : LinkPort} (hn : (s.setLink k).nextOutbound = none) : arbitrate (s.setLink k) = s.setLink k := by
  unfold arbitrate
  rw [hn]
  exact ite_self _

/-- The port with the frame that the arbiter takes first of those present. -/
def LinkPort.chosen (k : LinkPort) (flow : Outbound) : LinkPort :=
  if k.flowPending then { k with flowPending := false, outbound := some flow }
  else match k.answers, k.batch with
    | a :: _, _ => { k with outbound := some { kind := .answer, bytes := answerFrame a } }
    | [], some b => { k with outbound := some { kind := .notice, bytes := noticeFrame b } }
    | [], none => { k with outbound := none }

/-- The flow frame of the planes' paused flags (R163). -/
def State.flowOutbound (s : State) : Outbound :=
  ⟨.flow, flowFrame (s.plane 0).paused (s.plane 1).paused (s.plane 2).paused (s.plane 3).paused⟩

theorem State.nextOutbound_flow {k : LinkPort} (hf : k.flowPending = true) :
    (s.setLink k).nextOutbound = some s.flowOutbound := if_pos hf

theorem State.nextOutbound_answer {k : LinkPort} (hf : k.flowPending = false) {a : Answer} {l : List Answer}
    (ha : k.answers = a :: l) : (s.setLink k).nextOutbound = some { kind := .answer, bytes := answerFrame a } := by
  simp [State.nextOutbound, hf, ha]

theorem State.nextOutbound_batch {k : LinkPort} (hf : k.flowPending = false) (ha : k.answers = []) :
    (s.setLink k).nextOutbound = k.batch.map fun b => { kind := .notice, bytes := noticeFrame b } := by
  simp [State.nextOutbound, hf, ha]

/-- Over a link that is UP and idle, the arbiter takes a flow frame, the oldest answer, or the batch, in this order. -/
theorem arbitrate_chosen {k : LinkPort} (hu : k.up = true) (ho : k.outbound = none) (s : State) :
    arbitrate (s.setLink k) = s.setLink (k.chosen s.flowOutbound) := by
  cases hf : k.flowPending with
  | true =>
    rw [arbitrate_some hu ho (State.nextOutbound_flow hf), LinkPort.chosen, if_pos hf, hf]
    rfl
  | false =>
    have hne : ¬ k.flowPending = true := by simp [hf]
    cases ha : k.answers with
    | cons a l =>
      rw [arbitrate_some hu ho (State.nextOutbound_answer hf ha), LinkPort.chosen, if_neg hne, ha, hf]
      rfl
    | nil =>
      cases hb : k.batch with
      | none =>
        rw [arbitrate_none ((State.nextOutbound_batch hf ha).trans (by rw [hb]; rfl)), LinkPort.chosen, if_neg hne, ha, hb]
        simp only [← ho, ← ha, ← hb]
      | some b =>
        rw [arbitrate_some hu ho ((State.nextOutbound_batch hf ha).trans (by rw [hb]; rfl)), LinkPort.chosen, if_neg hne, ha,
          hb, hf]
        rfl

theorem LinkPort.chosen_outbound (k : LinkPort) (o : Option Outbound) (x : Outbound) :
    ({ k with outbound := o } : LinkPort).chosen x = k.chosen x := rfl

/-- The completion of a frame: what was sent is released, and the arbiter chooses. -/
theorem outboundDone_flow {o : Outbound} (hk : o.kind = .flow) (hu : s.link.up = true) :
    outboundDone o s = s.setLink (s.link.chosen s.flowOutbound) := by
  unfold outboundDone
  rw [hk]
  exact arbitrate_chosen (k := { s.link with outbound := none }) hu rfl s

theorem outboundDone_answer {o : Outbound} (hk : o.kind = .answer) (hu : s.link.up = true) :
    outboundDone o s = s.setLink (LinkPort.chosen { s.link with answers := s.link.answers.drop 1 } s.flowOutbound) := by
  unfold outboundDone
  rw [hk]
  exact arbitrate_chosen (k := { s.link with answers := s.link.answers.drop 1, outbound := none }) hu rfl s

/-- The Notice Unit when its batch has been sent (R182, R183). -/
def NoticeUnit.sent (u : NoticeUnit) : NoticeUnit :=
  { u with
    batchWaiting := false
    idleTimer := if u.queue = [] then u.idleTimer else if u.idle = 0 then none else some 0 }

theorem batchDone_eq (s : State) : batchDone s = testRelease (s.setNotices s.notices.sent) := by
  unfold batchDone NoticeUnit.sent
  cases h : s.notices.queue with
  | nil => simp [h]
  | cons a l => simp [h, NoticeUnit.startIdle]

theorem outboundDone_notice {o : Outbound} (hk : o.kind = .notice) (s : State) : outboundDone o s =
    arbitrate (testRelease ((s.setLink { s.link with batch := none, outbound := none }).setNotices s.notices.sent)) := by
  unfold outboundDone
  rw [hk]
  exact congrArg arbitrate (batchDone_eq _)

theorem LinkPort.chosen_isSome {k : LinkPort} {b : List Entry} (hb : k.batch = some b) (x : Outbound) :
    ∃ o, (k.chosen x).outbound = some o := by
  unfold LinkPort.chosen
  rw [hb]
  split
  · exact ⟨_, rfl⟩
  · cases k.answers <;> exact ⟨_, rfl⟩

/-- Settles O58. -/
theorem linkEvents : Obligations.LinkEvents := by
  intro s w k flow chosen
  refine ⟨fun h => congrArg _ (if_pos h), fun h => ?_, fun h => congrArg _ (if_neg (by rw [h]; exact Bool.false_ne_true)),
    fun h => congrArg _ (if_pos h), fun h => ?_, fun o ho => ?_⟩
  · have ho : k.outbound = none := by
      cases e : k.outbound with
      | none => rfl
      | some o => exact absurd (w.link.sending o e).1 (by simp [show s.link.up = false from h])
    refine congrArg _ ((if_neg (by rw [h]; exact Bool.false_ne_true)).trans ?_)
    exact arbitrate_chosen (k := { k with up := true, flowPending := true }) rfl ho s
  · show Host.Outcome.next _ = _
    rw [show s.link.outbound = none from h]
  · have hu : k.up = true := (w.link.sending o ho).1
    have hx : exec .outboundComplete s = .next (outboundDone o s) := by
      show Host.Outcome.next _ = _
      rw [show s.link.outbound = some o from ho]
    rw [hx]
    refine ⟨fun hk => congrArg _ (outboundDone_flow hk hu), fun hk => congrArg _ (outboundDone_answer hk hu), fun hk => ?_⟩
    intro u n wanted
    rw [outboundDone_notice hk]
    have hn : s.notices.sent = n := rfl
    refine ⟨fun hw => congrArg _ ?_, fun hw => congrArg _ ?_⟩
    · rw [hn, testRelease_void (u := n) (fun e => hw ⟨e.2.1, e.2.2⟩), arbitrate_setNotices]
      exact congrArg (fun s : State => s.setNotices n) (arbitrate_chosen (k := { k with batch := none, outbound := none }) hu rfl s)
    · rw [hn, testRelease_wanted (u := n) rfl hw.1 hw.2]
      have hc := arbitrate_chosen (k := { k with batch := some (u.queue.take 16), outbound := none }) hu rfl
        (s.setNotices n.released)
      obtain ⟨o', ho'⟩ := LinkPort.chosen_isSome (k := { k with batch := some (u.queue.take 16), outbound := none }) rfl
        (s.setNotices n.released).flowOutbound
      exact (congrArg arbitrate hc).trans (arbitrate_sending (o := o') ho')

/-! ## Commit Bank (R147, R149, R151) and Reload Config (R173) -/

theorem Banks.shadow_eq (b : Banks) : b.shadow = if b.other = .shadow then some b.otherId else none := by
  unfold Banks.shadow
  cases b.other <;> rfl

theorem BankId.eq_of_ne {i j k : BankId} (hi : i ≠ k) (hj : j ≠ k) : i = j := by
  revert i j k
  decide

/-- Settles O55. -/
theorem commitBank : Obligations.CommitBank := by
  intro tag s f rest b
  refine ⟨fun ht => ⟨fun ho => ht.exec_refuse rfl ?_, fun ho => ?_⟩, fun e he hd => ?_, fun h => ?_⟩
  · show cmdCommitBank _ = _
    rw [cmdCommitBank, Banks.shadow_eq, State.took_banks, if_neg ho]
  · have hx : cmdCommitBank (s.took rest) = match validate s.store (b.tables b.otherId) b.otherId with
        | some x => { state := s.took rest, result := .invalidTables, payload := failureField x, reloads := false }
        | none => Reply.ok (commitPayload (committed b)) ((s.took rest).setBanks (committed b)) := by
      rw [cmdCommitBank, Banks.shadow_eq, State.took_banks, if_pos ho]
      rfl
    refine ⟨fun x hv => ?_, fun hv => ⟨fun hb => ?_, fun hb => ?_⟩⟩
    · exact ht.exec_reply rfl (hx.trans (by rw [hv]))
    · have hc : committed b = { b with active := b.otherId, other := .copying 0 } := by
        rw [committed, if_neg (by omega)]
      have hp : commitPayload (committed b) = [byte b.otherId.val, 3, 0] := by
        rw [commitPayload, Banks.committed_otherId, hc]
        exact congrArg (fun n => [byte b.otherId.val, 3, byte n]) hb
      exact ht.exec_ok rfl (hx.trans (by rw [hv, hp, hc]))
    · have hc : committed b = { b with active := b.otherId, other := .draining } := by rw [committed, if_pos hb]
      have hp : commitPayload (committed b) = [byte b.otherId.val, 2, byte (b.bound b.active)] := by
        rw [commitPayload, Banks.committed_otherId, hc]
        rfl
      exact ht.exec_ok rfl (hx.trans (by rw [hv, hp, hc]))
  · refine ⟨finishCopy b, congrArg _ (if_pos (Banks.copyDue_iff.2 ⟨e, he, hd⟩)), rfl, rfl, fun i => ⟨?_, setTables_bound _ _ _ _⟩⟩
    refine (setTables_tables b b.otherId i _).trans ?_
    split
    · rfl
    · next hi => rw [BankId.eq_of_ne hi b.otherId_ne.symm]
  · refine congrArg _ (if_neg fun hd => ?_)
    obtain ⟨e, he, hd⟩ := Banks.copyDue_iff.1 hd
    exact absurd hd (not_le.2 (h e he))

theorem parseCommand_unknown {n c : Nat} {bs : List Byte} : parseCommand n bs ≠ some (.unknown c) := by
  unfold parseCommand
  dsimp only
  rcases Bool.eq_false_or_eq_true bs.isEmpty with e | e
  · simp only [e, ↓reduceIte]
    split <;> simp
  · simp only [e, Bool.false_eq_true, ↓reduceIte]
    split <;> simp

/-- A request that is unknown is unknown under the code read (R160). -/
theorem Frame.code_of_unknown {f : Frame} {code : Nat} (h : f.request = .unknown code) : f.code = code := by
  obtain ⟨job, tag, body⟩ := f
  cases job with
  | true => exact Request.noConfusion h
  | false =>
    cases body with
    | nil => exact Request.unknown.inj h
    | cons c bs =>
      have h' : (parseCommand c.toNat bs).getD (.unknown c.toNat) = .unknown code := h
      cases hp : parseCommand c.toNat bs with
      | none =>
        rw [hp] at h'
        exact Request.unknown.inj h'
      | some r =>
        rw [hp] at h'
        exact absurd (hp.trans (congrArg some h')) parseCommand_unknown

/-- A frame that starts the loader is answered first (R173). -/
theorem Taking.exec_reloads {c : Instr} {r : Request} (h : Taking s tag r f rest) (hc : c.taken = some (tag, r))
    (e : runRequest r (s.took rest) = { state := t, result := .ok, payload := [], reloads := true }) :
    exec c s = .next (startLoading .reload (answered f .ok [] t)) := by
  have hx : takeFrame f rest (runRequest r) s = startLoading .reload (answered f .ok [] t) := by
    unfold takeFrame
    refine (if_neg h.not_loading).trans ?_
    refine (if_pos (show (runRequest r (s.took rest)).reloads = true by rw [e])).trans ?_
    show startLoading .reload (answered f (runRequest r (s.took rest)).result (runRequest r (s.took rest)).payload
      (runRequest r (s.took rest)).state) = _
    rw [e]
  rw [exec_taken hc, takeWith_front h.queue h.room h.tag h.request, hx]

/-- Settles O56. -/
theorem reloadAndUnknown : Obligations.ReloadAndUnknown := by
  intro tag s f rest
  refine ⟨fun code ht => ⟨ht.exec_refuse rfl rfl, Frame.code_of_unknown ht.request⟩, fun ht => ⟨fun h => ?_, fun hr hb => ?_⟩⟩
  · refine ht.exec_refuse rfl ?_
    show cmdReloadConfig _ = _
    unfold cmdReloadConfig
    by_cases hr : s.jobs.records = []
    · refine (if_neg ?_).trans (if_pos (h.resolve_left (not_not.2 hr)))
      rw [State.took_jobs, hr]
      simp
    · refine if_pos ?_
      rw [State.took_jobs]
      simpa using hr
  · have hx := ht.exec_reloads (c := .reloadConfig tag) rfl (t := s.took rest) ((if_neg (by rw [State.took_jobs, hr]; simp)).trans (if_neg (not_not.2 hb)))
    intro t u
    have hp : u.ptu = s.ptu := (quiet_arbitrate _).ptu
    refine ⟨fun hs => hx.trans (congrArg _ (enterOff_of_off (s := u) (by rw [hp]; exact hs) _)), fun hs => ?_⟩
    refine hx.trans (congrArg _ ((enterOff_of_ne (s := u) (by rw [hp]; exact hs) _).trans ?_))
    rw [hp]

end Sys2Proof.Machine
end

section
/-!
PROOFS. The commands of the Notice Unit with its idle timer, the reading commands, and the power-on values.
-/

namespace Sys2Proof.Machine

variable {s t : State} {u v : NoticeUnit} {f : Frame} {rest : List Frame} {tag : Byte}

/-! ## What the settings leave as it is (R184) -/

/-- Two states of the Notice Unit with the same settings, lost count, flags and counters. -/
structure NoticeUnit.Same (u v : NoticeUnit) : Prop where
  mask : v.mask = u.mask
  level : v.level = u.level
  idle : v.idle = u.idle
  conditions : v.conditions = u.conditions
  counters : v.counters = u.counters
  lost : v.lost = u.lost

theorem NoticeUnit.Same.refl (u : NoticeUnit) : u.Same u := ⟨rfl, rfl, rfl, rfl, rfl, rfl⟩

theorem NoticeUnit.Same.trans {w : NoticeUnit} (a : u.Same v) (b : v.Same w) : u.Same w :=
  ⟨b.mask.trans a.mask, b.level.trans a.level, b.idle.trans a.idle, b.conditions.trans a.conditions,
    b.counters.trans a.counters, b.lost.trans a.lost⟩

theorem releaseBatch_same (s : State) : s.notices.Same (releaseBatch s).notices := by
  rw [releaseBatch_eq, arbitrate_notices]
  exact ⟨rfl, rfl, rfl, rfl, rfl, rfl⟩

theorem testRelease_same (s : State) : s.notices.Same (testRelease s).notices := by
  unfold testRelease
  split
  · exact releaseBatch_same s
  · exact .refl _

theorem idleExpire_same (s : State) : s.notices.Same (idleExpire s).notices := by
  unfold idleExpire
  dsimp only
  split
  · exact ⟨rfl, rfl, rfl, rfl, rfl, rfl⟩
  · split
    · exact ⟨rfl, rfl, rfl, rfl, rfl, rfl⟩
    · have hr := releaseBatch_same (s.setNotices { s.notices with idleTimer := none })
      have h0 : s.notices.Same (s.setNotices { s.notices with idleTimer := none }).notices := ⟨rfl, rfl, rfl, rfl, rfl, rfl⟩
      split
      · exact h0.trans hr
      · exact (h0.trans hr).trans ⟨rfl, rfl, rfl, rfl, rfl, rfl⟩

theorem takeLevel_same (x : Nat) (s : State) :
    ({ s.notices with level := roundLevel x } : NoticeUnit).Same (takeLevel x s).notices :=
  testRelease_same (s.setNotices { s.notices with level := roundLevel x })

theorem takeIdle_same (x : Nat) (s : State) :
    ({ s.notices with idle := min x 255 } : NoticeUnit).Same (takeIdle x s).notices := by
  unfold takeIdle
  dsimp only
  split
  · next h => exact ⟨rfl, rfl, rfl, rfl, rfl, rfl⟩
  · split
    · split
      · exact idleExpire_same (s.setNotices { s.notices with idle := min x 255 })
      · exact .refl _
    · split
      · exact .refl _
      · exact ⟨rfl, rfl, rfl, rfl, rfl, rfl⟩

/-! ## The idle timer (R183) -/

theorem idleExpire_waiting (h : u.batchWaiting = true) (s : State) :
    idleExpire (s.setNotices u) = s.setNotices { u with idleTimer := none, releaseDue := true } :=
  if_pos h

/-- The release that the idle timer brings, with the timer started again for what it leaves. -/
theorem idleExpire_releases (h : u.batchWaiting = false) (hq : u.queue ≠ []) (hi : u.idle ≠ 0) (s : State) :
    idleExpire (s.setNotices u) = arbitrate ((s.setNotices { u with
        queue := u.queue.drop 16, batchWaiting := true, releaseDue := false
        idleTimer := if u.queue.length ≤ 16 then none else some 0 }).setLink
      { s.link with batch := some (u.queue.take 16) }) := by
  have hn : ¬ u.queue.isEmpty = true := by simpa using hq
  have hr := releaseBatch_eq (s.setNotices { u with idleTimer := none })
  have hx : idleExpire (s.setNotices u) = (let s := releaseBatch (s.setNotices { u with idleTimer := none })
      if s.notices.queue.isEmpty then s else s.setNotices s.notices.startIdle) :=
    (if_neg (show ¬ u.batchWaiting = true by simp [h])).trans (if_neg hn)
  have hu : (releaseBatch (s.setNotices { u with idleTimer := none })).notices =
      NoticeUnit.released { u with idleTimer := none } := by rw [hr, arbitrate_notices]; rfl
  rw [hx]
  dsimp only
  rw [hu, hr]
  by_cases hl : u.queue.length ≤ 16
  · have he : (NoticeUnit.released { u with idleTimer := none }).queue.isEmpty = true := by
      simpa [NoticeUnit.released] using hl
    rw [if_pos he, if_pos hl]
    simp only [NoticeUnit.released, State.setNotices_notices, hl, if_true]
    rfl
  · have he : ¬ (NoticeUnit.released { u with idleTimer := none }).queue.isEmpty = true := by
      simpa [NoticeUnit.released] using hl
    rw [if_neg he, if_neg hl, ← arbitrate_setNotices]
    simp only [NoticeUnit.released, NoticeUnit.startIdle, State.setNotices_notices, hl, if_false, hi]
    rfl

theorem idleEvent_void (h : ∀ e, s.notices.idleTimer = some e → s.notices.idle = 0 ∨ e < s.notices.idle * 1250) :
    idleEvent s = s :=
  if_neg fun hd => by
    obtain ⟨e, he, h0, hd⟩ := NoticeUnit.idleDue_iff.1 hd
    exact (h e he).elim h0 (not_lt.2 hd)

theorem idleEvent_due {e : Nat} (he : s.notices.idleTimer = some e) (h0 : s.notices.idle ≠ 0)
    (hd : s.notices.idle * 1250 ≤ e) : idleEvent s = idleExpire s :=
  if_pos (NoticeUnit.idleDue_iff.2 ⟨e, he, h0, hd⟩)

/-! ## Set Notices (R184) -/

/-- The state that the three settings of a Set Notices leave. -/
def State.withNotices (s : State) (a : NoticesArgs) : State :=
  let s := a.mask.elim s fun l => takeMask (kindsOf l) s
  let s := a.level.elim s fun x => takeLevel x s
  a.idle.elim s fun x => takeIdle x s

theorem mem_allKinds (k : NoticeKind) : k ∈ allKinds := by cases k <;> decide

theorem kindOfCode_isNone {c : Nat} : (kindOfCode c).isNone = true ↔ ∀ k : NoticeKind, k.code ≠ c := by
  rw [Option.isNone_iff_eq_none, kindOfCode, List.find?_eq_none]
  simp only [mem_allKinds, true_implies, beq_iff_eq, ne_eq]

theorem cmdSetNotices_badValue {a : NoticesArgs} (h : ∃ l x, a.mask = some l ∧ x ∈ l ∧ ∀ k : NoticeKind, k.code ≠ x)
    (s : State) : cmdSetNotices a s = Reply.refuse .badValue s := by
  obtain ⟨l, x, hl, hx, hk⟩ := h
  refine if_pos ?_
  rw [hl]
  exact List.any_eq_true.2 ⟨x, hx, kindOfCode_isNone.2 hk⟩

theorem cmdSetNotices_ok {a : NoticesArgs} (h : ∀ l, a.mask = some l → ∀ x ∈ l, ∃ k : NoticeKind, k.code = x) (s : State) :
    cmdSetNotices a s = Reply.ok (settingsPayload (s.withNotices a).notices) (s.withNotices a) := by
  have hg : ¬ (match a.mask with | some l => l.any fun c => (kindOfCode c).isNone | none => false) = true := by
    cases hm : a.mask with
    | none => simp
    | some l =>
      simp only [List.any_eq_true, kindOfCode_isNone, not_exists, not_and, not_forall, not_not]
      exact h l hm
  refine (if_neg hg).trans ?_
  unfold State.withNotices
  cases a.mask <;> cases a.level <;> cases a.idle <;> rfl

/-- The settings that a Set Notices leaves in force. -/
def noticeSettings (a : NoticesArgs) (u : NoticeUnit) : NoticeUnit :=
  { u with
    mask := (a.mask.map fun l => allKinds.filter fun k => l.contains k.code).getD u.mask
    level := (a.level.map fun x => if x ≤ 1 then 1 else if x ≤ 4 then 4 else if x ≤ 8 then 8 else 16).getD u.level
    idle := (a.idle.map (min · 255)).getD u.idle }

theorem NoticeUnit.Same.setLevel (h : u.Same v) (x : Nat) :
    ({ u with level := x } : NoticeUnit).Same { v with level := x } :=
  ⟨h.mask, rfl, h.idle, h.conditions, h.counters, h.lost⟩

theorem NoticeUnit.Same.setIdle (h : u.Same v) (x : Nat) : ({ u with idle := x } : NoticeUnit).Same { v with idle := x } :=
  ⟨h.mask, h.level, rfl, h.conditions, h.counters, h.lost⟩

theorem withNotices_same (a : NoticesArgs) (s : State) : (noticeSettings a s.notices).Same (s.withNotices a).notices := by
  obtain ⟨m, l, i⟩ := a
  show (noticeSettings ⟨m, l, i⟩ s.notices).Same (i.elim (l.elim (m.elim s fun l => takeMask (kindsOf l) s)
    fun x => takeLevel x (m.elim s fun l => takeMask (kindsOf l) s)) fun x => takeIdle x (l.elim
      (m.elim s fun l => takeMask (kindsOf l) s) fun x => takeLevel x (m.elim s fun l => takeMask (kindsOf l) s))).notices
  have hm : (noticeSettings ⟨m, none, none⟩ s.notices).Same (m.elim s fun l => takeMask (kindsOf l) s).notices := by
    cases m <;> exact .refl _
  generalize m.elim s (fun l => takeMask (kindsOf l) s) = s1 at hm ⊢
  have hl : (noticeSettings ⟨m, l, none⟩ s.notices).Same (l.elim s1 fun x => takeLevel x s1).notices := by
    cases l with
    | none => exact hm
    | some x => exact (hm.setLevel (roundLevel x)).trans (takeLevel_same x s1)
  generalize l.elim s1 (fun x => takeLevel x s1) = s2 at hl ⊢
  cases i with
  | none => exact hl
  | some x => exact (hl.setIdle (min x 255)).trans (takeIdle_same x s2)

theorem NoticeUnit.Same.payload (h : u.Same v) : settingsPayload v = settingsPayload u := by
  rw [settingsPayload, settingsPayload, h.mask, h.level, h.idle]

section
variable {a : NoticesArgs} (s : State)

theorem withNotices_mask (hl : a.level = none) (hi : a.idle = none) :
    s.withNotices a = s.setNotices (noticeSettings a s.notices) := by
  obtain ⟨m, l, i⟩ := a
  subst hl hi
  cases m <;> rfl

theorem withNotices_level {x : Nat} (hl : a.level = some x) (hi : a.idle = none) :
    s.withNotices a = testRelease (s.setNotices (noticeSettings a s.notices)) := by
  obtain ⟨m, l, i⟩ := a
  subst hl hi
  cases m <;> rfl

theorem withNotices_idle {x : Nat} (hl : a.level = none) (hi : a.idle = some x) :
    s.withNotices a = takeIdle x (s.setNotices { noticeSettings a s.notices with idle := s.notices.idle }) := by
  obtain ⟨m, l, i⟩ := a
  subst hl hi
  cases m <;> rfl

theorem takeIdle_zero (u : NoticeUnit) : takeIdle 0 (s.setNotices u) = s.setNotices { u with idle := 0, idleTimer := none } :=
  rfl

theorem takeIdle_stopped {x : Nat} (hx : x ≠ 0) (ht : u.idleTimer = none) : takeIdle x (s.setNotices u) =
    s.setNotices { u with idle := min x 255, idleTimer := if u.queue = [] then none else some 0 } := by
  have h : min x 255 ≠ 0 := by omega
  unfold takeIdle
  simp only [h, State.setNotices_notices, ht, if_false, List.isEmpty_iff, NoticeUnit.startIdle]
  split <;> rfl

theorem takeIdle_running {x e : Nat} (hx : x ≠ 0) (ht : u.idleTimer = some e) : takeIdle x (s.setNotices u) =
    if min x 255 * 1250 ≤ e then idleExpire (s.setNotices { u with idle := min x 255 })
    else s.setNotices { u with idle := min x 255 } := by
  have h : min x 255 ≠ 0 := by omega
  have hd : ({ u with idle := min x 255 } : NoticeUnit).idleDue = true ↔ min x 255 * 1250 ≤ e := by
    rw [NoticeUnit.idleDue_iff]
    simp [ht, h]
  rw [ht] at hd
  unfold takeIdle
  simp only [h, State.setNotices_notices, ht, if_false]
  exact ite_congr (propext hd) (fun _ => rfl) (fun _ => rfl)

end

/-! ## Flags and counters cleared (R180, R186) -/

theorem clearFlags_spec (l : List CondName) (s : State) : clearFlags l s = s.setNotices { s.notices with
    conditions := (clearFlags l s).notices.conditions } ∧
      ∀ c, (clearFlags l s).condition c = true ↔ s.condition c = true ∧ c ∉ l := by
  induction l generalizing s with
  | nil => exact ⟨rfl, fun c => by simp [clearFlags]⟩
  | cons d l ih =>
    obtain ⟨h1, h2⟩ := ih (s.setNotices { s.notices with conditions := put s.notices.conditions d.index false })
    refine ⟨h1, fun c => (h2 c).trans ?_⟩
    have hc : (s.setNotices { s.notices with conditions := put s.notices.conditions d.index false }).condition c =
        if c = d then false else s.condition c := by
      by_cases h : c = d
      · rw [if_pos h, h]
        exact get_put _ _ _
      · rw [if_neg h]
        exact get_put_ne _ _ fun e => h (CondName.index_inj e.symm)
    rw [hc, List.mem_cons]
    by_cases h : c = d <;> simp [h]

theorem mem_allConditions (c : CondName) : c ∈ allConditions := List.mem_of_getElem? (allConditions_index c)

theorem groupRange_none {g : Nat} (h : 5 ≤ g) : groupRange g = none := by
  unfold groupRange
  split <;> simp at h ⊢

/-- Clear Counters clears the places of its group and no other. -/
theorem cleared_counter (lo hi : Nat) (s : State) (c : CounterName) :
    (s.setNotices { s.notices with
      counters := mapAll (fun i x => if lo ≤ i.val ∧ i.val < hi then 0 else x) s.notices.counters }).counter c =
    if lo ≤ c.index.val ∧ c.index.val < hi then 0 else s.counter c := get_mapAll _ _ _

theorem CounterName.index_bounds (c : CounterName) : match c with
    | .head .. => c.index.val < 112
    | .plane .. => 112 ≤ c.index.val ∧ c.index.val < 136
    | .link .. => 136 ≤ c.index.val ∧ c.index.val < 140
    | .trigger .. => 140 ≤ c.index.val ∧ c.index.val < 146 := by
  cases c with
  | head c h => have := c.row.isLt; simp only [CounterName.index]; omega
  | plane c p => have := c.row.isLt; simp only [CounterName.index]; omega
  | link c => have := c.row.isLt; simp only [CounterName.index]; omega
  | trigger c => have := c.row.isLt; simp only [CounterName.index]; omega

/-- The places of a group are those of its counters. -/
theorem groupRange_places {g lo hi : Nat} (h : g ≤ 4) (hg : groupRange g = some (lo, hi)) (c : CounterName) : match c with
    | .head .. => lo ≤ c.index.val ∧ c.index.val < hi ↔ g = 0 ∨ g = 4
    | .plane .. => lo ≤ c.index.val ∧ c.index.val < hi ↔ g = 1 ∨ g = 4
    | .link .. => lo ≤ c.index.val ∧ c.index.val < hi ↔ g = 2 ∨ g = 4
    | .trigger .. => lo ≤ c.index.val ∧ c.index.val < hi ↔ g = 3 ∨ g = 4 := by
  have hb := c.index_bounds
  obtain ⟨rfl, rfl, rfl⟩ | ⟨rfl, rfl, rfl⟩ | ⟨rfl, rfl, rfl⟩ | ⟨rfl, rfl, rfl⟩ | ⟨rfl, rfl, rfl⟩ :
      g = 0 ∧ lo = 0 ∧ hi = 112 ∨ g = 1 ∧ lo = 112 ∧ hi = 136 ∨ g = 2 ∧ lo = 136 ∧ hi = 140 ∨
        g = 3 ∧ lo = 140 ∧ hi = 146 ∨ g = 4 ∧ lo = 0 ∧ hi = 146 := by
    interval_cases g <;> simp_all [groupRange]
  all_goals cases c <;> dsimp only at hb ⊢ <;> omega

theorem cmdClearCounters_eq {g lo hi : Nat} (h : groupRange g = some (lo, hi)) (s : State) :
    cmdClearCounters g s = Reply.ok [] (s.setNotices { s.notices with
      counters := mapAll (fun i x => if lo ≤ i.val ∧ i.val < hi then 0 else x) s.notices.counters }) := by
  rw [cmdClearCounters, h]

/-- Settles O60. -/
theorem noticeCommands : Obligations.NoticeCommands := by
  intro tag s f rest u released
  refine ⟨fun a ht => ⟨fun h => ht.exec_refuse rfl (cmdSetNotices_badValue h _), fun h => ?_⟩, fun a ht => ?_, fun g ht => ?_,
    fun h => congrArg _ (idleEvent_void h), fun e he h0 hd hq => ?_⟩
  · intro mask level idle ok v t wanted
    have hv : noticeSettings a u = v := rfl
    have hsame : v.Same ((s.took rest).withNotices a).notices := withNotices_same a (s.took rest)
    have hok : ok ((s.took rest).withNotices a) := by
      refine (ht.exec_ok rfl (cmdSetNotices_ok h (s.took rest))).trans ?_
      rw [hsame.payload]
      rfl
    refine ⟨⟨_, hok, hsame.mask, hsame.level, hsame.idle, hsame.conditions, hsame.counters, hsame.lost⟩, fun hl hi => ?_,
      fun hi ⟨x, hl⟩ => ?_, fun x hl hi => ?_⟩
    · rw [withNotices_mask _ hl hi] at hok
      exact hok
    · rw [withNotices_level _ hl hi] at hok
      refine ⟨fun hw => ?_, fun hw => ?_⟩
      · rw [testRelease_void (u := noticeSettings a (s.took rest).notices) hw] at hok
        exact hok
      · rw [testRelease_wanted (u := noticeSettings a (s.took rest).notices) hw.1 hw.2.1 hw.2.2] at hok
        exact hok
    · have hv : ({ noticeSettings a u with idle := min x 255 } : NoticeUnit) = v := by
        rw [show min x 255 = idle by simp [idle, hi]]
        rfl
      rw [withNotices_idle _ hl hi] at hok
      refine ⟨fun hx => ?_, fun hx hr => ?_, fun hx e hr => ?_⟩
      · subst hx
        rw [takeIdle_zero] at hok
        rw [← hv]
        exact hok
      · rw [takeIdle_stopped _ hx (by exact hr)] at hok
        rw [← hv]
        exact hok
      · rw [takeIdle_running _ hx (by exact hr)] at hok
        have hm : min x 255 = idle := by simp [idle, hi]
        rw [hm] at hok hv
        refine ⟨fun he => ?_, fun he hq => ?_⟩
        · rw [if_neg (not_le.2 he)] at hok
          rw [← hv] at *
          exact hok
        · rw [if_pos he] at hok
          refine ⟨fun hb => ?_, fun hb => ?_⟩
          · rw [idleExpire_waiting (by exact hb)] at hok
            exact hok
          · rw [idleExpire_releases (by exact hb) (by exact hq) (by show idle ≠ 0; omega)] at hok
            exact hok
  · intro named
    refine ⟨fun ⟨l, x, hl, hx, hc⟩ => ht.exec_refuse rfl ?_, fun h => ?_⟩
    · subst hl
      exact if_pos (List.any_eq_true.2 ⟨x, hx, condOfCodes_isNone.2 hc⟩)
    · cases a with
      | all =>
        refine ⟨clearFlags allConditions (s.took rest), ht.exec_ok rfl rfl, (clearFlags_spec _ _).1, fun c => ?_⟩
        rw [(clearFlags_spec _ _).2 c]
        simp only [mem_allConditions, not_true_eq_false, and_false, named, true_or]
      | some l =>
        have hg : ¬ (l.any fun c => (condOfCodes c).isNone) = true := by
          simp only [List.any_eq_true, condOfCodes_isNone, not_exists, not_and, not_forall, not_not]
          exact h l rfl
        refine ⟨clearFlags (l.filterMap condOfCodes) (s.took rest), ht.exec_ok rfl (if_neg hg), (clearFlags_spec _ _).1,
          fun c => ?_⟩
        rw [(clearFlags_spec _ _).2 c]
        simp only [List.mem_filterMap, condOfCodes_eq_some, named, reduceCtorEq, FlagArgs.some.injEq, false_or,
          exists_eq_right', exists_eq_left']
        rfl
  · refine ⟨fun h => ht.exec_refuse rfl ?_, fun h => ?_⟩
    · show cmdClearCounters g _ = _
      rw [cmdClearCounters, groupRange_none h]
    · obtain ⟨lo, hi, hg⟩ : ∃ lo hi, groupRange g = some (lo, hi) := by
        interval_cases g <;> exact ⟨_, _, rfl⟩
      refine ⟨_, ht.exec_ok rfl (cmdClearCounters_eq hg (s.took rest)), rfl, fun c => ?_⟩
      rw [cleared_counter]
      have hc := groupRange_places h hg c
      cases c <;> exact ite_congr (propext hc) (fun _ => rfl) (fun _ => rfl)
  · have hx : exec .idleTimerExpiry s = .next (idleExpire (s.setNotices u)) := congrArg _ (idleEvent_due he h0 hd)
    exact ⟨fun hb => hx.trans (congrArg _ (idleExpire_waiting hb s)),
      fun hb => hx.trans (congrArg _ (idleExpire_releases hb hq h0 s))⟩

/-! ## The reading commands (R41, R146, R186, R187) -/

theorem find_split {q : JobQueue} {pre post : List JobRec} {r : JobRec} {id : Nat} (h : q.records = pre ++ r :: post)
    (hr : r.id = id) (hp : ∀ x ∈ pre, x.id ≠ id) : q.find id = some r := by
  rw [JobQueue.find, h, List.find?_append, List.find?_eq_none.2 fun x hx => by simpa using hp x hx]
  simp [hr]

theorem find_none {q : JobQueue} {id : Nat} (h : ∀ r ∈ q.records, r.id ≠ id) : q.find id = none :=
  List.find?_eq_none.2 fun x hx => by simpa using h x hx

theorem placeOf_split {q : JobQueue} {pre post : List JobRec} {r : JobRec} {id : Nat} (h : q.records = pre ++ r :: post)
    (hr : r.id = id) (hp : ∀ x ∈ pre, x.id ≠ id) : q.placeOf id = pre.length := by
  rw [JobQueue.placeOf, h, List.takeWhile_append_of_pos fun x hx => by simpa using hp x hx]
  simp [hr]

theorem setField_heads (l : List Head) : setField (l.map fun h => h.val) = byte l.length :: l.map fun h => byte h.val := by
  rw [setField, List.length_map, List.map_map]
  rfl

theorem queryPayload_eq (q : JobQueue) (r : JobRec) : queryPayload q r =
    [byte (q.placeOf r.id), byte (if r.active.isNone then 0 else 1)] ++ leBytes 3 r.length ++ [byte r.mode.code] ++
      leBytes 3 r.delay ++ leBytes 2 r.gap ++ optField 4 r.tag ++
      (r.planes.flatMap fun x => byte x.plane.val :: leBytes 4 x.first) ++
      r.active.elim [] fun a => leBytes 6 a.t ++ [byte a.bank.val] ++
        (a.takers.flatMap fun x => byte x.2.length :: x.2.map fun h => byte h.val) ++
        [byte a.progress] ++ leBytes 4 a.fired ++ leBytes 4 a.shortfall := by
  unfold queryPayload
  simp only [setField_heads]
  cases r.active <;> rfl

theorem PtuState.code_eq (x : PtuState) : x.code = [PtuState.off, .stopped, .acquiring, .tracking, .holding].idxOf x := by
  cases x <;> rfl

theorem TrigState.code_eq (x : TrigState) :
    x.code = [TrigState.idle, .candidate, .dropout, .qualified, .releasing].idxOf x := by
  cases x <;> rfl

theorem HeadState.code_eq (x : HeadState) :
    x.code = [HeadState.idle, .waitingLine, .loading, .loaded, .discarding, .void].idxOf x := by
  cases x <;> rfl

theorem LaneState.code_eq (x : LaneState) :
    x.code = [LaneState.down, .negotiating, .training, .up, .faulted].idxOf x := by
  cases x <;> rfl

theorem byte_gradeCode (o : Option Grade) :
    byte (gradeCode o) = o.elim 0 fun g => byte (1 + [Grade.a, .b, .c, .d, .e, .f].idxOf g) := by
  rcases o with _ | g
  · rfl
  · cases g <;> rfl

theorem byte_bandCode (o : Option Nat) : byte (bandCode o) = o.elim 0xFF byte := by
  cases o <;> rfl

theorem allCounters_places : allCounters.map CounterName.index = List.finRange 146 := by decide

theorem counters_toList (s : State) : s.notices.counters.toList = allCounters.map s.counter := by
  have h : s.notices.counters.toList = (List.finRange 146).map s.notices.counters.get := by
    apply List.ext_getElem <;> simp [get_eq]
  rw [h, ← allCounters_places, List.map_map]
  rfl

theorem cmdReadCounters_eq {g lo hi : Nat} (h : groupRange g = some (lo, hi)) (s : State) : cmdReadCounters g s =
    Reply.ok (((allCounters.drop lo).take (hi - lo)).flatMap fun c => leBytes 4 (s.counter c)) s := by
  rw [cmdReadCounters, h]
  dsimp only
  rw [counters_toList, ← List.map_drop, ← List.map_take, List.flatMap_map]

/-- Read Counters of the group that names the counters of a list (R186). -/
theorem Taking.exec_readCounters {g lo hi : Nat} (ht : Taking s tag (.readCounters g) f rest) {l : List CounterName}
    (hg : groupRange g = some (lo, hi)) (hl : (allCounters.drop lo).take (hi - lo) = l) :
    exec (.readCounters tag g) s = .next (answered f .ok (l.flatMap fun c => leBytes 4 (s.counter c)) (s.took rest)) :=
  ht.exec_ok rfl ((cmdReadCounters_eq hg (s.took rest)).trans (by rw [hl]; rfl))

theorem selected_active (b : Banks) : selected b .active = some b.active := rfl

theorem selected_shadow (b : Banks) : selected b .shadow = if b.other = .shadow then some b.otherId else none :=
  Banks.shadow_eq b

theorem cmdReadTable_eq {b : BankId} {x : ReadArgs} (h : selected s.banks x.selector = some b) : cmdReadTable (some x) s =
    if readInRange x = true then Reply.ok (byte b.val :: readPayload (s.banks.tables b) x) s
    else Reply.refuse .badValue s := by
  unfold cmdReadTable
  dsimp only
  rw [h]

theorem readPayload_drops {x : ReadArgs} {p : Plane} (t : Tables) (hk : readInRange x = true) (hp : x.target = .plane p.val) :
    readPayload t x = (List.finRange 4).map fun v => byte ((t.drops.get p).get v).val := by
  obtain ⟨sel, kind, target, n, m⟩ := x
  subst hp
  cases kind with
  | dropMap => exact (dif_pos p.isLt).trans rfl
  | _ => exact absurd hk (by simp [readInRange])

/-- The bytes of a head's entries, geometry or bands. -/
def headPayload (y : HeadTables) (x : ReadArgs) : List Byte :=
  match x.kind with
  | .nozzleRange => (List.range x.count).flatMap fun k => leBytes 4 (y.entry (x.first + k)).word
  | .geometry => [byte (match y.plane with
      | some p => p.val
      | none => 4)] ++ leBytes 2 y.nozzles ++ leBytes 3 y.offset ++ [byte (firstIf y.reverse)]
  | .bands => byte y.bands.length :: y.bands.flatMap fun z => [byte z.bound, byte z.waveform]
  | .dropMap => []

theorem readPayload_head {x : ReadArgs} {h : Head} (t : Tables) (hk : readInRange x = true) (hh : x.target = .head h.val) :
    readPayload t x = headPayload (t.head h) x := by
  obtain ⟨sel, kind, target, n, m⟩ := x
  subst hh
  cases kind with
  | dropMap => exact absurd hk (by simp [readInRange])
  | _ => exact (dif_pos h.isLt).trans rfl

/-- Settles O30. -/
theorem readCommandsChangeNothing : Obligations.ReadCommandsChangeNothing := by
  intro tag s f rest
  refine ⟨fun id ht => ⟨fun h => ht.exec_refuse rfl ?_, fun pre r post hq hr hp => ?_⟩, fun ht => ?_, fun g ht => ?_,
    fun a ht => ⟨fun h => ht.exec_refuse rfl (by rw [h]; rfl), fun x hx => ?_⟩⟩
  · show cmdQueryJob id _ = _
    rw [cmdQueryJob, State.took_jobs, find_none h]
  · have hc : cmdQueryJob id (s.took rest) = Reply.ok (queryPayload s.jobs r) (s.took rest) := by
      rw [cmdQueryJob, State.took_jobs, find_split hq hr hp]
    refine (ht.exec_ok rfl hc).trans ?_
    rw [queryPayload_eq, hr, placeOf_split hq hr hp]
    cases r.active <;> rfl
  · intro on ptu trig jobs store heads lanes bank banks flags notices
    refine ht.exec_ok rfl (congrArg (fun l => Reply.ok l (s.took rest)) ?_)
    have hptu : ptuStatus s.ptu = ptu := by rw [ptuStatus, PtuState.code_eq]; rfl
    have htrig : [byte s.trig.state.code] = trig := by rw [TrigState.code_eq]
    have hjobs : jobStatus s.jobs = jobs := by
      unfold jobStatus jobs
      cases s.jobs.records <;> rfl
    have hheads : headStatus s = heads := by
      simp only [headStatus, HeadState.code_eq, heads, cursorField]
      rfl
    have hlanes : laneStatus s = lanes := by
      simp only [laneStatus, LaneState.code_eq, byte_gradeCode, byte_bandCode]
      refine congrArg₂ _ (congrArg₂ _ (congrArg₂ _ (congrArg₂ _ rfl (List.map_congr_left fun h _ => ?_))
        (List.map_congr_left fun h _ => ?_)) rfl) rfl
      · cases (s.lane h).grade <;> rfl
      · cases (s.lane h).band <;> rfl
    have hbanks : bankStatus s.banks = banks := by
      have hb : ∀ i, byte (bankStateCode (s.banks.stateOf i)) = bank i := by
        intro i
        simp only [Banks.stateOf, bank]
        split
        · rfl
        · cases s.banks.other <;> rfl
      simp only [bankStatus, hb]
      rfl
    show statusPayload s = _
    rw [statusPayload, hptu, htrig, hjobs, hheads, hlanes, hbanks]
    rfl
  · intro values heads planes link trigger
    refine ⟨fun h => ht.exec_refuse rfl ?_, fun l hl => ?_⟩
    · show cmdReadCounters g _ = _
      rw [cmdReadCounters, groupRange_none h]
    · match g, hl with
      | 0, hl => exact ht.exec_readCounters rfl (Option.some.inj ((show some headCounters = some l from hl)))
      | 1, hl => exact ht.exec_readCounters rfl (Option.some.inj ((show some planeCounters = some l from hl)))
      | 2, hl => exact ht.exec_readCounters rfl (Option.some.inj ((show some linkCounters = some l from hl)))
      | 3, hl => exact ht.exec_readCounters rfl (Option.some.inj ((show some triggerCounters = some l from hl)))
      | 4, hl => exact ht.exec_readCounters rfl (Option.some.inj ((show some allCounters = some l from hl)))
  · subst hx
    refine ⟨fun hs hb => ht.exec_refuse rfl ?_, fun b hb => ?_⟩
    · show cmdReadTable (some x) (s.took rest) = _
      unfold cmdReadTable
      dsimp only
      rw [hs, State.took_banks, selected_shadow, if_neg hb]
    · intro good ok
      have hsel : selected (s.took rest).banks x.selector = some b := by
        rcases hb with ⟨hs, rfl⟩ | ⟨hs, ho, rfl⟩
        · rw [hs]; rfl
        · rw [hs, State.took_banks, selected_shadow, if_pos ho]
      have hgood : readInRange x = true ↔ good := by
        obtain ⟨sel, kind, target, n, m⟩ := x
        cases kind <;> cases target <;> simp [readInRange, good]
      refine ⟨fun h => ht.exec_refuse rfl ((cmdReadTable_eq hsel).trans (if_neg (mt hgood.1 h))), fun h => ?_⟩
      have hok : ok (readPayload (s.banks.tables b) x) :=
        ht.exec_ok rfl ((cmdReadTable_eq hsel).trans (if_pos (hgood.2 h)))
      refine ⟨fun p hp => ?_, fun i hi => ?_⟩
      · rw [readPayload_drops _ (hgood.2 h) hp] at hok
        exact hok
      · intro y
        have hy : readPayload (s.banks.tables b) x = headPayload y x := readPayload_head _ (hgood.2 h) hi
        rw [hy] at hok
        refine ⟨fun hk => ?_, fun hk => ?_, fun hk => ?_⟩
        · rw [headPayload, hk] at hok
          refine cast (congrArg ok (congrArg (fun g => List.flatMap g (List.range x.count)) (funext fun k => ?_))) hok
          refine congrArg (leBytes 4) ?_
          cases y.entry (x.first + k) <;> rfl
        · rw [headPayload, hk] at hok
          exact hok
        · rw [headPayload, hk] at hok
          exact hok

/-! ## Power-on (R170) -/

theorem powerOn_plane (l : Levels) (p : Plane) : (State.powerOn l).plane p = PlaneStore.powerOn := get_replicate _ _
theorem powerOn_head (l : Levels) (h : Head) : (State.powerOn l).head h = HeadRec.powerOn := get_replicate _ _
theorem powerOn_lane (l : Levels) (h : Head) : (State.powerOn l).lane h = Lane.powerOn (l.hold.get h) (l.fault.get h) :=
  get_ofFn _ _
theorem powerOn_bank (l : Levels) (b : BankId) :
    (State.powerOn l).banks.banks.get b = { tables := Tables.default, bound := 0 } := get_replicate _ _

theorem Tables.default_head (h : Head) : Tables.default.head h = HeadTables.default := get_replicate _ _
theorem Tables.default_drops (p : Plane) (v : Dot) : (Tables.default.drops.get p).get v = v := by
  rw [Tables.default, get_replicate]
  exact get_ofFn _ _

/-- Settles O9. -/
theorem powerOnReset : Obligations.PowerOnReset := by
  intro l s
  refine ⟨{ State.powerOn l with pending := s.pending }, rfl, rfl, rfl,
    ⟨rfl, rfl, rfl, rfl, rfl, rfl, rfl, rfl, rfl, rfl, rfl, rfl, rfl⟩, ⟨rfl, rfl, rfl, rfl, rfl, rfl, rfl⟩,
    ⟨rfl, fun p => get_replicate _ _, rfl, rfl, rfl⟩, fun p => ?_, fun h => powerOn_head l h, fun h => ?_,
    ⟨rfl, rfl, fun b => congrArg Bank.bound (powerOn_bank l b), fun b p v => ?_, fun b h => ?_⟩,
    ⟨rfl, rfl, rfl, rfl, rfl, rfl, rfl, rfl, fun c => get_replicate _ _, fun c => get_replicate _ _⟩, rfl⟩
  · have hp : ({ State.powerOn l with pending := s.pending } : State).plane p = PlaneStore.powerOn := powerOn_plane l p
    rw [hp]
    exact ⟨rfl, rfl, rfl, rfl, rfl, rfl, rfl, fun h => get_replicate _ _, fun n => rfl⟩
  · have hl : ({ State.powerOn l with pending := s.pending } : State).lane h = Lane.powerOn (l.hold.get h) (l.fault.get h) :=
      powerOn_lane l h
    rw [hl]
    exact ⟨rfl, rfl, rfl, rfl, rfl, rfl, rfl, rfl, rfl, rfl, rfl, rfl, rfl, rfl, rfl, rfl, rfl, rfl⟩
  · rw [show Banks.tables _ b = Tables.default from congrArg Bank.tables (powerOn_bank l b)]
    exact Tables.default_drops p v
  · rw [show Banks.tables _ b = Tables.default from congrArg Bank.tables (powerOn_bank l b)]
    exact Tables.default_head h

end Sys2Proof.Machine
end

section
/-!
PROOFS. What a change of the Line Store and a head's coming to a line do: the rules that the statements about lanes and heads
use. A preload and a wait are each said once as the state they leave.
-/

namespace Sys2Proof.Machine

variable {s t : State} {h : Head} {x : HeadRec} {c : Cursor} {v : JobView} {px : List Dot}

theorem put_get {α : Type} {n : Nat} (w : Vector α n) (i : Fin n) : put w i (w.get i) = w :=
  Vector.set_getElem_self i.isLt

theorem State.setHead_self (s : State) (h : Head) : s.setHead h (s.head h) = s := congrArg s.setHeads (put_get _ _)
theorem State.setLane_self (s : State) (h : Head) : s.setLane h (s.lane h) = s := congrArg s.setLanes (put_get _ _)
theorem State.setPlane_self (s : State) (p : Plane) : s.setPlane p (s.plane p) = s := congrArg s.setStore (put_get _ _)

/-! ## A change of one plane (R65, R67, R68) -/

theorem putPlane_eq (p : Plane) (y : PlaneStore) (s : State) :
    putPlane p y s = (s.setPlane p y).setLink (putPlane p y s).link := by
  unfold putPlane
  split
  · rfl
  · unfold setFlowPending arbitrate
    split
    · split <;> rfl
    · rfl

/-- A plane after a change of its slots, the watermark rule and the base line. -/
def changedPlane (q : JobQueue) (p : Plane) (f : PlaneStore → PlaneStore) (y : PlaneStore) : PlaneStore :=
  advanceBase q p (q.next.get p - ((f y).watermark y.fill).base) ((f y).watermark y.fill)

theorem storeChange_eq (p : Plane) (f : PlaneStore → PlaneStore) (s : State) : storeChange p f s =
    (s.setPlane p (changedPlane s.jobs p f (s.plane p))).setLink (storeChange p f s).link := putPlane_eq _ _ _

theorem storeChange_store (p : Plane) (f : PlaneStore → PlaneStore) (s : State) :
    (storeChange p f s).store = put s.store p (changedPlane s.jobs p f (s.plane p)) := by rw [storeChange_eq]; rfl

@[simp] theorem storeChange_head (p : Plane) (f : PlaneStore → PlaneStore) (s : State) (i : Head) :
    (storeChange p f s).head i = s.head i := by rw [storeChange_eq]; rfl
@[simp] theorem storeChange_lane (p : Plane) (f : PlaneStore → PlaneStore) (s : State) (i : Head) :
    (storeChange p f s).lane i = s.lane i := by rw [storeChange_eq]; rfl
@[simp] theorem storeChange_banks (p : Plane) (f : PlaneStore → PlaneStore) (s : State) :
    (storeChange p f s).banks = s.banks := by rw [storeChange_eq]; rfl
@[simp] theorem storeChange_ptu (p : Plane) (f : PlaneStore → PlaneStore) (s : State) :
    (storeChange p f s).ptu = s.ptu := by rw [storeChange_eq]; rfl
@[simp] theorem storeChange_trig (p : Plane) (f : PlaneStore → PlaneStore) (s : State) :
    (storeChange p f s).trig = s.trig := by rw [storeChange_eq]; rfl
@[simp] theorem storeChange_heads (p : Plane) (f : PlaneStore → PlaneStore) (s : State) :
    (storeChange p f s).heads = s.heads := by rw [storeChange_eq]; rfl
@[simp] theorem storeChange_lanes (p : Plane) (f : PlaneStore → PlaneStore) (s : State) :
    (storeChange p f s).lanes = s.lanes := by rw [storeChange_eq]; rfl

theorem storeChange_plane (p : Plane) (f : PlaneStore → PlaneStore) (s : State) :
    (storeChange p f s).plane p = changedPlane s.jobs p f (s.plane p) := by rw [storeChange_eq]; exact get_put _ _ _

theorem storeChange_plane_ne {p i : Plane} (hi : i ≠ p) (f : PlaneStore → PlaneStore) (s : State) :
    (storeChange p f s).plane i = s.plane i := by
  rw [storeChange_eq]
  exact get_put_ne _ _ hi.symm

/-- What a change of the Line Store makes of the slots depends on the slots and the Job Queue alone. -/
theorem storeChange_store_congr {p : Plane} {f : PlaneStore → PlaneStore} (hs : t.store = s.store) (hj : t.jobs = s.jobs) :
    (storeChange p f t).store = (storeChange p f s).store := by
  rw [storeChange_store, storeChange_store, hj, State.plane, State.plane, hs]

theorem takeLine_store_congr {p : Plane} {n : Nat} {r : Bool} (hs : t.store = s.store) (hj : t.jobs = s.jobs) :
    (takeLine h p n r t).store = (takeLine h p n r s).store := storeChange_store_congr hs hj

/-! ## What a head's line is read from (R71, R73) -/

theorem jobView_congr (hr : t.jobs.records = s.jobs.records) (hb : ∀ i, t.banks.tables i = s.banks.tables i) (h : Head)
    (id : Nat) : t.jobView h id = s.jobView h id := by
  unfold State.jobView JobQueue.find
  simp only [hr, hb]

theorem cursorData_congr (hr : t.jobs.records = s.jobs.records) (hb : ∀ i, t.banks.tables i = s.banks.tables i)
    (hs : t.store = s.store) (h : Head) (c : Cursor) : t.cursorData h c = s.cursorData h c := by
  unfold State.cursorData State.plane
  simp only [jobView_congr hr hb, hs]

theorem cursorData_of_view (hv : s.jobView h c.job = some v) :
    s.cursorData h c = ((s.plane v.plane).readyData (v.line c.index)).map fun px => (v, px) := by
  unfold State.cursorData
  rw [hv]

theorem cursorData_none_of_view (hv : s.jobView h c.job = none) : s.cursorData h c = none := by
  unfold State.cursorData
  rw [hv]

theorem takeOf_view (hv : s.jobView h c.job = some v) (r : Bool) :
    takeOf h c r s = takeLine h v.plane (v.line c.index) r s := by
  unfold takeOf
  rw [hv]

/-! ## A preload (R77, R78) -/

theorem startPreload_lane (hl : (s.lane h).takesPreload = false) (x : HeadRec) (c : Cursor) : startPreload h x c s = none :=
  if_pos (by rw [hl]; rfl)

theorem startPreload_none (hd : s.cursorData h c = none) (x : HeadRec) : startPreload h x c s = none := by
  unfold startPreload
  rw [hd]
  exact ite_self _

/-- The state in which a head has started its preload of a line. -/
def State.preloading (s : State) (h : Head) (x : HeadRec) (c : Cursor) (v : JobView) (px : List Dot) : State :=
  ((takeLine h v.plane (v.line c.index) true s).setLane h
      ((s.lane h).send (.fire (fireRecord h v c.index px (s.lane h).band)))).setHead h
    { x with cursor := some c, state := .loading, inFlight := some ⟨c, .keep⟩ }

theorem startPreload_some (hl : (s.lane h).takesPreload = true) (hd : s.cursorData h c = some (v, px)) (x : HeadRec) :
    startPreload h x c s = some (s.preloading h x c v px) := by
  have ht : takeOf h c true s = takeLine h v.plane (v.line c.index) true s := takeOf_view (State.cursorData_ready hd).1 true
  refine (if_neg (by rw [hl]; decide)).trans ?_
  rw [hd]
  dsimp only
  rw [ht, changeLane, show (takeLine h v.plane (v.line c.index) true s).lane h = s.lane h from storeChange_lane _ _ _ _]
  rfl

theorem preloading_head_ne {i : Head} (hi : i ≠ h) : (s.preloading h x c v px).head i = s.head i :=
  (State.setHead_head_ne _ _ hi.symm).trans (storeChange_head _ _ _ _)

theorem preloading_lane_ne {i : Head} (hi : i ≠ h) : (s.preloading h x c v px).lane i = s.lane i :=
  (State.setLane_lane_ne _ _ hi.symm).trans (storeChange_lane _ _ _ _)

theorem preloading_head (s : State) : (s.preloading h x c v px).head h =
    { x with cursor := some c, state := .loading, inFlight := some ⟨c, .keep⟩ } := State.setHead_head _ _ _

theorem preloading_lane (s : State) : (s.preloading h x c v px).lane h =
    (s.lane h).send (.fire (fireRecord h v c.index px (s.lane h).band)) := State.setLane_lane _ _ _

theorem preloading_store (s : State) :
    (s.preloading h x c v px).store = (takeLine h v.plane (v.line c.index) true s).store := by
  rw [State.preloading, State.setHead_store, State.setLane_store]

theorem preloading_jobs (s : State) : (s.preloading h x c v px).jobs = s.jobs := by
  rw [State.preloading, State.setHead_jobs, State.setLane_jobs, takeLine, storeChange_jobs]

theorem preloading_banks (s : State) : (s.preloading h x c v px).banks = s.banks := by
  rw [State.preloading, State.setHead_banks, State.setLane_banks, takeLine, storeChange_banks]

theorem preloading_ptu (s : State) : (s.preloading h x c v px).ptu = s.ptu := by
  rw [State.preloading, State.setHead_ptu, State.setLane_ptu, takeLine, storeChange_ptu]

theorem preloading_notices (s : State) : (s.preloading h x c v px).notices = s.notices := by
  rw [State.preloading, State.setHead_notices, State.setLane_notices, takeLine_notices]

/-- A preload in the words of the statements: over a state that has the lane, the Job Queue and the slots named. -/
theorem preloads_of_preloading {u : State} {l : Lane} (hc : (s.head h).cursor = some c) (hl : u.lane h = l)
    (hs : u.store = s.store) (hj : u.jobs = s.jobs) : s.Preloads (u.preloading h (s.head h) c v px) h l c v px where
  head := by
    rw [preloading_head]
    show _ = ({ s.head h with cursor := (s.head h).cursor, state := .loading, inFlight := _ } : HeadRec)
    rw [hc]
  lane := by rw [preloading_lane, hl]
  line := (preloading_store u).trans (takeLine_store_congr hs hj)

theorem tryPreload_of_ne (hs : (s.head h).state ≠ .waitingLine) : tryPreload h s = s := by
  unfold tryPreload
  split
  · next hw _ => exact absurd hw hs
  · rfl

theorem tryPreload_waiting (hs : (s.head h).state = .waitingLine) (hc : (s.head h).cursor = some c) :
    tryPreload h s = (startPreload h (s.head h) c s).getD s := by
  unfold tryPreload
  rw [hs, hc]

theorem tryPreload_lane (hl : (s.lane h).takesPreload = false) : tryPreload h s = s := by
  unfold tryPreload
  split
  · rw [startPreload_lane hl]
    rfl
  · rfl

theorem tryPreload_nothing (hn : s.NothingToLoad h) : tryPreload h s = s := by
  by_cases hs : (s.head h).state = .waitingLine
  · cases hc : (s.head h).cursor with
    | none =>
      unfold tryPreload
      rw [hs, hc]
    | some c => rw [tryPreload_waiting hs hc, startPreload_none (hn hs c hc)]; rfl
  · exact tryPreload_of_ne hs

theorem tryPreload_starts (hs : (s.head h).state = .waitingLine) (hc : (s.head h).cursor = some c)
    (hl : (s.lane h).takesPreload = true) (hd : s.cursorData h c = some (v, px)) :
    tryPreload h s = s.preloading h (s.head h) c v px := by
  rw [tryPreload_waiting hs hc, startPreload_some hl hd]
  rfl

theorem NothingToLoad_congr (hh : t.head h = s.head h) (hr : t.jobs.records = s.jobs.records)
    (hb : ∀ i, t.banks.tables i = s.banks.tables i) (hs : t.store = s.store) (hn : s.NothingToLoad h) : t.NothingToLoad h := by
  intro hw c hc
  rw [cursorData_congr hr hb hs]
  exact hn (hh ▸ hw) c (hh ▸ hc)

theorem takesPreload_iff {l : Lane} : l.takesPreload = true ↔ l.state = .up ∧ l.hold.seen = false := by
  simp [Lane.takesPreload]

theorem takesPreload_false_iff {l : Lane} : l.takesPreload = false ↔ l.state ≠ .up ∨ l.hold.seen = true := by
  cases h : l.hold.seen <;> simp [Lane.takesPreload, h]

/-! ## A head's dues (R76) -/

theorem runDues_none (hd : s.reachedDue h = none) (n : Nat) : runDues h n s = s := by
  cases n with
  | zero => rfl
  | succ n => unfold runDues; rw [hd]

theorem reachedDue_eq_some {s : State} : s.reachedDue h = some c ↔ (s.head h).cursor = some c ∧
    ∃ v, s.jobView h c.job = some v ∧ v.due h c.index ≤ s.position := by
  unfold State.reachedDue
  cases hc : (s.head h).cursor with
  | none => simp
  | some d =>
    dsimp only
    cases hv : s.jobView h d.job with
    | none =>
      simp only [reduceCtorEq, false_iff, Option.some.injEq, not_and]
      rintro rfl ⟨v, hv', -⟩
      exact absurd (hv.symm.trans hv') (by simp)
    | some v =>
      dsimp only
      constructor
      · intro h
        split at h
        · next hd =>
          cases h
          exact ⟨rfl, v, hv, hd⟩
        · cases h
      · rintro ⟨hcd, w, hw, hd⟩
        cases hcd
        cases hv.symm.trans hw
        exact if_pos hd

theorem reachedDue_none (hd : ∀ c v, (s.head h).cursor = some c → s.jobView h c.job = some v → s.position < v.due h c.index) :
    s.reachedDue h = none := by
  rw [Option.eq_none_iff_forall_ne_some]
  intro c hc
  obtain ⟨hcur, v, hv, hdue⟩ := reachedDue_eq_some.1 hc
  exact absurd hdue (not_le.2 (hd c v hcur hv))

theorem reachedDue_congr (hh : (t.head h).cursor = (s.head h).cursor) (hr : t.jobs.records = s.jobs.records)
    (hb : ∀ i, t.banks.tables i = s.banks.tables i) (hp : t.ptu = s.ptu) : t.reachedDue h = s.reachedDue h := by
  unfold State.reachedDue State.position
  simp only [hh, jobView_congr hr hb, hp]

/-! ## A head that comes to a line (R75) -/

theorem arriveOn_sending {f : InFlight} (hf : x.inFlight = some f) (c : Cursor) (s : State) :
    arriveOn h x c s = s.setHead h { x with cursor := some c, state := .discarding } := by
  unfold arriveOn
  rw [hf]

theorem arriveOn_free (hf : x.inFlight = none) (c : Cursor) (s : State) : arriveOn h x c s =
    (startPreload h x c s).getD (s.setHead h { x with cursor := some c, state := .waitingLine }) := by
  unfold arriveOn
  rw [hf]

theorem arriveOn_waits (hf : x.inFlight = none) (hn : (s.lane h).takesPreload = false ∨ s.cursorData h c = none) :
    arriveOn h x c s = s.setHead h { x with cursor := some c, state := .waitingLine } := by
  rw [arriveOn_free hf]
  rcases hn with hl | hd
  · rw [startPreload_lane hl]; rfl
  · rw [startPreload_none hd]; rfl

theorem arriveOn_starts (hf : x.inFlight = none) (hl : (s.lane h).takesPreload = true)
    (hd : s.cursorData h c = some (v, px)) : arriveOn h x c s = s.preloading h x c v px := by
  rw [arriveOn_free hf, startPreload_some hl hd]
  rfl

/-- Coming to a line changes the slots, the head and its lane alone, and the head's cursor is there. -/
theorem arriveOn_cursor (h : Head) (x : HeadRec) (c : Cursor) (s : State) :
    ((arriveOn h x c s).head h).cursor = some c ∧ (arriveOn h x c s).jobs = s.jobs ∧ (arriveOn h x c s).banks = s.banks ∧
      (arriveOn h x c s).ptu = s.ptu := by
  cases hf : x.inFlight with
  | some f => rw [arriveOn_sending hf]; simp
  | none =>
    by_cases hn : (s.lane h).takesPreload = false ∨ s.cursorData h c = none
    · rw [arriveOn_waits hf hn]; simp
    · obtain ⟨hl, hd⟩ := not_or.1 hn
      obtain ⟨⟨v, px⟩, hd⟩ := Option.ne_none_iff_exists'.1 hd
      rw [arriveOn_starts hf (Bool.of_not_eq_false hl) hd]
      exact ⟨by rw [preloading_head], preloading_jobs s, preloading_banks s, preloading_ptu s⟩

/-- A head that comes to a line whose due lies ahead meets none. -/
theorem arrive_ahead (hd : ∀ v, s.jobView h c.job = some v → s.position < v.due h c.index) (x : HeadRec) :
    arrive h x c s = arriveOn h x c s := by
  obtain ⟨hc, hj, hb, hp⟩ := arriveOn_cursor h x c s
  refine runDues_none (reachedDue_none fun d w hcur hw => ?_) _
  obtain rfl : c = d := Option.some.inj (hc.symm.trans hcur)
  rw [jobView_congr (s := s) (by rw [hj]) (fun i => by rw [hb])] at hw
  rw [State.position, hp]
  exact hd w hw

/-! ## A lane that leaves UP (R80) -/

theorem laneLeftUp_eq (hl : (s.lane h).takesPreload = false) (hd : s.DueAhead h) :
    laneLeftUp h s = s.setHead h (s.head h).leftUp := by
  unfold laneLeftUp
  dsimp only
  cases hs : (s.head h).state with
  | idle => simp [HeadRec.leftUp, hs]
  | waitingLine => simp only [HeadRec.leftUp, hs]; exact (State.setHead_self s h).symm
  | loading => simp [HeadRec.leftUp, hs]
  | loaded => simp [HeadRec.leftUp, hs]
  | void => simp only [HeadRec.leftUp, hs]; exact (State.setHead_self s h).symm
  | discarding =>
    obtain ⟨c, hc, hdue⟩ := hd hs
    simp only [HeadRec.leftUp, hs, hc]
    rw [arrive_ahead hdue, arriveOn_waits rfl (.inl hl)]

end Sys2Proof.Machine
end

section
/-!
PROOFS. The statements about the lanes: their commands, their settings, their own times, their sidebands, and the records of
the board that negotiate and train them.
-/

namespace Sys2Proof.Machine

variable {s t : State} {h : Head} {l : Lane} {tag : Byte} {f : Frame} {rest : List Frame}

/-! ## Records sent (R116) -/

theorem crcBytes_length (bs : List Byte) : (crcBytes bs).length = 4 := rfl

theorem capsQuery_ticks : transmissionTicks .a LaneRecord.capsQuery.bytes = 64 := by
  have h : LaneRecord.capsQuery.bytes.length = 32 := by
    rw [LaneRecord.bytes, closed, List.length_append, crcBytes_length]
    rfl
  rw [transmissionTicks, h]
  rfl

theorem Lane.send_free (ht : l.tx = none) (r : LaneRecord) : l.send r = l.begin r := if_pos (by rw [ht]; rfl)

theorem Lane.send_waits {x : LaneTx} (ht : l.tx = some x) (r : LaneRecord) : l.send r = { l with waiting := some r } :=
  if_neg (by rw [ht]; simp)

theorem Lane.begin_capsQuery (l : Lane) : l.begin .capsQuery =
    { l with tx := some { record := .capsQuery, bytes := LaneRecord.capsQuery.bytes, remaining := 64 } } := by
  rw [Lane.begin, LaneRecord.gradeOn, capsQuery_ticks]

@[simp] theorem Lane.send_grade (l : Lane) (r : LaneRecord) : (l.send r).grade = l.grade := by
  unfold Lane.send
  split <;> rfl

@[simp] theorem Lane.send_settings (l : Lane) (r : LaneRecord) : (l.send r).settings = l.settings := by
  unfold Lane.send
  split <;> rfl

@[simp] theorem Lane.send_fault (l : Lane) (r : LaneRecord) : (l.send r).fault = l.fault := by
  unfold Lane.send
  split <;> rfl

theorem laneNotice_setLane (h : Head) (r : LaneReason) (l : Lane) (s : State) :
    laneNotice h r (s.setLane h l) = submit (.laneState h l.state l.grade r) (s.setLane h l) := by
  rw [laneNotice, State.setLane_lane]

theorem enterNegotiating_eq (h : Head) (r : LaneReason) (s : State) : enterNegotiating h r s =
    submit (.laneState h .negotiating none r) (s.setLane h
      (Lane.send { s.lane h with state := .negotiating, grade := none, gradeSet := none, timer := none } .capsQuery)) := by
  rw [enterNegotiating, changeLane, laneNotice_setLane, send_state, Lane.send_grade]

/-- Entry to NEGOTIATING over a lane that sends nothing: the caps query begins (R119). -/
theorem enterNegotiating_free (ht : (s.lane h).tx = none) (r : LaneReason) : enterNegotiating h r s =
    submit (.laneState h .negotiating none r) (s.setLane h { s.lane h with
      state := .negotiating, grade := none, gradeSet := none, timer := none
      tx := some { record := .capsQuery, bytes := LaneRecord.capsQuery.bytes, remaining := 64 } }) := by
  rw [enterNegotiating_eq, Lane.send_free, Lane.begin_capsQuery]
  exact ht

/-- A pending downshift over an IDLE head of a lane in UP is carried out (R136). -/
theorem testDownshift_due (hd : (s.lane h).downshift = true) (hu : (s.lane h).state = .up) (hi : (s.head h).state = .idle) :
    testDownshift h s = s.downshifted h := by
  have hl : ({ (s.lane h).down with ceiling := (s.lane h).nextLower } : Lane) = (s.lane h).brought (s.lane h).nextLower := rfl
  unfold testDownshift
  dsimp only
  rw [if_pos (by simp [hd, hu, hi]), hl]
  generalize hm : (s.lane h).brought (s.lane h).nextLower = m
  have hn : laneNotice h .downshift ((s.setLane h m).setHead h { s.head h with inFlight := none }) =
      submit (.laneState h .down none .downshift) ((s.setLane h m).setHead h { s.head h with inFlight := none }) := by
    rw [laneNotice, State.setHead_lane, State.setLane_lane, ← hm]
    rfl
  have hv : (submit (.laneState h .down none .downshift) ((s.setLane h m).setHead h { s.head h with inFlight := none })).lane h =
      m := by rw [(quiet_submit _ _).lane, State.setHead_lane, State.setLane_lane]
  rw [State.setLane_head, hn, enterNegotiating_free (by rw [hv, ← hm]; rfl), hv, State.downshifted, hm]
  rw [← hm]
  rfl

theorem testDownshift_void (hn : ¬ ((s.lane h).downshift = true ∧ (s.lane h).state = .up ∧ (s.head h).state = .idle)) :
    testDownshift h s = s := by
  refine if_neg fun e => hn ?_
  simpa [and_assoc] using e

/-! ## Notices and heads are apart -/

theorem arbitrate_setHeads (s : State) (w : Vector HeadRec 16) : arbitrate (s.setHeads w) = (arbitrate s).setHeads w := by
  have h : (s.setHeads w).nextOutbound = s.nextOutbound := rfl
  unfold arbitrate
  rw [h, State.setHeads_link]
  split
  · cases h : s.nextOutbound <;> rfl
  · rfl

theorem testRelease_setHeads (s : State) (w : Vector HeadRec 16) :
    testRelease (s.setHeads w) = (testRelease s).setHeads w := by
  unfold testRelease
  rw [State.setHeads_notices]
  split
  · rw [releaseBatch_eq, releaseBatch_eq, ← arbitrate_setHeads]
    rfl
  · rfl

theorem offer_setHeads (n : Notice) (s : State) (w : Vector HeadRec 16) :
    offer n (s.setHeads w) = (offer n s).setHeads w := by
  unfold offer
  dsimp only
  rw [State.setHeads_notices]
  by_cases hq : s.notices.queue.length < Config.noticeQueueMax
  · rw [if_pos hq, if_pos hq, ← testRelease_setHeads]
    rfl
  · rw [if_neg hq, if_neg hq]
    rfl

theorem submit_setHeads (n : Notice) (s : State) (w : Vector HeadRec 16) :
    submit n (s.setHeads w) = (submit n s).setHeads w := by
  by_cases hm : n.kind ∈ s.notices.mask
  · exact (if_pos hm).trans (congrArg (State.setHeads · w) (if_pos hm).symm)
  · exact (if_neg hm).trans ((offer_setHeads n s w).trans (congrArg (State.setHeads · w) (if_neg hm).symm))

theorem submit_setHead (n : Notice) (s : State) (h : Head) (x : HeadRec) :
    submit n (s.setHead h x) = (submit n s).setHead h x := by
  rw [State.setHead, submit_setHeads, State.setHead, (quiet_submit n s).heads]

theorem put_put {α : Type} {n : Nat} (w : Vector α n) (i : Fin n) (x y : α) : put (put w i x) i y = put w i y :=
  Vector.set_set ..

theorem State.setLane_setLane (s : State) (h : Head) (x y : Lane) : (s.setLane h x).setLane h y = s.setLane h y :=
  congrArg s.setLanes (put_put _ _ _ _)

theorem State.setHead_setHead (s : State) (h : Head) (x y : HeadRec) : (s.setHead h x).setHead h y = s.setHead h y :=
  congrArg s.setHeads (put_put _ _ _ _)

/-! ## Leaving and entering UP (R80, R123, R128) -/

theorem State.DueAhead.congr (hd : s.DueAhead h) (hh : t.head h = s.head h) (hr : t.jobs.records = s.jobs.records)
    (hb : ∀ i, t.banks.tables i = s.banks.tables i) (hp : t.ptu = s.ptu) : t.DueAhead h := by
  intro hs
  obtain ⟨c, hc, hv⟩ := hd (hh ▸ hs)
  refine ⟨c, hh ▸ hc, fun v hv' => ?_⟩
  rw [hp]
  exact hv v ((jobView_congr hr hb h c.job).symm.trans hv')

/-- A latched fault: the notice of FAULTED, and the head as its lane leaves it. -/
theorem enterFaulted_eq (hd : s.DueAhead h) : enterFaulted h s =
    submit (.laneState h .faulted (s.lane h).grade .fault) ((s.setLane h (s.lane h).latched).setHead h (s.head h).leftUp) := by
  have hn : laneNotice h .fault (changeLane h (fun l => { l.cutOff with state := .faulted, status := none, downshift := false }) s)
      = submit (.laneState h .faulted (s.lane h).grade .fault) (s.setLane h (s.lane h).latched) := by
    rw [changeLane, laneNotice_setLane]
    rfl
  have q := quiet_submit (.laneState h .faulted (s.lane h).grade .fault) (s.setLane h (s.lane h).latched)
  have hl : (submit (.laneState h .faulted (s.lane h).grade .fault) (s.setLane h (s.lane h).latched)).lane h =
      (s.lane h).latched := by rw [q.lane, State.setLane_lane]
  have hh : (submit (.laneState h .faulted (s.lane h).grade .fault) (s.setLane h (s.lane h).latched)).head h = s.head h := by
    rw [q.head, State.setLane_head]
  unfold enterFaulted
  dsimp only
  rw [hn, laneLeftUp_eq, hh, submit_setHead]
  · rw [hl]; rfl
  · exact hd.congr hh (by rw [q.jobs, State.setLane_jobs]) (fun i => by rw [q.banks, State.setLane_banks])
      (by rw [q.ptu, State.setLane_ptu])

/-- Entry to UP, before its preload: the lane raised and the notice queued. -/
def State.raised (s : State) (h : Head) (r : LaneReason) : State :=
  submit (.laneState h .up (s.lane h).grade r) (s.setLane h (s.lane h).broughtUp)

theorem quiet_raised (s : State) (h : Head) (r : LaneReason) : Quiet (s.setLane h (s.lane h).broughtUp) (s.raised h r) :=
  quiet_submit _ _

theorem raised_lane (s : State) (h : Head) (r : LaneReason) : (s.raised h r).lane h = (s.lane h).broughtUp := by
  rw [(quiet_raised s h r).lane, State.setLane_lane]

theorem raised_head (s : State) (h : Head) (r : LaneReason) : (s.raised h r).head h = s.head h := by
  rw [(quiet_raised s h r).head, State.setLane_head]

theorem raised_jobs (s : State) (h : Head) (r : LaneReason) : (s.raised h r).jobs = s.jobs := by
  rw [(quiet_raised s h r).jobs, State.setLane_jobs]

theorem raised_banks (s : State) (h : Head) (r : LaneReason) : (s.raised h r).banks = s.banks := by
  rw [(quiet_raised s h r).banks, State.setLane_banks]

theorem raised_store (s : State) (h : Head) (r : LaneReason) : (s.raised h r).store = s.store := by
  rw [(quiet_raised s h r).store, State.setLane_store]

theorem raised_ptu (s : State) (h : Head) (r : LaneReason) : (s.raised h r).ptu = s.ptu := by
  rw [(quiet_raised s h r).ptu, State.setLane_ptu]

theorem enterUp_eq (h : Head) (r : LaneReason) (s : State) : enterUp h r s =
    if ((tryPreload h (s.raised h r)).lane h).settings.latch && ((tryPreload h (s.raised h r)).lane h).fault.seen then
      enterFaulted h (tryPreload h (s.raised h r))
    else tryPreload h (s.raised h r) := by
  have e : laneNotice h r (changeLane h Lane.raised s) = s.raised h r := by
    rw [changeLane, laneNotice_setLane]
    rfl
  unfold enterUp
  rw [e]

/-- Entry to UP where nothing can be preloaded. -/
theorem enterUp_nothing (hn : (s.lane h).hold.seen = true ∨ s.NothingToLoad h) (r : LaneReason) : enterUp h r s =
    if (s.lane h).settings.latch && (s.lane h).fault.seen then enterFaulted h (s.raised h r) else s.raised h r := by
  have ht : tryPreload h (s.raised h r) = s.raised h r := by
    rcases hn with hl | hn
    · exact tryPreload_lane (takesPreload_false_iff.2 (.inr (by rw [raised_lane]; exact hl)))
    · exact tryPreload_nothing (NothingToLoad_congr (raised_head s h r) (by rw [raised_jobs]) (fun i => by rw [raised_banks])
        (raised_store s h r) hn)
  rw [enterUp_eq, ht, raised_lane]
  rfl

/-- Entry to UP with the cursor line of a waiting head READY. -/
theorem enterUp_preloads {c : Cursor} {v : JobView} {px : List Dot} (hl : (s.lane h).hold.seen = false)
    (hs : (s.head h).state = .waitingLine) (hc : (s.head h).cursor = some c) (hd : s.cursorData h c = some (v, px))
    (r : LaneReason) : enterUp h r s =
      if (s.lane h).settings.latch && (s.lane h).fault.seen then
        enterFaulted h ((s.raised h r).preloading h (s.head h) c v px)
      else (s.raised h r).preloading h (s.head h) c v px := by
  have ht : tryPreload h (s.raised h r) = (s.raised h r).preloading h (s.head h) c v px := by
    have hh := raised_head s h r
    rw [tryPreload_starts (v := v) (px := px) (by rw [hh]; exact hs) (by rw [hh]; exact hc), hh]
    · rw [raised_lane]
      exact takesPreload_iff.2 ⟨rfl, hl⟩
    · rw [cursorData_congr (s := s) (by rw [raised_jobs]) (fun i => by rw [raised_banks]) (raised_store s h r)]
      exact hd
  rw [enterUp_eq, ht, preloading_lane, raised_lane, Lane.send_settings, Lane.send_fault]
  rfl

/-! ## Commands of a lane (R119, R124, R129) -/

theorem cmdLaneUp_refuses {n : Nat} (hn : 16 ≤ n) (s : State) : cmdLaneUp n s = Reply.refuse .badValue s :=
  withHead_refuses _ hn s

theorem cmdLaneUp_val (h : Head) (s : State) : cmdLaneUp h.val s =
    if (s.lane h).state = .down then Reply.ok [] (enterNegotiating h .command s) else Reply.refuse .wrongState s :=
  withHead_val _ h s

theorem cmdLaneDown_refuses {n : Nat} (hn : 16 ≤ n) (s : State) : cmdLaneDown n s = Reply.refuse .badValue s :=
  withHead_refuses _ hn s

theorem cmdLaneDown_val (h : Head) (s : State) : cmdLaneDown h.val s =
    if (s.lane h).state = .down then Reply.ok [] (changeLane h (fun l => { l with ceiling := none }) s)
    else Reply.ok [] (laneDown h s) :=
  withHead_val _ h s

theorem cmdLaneResume_refuses {n : Nat} (hn : 16 ≤ n) (s : State) : cmdLaneResume n s = Reply.refuse .badValue s :=
  withHead_refuses _ hn s

theorem cmdLaneResume_val (h : Head) (s : State) : cmdLaneResume h.val s =
    if (s.lane h).state = .faulted ∧ (s.lane h).fault.seen = false then Reply.ok [] (enterUp h .resume s)
    else Reply.refuse .wrongState s :=
  withHead_val _ h s

/-- Lane Down of a lane that is not DOWN and not UP (R124). -/
theorem laneDown_notUp (hs : (s.lane h).state ≠ .up) : laneDown h s =
    submit (.laneState h .down none .command) (s.setLane h ((s.lane h).brought none)) := by
  unfold laneDown
  dsimp only
  rw [if_neg (by simpa using hs), changeLane, laneNotice_setLane]
  rfl

/-- Lane Down of a lane in UP: the head is as R80 leaves it. -/
theorem laneDown_up (hs : (s.lane h).state = .up) (hd : s.DueAhead h) : laneDown h s =
    submit (.laneState h .down none .command)
      ((s.setLane h ((s.lane h).brought none)).setHead h (s.head h).leftUp) := by
  have hl : changeLane h (fun l => { l.down with ceiling := none }) s = s.setLane h ((s.lane h).brought none) := rfl
  have hu : laneLeftUp h (s.setLane h ((s.lane h).brought none)) =
      (s.setLane h ((s.lane h).brought none)).setHead h (s.head h).leftUp := by
    rw [laneLeftUp_eq, State.setLane_head]
    · rw [State.setLane_lane]; rfl
    · exact hd.congr (State.setLane_head _ _ _ _) rfl (fun _ => rfl) rfl
  unfold laneDown
  dsimp only
  rw [if_pos (by simpa using hs), hl, hu, laneNotice, State.setHead_lane, State.setLane_lane]
  rfl

/-- Settles O44. -/
theorem laneUpDownResume : Obligations.LaneUpDownResume := by
  refine ⟨fun tag n s f rest => ⟨fun hn => ⟨fun ht => ht.exec_refuse rfl (cmdLaneUp_refuses hn _),
    fun ht => ht.exec_refuse rfl (cmdLaneDown_refuses hn _)⟩, ?_⟩, fun tag n s f rest ht =>
    ⟨fun hn => ht.exec_refuse rfl (cmdLaneResume_refuses hn _), ?_⟩⟩
  · rintro h rfl l
    refine ⟨fun ht => ⟨fun hs => ht.exec_refuse rfl ((cmdLaneUp_val h _).trans (if_neg hs)), fun hs => ?_⟩,
      fun ht => ⟨fun hs => ht.exec_ok rfl ((cmdLaneDown_val h _).trans (if_pos hs)), fun hs => ?_, fun hs hd => ?_⟩⟩
    · intro m up
      have hx : exec (.laneUp tag h.val) s = .next (answered f .ok [] (enterNegotiating h .command (s.took rest))) :=
        ht.exec_ok rfl ((cmdLaneUp_val h _).trans (if_pos hs))
      refine ⟨fun htx => hx.trans ?_, fun x htx => hx.trans ?_⟩
      · rw [enterNegotiating_free (s := s.took rest) htx]
        rfl
      · rw [enterNegotiating_eq, Lane.send_waits (x := x)]
        · rfl
        · exact htx
    · have hne : l.state ≠ .down ∧ l.state ≠ .up := by rcases hs with hs | hs | hs <;> simp [hs]
      refine (ht.exec_ok rfl ((cmdLaneDown_val h _).trans (if_neg hne.1))).trans ?_
      rw [laneDown_notUp (s := s.took rest) hne.2]
      rfl
    · refine (ht.exec_ok rfl ((cmdLaneDown_val h _).trans (if_neg (by simp [show (s.lane h).state = .up from hs])))).trans ?_
      rw [laneDown_up (s := s.took rest) hs hd]
      rfl
  · rintro h rfl l
    refine ⟨fun hs => ht.exec_refuse rfl ((cmdLaneResume_val h _).trans (if_neg fun e => ?_)), fun hs hf => ?_⟩
    · exact hs.elim (fun n => n e.1) fun n => by simp [show (s.lane h).fault.seen = true from n] at e
    · have hx : exec (.laneResume tag h.val) s = .next (answered f .ok [] (enterUp h .resume (s.took rest))) :=
        ht.exec_ok rfl ((cmdLaneResume_val h _).trans (if_pos ⟨hs, hf⟩))
      have hg : ¬ (((s.took rest).lane h).settings.latch && ((s.took rest).lane h).fault.seen) = true := by
        rw [State.took_lane, show (s.lane h).fault.seen = false from hf, Bool.and_false]
        decide
      refine ⟨fun hn => ?_, fun c v px hh hw hc hd => ⟨_, hx, ?_⟩⟩
      · rw [hx, enterUp_nothing (s := s.took rest) hn, if_neg hg]
        rfl
      · rw [enterUp_preloads (s := s.took rest) hh hw hc hd, if_neg hg]
        exact preloads_of_preloading hc (raised_lane _ _ _) (raised_store _ _ _) (raised_jobs _ _ _)

/-! ## Settings (R131) -/

theorem Lane.withSettings_eq (l : Lane) (q : LaneSettings) : l.withSettings q = { l with
    settings := q
    hold := if q.filter ≠ l.settings.filter then { l.hold with progress := 0 } else l.hold
    fault := if q.filter ≠ l.settings.filter then { l.fault with progress := 0 } else l.fault
    downshift := l.downshift && q.autoDown } := by
  unfold Lane.withSettings
  by_cases hf : q.filter = l.settings.filter <;> simp [hf, Input.restart]

theorem Lane.statusDue_iff : l.statusDue = true ↔ ∃ e, l.status = some e ∧ l.settings.timeout * 25000 ≤ e := by
  unfold Lane.statusDue
  cases l.status with
  | none => simp
  | some e => exact decide_eq_true_iff.trans (by simp [Config.ticksPerMs])

theorem statusExpire_setLane (h : Head) (l : Lane) (s : State) : statusExpire h (s.setLane h l) =
    submitCondition (.statusLost h) (.statusLost h l.band) (s.setLane h { l with status := none }) := by
  rw [statusExpire, changeLane, State.setLane_lane, State.setLane_setLane]

theorem takeSettings_eq (h : Head) (q : LaneSettings) (timeout : Bool) (s : State) : takeSettings h q timeout s =
    if timeout = true ∧ ∃ e, (s.lane h).status = some e ∧ q.timeout * 25000 ≤ e then
      submitCondition (.statusLost h) (.statusLost h (s.lane h).band)
        (s.setLane h { (s.lane h).withSettings q with status := none })
    else s.setLane h ((s.lane h).withSettings q) := by
  have hw : ((s.lane h).withSettings q).status = (s.lane h).status ∧ ((s.lane h).withSettings q).settings = q ∧
      ((s.lane h).withSettings q).band = (s.lane h).band := by rw [Lane.withSettings_eq]; exact ⟨rfl, rfl, rfl⟩
  unfold takeSettings
  dsimp only
  rw [changeLane, State.setLane_lane, statusExpire_setLane, hw.2.2]
  refine ite_congr (propext ?_) (fun _ => rfl) (fun _ => rfl)
  rw [Bool.and_eq_true, Lane.statusDue_iff, hw.1, hw.2.1]

theorem gradesOfCodes_eq (m : List Nat) : gradesOfCodes m =
    if ∀ c ∈ m, 1 ≤ c ∧ c ≤ 6 then some (allGrades.filter fun g => m.contains g.code) else none := by
  unfold gradesOfCodes
  simp only [List.all_eq_true, decide_eq_true_eq]

theorem laneArgsBad_iff (a : LaneArgs) : laneArgsBad a = true ↔ (∃ x, a.mode = some x ∧ 2 ≤ x) ∨
    (∃ x, a.autoDown = some x ∧ 2 ≤ x) ∨ ∃ m c, a.mask = some m ∧ c ∈ m ∧ ¬ (1 ≤ c ∧ c ≤ 6) := by
  have hm : ∀ m : List Nat, (gradesOfCodes m).isNone = true ↔ ∃ c ∈ m, ¬ (1 ≤ c ∧ c ≤ 6) := fun m => by
    rw [gradesOfCodes_eq]
    split
    · next h => simpa using h
    · next h => simpa using h
  unfold laneArgsBad
  rw [Bool.or_eq_true, Bool.or_eq_true, or_assoc]
  refine or_congr ?_ (or_congr ?_ ?_)
  · cases a.mode <;> simp
  · cases a.autoDown <;> simp
  · cases a.mask with
    | none => simp
    | some m => simpa using hm m

theorem cmdSetLane_refuses {a : LaneArgs} (hn : 16 ≤ a.lane) (s : State) : cmdSetLane a s = Reply.refuse .badValue s :=
  withHead_refuses _ hn s

theorem cmdSetLane_val {a : LaneArgs} (ha : a.lane = h.val) (s : State) : cmdSetLane a s =
    if laneArgsBad a then Reply.refuse .badValue s
    else Reply.ok ((s.lane h).settings.adjusted (a.mask.bind gradesOfCodes) (a.autoDown.map fun x => x == 0) a).payload
      (takeSettings h ((s.lane h).settings.adjusted (a.mask.bind gradesOfCodes) (a.autoDown.map fun x => x == 0) a)
        a.timeout.isSome s) := by
  unfold cmdSetLane
  rw [ha]
  exact withHead_val _ h s

/-- Settles O46. -/
theorem setLane : Obligations.SetLane := by
  intro tag a s f rest ht
  refine ⟨fun hn => ht.exec_refuse rfl (cmdSetLane_refuses hn _), fun h hh => ?_⟩
  intro l p
  refine ⟨fun hb => ht.exec_refuse rfl ((cmdSetLane_val hh _).trans (if_pos ((laneArgsBad_iff a).2 hb))), fun hm ha hg => ?_⟩
  intro q moved m late
  have hq : p.adjusted (a.mask.bind gradesOfCodes) (a.autoDown.map fun x => x == 0) a = q := by
    have hmask : a.mask.bind gradesOfCodes = a.mask.map fun m => allGrades.filter fun g => m.contains g.code := by
      cases hk : a.mask with
      | none => rfl
      | some k => exact (gradesOfCodes_eq k).trans (if_pos (hg k hk))
    unfold LaneSettings.adjusted
    rw [hmask]
    rfl
  have hbad : ¬ laneArgsBad a = true := fun e => by
    rcases (laneArgsBad_iff a).1 e with ⟨x, hx, h2⟩ | ⟨x, hx, h2⟩ | ⟨m, c, hx, hc, hn⟩
    · exact absurd (hm x hx) (by omega)
    · exact absurd (ha x hx) (by omega)
    · exact hn (hg m hx c hc)
  have hx : exec (.setLane tag a) s = .next (answered f .ok q.payload (takeSettings h q a.timeout.isSome (s.took rest))) := by
    refine ht.exec_ok rfl ((cmdSetLane_val hh _).trans ((if_neg hbad).trans ?_))
    rw [State.took_lane, hq]
  have hw : ((s.took rest).lane h).withSettings q = m := Lane.withSettings_eq l q
  rw [hx, takeSettings_eq, hw]
  exact ⟨fun hl => congrArg _ (congrArg _ (if_neg hl)), fun hl => congrArg _ (congrArg _ (if_pos hl))⟩

/-! ## The lane's own times (R116, R119, R121, R130, R134) -/

theorem transmissionTicks_least (g : Grade) (bs : List Byte) : 8 * bs.length ≤ transmissionTicks g bs * g.bitsPerTick ∧
    ∀ n, 8 * bs.length ≤ n * g.bitsPerTick → transmissionTicks g bs ≤ n := by
  unfold transmissionTicks
  cases g <;> dsimp only [Grade.bitsPerTick] <;> refine ⟨by omega, fun n hn => by omega⟩

theorem Lane.sent_eq_some {r : LaneRecord} : l.sent = some r ↔ ∃ x, l.tx = some x ∧ x.remaining = 0 ∧ x.record = r := by
  unfold Lane.sent
  cases l.tx with
  | none => simp
  | some x => simp

/-- The lane after a transmission, with nothing more to send, or with the waiting record begun (log 13). -/
theorem Lane.ended_idle (hw : l.waiting = none) : l.ended = { l with tx := none, waiting := none } := by
  unfold Lane.ended
  simp only [hw]

theorem Lane.ended_waiting {r : LaneRecord} (hw : l.waiting = some r) :
    l.ended = Lane.begin { l with tx := none, waiting := none } r := by
  unfold Lane.ended
  simp only [hw]

theorem Lane.begin_state (l : Lane) (r : LaneRecord) : (l.begin r).state = l.state := rfl

theorem capsSentEvent_sent (hs : (s.lane h).sent = some .capsQuery) : capsSentEvent h s = s.setLane h
    (if (s.lane h).ended.state = .negotiating ∧ (s.lane h).waiting.isSome = false then { (s.lane h).ended with timer := some 0 }
      else (s.lane h).ended) := by
  unfold capsSentEvent
  rw [hs]
  rfl

theorem capsSentEvent_void (hs : (s.lane h).sent ≠ some .capsQuery) : capsSentEvent h s = s := by
  unfold capsSentEvent
  split
  · next e => exact absurd e hs
  all_goals rfl

theorem trainSentEvent_sent {k : Nat} (hs : (s.lane h).sent = some (.train k)) : trainSentEvent h s = s.setLane h
    (if (s.lane h).ended.state = .training ∧ (s.lane h).waiting.isSome = false then { (s.lane h).ended with timer := some 0 }
      else (s.lane h).ended) := by
  unfold trainSentEvent
  rw [hs]
  rfl

theorem trainSentEvent_void (hs : ∀ k, (s.lane h).sent ≠ some (.train k)) : trainSentEvent h s = s := by
  unfold trainSentEvent
  split
  · next k e => exact absurd e (hs k)
  all_goals rfl

theorem Lane.negotiationDue_iff :
    l.negotiationDue = true ↔ l.state = .negotiating ∧ ∃ e, l.timer = some e ∧ 50000 ≤ e := by
  unfold Lane.negotiationDue
  rw [Bool.and_eq_true, beq_iff_eq]
  refine and_congr Iff.rfl ?_
  cases l.timer with
  | none => simp
  | some e => exact decide_eq_true_iff.trans (by simp [Config.negotiationTicks])

theorem Lane.echoDue_iff : l.echoDue = true ↔ l.state = .training ∧ ∃ e, l.timer = some e ∧ 5000 ≤ e := by
  unfold Lane.echoDue
  rw [Bool.and_eq_true, beq_iff_eq]
  refine and_congr Iff.rfl ?_
  cases l.timer with
  | none => simp
  | some e => exact decide_eq_true_iff.trans (by simp [Config.echoTicks])

theorem failDown_eq (h : Head) (r : LaneReason) (s : State) :
    failDown h r s = submit (.laneState h .down none r) (s.setLane h (s.lane h).gaveUp) := by
  rw [failDown, changeLane, laneNotice_setLane]
  rfl

/-- The lane after a caps query or a train record, in or out of the state whose timer its end starts. -/
theorem Lane.ended_timed {st : LaneState} (hw : l.waiting = none) :
    (if l.ended.state = st ∧ l.waiting.isSome = false then { l.ended with timer := some 0 } else l.ended) =
      { l with tx := none, waiting := none, timer := if l.state = st then some 0 else l.timer } := by
  rw [Lane.ended_idle hw, hw]
  by_cases hs : l.state = st <;> simp [hs]

theorem Lane.ended_untimed {st : LaneState} {r : LaneRecord} (hw : l.waiting = some r) :
    (if l.ended.state = st ∧ l.waiting.isSome = false then { l.ended with timer := some 0 } else l.ended) =
      Lane.begin { l with tx := none, waiting := none } r := by
  rw [← Lane.ended_waiting hw, hw]
  simp

/-- Settles O47. -/
theorem laneOwnTimes : Obligations.LaneOwnTimes := by
  refine ⟨transmissionTicks_least, fun s h => ?_, fun s h => ?_⟩
  · intro l m
    refine ⟨fun hx => congrArg _ (capsSentEvent_void fun e => ?_), fun hx => congrArg _ (trainSentEvent_void fun k e => ?_),
      fun x hx h0 => ⟨fun hr => ?_, fun k hr => ?_⟩⟩
    · obtain ⟨x, h1, h2, h3⟩ := Lane.sent_eq_some.1 e
      exact (hx x h1).elim (fun h => h.ne' h2) fun h => h h3
    · obtain ⟨x, h1, h2, h3⟩ := Lane.sent_eq_some.1 e
      exact (hx x h1).elim (fun h => h.ne' h2) fun h => h k h3
    · have hs : l.sent = some .capsQuery := Lane.sent_eq_some.2 ⟨x, hx, h0, hr⟩
      exact ⟨fun hw => congrArg _ ((capsSentEvent_sent hs).trans (congrArg _ (Lane.ended_timed hw))),
        fun w hw => congrArg _ ((capsSentEvent_sent hs).trans (congrArg _ (Lane.ended_untimed hw)))⟩
    · have hs : l.sent = some (.train k) := Lane.sent_eq_some.2 ⟨x, hx, h0, hr⟩
      exact ⟨fun hw => congrArg _ ((trainSentEvent_sent hs).trans (congrArg _ (Lane.ended_timed hw))),
        fun w hw => congrArg _ ((trainSentEvent_sent hs).trans (congrArg _ (Lane.ended_untimed hw)))⟩
  · intro l
    refine ⟨fun e hs he hd => congrArg _ ((if_pos (Lane.negotiationDue_iff.2 ⟨hs, e, he, hd⟩)).trans (failDown_eq _ _ _)),
      fun hv => congrArg _ (if_neg fun hd => ?_), fun e he hd => congrArg _ (if_pos (Lane.statusDue_iff.2 ⟨e, he, hd⟩)),
      fun hv => congrArg _ (if_neg fun hd => ?_), fun hf => congrArg _ (if_pos (beq_iff_eq.2 hf)),
      fun hf => congrArg _ (if_neg (mt beq_iff_eq.1 hf))⟩
    · obtain ⟨hs, e, he, hd⟩ := Lane.negotiationDue_iff.1 hd
      exact hv.elim (fun n => n hs) fun n => absurd hd (not_le.2 (n e he))
    · obtain ⟨e, he, hd⟩ := Lane.statusDue_iff.1 hd
      exact absurd hd (not_le.2 (hv e he))

/-! ## Caps records (R120) -/

theorem mem_allGrades (g : Grade) : g ∈ allGrades := by cases g <;> decide

/-- The grades a lane is asked for: those of its mask, or A where the mask names none (R120). -/
def askedGrades (part : List Grade) : List Grade := if part.isEmpty then [.a] else part

/-- The grades asked for that the board has too. -/
def sharedGrades (part board : List Grade) : List Grade :=
  allGrades.filter fun g => decide (g ∈ askedGrades part ∧ g ∈ board)

theorem gradeSetOf_eq (part board : List Grade) :
    gradeSetOf part board = if (sharedGrades part board).isEmpty then [.a] else sharedGrades part board := rfl

theorem mem_sharedGrades {part board : List Grade} {g : Grade} :
    g ∈ sharedGrades part board ↔ (g ∈ part ∨ part = [] ∧ g = .a) ∧ g ∈ board := by
  have hp : g ∈ askedGrades part ↔ g ∈ part ∨ part = [] ∧ g = .a := by
    cases part <;> simp [askedGrades]
  rw [sharedGrades, List.mem_filter, decide_eq_true_iff, hp]
  exact and_iff_right (mem_allGrades g)

theorem mem_gradeSetOf {part board : List Grade} {g : Grade} : g ∈ gradeSetOf part board ↔
    ((g ∈ part ∨ part = [] ∧ g = .a) ∧ g ∈ board) ∨ (g = .a ∧ ∀ y, ¬ ((y ∈ part ∨ part = [] ∧ y = .a) ∧ y ∈ board)) := by
  rw [gradeSetOf_eq]
  simp only [← mem_sharedGrades]
  split
  · next he => simp [List.isEmpty_iff.1 he]
  · next he =>
    exact ⟨.inl, fun e => e.resolve_right fun ⟨_, hn⟩ => he (List.isEmpty_iff.2 (List.eq_nil_iff_forall_not_mem.2 hn))⟩

/-- The grades of a set at or below a ceiling, highest first (R120). -/
def gradesBelow (set : List Grade) (ceiling : Option Grade) : List Grade :=
  allGrades.reverse.filter fun g => decide (g ∈ set) && ceiling.all fun top => decide (g.code ≤ top.code)

theorem trialOf_eq (set : List Grade) (ceiling : Option Grade) :
    trialOf set ceiling = if gradesBelow set ceiling = [] then [.a] else gradesBelow set ceiling := by
  unfold trialOf gradesBelow
  cases ceiling <;> simp only [List.isEmpty_iff] <;> rfl

theorem mem_gradesBelow {set : List Grade} {ceiling : Option Grade} {g : Grade} :
    g ∈ gradesBelow set ceiling ↔ g ∈ set ∧ ∀ top, ceiling = some top → g.code ≤ top.code := by
  rw [gradesBelow, List.mem_filter, List.mem_reverse]
  simp only [mem_allGrades, true_and, Bool.and_eq_true, decide_eq_true_eq]
  cases ceiling <;> simp

theorem mem_trialOf {set : List Grade} {ceiling : Option Grade} {g : Grade} : g ∈ trialOf set ceiling ↔
    (g ∈ set ∧ ∀ top, ceiling = some top → g.code ≤ top.code) ∨
      (g = .a ∧ ∀ y, ¬ (y ∈ set ∧ ∀ top, ceiling = some top → y.code ≤ top.code)) := by
  rw [trialOf_eq]
  simp only [← mem_gradesBelow]
  split
  · next he => simp [he]
  · next he =>
    refine ⟨.inl, fun e => e.resolve_right fun ⟨_, hn⟩ => he (List.eq_nil_iff_forall_not_mem.2 hn)⟩

theorem trialOf_descends (set : List Grade) (ceiling : Option Grade) :
    (trialOf set ceiling).Pairwise fun x y => y.code < x.code := by
  rw [trialOf_eq]
  split
  · exact List.pairwise_singleton _ _
  · exact List.Pairwise.filter _ (by decide)

/-- Settles O48. -/
theorem capsRecord : Obligations.CapsRecord := by
  intro s h d board
  have hx : exec (.capsRecord h d) s = .next (boardRecord h d s) := rfl
  refine ⟨⟨rfl, rfl, rfl⟩, fun hd => ?_, fun hd => ?_⟩
  · refine congrArg _ (show boardRecord h d s = s from ?_)
    unfold boardRecord
    rw [hd]
  · intro l part
    have hb : boardRecord h d s = if (s.lane h).state = .negotiating then takeCaps h board s else s := by
      unfold boardRecord
      rw [hd]
    rw [hx, hb]
    refine ⟨fun hs => congrArg _ (if_neg hs), fun hs => ?_⟩
    have hne := trialOf_ne (gradeSetOf l.settings.mask board) l.ceiling
    obtain ⟨g, more, htr⟩ := List.exists_cons_of_ne_nil hne
    refine ⟨g, gradeSetOf l.settings.mask board, g :: more, ?_, rfl, htr ▸ trialOf_descends _ _, fun x => mem_gradeSetOf,
      fun x => htr ▸ mem_trialOf⟩
    rw [if_pos hs, takeCaps, changeLane, laneNotice_setLane, Lane.tryGrade, send_state, Lane.send_grade]
    simp only [show (trialOf (gradeSetOf (s.lane h).settings.mask board) (s.lane h).ceiling) = g :: more from htr,
      List.head?_cons]
    rfl

end Sys2Proof.Machine
end

section
/-!
PROOFS. The statements about the sidebands of a lane and about the echoes that train it.
-/

namespace Sys2Proof.Machine

variable {s t : State} {h : Head} {c : Cursor} {v : JobView} {px : List Dot}

/-! ## Sidebands (R126, R127, R128) -/

theorem newHoldLevel_same {x : Bool} (hx : (s.lane h).hold.seen = x) : newHoldLevel h x s = s := if_pos hx.symm
theorem newFaultLevel_same {x : Bool} (hx : (s.lane h).fault.seen = x) : newFaultLevel h x s = s := if_pos hx.symm

theorem newHoldLevel_active (hx : (s.lane h).hold.seen = false) :
    newHoldLevel h true s = s.setLane h { s.lane h with hold := (s.lane h).hold.take true } := by
  rw [newHoldLevel, if_neg (by simp [hx])]
  rfl

theorem newHoldLevel_inactive (hx : (s.lane h).hold.seen = true) : newHoldLevel h false s =
    if (s.lane h).state = .up then tryPreload h (s.setLane h { s.lane h with hold := (s.lane h).hold.take false })
    else s.setLane h { s.lane h with hold := (s.lane h).hold.take false } := by
  rw [newHoldLevel, if_neg (by simp [hx]), holdLevel, changeLane]
  simp only [State.setLane_lane, Bool.not_false, Bool.true_and, beq_iff_eq]

theorem newFaultLevel_inactive (hx : (s.lane h).fault.seen = true) :
    newFaultLevel h false s = s.setLane h { s.lane h with fault := (s.lane h).fault.take false } := by
  rw [newFaultLevel, if_neg (by simp [hx])]
  rfl

theorem newFaultLevel_active (hx : (s.lane h).fault.seen = false) : newFaultLevel h true s =
    if (s.lane h).settings.latch = true ∧ (s.lane h).state = .up then
      enterFaulted h (s.setLane h { s.lane h with fault := (s.lane h).fault.take true })
    else s.setLane h { s.lane h with fault := (s.lane h).fault.take true } := by
  rw [newFaultLevel, if_neg (by simp [hx]), faultLevel, changeLane]
  simp only [State.setLane_lane, Bool.true_and, Bool.and_eq_true, beq_iff_eq]

/-- Settles O52. -/
theorem sidebands : Obligations.Sidebands := by
  intro s h l hold fault
  refine ⟨fun hs => congrArg _ (newHoldLevel_same hs),
    fun hs => ⟨congrArg _ (newHoldLevel_same hs), congrArg _ (newHoldLevel_active hs)⟩, fun hs => ⟨fun hn => ?_, ?_⟩,
    fun hf => ⟨congrArg _ (newFaultLevel_same hf), congrArg _ (newFaultLevel_inactive hf)⟩,
    fun hf => ⟨congrArg _ (newFaultLevel_same hf), fun hn => ?_, fun hl hu hd => ?_⟩⟩
  · refine congrArg _ ((newHoldLevel_inactive hs).trans ?_)
    split
    · next hu =>
      exact tryPreload_nothing (NothingToLoad_congr (s := s) (State.setLane_head _ _ _ _) rfl (fun _ => rfl) rfl
        (hn.resolve_left fun n => n hu))
    · rfl
  · intro c v px hu hw hc hd
    have hlane : (hold false).lane h = { l with hold := l.hold.take false } := State.setLane_lane _ _ _
    have hhead : (hold false).head h = s.head h := State.setLane_head _ _ _ _
    refine ⟨(hold false).preloading h (s.head h) c v px, congrArg Host.Outcome.next ((newHoldLevel_inactive hs).trans
      ((if_pos hu).trans ?_)), preloads_of_preloading hc hlane rfl rfl⟩
    refine (tryPreload_starts (s := hold false) (by rw [hhead]; exact hw) (by rw [hhead]; exact hc) ?_ hd).trans
      (congrArg (fun y => (hold false).preloading h y c v px) hhead)
    rw [hlane]
    exact takesPreload_iff.2 ⟨hu, rfl⟩
  · refine congrArg _ ((newFaultLevel_active hf).trans (if_neg fun e => ?_))
    exact hn.elim (fun n => absurd (e.1.symm.trans n) (by decide)) fun n => n e.2
  · have hlane : (fault true).lane h = { l with fault := l.fault.take true } := State.setLane_lane _ _ _
    have hhead : (fault true).head h = s.head h := State.setLane_head _ _ _ _
    refine congrArg _ ((newFaultLevel_active hf).trans ((if_pos ⟨hl, hu⟩).trans ((enterFaulted_eq (s := fault true)
      (hd.congr hhead rfl (fun _ => rfl) rfl)).trans ?_)))
    rw [hlane, hhead, State.setLane_setLane]

/-! ## Echoes (R121, R122, R123) -/

theorem echoes_trainBody {l : Lane} {k : Nat} (hk : l.lastTrain = some k) : l.echoes (trainBody k) = true := by
  unfold Lane.echoes
  rw [hk]
  exact beq_self_eq_true _

theorem echoes_other {l : Lane} {b : List Byte} (hb : ∀ k, l.lastTrain = some k → b ≠ trainBody k) : l.echoes b = false := by
  unfold Lane.echoes
  cases hk : l.lastTrain with
  | none => rfl
  | some k => exact beq_eq_false_iff_ne.2 (hb k hk)

theorem boardRecord_echo {d : LaneDelivery} {b : List Byte} (hd : LaneDelivery.read d = .echo b) :
    boardRecord h d s = takeEcho h b s := by
  unfold boardRecord
  rw [hd]

theorem boardRecord_damagedEcho {d : LaneDelivery} (hd : LaneDelivery.read d = .damagedEcho) :
    boardRecord h d s = if (s.lane h).state = .training then gradeFails h s else s := by
  unfold boardRecord
  rw [hd]

theorem takeEcho_untrained {b : List Byte} (hs : (s.lane h).state ≠ .training) : takeEcho h b s = s := if_pos hs

theorem takeEcho_matches {b : List Byte} (hs : (s.lane h).state = .training) (hb : (s.lane h).echoes b = true) :
    takeEcho h b s = echoMatches h s := (if_neg (not_not.2 hs)).trans (if_pos hb)

theorem takeEcho_fails {b : List Byte} (hs : (s.lane h).state = .training) (hb : (s.lane h).echoes b = false) :
    takeEcho h b s = gradeFails h s := (if_neg (not_not.2 hs)).trans (if_neg (by rw [hb]; decide))

theorem echoMatches_next {n : Nat} (hp : (s.lane h).progress = some n) (hn : n < 3) : echoMatches h s =
    s.setLane h (Lane.send { s.lane h with progress := some (n + 1), timer := none } (.train (n + 1))) := by
  unfold echoMatches
  rw [hp]
  exact if_pos hn

theorem echoMatches_last (hp : (s.lane h).progress = some 3) : echoMatches h s = enterUp h .trained s := by
  unfold echoMatches
  rw [hp]
  exact if_neg (by decide)

theorem gradeFails_last {g : Grade} (ht : (s.lane h).trial = some [g]) : gradeFails h s =
    submit (.laneState h .down none .trainFailed) (s.setLane h (s.lane h).gaveUp) := by
  unfold gradeFails
  rw [ht]
  exact failDown_eq _ _ _

theorem gradeFails_next {g g' : Grade} {more : List Grade} (ht : (s.lane h).trial = some (g :: g' :: more)) :
    gradeFails h s = s.setLane h (Lane.send { s.lane h with
      trial := some (g' :: more), grade := some g', progress := some 0, timer := none } (.train 0)) := by
  unfold gradeFails
  rw [ht]
  rfl

theorem Lane.latched_send (l : Lane) (fr : FireRecord) : (l.send (.fire fr)).latched = l.latched := by
  cases ht : l.tx with
  | none => rw [Lane.send_free ht]; rfl
  | some x => rw [Lane.send_waits ht]; rfl

/-- A latched fault over a head that has just started its preload: the transmission is cut off and the head is VOID. -/
theorem enterFaulted_preloading (hc : (s.head h).cursor = some c) : enterFaulted h (s.preloading h (s.head h) c v px) =
    submit (.laneState h .faulted (s.lane h).grade .fault)
      (((takeLine h v.plane (v.line c.index) true s).setHead h { s.head h with state := .void, inFlight := none }).setLane h
        (s.lane h).latched) := by
  have hd : (s.preloading h (s.head h) c v px).DueAhead h := fun e => by
    rw [preloading_head] at e
    exact absurd e (by simp)
  rw [enterFaulted_eq hd, preloading_lane, Lane.send_grade, Lane.latched_send, preloading_head, State.preloading]
  refine congrArg _ ?_
  generalize takeLine h v.plane (v.line c.index) true s = t
  show (((t.setLane h _).setLane h _).setHead h _).setHead h _ = _
  rw [State.setLane_setLane, State.setHead_setHead]
  simp only [HeadRec.leftUp]
  rw [← hc]
  rfl

/-- Settles O49. -/
theorem echoRecords : Obligations.EchoRecords := by
  intro s h d l
  refine ⟨fun hs hd => ?_, fun hv => congrArg Host.Outcome.next (if_neg fun e => ?_), fun hs => ⟨?_, ?_⟩⟩
  · have hb : boardRecord h d s = s := by
      rcases hd with ⟨b, hd⟩ | hd
      · exact (boardRecord_echo hd).trans (takeEcho_untrained hs)
      · exact (boardRecord_damagedEcho hd).trans (if_neg hs)
    exact ⟨congrArg Host.Outcome.next hb, congrArg Host.Outcome.next hb⟩
  · obtain ⟨hs, e, he, hd⟩ := Lane.echoDue_iff.1 e
    exact hv.elim (fun n => n hs) fun n => absurd hd (not_le.2 (n e he))
  · intro k n hk hp hd
    have hb : boardRecord h d s = echoMatches h s :=
      (boardRecord_echo hd).trans (takeEcho_matches hs (echoes_trainBody hk))
    refine ⟨fun hn => congrArg Host.Outcome.next (hb.trans (echoMatches_next hp hn)), ?_⟩
    rintro rfl up faulted
    have hx : exec (.echoRecord h d) s = .next (enterUp h .trained s) :=
      congrArg Host.Outcome.next (hb.trans (echoMatches_last hp))
    rw [hx]
    refine ⟨fun hn => ⟨fun hg => congrArg _ ?_, fun hg hdue => congrArg _ ?_⟩,
      fun c v px hh hw hc hd => ?_⟩
    · exact (enterUp_nothing hn _).trans (if_neg (Bool.eq_false_iff.1 hg))
    · refine (enterUp_nothing hn _).trans ((if_pos hg).trans ((enterFaulted_eq (hdue.congr (raised_head s h _)
        (by rw [raised_jobs]) (fun i => by rw [raised_banks]) (raised_ptu s h _))).trans ?_))
      rw [raised_lane, raised_head]
      rfl
    intro rendered
    refine ⟨fun hg => congrArg _ ?_, fun hg => congrArg _ ?_⟩
    · refine (enterUp_preloads hh hw hc hd _).trans ((if_neg (Bool.eq_false_iff.1 hg)).trans ?_)
      rw [State.preloading, raised_lane]
      show _ = (rendered.setLane h _).setHead h ({ s.head h with cursor := (s.head h).cursor, state := _, inFlight := _ } : HeadRec)
      rw [hc]
      rfl
    · refine (enterUp_preloads hh hw hc hd _).trans ((if_pos hg).trans ?_)
      have hhead := raised_head s h .trained
      rw [← hhead, enterFaulted_preloading (hhead ▸ hc), raised_lane, hhead]
      rfl
  · intro g trial row ht hrow
    have hx : exec row s = .next (gradeFails h s) := by
      rcases hrow with ⟨rfl, e, he, hd⟩ | ⟨hr, hd⟩
      · exact congrArg Host.Outcome.next (if_pos (Lane.echoDue_iff.2 ⟨hs, e, he, hd⟩))
      · have hb : boardRecord h d s = gradeFails h s := by
          rcases hd with hd | ⟨b, hd, hne⟩
          · exact (boardRecord_damagedEcho hd).trans (if_pos hs)
          · exact (boardRecord_echo hd).trans (takeEcho_fails hs (echoes_other hne))
        rcases hr with rfl | rfl
        · exact congrArg Host.Outcome.next hb
        · exact congrArg Host.Outcome.next hb
    rw [hx]
    exact ⟨fun h0 => congrArg _ (gradeFails_last (h0 ▸ ht)), fun g' more hm => hm ▸ congrArg _ (gradeFails_next (hm ▸ ht))⟩

end Sys2Proof.Machine
end

section
/-!
PROOFS. The statements about rendering: the range of the nozzle values and the effect of substitution.
-/

namespace Sys2Proof.Machine

/-! ## The range of the values (R102, R107, R109) -/

section
variable {t : HeadTables} {v : Nat → Nat} {n : Nat}

theorem mappedValue_le (drops : Vector Dot 4) (px : List Dot) (c : Nat) : mappedValue drops px c ≤ 3 := by
  unfold mappedValue
  split
  · exact Nat.le_of_lt_succ (drops.get _).isLt
  · exact Nat.zero_le _

theorem baseOutput_le (hv : ∀ c, v c ≤ 3) (n : Nat) (e : NozzleEntry) : baseOutput v n e ≤ 3 := by
  cases e with
  | off => exact Nat.zero_le _
  | pixel c => exact hv c
  | stitchLow c s => rw [baseOutput]; split <;> simp [hv]
  | stitchHigh c s => rw [baseOutput]; split <;> simp [hv]
  | dead c k b => exact Nat.zero_le _

theorem substitute_le {out : List Nat} (ho : ∀ x ∈ out, x ≤ 3) (j : Nat) (e : NozzleEntry) :
    ∀ x ∈ substitute t v j e out, x ≤ 3 := by
  cases e with
  | dead c k b =>
    rw [substitute]
    split
    · intro x hx
      rcases List.mem_or_eq_of_mem_set hx with hx | rfl
      · exact ho x hx
      · refine max_le ?_ (min_le_left _ _)
        by_cases hk : k < out.length
        · rw [List.getD_eq_getElem _ _ hk]
          exact ho _ (List.getElem_mem hk)
        · rw [List.getD_eq_default _ _ (not_lt.1 hk)]
          exact Nat.zero_le _
    · exact ho
  | off | pixel | stitchLow | stitchHigh => exact ho

theorem foldl_substitute_le (es : Sparse NozzleEntry) {out : List Nat} (ho : ∀ x ∈ out, x ≤ 3) :
    ∀ x ∈ es.foldl (fun out e => substitute t v e.1 e.2 out) out, x ≤ 3 := by
  induction es generalizing out with
  | nil => exact ho
  | cons e es ih => exact ih (substitute_le ho _ _)

theorem outputs_le (hv : ∀ c, v c ≤ 3) : ∀ x ∈ outputs t v n, x ≤ 3 :=
  foldl_substitute_le _ fun x hx => by
    obtain ⟨j, -, rfl⟩ := List.mem_map.1 hx
    exact baseOutput_le hv n _

theorem nozzleValues_length (drops : Vector Dot 4) (px : List Dot) : (nozzleValues t drops px n).length = t.nozzles := by
  unfold nozzleValues
  dsimp only
  split <;> simp

theorem nozzleValues_le (drops : Vector Dot 4) (px : List Dot) : ∀ x ∈ nozzleValues t drops px n, x ≤ 3 := by
  intro x hx
  refine outputs_le (mappedValue_le drops px) (t := t) (n := n) x ?_
  unfold nozzleValues at hx
  dsimp only at hx
  split at hx
  · exact List.mem_reverse.1 hx
  · exact hx

end

theorem waveformOf_some {bands : List Band} {b : Band} {index : Option Nat}
    (hb : bands[min (index.getD 0) (bands.length - 1)]? = some b) : waveformOf bands index = b.waveform := by
  unfold waveformOf
  rw [hb]

/-- Settles O40. -/
theorem nozzleValuesInRange : Obligations.NozzleValuesInRange := by
  refine ⟨fun h v n px band => ⟨rfl, nozzleValues_length _ _, nozzleValues_le _ _, rfl, rfl, fun b => ⟨?_, ?_⟩⟩,
    fun v n c s => ?_⟩
  · rintro rfl hb
    exact waveformOf_some ((congrArg _ (Nat.zero_min _)).trans hb)
  · rintro i rfl hb
    refine waveformOf_some ?_
    rcases hb with hb | ⟨hi, hb⟩
    · obtain ⟨hi, -⟩ := List.getElem?_eq_some_iff.1 hb
      rw [Option.getD_some, min_eq_left (Nat.le_sub_one_of_lt hi)]
      exact hb
    · rw [Option.getD_some, min_eq_right ((Nat.sub_le _ _).trans hi), ← List.getLast?_eq_getElem?]
      exact hb
  · rcases lt_or_ge (stitchThreshold n c) s with hs | hs
    · exact .inl ⟨if_pos hs, if_neg (not_le.2 hs)⟩
    · exact .inr ⟨if_neg (not_lt.2 hs), if_pos hs⟩

/-! ## Substitution (R105, R106) -/

section
variable {t : HeadTables} {v : Nat → Nat} {k : Nat}

/-- The values to which the entries of a list raise the output of nozzle k. -/
def Raises (t : HeadTables) (v : Nat → Nat) (k : Nat) (es : Sparse NozzleEntry) (y : Nat) : Prop :=
  ∃ j c b, (j, .dead c k b) ∈ es ∧ t.substituteOk j k = true ∧ 1 ≤ v c ∧ y = min 3 (v c + if b then 1 else 0)

/-- One entry's substitution at nozzle k: the greater of what stood there and what the entry raises it to. -/
theorem substitute_at {out : List Nat} {x : Nat} (hx : out[k]? = some x) (e : Nat × NozzleEntry) :
    ∃ x', (substitute t v e.1 e.2 out)[k]? = some x' ∧ x ≤ x' ∧ (∀ y, Raises t v k [e] y → y ≤ x') ∧
      (x' = x ∨ Raises t v k [e] x') := by
  have keeps (hn : ∀ y, ¬ Raises t v k [e] y) (hs : (substitute t v e.1 e.2 out)[k]? = out[k]?) :
      ∃ x', (substitute t v e.1 e.2 out)[k]? = some x' ∧ x ≤ x' ∧ (∀ y, Raises t v k [e] y → y ≤ x') ∧
        (x' = x ∨ Raises t v k [e] x') :=
    ⟨x, hs.trans hx, le_rfl, fun y hy => absurd hy (hn y), .inl rfl⟩
  obtain ⟨j, e⟩ := e
  cases e with
  | off | pixel | stitchLow | stitchHigh => exact keeps (by rintro y ⟨j, c, b, hm, -⟩; simp at hm) rfl
  | dead c k' b =>
    by_cases hok : 1 ≤ v c ∧ t.substituteOk j k' = true
    · have hs : substitute t v j (.dead c k' b) out = out.set k' (max (out.getD k' 0) (min 3 (v c + if b then 1 else 0))) :=
        if_pos hok
      by_cases hk : k' = k
      · subst hk
        have hlen : k' < out.length := (List.getElem?_eq_some_iff.1 hx).1
        have hr : Raises t v k' [(j, .dead c k' b)] (min 3 (v c + if b then 1 else 0)) :=
          ⟨j, c, b, List.mem_singleton.2 rfl, hok.2, hok.1, rfl⟩
        refine ⟨max x (min 3 (v c + if b then 1 else 0)), ?_, le_max_left _ _, ?_, ?_⟩
        · rw [hs, List.getElem?_set_self hlen, List.getD_eq_getElem?_getD, hx]
          rfl
        · rintro y ⟨j', c', b', hm, -, -, rfl⟩
          obtain ⟨-, rfl, rfl⟩ : j' = j ∧ c' = c ∧ b' = b := by simpa using hm
          exact le_max_right _ _
        · rcases max_choice x (min 3 (v c + if b then 1 else 0)) with he | he
          · exact .inl he
          · exact .inr (he.symm ▸ hr)
      · refine keeps ?_ (by rw [hs, List.getElem?_set_ne hk])
        rintro y ⟨j', c', b', hm, -⟩
        exact hk (by simp at hm; exact hm.2.2.1.symm)
    · refine keeps ?_ (congrArg (·[k]?) (if_neg hok))
      rintro y ⟨j', c', b', hm, h1, h2, -⟩
      obtain ⟨rfl, rfl, rfl, rfl⟩ : j' = j ∧ c' = c ∧ k = k' ∧ b' = b := by simpa using hm
      exact hok ⟨h2, h1⟩

theorem raises_cons {e : Nat × NozzleEntry} {es : Sparse NozzleEntry} {y : Nat} :
    Raises t v k (e :: es) y ↔ Raises t v k [e] y ∨ Raises t v k es y := by
  simp only [Raises, List.mem_cons, List.not_mem_nil, or_false]
  constructor
  · rintro ⟨j, c, b, hm | hm, hr⟩
    · exact .inl ⟨j, c, b, hm, hr⟩
    · exact .inr ⟨j, c, b, hm, hr⟩
  · rintro (⟨j, c, b, hm, hr⟩ | ⟨j, c, b, hm, hr⟩)
    · exact ⟨j, c, b, .inl hm, hr⟩
    · exact ⟨j, c, b, .inr hm, hr⟩

/-- The substitutions of a list of entries at nozzle k: the greatest of what stood there and of all raises. -/
theorem foldl_substitute_at (es : Sparse NozzleEntry) {out : List Nat} {x : Nat} (hx : out[k]? = some x) :
    ∃ x', (es.foldl (fun out e => substitute t v e.1 e.2 out) out)[k]? = some x' ∧ x ≤ x' ∧
      (∀ y, Raises t v k es y → y ≤ x') ∧ (x' = x ∨ Raises t v k es x') := by
  induction es generalizing out x with
  | nil => exact ⟨x, hx, le_rfl, fun y ⟨_, _, _, hm, _⟩ => absurd hm List.not_mem_nil, .inl rfl⟩
  | cons e es ih =>
    obtain ⟨x₁, h1, hle1, hall1, hex1⟩ := substitute_at (t := t) (v := v) hx e
    obtain ⟨x₂, h2, hle2, hall2, hex2⟩ := ih h1
    refine ⟨x₂, h2, hle1.trans hle2, fun y hy => ?_, ?_⟩
    · rcases raises_cons.1 hy with hy | hy
      · exact (hall1 y hy).trans hle2
      · exact hall2 y hy
    · rcases hex2 with rfl | hr
      · exact hex1.imp id fun hr => raises_cons.2 (.inl hr)
      · exact .inr (raises_cons.2 (.inr hr))

/-- The DEAD entries in use are those the map reads at the nozzles in use. -/
theorem mem_inUse_iff {j : Nat} {e : NozzleEntry} (ht : sparseWf .off t.map) (he : e ≠ .off) :
    (j, e) ∈ t.inUse ↔ j < t.nozzles ∧ t.entry j = e := by
  rw [HeadTables.inUse, List.mem_filter, decide_eq_true_iff, and_comm, HeadTables.entry]
  refine and_congr_right fun _ => ⟨fun hm => sparseRead_of_mem ht hm rfl, fun hr => ?_⟩
  rcases sparseRead_mem .off t.map j with h0 | hm
  · exact absurd (hr.symm.trans h0) he
  · exact hr ▸ hm

theorem substituteOk_iff {j : Nat} (hk : k < t.nozzles) :
    t.substituteOk j k = true ↔ j ≠ k ∧ (t.entry k).canSubstitute = true := by
  rw [HeadTables.substituteOk, Bool.and_eq_true, decide_eq_true_iff]
  exact and_congr_left fun _ => ⟨fun e => e.2.symm, fun e => ⟨hk, e.symm⟩⟩

end

/-- Settles O43. -/
theorem substitutionRaisesToMaximum : Obligations.SubstitutionRaisesToMaximum := by
  intro t v n k ht hk hv raised
  have hr : ∀ y, Raises t v k t.inUse y ↔ raised y := fun y => by
    refine exists_congr fun j => exists_congr fun c => exists_congr fun b => ?_
    rw [mem_inUse_iff ht.map.1 (by simp), substituteOk_iff hk]
    tauto
  have h0 : ((List.range t.nozzles).map fun j => baseOutput v n (t.entry j))[k]? = some (baseOutput v n (t.entry k)) := by
    rw [List.getElem?_map, List.getElem?_range hk]
    rfl
  obtain ⟨x, hx, hle, hall, hex⟩ := foldl_substitute_at (t := t) (v := v) t.inUse h0
  refine ⟨x, hx, hle, fun y hy => hall y ((hr y).2 hy), hex.imp id (hr x).1, ?_⟩
  rintro ⟨c, k', b, he⟩
  rcases hex with hx0 | hx0
  · rw [hx0, he]
    rfl
  · obtain ⟨j, c', b', -, -, -, -, hs, -⟩ := (hr x).1 hx0
    rw [he] at hs
    cases hs

end Sys2Proof.Machine
end

section
/-!
PROOFS. The rules of the Line Store: the fill level and the slots after a write, after the base line has advanced, and after a
change of one plane; and the statements on takes, stream parameters and stream resets.
-/

namespace Sys2Proof.Machine

/-! ## Reading beside a change -/

section
variable {α : Type} {d : α}

theorem sparseRead_erase_ne (m : Sparse α) {k j : Nat} (hj : j ≠ k) :
    sparseRead d (sparseErase m k) j = sparseRead d m j := by
  induction m with
  | nil => rfl
  | cons e m ih =>
    obtain ⟨a, x⟩ := e
    by_cases ha : a = k
    · rw [show sparseErase ((a, x) :: m) k = m from if_pos ha]
      exact (if_neg fun e => hj (e.symm.trans ha)).symm
    · rw [show sparseErase ((a, x) :: m) k = (a, x) :: sparseErase m k from if_neg ha]
      simp only [sparseRead, ih]

theorem sparseRead_write_ne [DecidableEq α] (m : Sparse α) {k j : Nat} (hj : j ≠ k) (v : α) :
    sparseRead d (sparseWrite d m k v) j = sparseRead d m j := by
  unfold sparseWrite
  split
  · exact sparseRead_erase_ne m hj
  · rw [sparseRead_insert, if_neg hj]

end

/-! ## Counting the entries of sparse contents -/

section
variable {α : Type} [DecidableEq α] {d : α} (P : α → Bool)

omit [DecidableEq α] in
theorem count_sparseErase (hd : P d = false) (m : Sparse α) (k : Nat) :
    (sparseErase m k).countP (fun e => P e.2) + (if P (sparseRead d m k) then 1 else 0) = m.countP fun e => P e.2 := by
  induction m with
  | nil => simp [sparseErase, sparseRead, hd]
  | cons e m ih =>
    obtain ⟨a, x⟩ := e
    by_cases ha : a = k
    · rw [show sparseErase ((a, x) :: m) k = m from if_pos ha, show sparseRead d ((a, x) :: m) k = x from if_pos ha,
        List.countP_cons]
    · rw [show sparseErase ((a, x) :: m) k = (a, x) :: sparseErase m k from if_neg ha,
        show sparseRead d ((a, x) :: m) k = sparseRead d m k from if_neg ha, List.countP_cons, List.countP_cons, ← ih]
      omega

theorem count_sparseInsert (hd : P d = false) {m : Sparse α} (hm : sparseWf d m) (k : Nat) (v : α) :
    (sparseInsert m k v).countP (fun e => P e.2) + (if P (sparseRead d m k) then 1 else 0) =
      m.countP (fun e => P e.2) + if P v then 1 else 0 := by
  induction m with
  | nil => simp [sparseInsert, sparseRead, hd]
  | cons e m ih =>
    obtain ⟨a, x⟩ := e
    obtain ⟨hlt, -, hm⟩ := sparseWf_cons.1 hm
    by_cases ha : a = k
    · rw [show sparseInsert ((a, x) :: m) k v = (k, v) :: m from if_pos ha,
        show sparseRead d ((a, x) :: m) k = x from if_pos ha, List.countP_cons, List.countP_cons]
      exact Nat.add_right_comm _ _ _
    · rw [show sparseRead d ((a, x) :: m) k = sparseRead d m k from if_neg ha]
      by_cases hk : k < a
      · rw [show sparseInsert ((a, x) :: m) k v = (k, v) :: (a, x) :: m from (if_neg ha).trans (if_pos hk), List.countP_cons,
          sparseRead_of_lt d m k fun e he => hk.trans (hlt e he), hd]
        rfl
      · rw [show sparseInsert ((a, x) :: m) k v = (a, x) :: sparseInsert m k v from (if_neg ha).trans (if_neg hk),
          List.countP_cons, List.countP_cons]
        have := ih hm
        omega

theorem count_sparseWrite (hd : P d = false) {m : Sparse α} (hm : sparseWf d m) (k : Nat) (v : α) :
    (sparseWrite d m k v).countP (fun e => P e.2) + (if P (sparseRead d m k) then 1 else 0) =
      m.countP (fun e => P e.2) + if P v then 1 else 0 := by
  unfold sparseWrite
  by_cases hv : v = d
  · rw [if_pos hv, count_sparseErase P hd, hv, hd]
    rfl
  · rw [if_neg hv, count_sparseInsert P hd hm]

end

/-! ## One slot written (R54, R55) -/

section
variable {next : Nat} {x : PlaneStore}

theorem PlaneStore.fill_eq (x : PlaneStore) : x.fill = x.slots.countP fun e => e.2.data.isSome :=
  List.countP_eq_length_filter.symm

theorem PlaneStore.slot_setSlot (hx : sparseWf Slot.fresh x.slots) (k j : Nat) (v : Slot) :
    (x.setSlot k v).slot j = if j = k then v else x.slot j := sparseRead_write _ _ _ _ hx

theorem PlaneStore.slot_setSlot_ne (x : PlaneStore) {k j : Nat} (hj : j ≠ k) (v : Slot) :
    (x.setSlot k v).slot j = x.slot j := sparseRead_write_ne _ hj v

theorem PlaneStore.fill_setSlot (hx : sparseWf Slot.fresh x.slots) (k : Nat) (v : Slot) :
    (x.setSlot k v).fill + (if (x.slot k).data.isSome then 1 else 0) = x.fill + if v.data.isSome then 1 else 0 := by
  rw [PlaneStore.fill_eq, PlaneStore.fill_eq]
  exact count_sparseWrite (fun v : Slot => v.data.isSome) rfl hx k v

theorem Slot.data_of_spent {v : Slot} (hv : v.state = .spent) : v.data = none := by
  unfold Slot.data
  rw [hv]

/-! ## The watermark rule moves the paused flag alone -/

theorem PlaneStore.watermark_eq (before : Nat) (x : PlaneStore) :
    x.watermark before = { x with paused := (x.watermark before).paused } := by
  unfold PlaneStore.watermark
  split
  · rfl
  · split
    · rfl
    · split <;> rfl

theorem PlaneStore.watermark_slot (before : Nat) (x : PlaneStore) (n : Nat) : (x.watermark before).slot n = x.slot n := by
  rw [PlaneStore.watermark_eq]
  rfl

/-! ## The base line advances (R65) -/

theorem baseStep_slot (q : JobQueue) (p : Plane) (x : PlaneStore) {n : Nat} (hn : x.base < n) (hn' : n < x.base + x.depth) :
    (baseStep q p x).slot n = x.slot n :=
  (PlaneStore.slot_setSlot_ne _ hn'.ne _).trans (sparseRead_erase_ne _ hn.ne')

theorem advanceBase_up (q : JobQueue) (p : Plane) (k : Nat) (x : PlaneStore) : x.base ≤ (advanceBase q p k x).base := by
  induction k generalizing x with
  | zero => exact le_rfl
  | succ k ih =>
    unfold advanceBase
    split
    · exact (Nat.le_succ _).trans (ih (baseStep q p x))
    · exact le_rfl

theorem advanceBase_kept (q : JobQueue) (p : Plane) (k : Nat) (x : PlaneStore) : advanceBase q p k x =
    { x with base := (advanceBase q p k x).base, slots := (advanceBase q p k x).slots } := by
  induction k generalizing x with
  | zero => rfl
  | succ k ih =>
    unfold advanceBase
    split
    · exact ih (baseStep q p x)
    · rfl

/-- The base line passes SPENT lines alone, and keeps the slots in front of it. -/
theorem advanceBase_slot (q : JobQueue) (p : Plane) (k : Nat) (x : PlaneStore) {n : Nat} (h1 : x.base ≤ n)
    (h2 : n < x.base + x.depth) : n < (advanceBase q p k x).base ∧ (x.slot n).state = .spent ∨
      (advanceBase q p k x).base ≤ n ∧ (advanceBase q p k x).slot n = x.slot n := by
  induction k generalizing x with
  | zero => exact .inr ⟨h1, rfl⟩
  | succ k ih =>
    unfold advanceBase
    split
    · next hc =>
      have hb : (baseStep q p x).base = x.base + 1 := rfl
      have hd : (baseStep q p x).depth = x.depth := rfl
      rcases Nat.eq_or_lt_of_le h1 with rfl | h1
      · exact .inl ⟨advanceBase_up q p k (baseStep q p x), hc.1⟩
      · have hn := ih (baseStep q p x) (by rw [hb]; exact h1) (by rw [hb, hd]; omega)
        rwa [baseStep_slot q p x h1 h2] at hn
    · exact .inr ⟨h1, rfl⟩

theorem PlaneStore.Wf.baseStep_fill (hx : x.Wf next) (q : JobQueue) (p : Plane) (hs : (x.slot x.base).state = .spent) :
    (Machine.baseStep q p x).fill = x.fill := by
  have herase : ({ x with base := x.base + 1, slots := sparseErase x.slots x.base } : PlaneStore).fill = x.fill := by
    rw [PlaneStore.fill_eq, PlaneStore.fill_eq]
    have := count_sparseErase (fun v : Slot => v.data.isSome) (d := Slot.fresh) rfl x.slots x.base
    rw [show sparseRead Slot.fresh x.slots x.base = x.slot x.base from rfl, Slot.data_of_spent hs] at this
    exact this
  have hout : x.slot (x.base + x.depth) = Slot.fresh := by
    by_contra hf
    exact absurd (hx.slot_fresh hf).2.1 (lt_irrefl _)
  have hold : ({ x with base := x.base + 1, slots := sparseErase x.slots x.base } : PlaneStore).slot (x.base + x.depth) =
      Slot.fresh := by
    refine (sparseRead_erase _ _ _ hx.canonical).trans ?_
    split
    · rfl
    · exact hout
  have hnew : (reformSlot q p x (x.base + x.depth)).data = none := by
    have hr := (reformSlot_spec q p x (x.base + x.depth)).2
    unfold Slot.data
    split
    · next hd => exact absurd hd (hr _)
    · rfl
    · rfl
  have := PlaneStore.fill_setSlot (x := { x with base := x.base + 1, slots := sparseErase x.slots x.base })
    (sparseErase_wf _ hx.canonical) (x.base + x.depth) (reformSlot q p x (x.base + x.depth))
  rw [hold, hnew, herase] at this
  exact this

theorem PlaneStore.Wf.advanceBase_fill {q : JobQueue} {p : Plane} (k : Nat) {x : PlaneStore} (hx : x.Wf (q.next.get p)) :
    (Machine.advanceBase q p k x).fill = x.fill := by
  induction k generalizing x with
  | zero => rfl
  | succ k ih =>
    unfold Machine.advanceBase
    split
    · next hc => exact (ih (hx.baseStep hc.2)).trans (hx.baseStep_fill q p hc.1)
    · rfl

/-- What the advance of the base line keeps. -/
structure Advanced (x y : PlaneStore) : Prop where
  up : x.base ≤ y.base
  kept : y = { x with base := y.base, slots := y.slots }
  fill : y.fill = x.fill
  slots : ∀ n, x.base ≤ n → n < x.base + x.depth →
    n < y.base ∧ (x.slot n).state = .spent ∨ y.base ≤ n ∧ y.slot n = x.slot n

theorem PlaneStore.Wf.advanced {q : JobQueue} {p : Plane} (k : Nat) {x : PlaneStore} (hx : x.Wf (q.next.get p)) :
    Advanced x (Machine.advanceBase q p k x) :=
  ⟨advanceBase_up q p k x, advanceBase_kept q p k x, hx.advanceBase_fill k, fun _ => advanceBase_slot q p k x⟩

/-- Where the advance may take a step, a SPENT line at the base is passed. -/
theorem advanceBase_passes {q : JobQueue} {p : Plane} {k : Nat} (hs : (x.slot x.base).state = .spent)
    (hb : x.base < q.next.get p) (hk : 0 < k) : x.base < (advanceBase q p k x).base := by
  obtain ⟨k, rfl⟩ := Nat.exists_eq_succ_of_ne_zero hk.ne'
  rw [advanceBase, if_pos ⟨hs, hb⟩]
  exact advanceBase_up q p k (baseStep q p x)

end

/-- One change of a plane, as the advance of the base line over the changed slots with the paused flag the watermark rule
gives. -/
theorem changedPlane_advanced {q : JobQueue} {p : Plane} {f : PlaneStore → PlaneStore} {x : PlaneStore}
    (hf : (f x).Wf (q.next.get p)) : Advanced ((f x).watermark x.fill) (changedPlane q p f x) :=
  (hf.watermark x.fill).advanced _

/-! ## Takes (R61, R62, R64, R65) -/

/-- The change of its plane that a take makes (R61, R62). -/
def takenLine (h : Head) (n : Nat) (r : Bool) (x : PlaneStore) : PlaneStore :=
  let y := { x with reach := put x.reach h (some n) }
  if y.inWindow n then y.setSlot n (takeSlot h r (y.slot n)) else y

theorem takeLine_eq (h : Head) (p : Plane) (n : Nat) (r : Bool) (s : State) :
    takeLine h p n r s = storeChange p (takenLine h n r) s := rfl

section
variable {next : Nat} {x : PlaneStore} {h : Head} {n : Nat} {r : Bool}

theorem PlaneStore.Wf.reach (hx : x.Wf next) (w : Vector (Option Nat) 16) : { x with reach := w : PlaneStore }.Wf next :=
  ⟨hx.canonical, hx.width, hx.depth, hx.watermarks, hx.base, hx.window, hx.pixels⟩

theorem takenLine_window (hb : x.base ≤ n) (hd : n < x.base + x.depth) :
    takenLine h n r x = { x with reach := put x.reach h (some n) : PlaneStore }.setSlot n (takeSlot h r (x.slot n)) :=
  if_pos (decide_eq_true ⟨hb, hd⟩)

theorem takenLine_reach : (takenLine h n r x).reach = put x.reach h (some n) := by
  unfold takenLine
  dsimp only
  split <;> rfl

theorem takenLine_base : (takenLine h n r x).base = x.base := by
  unfold takenLine
  dsimp only
  split <;> rfl

theorem takeSlot_takers {v : Slot} {ts : List Head} (hv : v.takers = some ts) :
    takeSlot h r v = {
      state := if ts.filter (fun i => i != h) = [] then .spent else v.state
      takers := some (ts.filter fun i => i != h), rendered := v.rendered || r } := by
  simp [takeSlot, hv]

theorem PlaneStore.Wf.takenLine (hx : x.Wf next) (hb : x.base ≤ n) (hd : n < x.base + x.depth) (hn : n < next) :
    (takenLine h n r x).Wf next := by
  rw [takenLine_window hb hd]
  exact (hx.reach _).setSlot (fun _ => ⟨hb, hd, hn⟩) fun px hp => hx.slot_pixels (takeSlot_ready h r _ px hp)

theorem PlaneStore.Wf.takenLine_slot (hx : x.Wf next) (hb : x.base ≤ n) (hd : n < x.base + x.depth) :
    (Machine.takenLine h n r x).slot n = takeSlot h r (x.slot n) := by
  rw [takenLine_window hb hd]
  exact (PlaneStore.slot_setSlot (x := { x with reach := put x.reach h (some n) }) hx.canonical _ _ _).trans (if_pos rfl)

theorem PlaneStore.Wf.takenLine_fill (hx : x.Wf next) (hb : x.base ≤ n) (hd : n < x.base + x.depth) :
    (Machine.takenLine h n r x).fill + (if (x.slot n).data.isSome then 1 else 0) =
      x.fill + if (takeSlot h r (x.slot n)).data.isSome then 1 else 0 := by
  rw [takenLine_window hb hd]
  exact PlaneStore.fill_setSlot (x := { x with reach := put x.reach h (some n) }) hx.canonical _ _

end

/-- Settles O32. -/
theorem lastTakerSpendsLine : Obligations.LastTakerSpendsLine := by
  intro s h p n byRender ts hi x t y left hb hd hn hts
  have hw : x.Wf (s.jobs.next.get p) := hi.store p
  have hz := hw.takenLine (h := h) (r := byRender) hb hd hn
  have hy : y = changedPlane s.jobs p (takenLine h n byRender) x := storeChange_plane p _ s
  obtain ⟨hup, hkept, hfill, hslots⟩ := changedPlane_advanced hz
  have hyw : (changedPlane s.jobs p (takenLine h n byRender) x).Wf (s.jobs.next.get p) := (hz.watermark _).advanceBase _
  generalize hm : (takenLine h n byRender x).watermark x.fill = z at hup hkept hfill hslots
  have hzk : z = { takenLine h n byRender x with paused := z.paused } := hm ▸ PlaneStore.watermark_eq _ _
  have hzb : z.base = x.base := by rw [hzk]; exact takenLine_base
  have hzd : z.depth = x.depth := by rw [hzk, takenLine_window hb hd]; rfl
  have hzs : z.slot n = takeSlot h byRender (x.slot n) := by rw [hzk]; exact hw.takenLine_slot hb hd
  have hzf : z.fill + (if (x.slot n).data.isSome then 1 else 0) =
      x.fill + if (takeSlot h byRender (x.slot n)).data.isSome then 1 else 0 := by
    rw [hzk]; exact hw.takenLine_fill hb hd
  rw [takeSlot_takers hts] at hzs hzf
  have hcase := hslots n (hzb ▸ hb) (by rw [hzb, hzd]; exact hd)
  rw [hzb] at hup
  rw [← hy] at hup hkept hfill hcase hyw
  refine ⟨?_, hup, hyw.base, fun p' hp => storeChange_plane_ne hp _ s, fun hl hs => ?_, fun hl => ⟨?_, ?_, ?_⟩⟩
  · rw [hkept, hzk]
    show (takenLine h n byRender x).reach.get h = _
    rw [takenLine_reach, get_put]
  · rw [if_neg hl] at hzs hzf
    have hd : (Slot.mk (x.slot n).state (some left) ((x.slot n).rendered || byRender)).data = (x.slot n).data := rfl
    rw [hd] at hzf
    refine ⟨hfill.trans (Nat.add_right_cancel hzf), ?_⟩
    rcases hcase with ⟨-, hsp⟩ | ⟨-, hsl⟩
    · rw [hzs] at hsp
      exact absurd hsp hs
    · exact hsl.trans hzs
  · rintro rfl
    rw [if_pos hl] at hzs
    have hpass := advanceBase_passes (x := z) (q := s.jobs) (p := p) (k := s.jobs.next.get p - z.base)
      (by rw [hzb, hzs]) (by rw [hzb]; exact hn) (by rw [hzb]; exact Nat.sub_pos_of_lt hn)
    rw [hy, changedPlane, hm]
    exact hzb ▸ hpass
  · rw [if_pos hl] at hzs
    exact hcase.imp And.left fun e => by rw [e.2, hzs]
  · rw [if_pos hl] at hzf
    rw [hfill]
    exact Nat.eq_sub_of_add_eq hzf

end Sys2Proof.Machine
end

section
/-!
PROOFS. The statement on a stream reset, block by block, and the downshifts it carries out.
-/

namespace Sys2Proof.Machine

variable {s : State} {h : Head}

theorem setFlowPending_idle (hu : s.link.up = true) (ho : s.link.outbound = none) :
    setFlowPending s = s.setLink { s.link with flowPending := false, outbound := some s.flowOutbound } :=
  (arbitrate_chosen (k := { s.link with flowPending := true }) hu ho s).trans rfl

theorem setFlowPending_busy (hb : s.link.up = false ∨ s.link.outbound ≠ none) :
    setFlowPending s = s.setLink { s.link with flowPending := true } := by
  refine if_neg fun e => ?_
  obtain ⟨hu, ho⟩ := Bool.and_eq_true _ _ ▸ e
  exact hb.elim (fun n => absurd (hu.symm.trans n) (by decide)) fun n => n (Option.isNone_iff_eq_none.1 ho)

/-- The flow frame set pending changes the link port alone. -/
theorem setFlowPending_eq (s : State) : setFlowPending s = s.setLink (setFlowPending s).link := by
  by_cases hb : s.link.up = false ∨ s.link.outbound ≠ none
  · rw [setFlowPending_busy hb]
    rfl
  · obtain ⟨hu, ho⟩ := not_or.1 hb
    rw [setFlowPending_idle (Bool.of_not_eq_false hu) (not_not.1 ho)]
    rfl

/-! ## The Line Store and the banks at a stream reset (R70, R152) -/

theorem resetStore_eq (s : State) : resetStore s =
    (s.setStore (mapAll (fun _ x => x.cleared) s.store)).setLink (resetStore s).link := by
  unfold resetStore
  dsimp only
  split
  · exact setFlowPending_eq _
  · rfl

theorem resetStore_running (hp : ∀ p, (s.plane p).paused = false) : (resetStore s).link = s.link := by
  unfold resetStore
  dsimp only
  rw [if_neg]
  · rfl
  · rw [List.any_eq_true]
    rintro ⟨p, -, hpp⟩
    exact absurd (hpp.symm.trans (hp p)) (by decide)

theorem resetStore_paused (hp : ∃ p, (s.plane p).paused = true) :
    resetStore s = setFlowPending (s.setStore (mapAll (fun _ x => x.cleared) s.store)) := by
  obtain ⟨p, hp⟩ := hp
  refine if_pos (List.any_eq_true.2 ⟨p, ?_, hp⟩)
  exact (by decide : ∀ p : Plane, p ∈ allPlanes) p

theorem resetBanks_banks (s : State) (b : BankId) :
    (resetBanks s).banks.tables b = s.banks.tables b ∧ (resetBanks s).banks.bound b = 0 := by
  have ht : (resetBanks s).banks.tables b = ((s.banks.setBound 0 0).setBound 1 0).tables b ∧
      (resetBanks s).banks.bound b = ((s.banks.setBound 0 0).setBound 1 0).bound b := by
    unfold resetBanks
    dsimp only
    split <;> exact ⟨rfl, rfl⟩
  refine ⟨ht.1.trans (by rw [setBound_tables, setBound_tables]), ht.2.trans ?_⟩
  match b with
  | 0 => rw [setBound_bound, setBound_bound]; rfl
  | 1 => rw [setBound_bound]; rfl

theorem resetBanks_active (s : State) : (resetBanks s).banks.active = s.banks.active := by
  unfold resetBanks
  dsimp only
  split <;> rfl

theorem resetBanks_other (s : State) : (resetBanks s).banks.other =
    if s.banks.other = .draining then .copying 0 else s.banks.other :=
  apply_ite Banks.other (s.banks.other = .draining) _ _

/-! ## The downshifts at a stream reset (R139) -/

theorem downshifted_lane_ne {g : Head} (hg : g ≠ h) (s : State) : (s.downshifted h).lane g = s.lane g := by
  unfold State.downshifted
  rw [(quiet_submit _ _).lane, State.setLane_lane_ne _ _ hg.symm, (quiet_submit _ _).lane, State.setHead_lane,
    State.setLane_lane_ne _ _ hg.symm]

theorem downshifted_head_ne {g : Head} (hg : g ≠ h) (s : State) : (s.downshifted h).head g = s.head g := by
  unfold State.downshifted
  rw [(quiet_submit _ _).head, State.setLane_head, (quiet_submit _ _).head, State.setHead_head_ne _ _ hg.symm,
    State.setLane_head]

/-- Over IDLE heads, the downshift tests of a list of lanes carry out the pending ones, each read from the state before. -/
theorem forEach_testDownshift {t : State} : ∀ {l : List Head} {s : State}, l.Nodup →
    (∀ h ∈ l, s.lane h = t.lane h ∧ (s.head h).state = .idle) → forEach l testDownshift s =
      forEach l (fun h x => if (t.lane h).downshift = true ∧ (t.lane h).state = .up then x.downshifted h else x) s
  | [], _, _, _ => rfl
  | g :: l, s, hl, hs => by
    obtain ⟨hg, hl⟩ := List.nodup_cons.1 hl
    obtain ⟨hlane, hidle⟩ := hs g List.mem_cons_self
    rw [forEach_cons, forEach_cons, ← hlane]
    by_cases hd : (s.lane g).downshift = true ∧ (s.lane g).state = .up
    · rw [if_pos hd, testDownshift_due hd.1 hd.2 hidle]
      refine forEach_testDownshift hl fun h hh => ?_
      have hne : h ≠ g := fun e => hg (e ▸ hh)
      rw [downshifted_lane_ne hne, downshifted_head_ne hne]
      exact hs h (List.mem_cons_of_mem _ hh)
    · rw [if_neg hd, testDownshift_void fun e => hd ⟨e.1, e.2.1⟩]
      exact forEach_testDownshift hl fun h hh => hs h (List.mem_cons_of_mem _ hh)

/-- The state that a stream reset gives the Line Store and the heads to clear. -/
def State.clearing (s : State) : State := resetQualifier (resetBanks (s.setJobs s.jobs.cleared))

theorem clearing_eq (s : State) :
    s.clearing = ((s.setJobs s.jobs.cleared).setBanks (resetBanks s).banks).setTrig s.trig.toIdle := rfl

/-- A stream reset in every block, before the downshifts it carries out. -/
def State.cleared (s : State) : State := resetHeads (resetStore s.clearing)

theorem cleared_eq (s : State) : s.cleared =
    (((s.clearing.setStore (mapAll (fun _ x => x.cleared) s.store)).setLink (resetStore s.clearing).link).setHeads
      (mapAll (fun _ x => { x.discarded with cursor := none, state := .idle }) s.heads)) :=
  congrArg resetHeads (resetStore_eq s.clearing)

theorem cleared_link (s : State) : s.cleared.link = (resetStore s.clearing).link := by rw [cleared_eq]; rfl

theorem cleared_head (s : State) (h : Head) :
    s.cleared.head h = { (s.head h).discarded with cursor := none, state := .idle } := by
  rw [cleared_eq, State.head, State.setHeads_heads, get_mapAll]
  rfl

theorem cleared_lanes (s : State) : s.cleared.lanes = s.lanes := by rw [cleared_eq]; rfl

theorem cleared_banks (s : State) : s.cleared.banks = (resetBanks s).banks := by rw [cleared_eq]; rfl

theorem cmdStreamReset_eq (s : State) : cmdStreamReset s = Reply.ok [] (forEach allHeads
    (fun h x => if (s.lane h).downshift = true ∧ (s.lane h).state = .up then x.downshifted h else x) s.cleared) := by
  have hl (h : Head) : s.cleared.lane h = s.lane h := congrArg (fun w : Vector Lane 16 => w.get h) (cleared_lanes s)
  refine congrArg (Reply.ok []) (forEach_testDownshift (by decide) fun h _ => ⟨hl h, ?_⟩)
  exact congrArg HeadRec.state (cleared_head s h)

/-- Settles O34. -/
theorem streamReset_spec : Obligations.StreamReset := by
  intro tag s f rest ht
  have he := cleared_eq (s.took rest)
  refine ⟨(s.took rest).cleared, ht.exec_ok rfl (cmdStreamReset_eq _), by rw [he]; rfl, by rw [he]; rfl, fun p => ?_,
    cleared_head _, fun b => ?_, ?_, ?_,
    by rw [he]; rfl, cleared_lanes _, by rw [he]; rfl, by rw [he]; rfl, by rw [he]; rfl, fun hp => ?_, fun hp => ⟨fun hu ho => ?_, fun hb => ?_⟩⟩
  · rw [he, State.plane, State.setHeads_store, State.setLink_store, State.setStore_store, get_mapAll]
    rfl
  · rw [cleared_banks]
    exact resetBanks_banks (s.took rest) b
  · rw [cleared_banks]
    exact resetBanks_active (s.took rest)
  · rw [cleared_banks, resetBanks_other]
    show (if s.banks.other = .draining then _ else s.banks.other) = _
    cases s.banks.other <;> rfl
  · rw [cleared_link]
    exact resetStore_running (s := (s.took rest).clearing) hp
  · rw [cleared_link, resetStore_paused (s := (s.took rest).clearing) hp, setFlowPending_idle]
    · rfl
    · exact hu
    · exact ho
  · rw [cleared_link, resetStore_paused (s := (s.took rest).clearing) hp, setFlowPending_busy]
    · rfl
    · exact hb

end Sys2Proof.Machine
end

section
/-!
PROOFS. The checks of R52 and R148: what each search finds. Every search goes up by head and by item, so that what it finds
first is the least that fails.
-/

namespace Sys2Proof.Machine

/-! ## Searches -/

/-- A search over the items of one head finds the least that fails. -/
structure FindsLeast (r : Option Nat) (bad : Nat → Prop) : Prop where
  clean : r = none ↔ ∀ j, ¬ bad j
  least : ∀ j, r = some j → bad j ∧ ∀ k, bad k → j ≤ k

theorem FindsLeast.congr {r : Option Nat} {bad bad' : Nat → Prop} (hr : FindsLeast r bad) (hb : ∀ j, bad j ↔ bad' j) :
    FindsLeast r bad' :=
  funext (fun j => propext (hb j)) ▸ hr

theorem FindsLeast.empty {bad : Nat → Prop} (hb : ∀ j, ¬ bad j) : FindsLeast none bad :=
  ⟨⟨fun _ => hb, fun _ => rfl⟩, fun j hj => by cases hj⟩

theorem find_least {α : Type} {l : List α} {key : α → Nat} (hl : l.Pairwise fun a b => key a < key b) {P : α → Bool} {a : α}
    (ha : l.find? P = some a) : a ∈ l ∧ P a = true ∧ ∀ b ∈ l, P b = true → key a ≤ key b := by
  obtain ⟨hp, as, bs, rfl, has⟩ := List.find?_eq_some_iff_append.1 ha
  refine ⟨by simp, hp, fun b hb hpb => ?_⟩
  rcases List.mem_append.1 hb with hb | hb
  · have := has b hb
    rw [hpb] at this
    cases this
  · rcases List.mem_cons.1 hb with rfl | hb
    · exact le_rfl
    · exact (List.rel_of_pairwise_cons (List.pairwise_append.1 hl).2.1 hb).le

/-- A search over the heads of a rising list, by each head's own search. -/
theorem findSome_heads {l : List Head} (hl : l.Pairwise (· < ·)) {f : Head → Option Nat} {bad : Head → Nat → Prop}
    (hf : ∀ h ∈ l, FindsLeast (f h) (bad h)) :
    (l.findSome? (fun h => (f h).map fun j => (h, some j)) = none ↔ ∀ h ∈ l, ∀ j, ¬ bad h j) ∧
    ∀ x : Place, l.findSome? (fun h => (f h).map fun j => (h, some j)) = some x →
      x.1 ∈ l ∧ ∃ j, x.2 = some j ∧ bad x.1 j ∧ ∀ g ∈ l, ∀ k, bad g k → x.1.val < g.val ∨ x.1 = g ∧ j ≤ k := by
  constructor
  · rw [List.findSome?_eq_none_iff]
    refine forall_congr' fun h => forall_congr' fun hh => ?_
    rw [Option.map_eq_none_iff]
    exact (hf h hh).clean
  · intro x hx
    obtain ⟨l₁, h, l₂, rfl, hj, hnone⟩ := List.findSome?_eq_some_iff.1 hx
    obtain ⟨j, hfj, rfl⟩ := Option.map_eq_some_iff.1 hj
    obtain ⟨hbad, hleast⟩ := (hf h (by simp)).least j hfj
    refine ⟨by simp, j, rfl, hbad, fun g hg k hk => ?_⟩
    rcases List.mem_append.1 hg with hg | hg
    · have hclean := (hf g (by simp [hg])).clean.1 (Option.map_eq_none_iff.1 (hnone g hg))
      exact absurd hk (hclean k)
    · rcases List.mem_cons.1 hg with rfl | hg
      · exact .inr ⟨rfl, hleast k hk⟩
      · exact .inl (List.rel_of_pairwise_cons (List.pairwise_append.1 hl).2.1 hg)

/-- A search over a head's entries in use. -/
theorem inUse_findsLeast {t : HeadTables} (ht : sparseWf .off t.map) {P : Nat × NozzleEntry → Bool}
    (hP : ∀ j, P (j, .off) = false) :
    FindsLeast ((t.inUse.find? P).map Prod.fst) fun j => j < t.nozzles ∧ P (j, t.entry j) = true := by
  have hmem (j : Nat) : (j < t.nozzles ∧ P (j, t.entry j) = true) ↔ ∃ e, (j, e) ∈ t.inUse ∧ P (j, e) = true := by
    constructor
    · rintro ⟨hj, hp⟩
      refine ⟨t.entry j, (mem_inUse_iff ht fun h0 => ?_).2 ⟨hj, rfl⟩, hp⟩
      rw [h0, hP] at hp
      cases hp
    · rintro ⟨e, he, hp⟩
      have h0 : e ≠ .off := fun h0 => by rw [h0, hP] at hp; cases hp
      obtain ⟨hj, rfl⟩ := (mem_inUse_iff ht h0).1 he
      exact ⟨hj, hp⟩
  have hsorted : t.inUse.Pairwise fun a b => a.1 < b.1 := (List.pairwise_map.1 ht.1).filter _
  refine FindsLeast.congr ?_ fun j => (hmem j).symm
  refine ⟨?_, fun j hj => ?_⟩
  · rw [Option.map_eq_none_iff, List.find?_eq_none]
    exact ⟨fun h j ⟨e, he, hp⟩ => h _ he hp, fun h x hx hp => h x.1 ⟨x.2, hx, hp⟩⟩
  · obtain ⟨⟨i, e⟩, hx, rfl⟩ := Option.map_eq_some_iff.1 hj
    obtain ⟨he, hp, hleast⟩ := find_least hsorted hx
    exact ⟨⟨e, he, hp⟩, fun k ⟨e', he', hp'⟩ => hleast _ he' hp'⟩

/-! ## The checks of one head -/

section
variable {t : HeadTables} (ht : sparseWf .off t.map)
include ht

theorem columnFails_least (width : Nat) : FindsLeast (columnFails width t) fun j =>
    j < t.nozzles ∧ ∃ c, (t.entry j).column = some c ∧ width ≤ c := by
  unfold columnFails
  refine (inUse_findsLeast ht fun j => rfl).congr fun j => and_congr_right fun _ => ?_
  dsimp only
  cases (t.entry j).column <;> simp

theorem substituteFails_least : FindsLeast (substituteFails t) fun j => j < t.nozzles ∧ ∃ c k x, t.entry j = .dead c k x ∧
    ¬ (k < t.nozzles ∧ k ≠ j ∧ (t.entry k).canSubstitute = true) := by
  unfold substituteFails
  refine (inUse_findsLeast ht fun j => rfl).congr fun j => and_congr_right fun _ => ?_
  dsimp only
  cases t.entry j with
  | dead c k x =>
    simp only [HeadTables.substituteOk, Bool.not_eq_true', ← Bool.not_eq_true, Bool.and_eq_true, decide_eq_true_iff,
      NozzleEntry.dead.injEq]
    constructor
    · intro hn
      exact ⟨c, k, x, ⟨rfl, rfl, rfl⟩, fun ⟨h1, h2, h3⟩ => hn ⟨⟨h1, h2⟩, h3⟩⟩
    · rintro ⟨_, _, _, ⟨rfl, rfl, rfl⟩, hn⟩ ⟨⟨h1, h2⟩, h3⟩
      exact hn ⟨h1, h2, h3⟩
  | _ => simp

end

theorem bandsFail_least (l : List Band) (i : Nat) : FindsLeast (bandsFail i l) fun j =>
    ∃ k x y, j = i + k + 1 ∧ l[k]? = some x ∧ l[k + 1]? = some y ∧ y.bound ≤ x.bound := by
  induction l generalizing i with
  | nil => exact .empty fun j ⟨k, x, y, _, hx, _⟩ => by simp at hx
  | cons a l ih =>
    cases l with
    | nil => exact .empty fun j ⟨k, x, y, _, _, hy, _⟩ => by simp at hy
    | cons b rest =>
      rw [bandsFail]
      split
      · next hb =>
        refine ⟨⟨fun h => (by cases h), fun h => absurd ⟨0, a, b, rfl, rfl, rfl, hb⟩ (h (i + 1))⟩, fun j hj => ?_⟩
        cases hj
        exact ⟨⟨0, a, b, rfl, rfl, rfl, hb⟩, fun k ⟨m, x, y, hk, _⟩ => by omega⟩
      · next hb =>
        refine (ih (i + 1)).congr fun j => ?_
        constructor
        · rintro ⟨k, x, y, hj, hx, hy, hxy⟩
          exact ⟨k + 1, x, y, by omega, hx, hy, hxy⟩
        · rintro ⟨k, x, y, hj, hx, hy, hxy⟩
          cases k with
          | zero =>
            obtain rfl : a = x := by simpa using hx
            obtain rfl : b = y := by simpa using hy
            exact absurd hxy hb
          | succ k => exact ⟨k, x, y, by omega, hx, hy, hxy⟩

/-! ## Stitch partners (R99) -/

/-- Where the partners of an entry of head h, assigned to plane p, lie. -/
def partnerPlaces (t : Tables) (h : Head) (p : Plane) (e : NozzleEntry) : List (Head × Nat) :=
  ((t.assigned p).filter fun g => g != h).flatMap fun g =>
    ((t.head g).inUse.filter fun x => e.matches x.2).map fun x => (g, x.1)

theorem partners_eq (t : Tables) (h : Head) (p : Plane) (e : NozzleEntry) :
    partners t h p e = (partnerPlaces t h p e).length := by
  simp [partners, partnerPlaces, List.length_flatMap]

theorem assigned_sorted (t : Tables) (p : Plane) : (t.assigned p).Pairwise (· < ·) :=
  List.Pairwise.filter _ (by decide)

section
variable {t : Tables} (ht : ∀ h, sparseWf .off (t.head h).map) {h : Head} {p : Plane} {e : NozzleEntry}
include ht

theorem partnerPlaces_nodup : (partnerPlaces t h p e).Nodup := by
  refine List.nodup_flatMap.2 ⟨fun g _ => ?_, ?_⟩
  · have hs : (t.head g).inUse.Pairwise fun a b => a.1 < b.1 := (List.pairwise_map.1 (ht g).1).filter _
    exact List.pairwise_map.2 ((hs.filter _).imp fun hab he => absurd (Prod.mk.inj he).2 hab.ne)
  · refine ((assigned_sorted t p).filter _).imp fun {a b} hab => ?_
    rintro ⟨g, j⟩ h1 h2
    obtain ⟨_, -, e1⟩ := List.mem_map.1 h1
    obtain ⟨_, -, e2⟩ := List.mem_map.1 h2
    exact hab.ne ((Prod.mk.inj e1).1.trans (Prod.mk.inj e2).1.symm)

theorem mem_partnerPlaces (he : e.matches .off = false) {y : Head × Nat} : y ∈ partnerPlaces t h p e ↔
    y.1 ≠ h ∧ (t.head y.1).plane = some p ∧ y.2 < (t.head y.1).nozzles ∧
      e.matches ((t.head y.1).entry y.2) = true := by
  obtain ⟨g, j⟩ := y
  simp only [partnerPlaces, List.mem_flatMap, List.mem_filter, mem_assigned, bne_iff_ne, List.mem_map, Prod.mk.injEq]
  constructor
  · rintro ⟨_, ⟨hp, hne⟩, ⟨_, e'⟩, ⟨hx, hm⟩, rfl, rfl⟩
    have h0 : e' ≠ .off := fun h0 => by rw [h0, he] at hm; cases hm
    obtain ⟨hj, rfl⟩ := (mem_inUse_iff (ht _) h0).1 hx
    exact ⟨hne, hp, hj, hm⟩
  · rintro ⟨hne, hp, hj, hm⟩
    refine ⟨g, ⟨hp, hne⟩, (j, _), ⟨(mem_inUse_iff (ht g) fun h0 => ?_).2 ⟨hj, rfl⟩, hm⟩, rfl, rfl⟩
    rw [h0, he] at hm
    cases hm

theorem partners_one_iff (he : e.matches .off = false) : partners t h p e = 1 ↔ ∃ x : Head × Nat, ∀ y : Head × Nat,
    (y.1 ≠ h ∧ (t.head y.1).plane = some p ∧ y.2 < (t.head y.1).nozzles ∧ e.matches ((t.head y.1).entry y.2) = true) ↔
      y = x := by
  simp only [← mem_partnerPlaces ht he]
  rw [partners_eq, List.length_eq_one_iff]
  refine exists_congr fun x => ⟨fun hx y => by rw [hx, List.mem_singleton], fun hx => ?_⟩
  refine List.perm_singleton.1 ((List.perm_ext_iff_of_nodup (partnerPlaces_nodup ht) (List.nodup_singleton x)).2 fun y => ?_)
  rw [hx, List.mem_singleton]

end

/-- The entry that is the partner of a stitch entry (R99). -/
theorem matches_stitch {e : NozzleEntry} {c v : Nat} (he : e = .stitchLow c v ∨ e = .stitchHigh c v) (x : NozzleEntry) :
    e.matches x = true ↔ x = if e = .stitchLow c v then .stitchHigh c v else .stitchLow c v := by
  rcases he with rfl | rfl
  · rw [if_pos rfl, eq_comm (a := x)]
    cases x <;> simp [NozzleEntry.matches]
  · rw [if_neg (by simp), eq_comm (a := x)]
    cases x <;> simp [NozzleEntry.matches]

theorem stitchFails_least {t : Tables} (ht : ∀ h, sparseWf .off (t.head h).map) (h : Head) :
    FindsLeast (stitchFails t h) fun j => j < (t.head h).nozzles ∧ ∃ p c v, (t.head h).plane = some p ∧
      ((t.head h).entry j = .stitchLow c v ∨ (t.head h).entry j = .stitchHigh c v) ∧
      ¬ ∃ x : Head × Nat, (∀ y : Head × Nat, (y.1 ≠ h ∧ (t.head y.1).plane = some p ∧ y.2 < (t.head y.1).nozzles ∧
        (t.head y.1).entry y.2 =
          if (t.head h).entry j = .stitchLow c v then .stitchHigh c v else .stitchLow c v) ↔ y = x) := by
  unfold stitchFails
  cases hp : (t.head h).plane with
  | none => exact .empty fun j ⟨_, p, c, v, hp', _⟩ => by cases hp'
  | some p =>
    dsimp only
    refine (inUse_findsLeast (ht h) fun j => rfl).congr fun j => and_congr_right fun _ => ?_
    have hone {c v : Nat} (he : (t.head h).entry j = .stitchLow c v ∨ (t.head h).entry j = .stitchHigh c v) :=
      partners_one_iff ht (h := h) (p := p) (e := (t.head h).entry j) (by rcases he with he | he <;> rw [he] <;> rfl)
    simp only [Bool.and_eq_true, bne_iff_ne]
    constructor
    · rintro ⟨hs, hn⟩
      obtain ⟨c, v, he⟩ : ∃ c v, (t.head h).entry j = .stitchLow c v ∨ (t.head h).entry j = .stitchHigh c v := by
        cases hj : (t.head h).entry j with
        | stitchLow c v => exact ⟨c, v, .inl rfl⟩
        | stitchHigh c v => exact ⟨c, v, .inr rfl⟩
        | _ => rw [hj] at hs; cases hs
      refine ⟨p, c, v, rfl, he, fun hx => hn ((hone he).2 ?_)⟩
      simp only [matches_stitch he]
      exact hx
    · rintro ⟨p', c, v, hp', he, hn⟩
      cases hp'
      refine ⟨by rcases he with he | he <;> rw [he] <;> rfl, fun h1 => hn ?_⟩
      have hx := (hone he).1 h1
      simp only [matches_stitch he] at hx
      exact hx

/-! ## The spread of a plane -/

theorem largestOffset_spec (t : Tables) : ∀ {l : List Head}, l.Pairwise (· < ·) →
    (largestOffset t l = none ↔ l = []) ∧ ∀ h, largestOffset t l = some h → h ∈ l ∧
      ∀ g ∈ l, (t.head g).offset < (t.head h).offset ∨ (t.head g).offset = (t.head h).offset ∧ h.val ≤ g.val
  | [], _ => ⟨⟨fun _ => rfl, fun _ => rfl⟩, fun h hh => by cases hh⟩
  | a :: l, hl => by
    obtain ⟨ha, hl⟩ := List.pairwise_cons.1 hl
    obtain ⟨hnone, hsome⟩ := largestOffset_spec t hl
    unfold largestOffset
    cases hr : largestOffset t l with
    | none =>
      obtain rfl := hnone.1 hr
      refine ⟨by simp, fun h hh => ?_⟩
      obtain rfl : a = h := by simpa using hh
      exact ⟨List.mem_singleton.2 rfl, fun g hg => .inr (by simp [List.mem_singleton.1 hg])⟩
    | some b =>
      obtain ⟨hb, hmax⟩ := hsome b hr
      dsimp only
      split
      · next hle =>
        refine ⟨by simp, fun h hh => ?_⟩
        obtain rfl : a = h := by simpa using hh
        refine ⟨List.mem_cons_self, fun g hg => ?_⟩
        rcases List.mem_cons.1 hg with rfl | hg
        · exact .inr ⟨rfl, le_rfl⟩
        · have := hmax g hg
          have := ha g hg
          have : a.val < g.val := this
          omega
      · next hlt =>
        refine ⟨by simp, fun h hh => ?_⟩
        obtain rfl : b = h := by simpa using hh
        refine ⟨List.mem_cons_of_mem _ hb, fun g hg => ?_⟩
        rcases List.mem_cons.1 hg with rfl | hg
        · exact .inl (by omega)
        · exact hmax g hg

theorem foldl_min_spec (l : List Nat) (a : Nat) :
    l.foldl min a ≤ a ∧ (∀ x ∈ l, l.foldl min a ≤ x) ∧ (l.foldl min a = a ∨ l.foldl min a ∈ l) := by
  induction l generalizing a with
  | nil => exact ⟨le_rfl, by simp, .inl rfl⟩
  | cons x l ih =>
    obtain ⟨h1, h2, h3⟩ := ih (min a x)
    refine ⟨h1.trans (min_le_left _ _), fun y hy => ?_, ?_⟩
    · rcases List.mem_cons.1 hy with rfl | hy
      · exact h1.trans (min_le_right _ _)
      · exact h2 y hy
    · rcases h3 with h3 | h3
      · rcases min_choice a x with hm | hm
        · exact .inl (h3.trans hm)
        · exact .inr (by rw [List.foldl_cons, h3, hm]; exact List.mem_cons_self)
      · exact .inr (List.mem_cons_of_mem _ h3)

/-- Two heads of a plane lie further apart than a depth takes up. -/
def Apart (t : Tables) (p : Plane) (depth : Nat) (g h : Head) : Prop :=
  (t.head g).plane = some p ∧ (t.head h).plane = some p ∧
    depth < ((t.head g).offset - (t.head h).offset + 255) / 256 + 2

theorem spreadFails_spec (t : Tables) (p : Plane) (depth : Nat) :
    (spreadFails t p depth = none ↔ ∀ g h, ¬ Apart t p depth g h) ∧
    ∀ h, spreadFails t p depth = some h → (t.head h).plane = some p ∧ (∃ g, Apart t p depth h g) ∧
      ∀ g, (t.head g).plane = some p → (t.head g).offset < (t.head h).offset ∨
        (t.head g).offset = (t.head h).offset ∧ h.val ≤ g.val := by
  obtain ⟨hnone, hsome⟩ := largestOffset_spec t (assigned_sorted t p)
  unfold spreadFails
  dsimp only
  cases hl : largestOffset t (t.assigned p) with
  | none =>
    have hempty (g : Head) : (t.head g).plane ≠ some p := fun hg => by
      have := mem_assigned.2 hg
      rw [hnone.1 hl] at this
      cases this
    exact ⟨⟨fun _ g h ha => hempty g ha.1, fun _ => rfl⟩, fun h hh => by cases hh⟩
  | some a =>
    obtain ⟨ha, hmax⟩ := hsome a hl
    have hap := mem_assigned.1 ha
    obtain ⟨-, hmin, hex⟩ := foldl_min_spec ((t.assigned p).map fun h => (t.head h).offset) (t.head a).offset
    dsimp only
    generalize ((t.assigned p).map fun h => (t.head h).offset).foldl min (t.head a).offset = least at hmin hex ⊢
    obtain ⟨b, hb, rfl⟩ : ∃ b, (t.head b).plane = some p ∧ (t.head b).offset = least := by
      rcases hex with he | he
      · exact ⟨a, hap, he.symm⟩
      · obtain ⟨b, hb, he⟩ := List.mem_map.1 he
        exact ⟨b, mem_assigned.1 hb, he⟩
    have hfar (g h : Head) (hgh : Apart t p depth g h) : Apart t p depth a b := by
      obtain ⟨hg, hh, hd⟩ := hgh
      have h1 := hmax g (mem_assigned.2 hg)
      have h2 := hmin _ (List.mem_map.2 ⟨h, mem_assigned.2 hh, rfl⟩)
      exact ⟨hap, hb, by omega⟩
    split
    · next hd =>
      refine ⟨⟨fun h => (by cases h), fun h => absurd ⟨hap, hb, hd⟩ (h a b)⟩, fun h hh => ?_⟩
      obtain rfl : a = h := by simpa using hh
      exact ⟨hap, ⟨b, hap, hb, hd⟩, fun g hg => hmax g (mem_assigned.2 hg)⟩
    · next hd => exact ⟨⟨fun _ g h hgh => hd (hfar g h hgh).2.2, fun _ => rfl⟩, fun h hh => by cases hh⟩

end Sys2Proof.Machine
end

section
/-!
PROOFS. The statements on validation and on Set Plane: the checks one after the other.
-/

namespace Sys2Proof.Machine

/-- One check: where it finds no failure, and what it says of the one it finds. -/
structure Stage (r : Option Failure) (clean : Prop) (fails : Failure → Prop) : Prop where
  none : r = none ↔ clean
  some : ∀ e, r = some e → fails e

theorem orElse_eq_none {α : Type} {a b : Option α} : orElse a b = none ↔ a = none ∧ b = none := by
  cases a <;> simp [orElse]

theorem orElse_eq_some {α : Type} {a b : Option α} {x : α} : orElse a b = some x ↔ a = some x ∨ a = none ∧ b = some x := by
  cases a <;> simp [orElse]

theorem Stage.orElse {a b : Option Failure} {ca cb : Prop} {fa fb : Failure → Prop} (ha : Stage a ca fa)
    (hb : Stage b cb fb) : Stage (orElse a b) (ca ∧ cb) fun e => fa e ∨ ca ∧ fb e where
  none := orElse_eq_none.trans (and_congr ha.none hb.none)
  some e he := (orElse_eq_some.1 he).imp (ha.some e) fun h => ⟨ha.none.1 h.1, hb.some e h.2⟩

theorem allHeads_sorted : allHeads.Pairwise (· < ·) := by decide

/-! ## What each check of R148 refuses -/

/-- GEOMETRY fails for a head. -/
def GeometryBad (store : Vector PlaneStore 4) (t : Tables) (h : Head) : Prop :=
  ¬ ((t.head h).nozzles % 64 = 0 ∧ 64 ≤ (t.head h).nozzles ∧ (t.head h).nozzles ≤ 2048 ∧
    ∀ p, (t.head h).plane = some p → 0 < (store.get p).width)

/-- COLUMN fails for a nozzle of a head. -/
def ColumnBad (store : Vector PlaneStore 4) (t : Tables) (h : Head) (j : Nat) : Prop :=
  j < (t.head h).nozzles ∧ ∃ p c, (t.head h).plane = some p ∧ ((t.head h).entry j).column = some c ∧
    (store.get p).width ≤ c

/-- SUBSTITUTE fails for a nozzle of a head. -/
def SubstituteBad (t : Tables) (h : Head) (j : Nat) : Prop :=
  j < (t.head h).nozzles ∧ ∃ c k x, (t.head h).entry j = .dead c k x ∧
    ¬ (k < (t.head h).nozzles ∧ k ≠ j ∧ ((t.head h).entry k).canSubstitute = true)

/-- A stitch entry of a head has exactly one partner (R99). -/
def OnePartner (t : Tables) (h : Head) (j : Nat) (p : Plane) (c v : Nat) : Prop :=
  ∃ x : Head × Nat, ∀ y : Head × Nat, (y.1 ≠ h ∧ (t.head y.1).plane = some p ∧ y.2 < (t.head y.1).nozzles ∧
    (t.head y.1).entry y.2 = if (t.head h).entry j = .stitchLow c v then .stitchHigh c v else .stitchLow c v) ↔ y = x

/-- STITCH fails for a nozzle of a head. -/
def StitchBad (t : Tables) (h : Head) (j : Nat) : Prop :=
  j < (t.head h).nozzles ∧ ∃ p c v, (t.head h).plane = some p ∧
    ((t.head h).entry j = .stitchLow c v ∨ (t.head h).entry j = .stitchHigh c v) ∧ ¬ OnePartner t h j p c v

/-- BANDS fails for a band of a head. -/
def BandsBad (t : Tables) (h : Head) (j : Nat) : Prop :=
  ∃ i x y, j = i + 1 ∧ (t.head h).bands[i]? = some x ∧ (t.head h).bands[i + 1]? = some y ∧ y.bound ≤ x.bound

/-- A failure names the least head and item that fail a check. -/
def NamesFirst (bad : Head → Nat → Prop) (e : Failure) : Prop :=
  ∃ j, e.item = some j ∧ bad e.head j ∧ ∀ g k, bad g k → e.head.val < g.val ∨ e.head = g ∧ j ≤ k

section
variable {store : Vector PlaneStore 4} {t : Tables} {b : BankId}

theorem geometryFails_iff (h : Head) : geometryFails store (t.head h) = true ↔ GeometryBad store t h := by
  unfold geometryFails GeometryBad
  rw [Bool.or_eq_true, decide_eq_true_iff]
  cases (t.head h).plane with
  | none =>
    simp only [reduceCtorEq, false_implies, implies_true, and_true, Bool.false_eq_true, or_false]
    omega
  | some p =>
    simp only [beq_iff_eq, Option.some.injEq, forall_eq']
    omega

/-- One search by head and item, as a stage of the validation. -/
theorem search_stage {f : Head → Option Nat} {bad : Head → Nat → Prop} (hf : ∀ h, FindsLeast (f h) (bad h)) (r : CheckReason) :
    Stage ((allHeads.findSome? fun h => (f h).map fun j => (h, some j)).map (failAt r b)) (∀ h j, ¬ bad h j) fun e =>
      e.reason = r ∧ e.bank = b ∧ NamesFirst bad e := by
  obtain ⟨hnone, hsome⟩ := findSome_heads allHeads_sorted (f := f) (bad := bad) fun h _ => hf h
  constructor
  · rw [Option.map_eq_none_iff, hnone]
    exact ⟨fun h i j => h i (mem_allHeads i) j, fun h i _ j => h i j⟩
  · intro e he
    obtain ⟨x, hx, rfl⟩ := Option.map_eq_some_iff.1 he
    obtain ⟨-, j, hj, hbad, hleast⟩ := hsome x hx
    exact ⟨rfl, rfl, j, hj, hbad, fun g k hk => hleast g (mem_allHeads g) k hk⟩

theorem geometry_stage :
    Stage ((allHeads.find? fun h => geometryFails store (t.head h)).map fun h => failAt .geometry b (h, none))
      (∀ h, ¬ GeometryBad store t h) fun e =>
      e.reason = .geometry ∧ e.bank = b ∧ GeometryBad store t e.head ∧ e.item = none ∧
        ∀ g, GeometryBad store t g → e.head.val ≤ g.val := by
  constructor
  · rw [Option.map_eq_none_iff, List.find?_eq_none]
    exact ⟨fun h i hi => h i (mem_allHeads i) ((geometryFails_iff i).2 hi), fun h i _ hi => h i ((geometryFails_iff i).1 hi)⟩
  · intro e he
    obtain ⟨h, hh, rfl⟩ := Option.map_eq_some_iff.1 he
    obtain ⟨-, hbad, hleast⟩ := find_least (key := Fin.val) allHeads_sorted hh
    exact ⟨rfl, rfl, (geometryFails_iff h).1 hbad, rfl, fun g hg => hleast g (mem_allHeads g) ((geometryFails_iff g).2 hg)⟩

theorem spread_stage :
    Stage ((allPlanes.findSome? fun p => spreadFails t p (store.get p).depth).map fun h => failAt .spread b (h, none))
      (∀ p g h, ¬ Apart t p (store.get p).depth g h) fun e =>
      e.reason = .spread ∧ e.bank = b ∧ e.item = none ∧ ∃ p, (∃ g, Apart t p (store.get p).depth e.head g) ∧
        (∀ q g h, Apart t q (store.get q).depth g h → p.val ≤ q.val) ∧
        ∀ g, (t.head g).plane = some p → (t.head g).offset < (t.head e.head).offset ∨
          (t.head g).offset = (t.head e.head).offset ∧ e.head.val ≤ g.val := by
  have hall (p : Plane) : p ∈ allPlanes := (by decide : ∀ p : Plane, p ∈ allPlanes) p
  have hsorted : allPlanes.Pairwise fun p q => p.val < q.val := by decide
  constructor
  · rw [Option.map_eq_none_iff, List.findSome?_eq_none_iff]
    exact ⟨fun h p => (spreadFails_spec t p _).1.1 (h p (hall p)), fun h p _ => (spreadFails_spec t p _).1.2 (h p)⟩
  · intro e he
    obtain ⟨h, hh, rfl⟩ := Option.map_eq_some_iff.1 he
    obtain ⟨l₁, p, l₂, hl, hp, hnone⟩ := List.findSome?_eq_some_iff.1 hh
    obtain ⟨-, hapart, hmax⟩ := (spreadFails_spec t p _).2 h hp
    refine ⟨rfl, rfl, rfl, p, hapart, fun q g g' hq => ?_, hmax⟩
    have hq' := hall q
    rw [hl] at hq' hsorted
    rcases List.mem_append.1 hq' with hm | hm
    · exact absurd hq ((spreadFails_spec t q _).1.1 (hnone q hm) g g')
    · rcases List.mem_cons.1 hm with rfl | hm
      · exact le_rfl
      · exact (List.rel_of_pairwise_cons (List.pairwise_append.1 hsorted).2.1 hm).le

/-- Validation, check by check (R148). -/
theorem validate_stage (ht : ∀ h, sparseWf .off (t.head h).map) : Stage (validate store t b)
    ((∀ h, ¬ GeometryBad store t h) ∧ (∀ h j, ¬ ColumnBad store t h j) ∧ (∀ h j, ¬ SubstituteBad t h j) ∧
      (∀ h j, ¬ StitchBad t h j) ∧ (∀ h j, ¬ BandsBad t h j) ∧ ∀ p g h, ¬ Apart t p (store.get p).depth g h)
    fun e => (e.reason = .geometry ∧ e.bank = b ∧ GeometryBad store t e.head ∧ e.item = none ∧
        ∀ g, GeometryBad store t g → e.head.val ≤ g.val) ∨ (∀ h, ¬ GeometryBad store t h) ∧
      ((e.reason = .column ∧ e.bank = b ∧ NamesFirst (ColumnBad store t) e) ∨ (∀ h j, ¬ ColumnBad store t h j) ∧
      ((e.reason = .substitute ∧ e.bank = b ∧ NamesFirst (SubstituteBad t) e) ∨ (∀ h j, ¬ SubstituteBad t h j) ∧
      ((e.reason = .stitch ∧ e.bank = b ∧ NamesFirst (StitchBad t) e) ∨ (∀ h j, ¬ StitchBad t h j) ∧
      ((e.reason = .bands ∧ e.bank = b ∧ NamesFirst (BandsBad t) e) ∨ (∀ h j, ¬ BandsBad t h j) ∧
      (e.reason = .spread ∧ e.bank = b ∧ e.item = none ∧ ∃ p, (∃ g, Apart t p (store.get p).depth e.head g) ∧
        (∀ q g h, Apart t q (store.get q).depth g h → p.val ≤ q.val) ∧
        ∀ g, (t.head g).plane = some p → (t.head g).offset < (t.head e.head).offset ∨
          (t.head g).offset = (t.head e.head).offset ∧ e.head.val ≤ g.val))))) := by
  unfold validate
  refine geometry_stage.orElse ((search_stage (fun h => ?_) _).orElse ((search_stage (fun h => substituteFails_least (ht h)) _).orElse
    ((search_stage (fun h => stitchFails_least ht h) _).orElse ((search_stage (fun h => ?_) _).orElse spread_stage))))
  · unfold ColumnBad
    cases hp : (t.head h).plane with
    | none => exact .empty fun j ⟨_, p, c, hp', _⟩ => by cases hp'
    | some p =>
      refine (columnFails_least (ht h) _).congr fun j => and_congr_right fun _ => ⟨fun ⟨c, hc⟩ => ⟨p, c, rfl, hc⟩, ?_⟩
      rintro ⟨_, c, hp', hc⟩
      cases hp'
      exact ⟨c, hc⟩
  · exact (bandsFail_least _ 0).congr fun j => by
      simp only [Nat.zero_add]
      rfl

end

/-- Settles O54. -/
theorem validationPasses : Obligations.ValidationPasses := by
  intro store t b ht
  obtain ⟨hclean, hfails⟩ := validate_stage (store := store) (b := b) ht
  refine ⟨hclean.trans (and_congr ?_ (and_congr ?_ (and_congr ?_ (and_congr ?_ (and_congr ?_ ?_))))), fun e he => ?_⟩
  · exact forall_congr' fun h => not_not
  · exact ⟨fun hc h p j c hp hj hcol => not_le.1 fun hle => hc h j ⟨hj, p, c, hp, hcol, hle⟩,
      fun hc h j ⟨hj, p, c, hp, hcol, hle⟩ => absurd (hc h p j c hp hj hcol) (not_lt.2 hle)⟩
  · exact ⟨fun hc h j c k x hj he => not_not.1 fun hn => hc h j ⟨hj, c, k, x, he, hn⟩,
      fun hc h j ⟨hj, c, k, x, he, hn⟩ => hn (hc h j c k x hj he)⟩
  · exact ⟨fun hc h p j c v hp hj he => not_not.1 fun hn => hc h j ⟨hj, p, c, v, hp, he, hn⟩,
      fun hc h j ⟨hj, p, c, v, hp, he, hn⟩ => hn (hc h p j c v hp hj he)⟩
  · exact ⟨fun hc h i x y hx hy => not_le.1 fun hle => hc h (i + 1) ⟨i, x, y, rfl, hx, hy, hle⟩,
      fun hc h j ⟨i, x, y, _, hx, hy, hle⟩ => absurd (hc h i x y hx hy) (not_lt.2 hle)⟩
  · exact ⟨fun hc p g h hg hh => not_lt.1 fun hlt => hc p g h ⟨hg, hh, hlt⟩,
      fun hc p g h ⟨hg, hh, hlt⟩ => absurd (hc p g h hg hh) (not_le.2 hlt)⟩
  · obtain ⟨reason, bank, head, item⟩ := e
    rcases hfails _ he with ⟨rfl, hb, hbad⟩ | ⟨h1, ⟨rfl, hb, hbad⟩ | ⟨h2, ⟨rfl, hb, hbad⟩ | ⟨h3, ⟨rfl, hb, hbad⟩ |
      ⟨h4, ⟨rfl, hb, hbad⟩ | ⟨h5, rfl, hb, hitem, hbad⟩⟩⟩⟩⟩
    · exact ⟨hb, hbad⟩
    · exact ⟨hb, h1, hbad⟩
    · exact ⟨hb, h1, h2, hbad⟩
    · exact ⟨hb, h1, h2, h3, hbad⟩
    · exact ⟨hb, h1, h2, h3, h4, hbad⟩
    · exact ⟨hb, h1, h2, h3, h4, h5, hitem, hbad⟩

end Sys2Proof.Machine
end

section
/-!
PROOFS. The statement on Set Plane: the checks of R52, the adjusted values, and the command's cases.
-/

namespace Sys2Proof.Machine

/-! ## The checks of R52 -/

/-- A nozzle of a head of a plane reads a column at or beyond a width. -/
def Wide (t : Tables) (p : Plane) (width : Nat) (h : Head) (j : Nat) : Prop :=
  (t.head h).plane = some p ∧ j < (t.head h).nozzles ∧ ∃ c, ((t.head h).entry j).column = some c ∧ width ≤ c

/-- What R52 asks of a bank for a plane's width and depth. -/
def PlaneFits (t : Tables) (p : Plane) (width depth : Nat) : Prop :=
  (∀ h, (t.head h).plane = some p → 0 < width) ∧ (∀ h j, ¬ Wide t p width h j) ∧ ∀ g h, ¬ Apart t p depth g h

/-- The head that each check of R52 names, by reason. -/
def PlaneFailure (t : Tables) (p : Plane) (width depth : Nat) (e : Failure) : Prop :=
  (t.head e.head).plane = some p ∧
  match e.reason with
  | .geometry => width = 0 ∧ e.item = none ∧ ∀ g, (t.head g).plane = some p → e.head.val ≤ g.val
  | .column => 0 < width ∧ NamesFirst (Wide t p width) e
  | .spread => 0 < width ∧ (∀ h j, ¬ Wide t p width h j) ∧ e.item = none ∧ (∃ g, Apart t p depth e.head g) ∧
    ∀ g, (t.head g).plane = some p → (t.head g).offset < (t.head e.head).offset ∨
      (t.head g).offset = (t.head e.head).offset ∧ e.head.val ≤ g.val
  | .substitute | .stitch | .bands => False

section
variable {t : Tables} {p : Plane} {width depth : Nat} {b : BankId}

theorem width_stage : Stage
    (if width = 0 then (t.assigned p).head?.map fun h => failAt .geometry b (h, none) else none)
    (∀ h, (t.head h).plane = some p → 0 < width) fun e => e.reason = .geometry ∧ e.bank = b ∧
      (t.head e.head).plane = some p ∧ width = 0 ∧ e.item = none ∧ ∀ g, (t.head g).plane = some p → e.head.val ≤ g.val := by
  by_cases hw : width = 0
  · rw [if_pos hw]
    cases hl : t.assigned p with
    | nil =>
      refine ⟨⟨fun _ h hh => ?_, fun _ => rfl⟩, fun e he => by cases he⟩
      have := mem_assigned.2 hh
      rw [hl] at this
      cases this
    | cons a l =>
      have ha : (t.head a).plane = some p := mem_assigned.1 (hl ▸ List.mem_cons_self)
      refine ⟨⟨fun h => (by cases h), fun h => absurd hw (h a ha).ne'⟩, fun e he => ?_⟩
      obtain rfl := Option.some.inj he
      refine ⟨rfl, rfl, ha, hw, rfl, fun g hg => ?_⟩
      have hg := mem_assigned.2 hg
      have hs := assigned_sorted t p
      rw [hl] at hg hs
      rcases List.mem_cons.1 hg with rfl | hg
      · exact le_rfl
      · exact (List.rel_of_pairwise_cons hs hg).le
  · rw [if_neg hw]
    exact ⟨⟨fun _ _ _ => Nat.pos_of_ne_zero hw, fun _ => rfl⟩, fun e he => by cases he⟩

theorem wide_stage (ht : ∀ h, sparseWf .off (t.head h).map) : Stage
    (((t.assigned p).findSome? fun h => (columnFails width (t.head h)).map fun j => (h, some j)).map (failAt .column b))
    (∀ h j, ¬ Wide t p width h j) fun e => e.reason = .column ∧ e.bank = b ∧ (t.head e.head).plane = some p ∧
      NamesFirst (Wide t p width) e := by
  obtain ⟨hnone, hsome⟩ := findSome_heads (assigned_sorted t p) fun h _ => columnFails_least (ht h) width
  constructor
  · rw [Option.map_eq_none_iff, hnone]
    exact ⟨fun h i j ⟨hp, hj⟩ => h i (mem_assigned.2 hp) j hj, fun h i hi j hj => h i j ⟨mem_assigned.1 hi, hj⟩⟩
  · intro e he
    obtain ⟨x, hx, rfl⟩ := Option.map_eq_some_iff.1 he
    obtain ⟨hm, j, hj, hbad, hleast⟩ := hsome x hx
    exact ⟨rfl, rfl, mem_assigned.1 hm, j, hj, ⟨mem_assigned.1 hm, hbad⟩,
      fun g k ⟨hp, hk⟩ => hleast g (mem_assigned.2 hp) k hk⟩

theorem checkPlane_stage (ht : ∀ h, sparseWf .off (t.head h).map) :
    Stage (checkPlane p width depth t b) (PlaneFits t p width depth)
      fun e => e.bank = b ∧ PlaneFailure t p width depth e := by
  obtain ⟨hsnone, hssome⟩ := spreadFails_spec t p depth
  have hspread : Stage ((spreadFails t p depth).map fun h => failAt .spread b (h, none)) (∀ g h, ¬ Apart t p depth g h)
      fun e => e.reason = .spread ∧ e.bank = b ∧ (t.head e.head).plane = some p ∧ e.item = none ∧
        (∃ g, Apart t p depth e.head g) ∧ ∀ g, (t.head g).plane = some p → (t.head g).offset < (t.head e.head).offset ∨
          (t.head g).offset = (t.head e.head).offset ∧ e.head.val ≤ g.val := by
    refine ⟨by rw [Option.map_eq_none_iff, hsnone], fun e he => ?_⟩
    obtain ⟨h, hh, rfl⟩ := Option.map_eq_some_iff.1 he
    obtain ⟨hon, hapart, hmax⟩ := hssome h hh
    exact ⟨rfl, rfl, hon, rfl, hapart, hmax⟩
  have hall := (width_stage (t := t) (p := p) (width := width) (b := b)).orElse
    ((wide_stage (p := p) (width := width) (b := b) ht).orElse hspread)
  refine ⟨hall.none, fun e he => ?_⟩
  obtain ⟨reason, bank, head, item⟩ := e
  rcases hall.some _ he with ⟨rfl, hb, hon, hfail⟩ | ⟨h1, ⟨rfl, hb, hon, hfail⟩ | ⟨h2, rfl, hb, hon, hitem, hfail⟩⟩
  · exact ⟨hb, hon, hfail⟩
  · exact ⟨hb, hon, h1 _ hon, hfail⟩
  · exact ⟨hb, hon, h1 _ hon, h2, hitem, hfail⟩

/-- R52 against the ACTIVE bank, and then against the SHADOW bank where one is SHADOW. -/
theorem checkPlaneBanks_stage {k : Banks} (hk : ∀ i h, sparseWf .off ((k.tables i).head h).map) :
    Stage (checkPlaneBanks p width depth k)
      (PlaneFits (k.tables k.active) p width depth ∧
        (k.other = .shadow → PlaneFits (k.tables k.otherId) p width depth))
      fun e => (¬ PlaneFits (k.tables k.active) p width depth → e.bank = k.active) ∧
        (PlaneFits (k.tables k.active) p width depth → e.bank = k.otherId) ∧
        PlaneFailure (k.tables e.bank) p width depth e := by
  have hactive := checkPlane_stage (p := p) (width := width) (depth := depth) (b := k.active) (hk k.active)
  have hother := checkPlane_stage (p := p) (width := width) (depth := depth) (b := k.otherId) (hk k.otherId)
  have hfirst (e : Failure) (he : checkPlane p width depth (k.tables k.active) k.active = some e) :
      ¬ PlaneFits (k.tables k.active) p width depth := fun hc => by
    rw [hactive.none.2 hc] at he
    cases he
  unfold checkPlaneBanks
  rw [Banks.shadow_eq]
  by_cases ho : k.other = .shadow
  · rw [if_pos ho]
    refine ⟨(orElse_eq_none.trans (and_congr hactive.none hother.none)).trans (by simp [ho]), fun e he => ?_⟩
    rcases orElse_eq_some.1 he with he | ⟨hc, he⟩
    · obtain ⟨hb, hfail⟩ := hactive.some e he
      exact ⟨fun _ => hb, fun hc => absurd hc (hfirst e he), hb ▸ hfail⟩
    · obtain ⟨hb, hfail⟩ := hother.some e he
      exact ⟨fun hn => absurd (hactive.none.1 hc) hn, fun _ => hb, hb ▸ hfail⟩
  · rw [if_neg ho]
    refine ⟨(orElse_eq_none.trans (and_iff_left rfl)).trans (hactive.none.trans (by simp [ho])), fun e he => ?_⟩
    rcases orElse_eq_some.1 he with he | ⟨_, he⟩
    · obtain ⟨hb, hfail⟩ := hactive.some e he
      exact ⟨fun _ => hb, fun hc => absurd hc (hfirst e he), hb ▸ hfail⟩
    · cases he

end

/-! ## The command (R50, R51, R53) -/

/-- The adjustments of R51, value by value. -/
theorem PlaneStore.adjusted_eq (x : PlaneStore) (width depth high low : Option Nat) :
    let d := (depth.map fun v => max 16 (min v 16384)).getD x.depth
    let hi := max 2 (min (high.getD x.high) d)
    x.adjusted width depth high low = { x with
      width := (width.map fun v => min (v / 64 * 64) 16384).getD x.width, depth := d, high := hi
      low := max 1 (min (low.getD x.low) (hi - 1)) } := by
  cases width <;> cases depth <;> simp [PlaneStore.adjusted, clampNat]

theorem depthSum_put_eq (w : Vector PlaneStore 4) (p : Plane) (y : PlaneStore) :
    depthSum (put w p y) = (allPlanes.map fun q => if q = p then y.depth else (w.get q).depth).sum := by
  unfold depthSum
  simp only [get_put_if, apply_ite PlaneStore.depth]

theorem elim_of_some {α β : Type} {o : Option α} {x : α} (ho : o = some x) (b : β) (f : α → β) : o.elim b f = f x := by
  rw [ho]
  rfl

theorem elim_of_none {α β : Type} {o : Option α} (ho : o = none) (b : β) (f : α → β) : o.elim b f = b := by
  rw [ho]
  rfl

theorem cmdSetPlane_val {a : PlaneArgs} {p : Plane} (hp : a.plane = p.val) {s : State} {y : PlaneStore}
    (hy : (s.plane p).adjusted a.width a.depth a.high a.low = y) : cmdSetPlane a s =
      if planeArgsEmpty a then Reply.ok (byte p.val :: (s.plane p).payload) s
      else if !s.jobs.records.isEmpty then planeRefused .wrongState (s.plane p) [] s
      else if Config.storeDepth < depthSum (put s.store p y) then planeRefused .badValue (s.plane p) [] s
      else (checkPlaneBanks p y.width y.depth s.banks).elim
        (Reply.ok (byte p.val :: y.payload) (s.setPlane p y.reformed))
        fun f => planeRefused .invalidTables (s.plane p) (failureField f) s := by
  obtain ⟨pl, w, d, hi, lo⟩ := a
  obtain rfl : pl = p.val := hp
  subst hy
  refine (dif_pos p.isLt).trans ?_
  dsimp only [Fin.eta]
  cases checkPlaneBanks p ((s.plane p).adjusted w d hi lo).width ((s.plane p).adjusted w d hi lo).depth s.banks <;> rfl

/-- Settles O33. -/
theorem setPlane : Obligations.SetPlane := by
  intro tag a s f rest ht values
  refine ⟨fun hn => ⟨_, ht.exec_reply rfl (dif_neg (not_lt.2 hn))⟩, ?_⟩
  intro p hp x absent depth high y total
  have hx : cmdSetPlane a (s.took rest) = _ :=
    cmdSetPlane_val hp (s := s.took rest) (y := { y with slots := x.slots }) (PlaneStore.adjusted_eq x _ _ _ _)
  have hsum : depthSum (put (s.took rest).store p { y with slots := x.slots }) = total := depthSum_put_eq _ _ _
  have hempty : planeArgsEmpty a = true ↔ absent := by simp [planeArgsEmpty, absent, and_assoc]
  have hpay : (x.payload ++ [] : List Byte) = values x := List.append_nil _
  rw [hsum] at hx
  refine ⟨fun he => ht.exec_ok rfl (hx.trans (if_pos (hempty.2 he))), fun he hr => ?_, fun he hr => ?_⟩
  · refine ht.exec_reply rfl ((hx.trans (if_neg (mt hempty.1 he))).trans ((if_pos ?_).trans ?_))
    · simpa using hr
    · rw [← hpay]
      rfl
  · replace hx := (hx.trans (if_neg (mt hempty.1 he))).trans (if_neg (by simp [hr]))
    refine ⟨fun hd => ht.exec_reply rfl (hx.trans ((if_pos hd).trans ?_)), fun hd => ?_⟩
    · rw [← hpay]
      rfl
    · replace hx := hx.trans (if_neg (not_lt.2 hd))
      refine ⟨fun e hc => ht.exec_reply rfl (hx.trans ?_), fun hc => ht.exec_ok rfl (hx.trans ?_), fun hi => ?_⟩
      · exact elim_of_some hc _ _
      · exact elim_of_none hc _ _
      · intro on offset wide apart fits both
        obtain ⟨hnone, hsome⟩ := checkPlaneBanks_stage (p := p) (width := y.width) (depth := depth) (k := s.banks)
          fun i h => (hi.banks.tables i h).map.1
        refine ⟨hnone, fun e he => ?_⟩
        obtain ⟨hactive, hother, hon, hfail⟩ := hsome e he
        obtain ⟨reason, bank, head, item⟩ := e
        cases reason <;> exact ⟨hactive, hother, hon, hfail⟩

end Sys2Proof.Machine
end

section
/-!
PROOFS. The statement on Write Table: the fields that are in range, the heads a target reaches, and the tables that are written.
-/

namespace Sys2Proof.Machine

/-! ## What a Write Table may carry (R143, R144) -/

/-- A word names an entry where its kind is one of the five, and a stitch entry's share is not 0. -/
theorem entryOfWord_isSome (w : BitVec 32) : (entryOfWord w).isSome = true ↔
    w.toNat % 8 ≤ 4 ∧ (w.toNat % 8 = 2 ∨ w.toNat % 8 = 3 → 1 ≤ w.toNat / 2 ^ 18 % 16) := by
  unfold entryOfWord
  dsimp only
  generalize w.toNat / 2 ^ 18 % 16 = share
  have hlt : w.toNat % 8 < 8 := Nat.mod_lt _ (by decide)
  generalize w.toNat % 8 = kind at hlt
  have hshare (e : NozzleEntry) : (if share = 0 then none else some e).isSome = true ↔ 1 ≤ share := by
    rw [Nat.one_le_iff_ne_zero]
    by_cases hs : share = 0 <;> simp [hs]
  match kind, hlt with
  | 0, _ | 1, _ | 4, _ => simp
  | 2, _ | 3, _ => simp [hshare, Nat.one_le_iff_ne_zero]
  | 5, _ | 6, _ | 7, _ => simp

theorem closeBands_getElem {l : List Band} {k : Nat} {x : Band} (hx : l[k]? = some x) :
    (closeBands l)[k]? = some { x with bound := if k + 1 = l.length then 255 else x.bound } := by
  induction l generalizing k with
  | nil => simp at hx
  | cons a l ih =>
    cases l with
    | nil =>
      cases k with
      | zero =>
        obtain rfl : a = x := by simpa using hx
        rfl
      | succ k => simp at hx
    | cons b l =>
      cases k with
      | zero =>
        obtain rfl : a = x := by simpa using hx
        simp [closeBands]
      | succ k => simpa [closeBands] using ih hx

/-! ## What is written (R145) -/

theorem mem_targetHeads {t : Tables} {target : Target} {h : Head} : h ∈ targetHeads t target ↔
    target = .head h.val ∨ ∃ p : Plane, target = .plane p.val ∧ (t.head h).plane = some p := by
  cases target with
  | head n =>
    simp only [targetHeads, Target.head.injEq, reduceCtorEq, false_and, exists_false, or_false]
    split
    · simp [Fin.ext_iff, eq_comm]
    · next hn => exact ⟨fun h => by simp at h, fun h0 => absurd (h0 ▸ h.isLt) hn⟩
  | plane n =>
    simp only [targetHeads, reduceCtorEq, false_or, Target.plane.injEq]
    split
    · next hn =>
      rw [mem_assigned]
      exact ⟨fun hp => ⟨_, rfl, hp⟩, fun ⟨p, hp, he⟩ => he.trans (congrArg some (Fin.ext hp.symm))⟩
    · next hn => exact ⟨fun h => by simp at h, fun ⟨p, hp, _⟩ => absurd (hp ▸ p.isLt) hn⟩

theorem write_drops {t : Tables} {target : Target} {b : TableBody} (hb : bodyDropMap b = none) :
    (t.write target b).drops = t.drops := by
  unfold Tables.write
  rw [hb]

theorem write_head {t : Tables} {target : Target} {b : TableBody} (hb : bodyDropMap b = none) (h : Head) :
    (t.write target b).head h = if h ∈ targetHeads t target then writeHead b (t.head h) else t.head h := by
  unfold Tables.write
  rw [hb]
  exact get_mapAll _ _ _

theorem write_dropMap {t : Tables} {p : Plane} {b : TableBody} {d : Vector Dot 4} (hb : bodyDropMap b = some d) :
    t.write (.plane p.val) b = { t with drops := put t.drops p d } := by
  unfold Tables.write
  rw [hb]
  exact dif_pos p.isLt

theorem writeHead_entry {t : HeadTables} (ht : sparseWf .off t.map) (g : Nat) (es : List (BitVec 32)) (k : Nat) :
    (writeHead (.nozzleRange g es) t).entry k =
      if g ≤ k ∧ k < g + es.length then ((es[k - g]?).bind entryOfWord).getD .off else t.entry k := by
  refine (sparseRead_writeRun _ _ _ ht).trans ?_
  rw [List.length_map, List.getElem?_map]
  cases es[k - g]? <;> rfl

theorem writeHead_bands {t : HeadTables} {l : List (Nat × Nat)} {k : Nat} {w : Nat × Nat} (hw : l[k]? = some w) :
    (writeHead (.bands l) t).bands[k]? = some ⟨if k + 1 = l.length then 255 else w.1, w.2⟩ := by
  have hx : (l.map fun x => ({ bound := x.1, waveform := x.2 } : Band))[k]? = some { bound := w.1, waveform := w.2 } := by
    rw [List.getElem?_map, hw]
    rfl
  refine (closeBands_getElem hx).trans ?_
  rw [List.length_map]

theorem writeHead_bands_length (t : HeadTables) (l : List (Nat × Nat)) : (writeHead (.bands l) t).bands.length = l.length :=
  (closeBands_length _).trans (List.length_map _)

/-! ## The command -/

theorem cmdWriteTable_busy {s : State} (x : WriteArgs) (ho : s.banks.other ≠ .shadow) :
    cmdWriteTable (some x) s = Reply.refuse .bankBusy s := by
  unfold cmdWriteTable
  rw [Banks.shadow_eq, if_neg ho]

theorem cmdWriteTable_shadow {s : State} (x : WriteArgs) (ho : s.banks.other = .shadow) : cmdWriteTable (some x) s =
    if targetOk x && bodyInRange x.body then
      Reply.ok (writePayload s.banks.otherId (s.banks.tables s.banks.otherId) x) (s.setBanks (s.banks.setTables
        s.banks.otherId ((s.banks.tables s.banks.otherId).write x.target x.body)))
    else Reply.refuse .badValue s := by
  unfold cmdWriteTable
  rw [Banks.shadow_eq, if_pos ho]

theorem bodyInRange_dropMap {v0 v1 v2 v3 : Nat} : bodyInRange (.dropMap v0 v1 v2 v3) = true ↔
    v0 ≤ 3 ∧ v1 ≤ 3 ∧ v2 ≤ 3 ∧ v3 ≤ 3 := decide_eq_true_iff

theorem bodyDropMap_get {v0 v1 v2 v3 : Nat} {d : Vector Dot 4} (hd : bodyDropMap (.dropMap v0 v1 v2 v3) = some d)
    (hv : v0 ≤ 3 ∧ v1 ≤ 3 ∧ v2 ≤ 3 ∧ v3 ≤ 3) :
    (d.get 0).val = v0 ∧ (d.get 1).val = v1 ∧ (d.get 2).val = v2 ∧ (d.get 3).val = v3 := by
  obtain rfl := Option.some.inj hd
  simp only [get_ofFn]
  obtain ⟨h0, h1, h2, h3⟩ := hv
  exact ⟨Nat.mod_eq_of_lt (Nat.lt_succ_of_le h0), Nat.mod_eq_of_lt (Nat.lt_succ_of_le h1),
    Nat.mod_eq_of_lt (Nat.lt_succ_of_le h2), Nat.mod_eq_of_lt (Nat.lt_succ_of_le h3)⟩

/-- Settles O53. -/
theorem writeTable : Obligations.WriteTable := by
  intro tag a s f rest ht
  refine ⟨?_, ?_⟩
  · rintro rfl
    exact ht.exec_refuse rfl rfl
  · rintro ⟨tg, body⟩ rfl i old target fields
    have htarget : targetOk ⟨tg, body⟩ = true ↔ target := by
      cases tg with
      | head n => cases body <;> simp [targetOk, bodyDropMap, target]
      | plane n => cases body <;> simp [targetOk, target]
    have hfields : bodyInRange body = true ↔ fields := by
      cases body with
      | nozzleRange g es => simp [bodyInRange, fields, entryOfWord_isSome, and_assoc]
      | geometry p n o r => simp [bodyInRange, fields]
      | bands l => simp [bodyInRange, fields, and_assoc]
      | dropMap v0 v1 v2 v3 => exact bodyInRange_dropMap
    have hok : (targetOk ⟨tg, body⟩ && bodyInRange body) = true ↔ target ∧ fields := by
      rw [Bool.and_eq_true, htarget, hfields]
    refine ⟨fun ho => ht.exec_refuse rfl (cmdWriteTable_busy _ ho), fun ho hn =>
      ht.exec_refuse rfl ((cmdWriteTable_shadow (s := s.took rest) _ ho).trans (if_neg (mt hok.1 hn))), fun hi ho htg hf => ?_⟩
    have hx : exec (.writeTable tag (some ⟨tg, body⟩)) s = .next (answered f .ok (writePayload i old ⟨tg, body⟩)
        ((s.took rest).setBanks (s.banks.setTables i (old.write tg body)))) :=
      ht.exec_ok rfl ((cmdWriteTable_shadow (s := s.took rest) _ ho).trans (if_pos (hok.2 ⟨htg, hf⟩)))
    have hother : (s.banks.setTables i (old.write tg body)).tables s.banks.active = s.banks.tables s.banks.active := by
      rw [setTables_tables, if_neg s.banks.otherId_ne.symm]
    have hnew : (s.banks.setTables i (old.write tg body)).tables i = old.write tg body := by
      rw [setTables_tables, if_pos rfl]
    have hwf (h : Head) : sparseWf .off (old.head h).map := (hi.banks.tables i h).map.1
    refine ⟨_, _, hx, rfl, ho, fun j => setTables_bound _ _ _ _, hother, ?_⟩
    rw [hnew]
    cases body with
    | dropMap v0 v1 v2 v3 =>
      cases tg with
      | head n => exact absurd htg id
      | plane n =>
        obtain ⟨p, rfl⟩ : ∃ p : Plane, n = p.val := ⟨⟨n, htg⟩, rfl⟩
        rw [write_dropMap (d := _) rfl]
        refine ⟨p, rfl, rfl, rfl, fun q hq => get_put_ne _ _ hq.symm, ?_⟩
        rw [get_put]
        exact bodyDropMap_get rfl hf
    | nozzleRange g es =>
      refine ⟨targetHeads old tg, fun h => mem_targetHeads, by cases tg <;> rfl, write_drops rfl,
        fun h hh => (write_head rfl h).trans (if_neg hh), fun h hh => ?_⟩
      rw [(write_head rfl h).trans (if_pos hh)]
      exact ⟨rfl, writeHead_entry (hwf h) g es⟩
    | geometry p n o r =>
      refine ⟨targetHeads old tg, fun h => mem_targetHeads, by cases tg <;> rfl, write_drops rfl,
        fun h hh => (write_head rfl h).trans (if_neg hh), fun h hh => ?_⟩
      rw [(write_head rfl h).trans (if_pos hh)]
      rfl
    | bands l =>
      refine ⟨targetHeads old tg, fun h => mem_targetHeads, by cases tg <;> rfl, write_drops rfl,
        fun h hh => (write_head rfl h).trans (if_neg hh), fun h hh => ?_⟩
      rw [(write_head rfl h).trans (if_pos hh)]
      exact ⟨rfl, writeHead_bands_length _ l, fun k w hw => writeHead_bands hw⟩

end Sys2Proof.Machine
end

section
/-!
PROOFS. The statement on a delivered frame: the envelope checks over the parts of a frame.
-/

namespace Sys2Proof.Machine

/-! ## The envelope of a frame cut into its parts (R156) -/

section
variable {kind tag l0 l1 : Byte} {rest : List Byte} {len : Nat}

/-- The frame is too short for its length field, or its check does not match: BAD_CHECK. -/
theorem checkEnvelope_badCheck (hl : leNat [l0, l1] = len) (hc : rest.length < len ∨
    (rest.drop len).take 4 ≠ crcBytes (kind :: tag :: l0 :: l1 :: rest.take len)) :
    checkEnvelope (.whole (kind :: tag :: l0 :: l1 :: rest)) = .error .badCheck := by
  subst hl
  refine if_pos ?_
  show (List.take (4 + leNat [l0, l1]) (kind :: tag :: l0 :: l1 :: rest)).length ≠ 4 + leNat [l0, l1] ∨
    (List.drop (4 + leNat [l0, l1]) (kind :: tag :: l0 :: l1 :: rest)).take 4 ≠
      crcBytes (List.take (4 + leNat [l0, l1]) (kind :: tag :: l0 :: l1 :: rest))
  generalize leNat [l0, l1] = len at hc
  rw [Nat.add_comm]
  refine hc.imp (fun h => ?_) fun h => h
  rw [List.length_take]
  simp only [List.length_cons]
  omega

/-- The check matches, but the frame is longer or shorter than its length field says, or longer than a frame may be:
BAD_LENGTH. -/
theorem checkEnvelope_badLength (hl : leNat [l0, l1] = len) (hr : len ≤ rest.length)
    (hc : (rest.drop len).take 4 = crcBytes (kind :: tag :: l0 :: l1 :: rest.take len))
    (hn : rest.length ≠ len + 4 ∨ 4224 < len) :
    checkEnvelope (.whole (kind :: tag :: l0 :: l1 :: rest)) = .error .badLength := by
  subst hl
  refine (if_neg ?_).trans (if_pos ?_)
  · show ¬ ((List.take (4 + leNat [l0, l1]) (kind :: tag :: l0 :: l1 :: rest)).length ≠ 4 + leNat [l0, l1] ∨
      (List.drop (4 + leNat [l0, l1]) (kind :: tag :: l0 :: l1 :: rest)).take 4 ≠
        crcBytes (List.take (4 + leNat [l0, l1]) (kind :: tag :: l0 :: l1 :: rest)))
    generalize leNat [l0, l1] = len at hr hc
    rw [Nat.add_comm, List.length_take]
    refine not_or.2 ⟨not_not.2 ?_, not_not.2 hc⟩
    simp only [List.length_cons]
    omega
  · refine hn.imp (fun h => ?_) fun h => h
    show (kind :: tag :: l0 :: l1 :: rest).length ≠ 8 + leNat [l0, l1]
    simp only [List.length_cons]
    omega

end

section
variable {kind tag : Byte} {body : List Byte}

theorem frameBytes_eq (kind tag : Byte) (body : List Byte) : ∃ l0 l1, leBytes 2 body.length = [l0, l1] ∧
    frameBytes kind tag body =
      kind :: tag :: l0 :: l1 :: (body ++ crcBytes (kind :: tag :: l0 :: l1 :: body)) := ⟨_, _, rfl, rfl⟩

theorem leNat_one (b : Byte) : leNat [b] = b.toNat := by simp [leNat]

theorem byte_leNat_one (b : Byte) : byte (leNat [b]) = b := by rw [leNat_one]; simp [byte]

theorem leNat_two (l0 l1 : Byte) : leNat [l0, l1] = l0.toNat + l1.toNat * 2 ^ 8 := by
  simp only [leNat]
  omega

theorem leNat_four (b4 b5 b6 b7 : Byte) :
    leNat [b4, b5, b6, b7] = b4.toNat + b5.toNat * 2 ^ 8 + b6.toNat * 2 ^ 16 + b7.toNat * 2 ^ 24 := by
  simp only [leNat]
  omega

theorem leNat_leBytes_two {n : Nat} (hn : n < 65536) : leNat (leBytes 2 n) = n := by
  simp only [leBytes, leNat, BitVec.toNat_ofNat]
  omega

/-- A frame whose length and check are right is ruled on by its kind (R156, R157). -/
theorem checkEnvelope_whole (hb : body.length ≤ 4224) : checkEnvelope (.whole (frameBytes kind tag body)) =
    if kind = 1 then if body.length < 8 then .error .badLength else .ok (lineOfBody body)
    else if kind = 2 then .ok (.control { job := true, tag := tag, body := body })
    else if kind = 3 then .ok (.control { job := false, tag := tag, body := body })
    else .error .badKind := by
  obtain ⟨l0, l1, hl, he⟩ := frameBytes_eq kind tag body
  have hlen : leNat [l0, l1] = body.length := hl ▸ leNat_leBytes_two (by omega)
  rw [he]
  generalize hcrc : crcBytes (kind :: tag :: l0 :: l1 :: body) = check
  have hcheck : check.length = 4 := hcrc ▸ crcBytes_length _
  have hbody : (body ++ check).take body.length = body := List.take_left
  have hdrop : (body ++ check).drop body.length = check := List.drop_left
  have hkind {n : Nat} (hn : n < 256) (h : leNat [kind] = n) : kind = BitVec.ofNat 8 n :=
    BitVec.eq_of_toNat_eq (by rw [← leNat_one, h, BitVec.toNat_ofNat, Nat.mod_eq_of_lt hn])
  refine (if_neg ?_).trans ((if_neg ?_).trans ?_)
  · show ¬ ((List.take (4 + leNat [l0, l1]) (kind :: tag :: l0 :: l1 :: (body ++ check))).length ≠ 4 + leNat [l0, l1] ∨
      (List.drop (4 + leNat [l0, l1]) (kind :: tag :: l0 :: l1 :: (body ++ check))).take 4 ≠
        crcBytes (List.take (4 + leNat [l0, l1]) (kind :: tag :: l0 :: l1 :: (body ++ check))))
    rw [hlen, Nat.add_comm 4]
    show ¬ ((kind :: tag :: l0 :: l1 :: (body ++ check).take body.length).length ≠ body.length + 4 ∨
      ((body ++ check).drop body.length).take 4 ≠
        crcBytes (kind :: tag :: l0 :: l1 :: (body ++ check).take body.length))
    rw [hbody, hdrop, hcrc, not_or, not_not, not_not, ← hcheck, List.take_length]
    exact ⟨by simp [hcheck], rfl⟩
  · show ¬ ((kind :: tag :: l0 :: l1 :: (body ++ check)).length ≠ 8 + leNat [l0, l1] ∨ 4224 < leNat [l0, l1])
    rw [hlen]
    simp only [List.length_cons, List.length_append, hcheck]
    omega
  · by_cases h1 : kind = 1
    · subst h1
      show (if ((body ++ check).take (leNat [l0, l1])).length < 8 then Except.error LinkReason.badLength
        else .ok (lineOfBody ((body ++ check).take (leNat [l0, l1])))) = _
      rw [hlen, hbody]
      rfl
    · rw [if_neg h1]
      by_cases h2 : kind = 2
      · subst h2
        show Except.ok (Inbound.control ⟨true, byte (leNat [tag]), (body ++ check).take (leNat [l0, l1])⟩) = _
        rw [byte_leNat_one, hlen, hbody]
        rfl
      · rw [if_neg h2]
        by_cases h3 : kind = 3
        · subst h3
          show Except.ok (Inbound.control ⟨false, byte (leNat [tag]), (body ++ check).take (leNat [l0, l1])⟩) = _
          rw [byte_leNat_one, hlen, hbody]
          rfl
        · rw [if_neg h3]
          split
          · next h => exact absurd (hkind (by decide) h) h1
          · next h => exact absurd (hkind (by decide) h) h2
          · next h => exact absurd (hkind (by decide) h) h3
          · rfl

end

/-! ## Line frames (R190) -/

theorem flatMap_dotsOfByte_length (bs : List Byte) : (bs.flatMap dotsOfByte).length = 4 * bs.length := by
  induction bs with
  | nil => rfl
  | cons b bs ih =>
    rw [List.flatMap_cons, List.length_append, ih, List.length_cons]
    simp only [dotsOfByte, List.length_cons, List.length_nil]
    omega

theorem dotsOfByte_getElem (b : Byte) {j : Nat} (hj : j < 4) :
    ((dotsOfByte b)[j]?).map Fin.val = some (b.toNat / 4 ^ j % 4) := by
  match j, hj with
  | 0, _ | 1, _ | 2, _ | 3, _ => simp [dotsOfByte]

theorem flatMap_dotsOfByte_getElem {bs : List Byte} {k j : Nat} {b : Byte} (hj : j < 4) (hb : bs[k]? = some b) :
    ((bs.flatMap dotsOfByte)[4 * k + j]?).map Fin.val = some (b.toNat / 4 ^ j % 4) := by
  induction bs generalizing k with
  | nil => simp at hb
  | cons a bs ih =>
    rw [List.flatMap_cons]
    have hlen : (dotsOfByte a).length = 4 := rfl
    cases k with
    | zero =>
      obtain rfl : a = b := by simpa using hb
      rw [List.getElem?_append_left (by omega), Nat.mul_zero, Nat.zero_add]
      exact dotsOfByte_getElem a hj
    | succ k =>
      rw [List.getElem?_append_right (by omega), hlen, show 4 * (k + 1) + j - 4 = 4 * k + j by omega]
      exact ih (by simpa using hb)

/-! ## Reception (R156, R157, R158) -/

theorem receive_bad {d : Delivery} {r : LinkReason} (hd : checkEnvelope d = .error r) (s : State) :
    receive d s = submitCondition .linkErrors (.linkErrors r) (bump (.link .framesBad) s) := by
  unfold receive
  rw [hd]
  rfl

theorem receive_ok {d : Delivery} {f : Inbound} (hd : checkEnvelope d = .ok f) (s : State) :
    receive d s = dispatch f (bump (.link .framesOk) s) := by
  unfold receive
  rw [hd]

/-- Settles O57. -/
theorem frameArrival : Obligations.FrameArrival := by
  refine ⟨fun tag body hb => ⟨checkEnvelope_whole hb, checkEnvelope_whole hb, fun kind h1 h2 h3 => ?_, fun h8 => ?_,
    fun h8 => ?_⟩, rfl, ?_, fun d s => ⟨rfl, rfl, fun r hr => congrArg _ (receive_bad hr s), fun f hf => ⟨fun hq => ?_, fun hq => ?_⟩⟩⟩
  · rw [checkEnvelope_whole hb, if_neg h1, if_neg h2, if_neg h3]
  · rw [checkEnvelope_whole hb, if_pos rfl, if_pos h8]
  · refine ⟨_, _, _, (checkEnvelope_whole hb).trans ((if_pos rfl).trans (if_neg (not_lt.2 h8))), ?_⟩
    rintro b0 b1 b2 b3 b4 b5 b6 b7 more rfl
    exact ⟨congrArg (· % 4) (leNat_one b0), leNat_four b4 b5 b6 b7, flatMap_dotsOfByte_length more,
      fun k j b hj hk => flatMap_dotsOfByte_getElem hj hk⟩
  · intro kind tag l0 l1 body check len head
    have hlen : leNat [l0, l1] = len := leNat_two l0 l1
    have hcrc : (crcBytes head).length = 4 := crcBytes_length _
    refine ⟨fun hb hc hne => ?_, fun hb => ?_, fun hb hc => ?_, fun hb hc => ?_⟩
    · refine checkEnvelope_badCheck (rest := body ++ check) hlen (.inr ?_)
      rw [← hb, List.drop_left, List.take_left, ← hc, List.take_length]
      exact hne
    · refine checkEnvelope_badCheck hlen (or_iff_not_imp_left.2 fun hge he => ?_)
      have := congrArg List.length he
      rw [crcBytes_length, List.length_take, List.length_drop] at this
      omega
    · have he : head ++ crcBytes head ++ check = kind :: tag :: l0 :: l1 :: (body ++ (crcBytes head ++ check)) := by
        simp [head]
      rw [he]
      refine checkEnvelope_badLength hlen ?_ ?_ (.inl ?_)
      · rw [List.length_append]; omega
      · rw [← hb, List.drop_left, List.take_left, ← hcrc, List.take_left]
      · have := List.length_pos_of_ne_nil hc
        rw [List.length_append, List.length_append]
        omega
    · refine checkEnvelope_badLength (rest := body ++ crcBytes head) hlen ?_ ?_ (.inr hc)
      · rw [List.length_append]; omega
      · rw [← hb, List.drop_left, List.take_left, ← hcrc, List.take_length]
  · exact congrArg _ ((receive_ok hf s).trans (if_pos hq))
  · refine congrArg _ ((receive_ok hf s).trans ((if_neg (not_lt.2 hq)).trans ?_))
    rfl

end Sys2Proof.Machine
end

section
/-!
PROOFS. What becomes of the Job Queue's records under the reports of the heads, and how far a chain of activations goes.
-/

namespace Sys2Proof.Machine

/-! ## Records under reports (R37, R38) -/

/-- A record without the totals and the progress of its activation. -/
def JobRec.outline (r : JobRec) : JobRec :=
  { r with active := r.active.map fun a => { a with progress := 0, fired := 0, shortfall := 0 } }

/-- The QUEUED records, oldest first. -/
def JobQueue.queued (q : JobQueue) : List JobRec := q.records.filter fun r => r.active.isNone

/-- No two records have the same id (R28). -/
def JobQueue.Distinct (q : JobQueue) : Prop := (q.records.map JobRec.id).Nodup

/-- From queue q to queue q' some ACTIVE records have left and others have been reported to, and nothing else has changed. -/
structure Thinned (q q' : JobQueue) : Prop where
  outlines : (q'.records.map JobRec.outline).Sublist (q.records.map JobRec.outline)
  queued : q'.queued = q.queued

theorem Thinned.of_records {q q' : JobQueue} (h : q'.records = q.records) : Thinned q q' :=
  ⟨by rw [h], by rw [JobQueue.queued, JobQueue.queued, h]⟩

theorem Thinned.trans {a b c : JobQueue} (h1 : Thinned a b) (h2 : Thinned b c) : Thinned a c :=
  ⟨h2.outlines.trans h1.outlines, h2.queued.trans h1.queued⟩

theorem Thinned.distinct {q q' : JobQueue} (h : Thinned q q') (hq : q.Distinct) : q'.Distinct := by
  have hid (l : List JobRec) : l.map JobRec.id = (l.map JobRec.outline).map JobRec.id := by
    rw [List.map_map]
    rfl
  unfold JobQueue.Distinct at hq ⊢
  rw [hid] at hq ⊢
  exact hq.sublist (h.outlines.map _)

theorem JobQueue.find_id {q : JobQueue} {id : Nat} {r : JobRec} (hf : q.find id = some r) : r.id = id := by
  simpa using List.find?_some hf

theorem JobQueue.Distinct.unique {q : JobQueue} (hq : q.Distinct) {id : Nat} {r x : JobRec} (hf : q.find id = some r)
    (hx : x ∈ q.records) (hi : x.id = id) : x = r :=
  List.inj_on_of_nodup_map hq hx (JobQueue.find_mem hf)
    (hi.trans (JobQueue.find_id hf).symm)

/-- One ACTIVE record's activation changed in its totals and progress alone. -/
theorem Thinned.update {q : JobQueue} (hq : q.Distinct) {id : Nat} {r : JobRec} {a b : Activation} (hf : q.find id = some r)
    (ha : r.active = some a) (hb : { r with active := some b : JobRec }.outline = r.outline) :
    Thinned q (q.update id fun r => { r with active := some b }) := by
  have hout {x : JobRec} (hx : x ∈ q.records) :
      (if x.id = id then { x with active := some b } else x : JobRec).outline = x.outline := by
    split
    · next hi => rw [hq.unique hf hx hi, hb]
    · rfl
  have hqueued {x : JobRec} (hx : x ∈ q.records) (hn : x.active.isNone = true) :
      (if x.id = id then { x with active := some b } else x : JobRec) = x := by
    refine if_neg fun hi => ?_
    rw [hq.unique hf hx hi, ha] at hn
    cases hn
  refine ⟨?_, ?_⟩
  · rw [JobQueue.update, List.map_map]
    exact (List.map_congr_left fun x hx => hout hx).symm ▸ List.Sublist.refl _
  · have hfilter (l : List JobRec) (hl : ∀ x ∈ l, x ∈ q.records) :
        (l.map fun x => if x.id = id then { x with active := some b } else x).filter (fun r => r.active.isNone) =
          l.filter fun r => r.active.isNone := by
      induction l with
      | nil => rfl
      | cons x l ih =>
        have hx := hl x List.mem_cons_self
        rw [List.map_cons, List.filter_cons, List.filter_cons, ih fun y hy => hl y (List.mem_cons_of_mem _ hy)]
        by_cases hn : x.active.isNone = true
        · rw [hqueued hx hn]
        · rw [if_neg hn, if_neg]
          by_cases hi : x.id = id
          · rw [if_pos hi]
            simp
          · rw [if_neg hi]
            exact hn
    exact hfilter _ fun _ h => h

theorem Thinned.remove {q : JobQueue} (hq : q.Distinct) {id : Nat} {r : JobRec} {a : Activation} (hf : q.find id = some r)
    (ha : r.active = some a) : Thinned q (q.remove id) := by
  refine ⟨List.filter_sublist.map _, ?_⟩
  rw [JobQueue.queued, JobQueue.remove, List.filter_filter]
  refine List.filter_congr fun x hx => ?_
  by_cases hi : x.id = id
  · rw [hq.unique hf hx hi, ha]
    rfl
  · simp [hi]

/-- What happens between two states thins the records, as long as their ids differ. -/
def Thins (s t : State) : Prop := s.jobs.Distinct → Thinned s.jobs t.jobs

section
variable {s t u : State} {h : Head}

theorem Thins.of_jobs (hj : t.jobs = s.jobs) : Thins s t := fun _ => .of_records (by rw [hj])

theorem Thins.refl (s : State) : Thins s s := .of_jobs rfl

theorem Thins.trans (a : Thins s t) (b : Thins t u) : Thins s u := fun hq => (a hq).trans (b ((a hq).distinct hq))

theorem thins_forEach {α : Type} {l : List α} {f : α → State → State} (hf : ∀ a ∈ l, ∀ s, Thins s (f a s)) (s : State) :
    Thins s (forEach l f s) :=
  forEach_keeps (P := Thins s) l f (fun a ha _ hs => hs.trans (hf a ha _)) (.refl s)

theorem unbindBank_jobs (i : BankId) (s : State) : (unbindBank i s).jobs = s.jobs := rfl

theorem thins_retire (id : Nat) (s : State) : Thins s (retire id s) := by
  unfold retire
  cases hf : s.jobs.find id with
  | none => exact .refl s
  | some r =>
    dsimp only
    cases ha : r.active with
    | none => exact .refl s
    | some a =>
      refine fun hq => (Thinned.remove hq hf ha).trans (.of_records ?_)
      dsimp only
      rw [(quiet_submit _ _).jobs]
      rfl

theorem thins_report (job n : Nat) (fired retires : Bool) (s : State) : Thins s (report job n fired retires s) := by
  unfold report
  cases hf : s.jobs.find job with
  | none => exact .refl s
  | some r =>
    dsimp only
    cases ha : r.active with
    | none => exact .refl s
    | some a =>
      have hu : Thins s (s.setJobs (s.jobs.update job fun x => { x with active := some (a.reported fired (n + 1 == r.length)) })) :=
        fun hq => Thinned.update hq hf ha (by rw [JobRec.outline, JobRec.outline, ha]; rfl)
      dsimp only
      split
      · exact hu.trans (thins_retire job _)
      · exact hu

theorem takeOf_jobs (h : Head) (c : Cursor) (r : Bool) (s : State) : (takeOf h c r s).jobs = s.jobs := by
  unfold takeOf
  split
  · rfl
  · exact storeChange_jobs _ _ _

theorem thins_goTo (h : Head) (x : HeadRec) (c : Option Cursor) (s : State) : Thins s (goTo h x c s) := by
  cases c with
  | none => exact .of_jobs (testDownshift_jobs h _)
  | some c => exact .of_jobs (arriveOn_cursor h x c s).2.1

theorem thins_dueEvent (h : Head) (c : Cursor) (s : State) : Thins s (dueEvent h c s) := by
  have ht (b : Bool) (t : State) : Thins t (if b = true then takeOf h c false t else t) := by
    split
    · exact .of_jobs (takeOf_jobs h c false t)
    · exact .refl t
  have hf (o : DueOutcome) (t : State) : Thins t (if o = .fired then changeLane h Lane.strobe t else t) := by
    split
    · exact .of_jobs rfl
    · exact .refl t
  have hc : Thins s (countOutcome h (dueOutcome (s.lane h) (s.head h).state) c s) := by
    refine .of_jobs ?_
    unfold countOutcome
    dsimp only
    split
    · exact (quiet_bump _ s).jobs
    · exact ((quiet_bump _ s).trans (quiet_submitCondition _ _ _)).jobs
  exact (((hc.trans (ht _ _)).trans (thins_report _ _ _ _ _)).trans (hf _ _)).trans (thins_goTo h _ _ _)

theorem thins_runDues (h : Head) (n : Nat) (s : State) : Thins s (runDues h n s) := by
  induction n generalizing s with
  | zero => exact .refl s
  | succ n ih =>
    unfold runDues
    split
    · exact .refl s
    · exact (thins_dueEvent h _ s).trans (ih _)

theorem thins_arrive (h : Head) (x : HeadRec) (c : Cursor) (s : State) : Thins s (arrive h x c s) :=
  (Thins.of_jobs (arriveOn_cursor h x c s).2.1).trans (thins_runDues h _ _)

theorem thins_handToHeads (id : Nat) (hs : List Head) (s : State) : Thins s (handToHeads id hs s) := by
  refine thins_forEach (fun h _ t => ?_) s
  split
  · exact thins_arrive h _ _ t
  · exact .refl t

end

/-! ## The chain condition (R33) -/

section
variable {q : JobQueue} {pre post : List JobRec} {r b : JobRec} {a : Activation}

theorem oldestQueued_eq (q : JobQueue) : q.oldestQueued = q.queued.head? := (List.head?_filter ..).symm

theorem oldestQueued_split (he : q.records = pre ++ r :: post) (hp : ∀ x ∈ pre, x.active.isSome = true)
    (hr : r.active = none) : q.oldestQueued = some r :=
  List.find?_eq_some_iff_append.2 ⟨by rw [hr]; rfl, pre, post, he, fun x hx => by
    cases hx' : x.active with
    | none => have := hp x hx; rw [hx'] at this; cases this
    | some a => rfl⟩

theorem activePredecessor_split (he : q.records = pre ++ r :: post) (hp : ∀ x ∈ pre, x.active.isSome = true)
    (hr : r.active = none) : q.activePredecessor = pre.getLast? := by
  have h0 : ¬ r.active.isSome = true := by rw [hr]; decide
  rw [JobQueue.activePredecessor, he, List.takeWhile_append_of_pos hp, List.takeWhile_cons_of_neg (by exact h0),
    List.append_nil]

/-- The chain condition holds for a CHAINED record right behind the ACTIVE ones. -/
theorem chainReady_split (hq : q.print = true) (he : q.records = pre ++ b :: r :: post)
    (hp : ∀ x ∈ pre, x.active.isSome = true) (hb : b.active = some a) (hr : r.active = none) (hm : r.mode = .chained) :
    q.chainReady = some (r.id, a.t + (b.length + r.gap) * 256) := by
  have he' : q.records = (pre ++ [b]) ++ r :: post := by rw [he]; simp
  have hp' : ∀ x ∈ pre ++ [b], x.active.isSome = true := fun x hx => by
    rcases List.mem_append.1 hx with hx | hx
    · exact hp x hx
    · rw [List.mem_singleton.1 hx, hb]; rfl
  unfold JobQueue.chainReady
  rw [hq, oldestQueued_split he' hp' hr, activePredecessor_split he' hp' hr, List.getLast?_concat]
  dsimp only
  rw [hm, hb]

theorem chainReady_unchained (hq : q.Unchained) : q.chainReady = none := by
  unfold JobQueue.chainReady
  split
  · next r b hpr ho hb =>
    split
    · next hm ha =>
      obtain ⟨hr, pre, post, he, hp⟩ := List.find?_eq_some_iff_append.1 ho
      have hr' : r.active = none := Option.isNone_iff_eq_none.1 hr
      have hp' : ∀ x ∈ pre, x.active.isSome = true := fun x hx => by simpa using hp x hx
      rw [activePredecessor_split he hp' hr', hq hpr pre r post he hp' hr' hm] at hb
      cases hb
    · rfl
  · rfl

/-- Nothing is chained where the oldest QUEUED record is TRIGGERED, or none is QUEUED. -/
theorem chainReady_triggered (hq : ∀ r ∈ q.queued.head?, r.mode = .triggered) : q.chainReady = none := by
  unfold JobQueue.chainReady
  split
  · next r b hpr ho hb =>
    rw [oldestQueued_eq] at ho
    rw [hq r ho]
  · rfl

theorem testChain_none {s : State} (h : s.jobs.chainReady = none) : testChain s = s := by
  unfold testChain
  rw [h]

end

/-! ## How far a chain goes (R33, R36) -/

section
variable {s : State} {r : JobRec} {pre post : List JobRec}

/-- The record in its queue, and nothing but ACTIVE ones before it. -/
theorem JobQueue.Distinct.find_split {q : JobQueue} (hq : q.Distinct) (he : q.records = pre ++ r :: post) :
    q.find r.id = some r := by
  refine List.find?_eq_some_iff_append.2 ⟨beq_self_eq_true _, pre, post, he, fun x hx => ?_⟩
  unfold JobQueue.Distinct at hq
  rw [he, List.map_append, List.map_cons] at hq
  have hd := (List.nodup_append.1 hq).2.2 x.id (List.mem_map_of_mem hx) r.id List.mem_cons_self
  simpa using hd

theorem bindRanges_jobs (l : List JobPlane) (f : Plane → List Head) (length : Nat) (s : State) :
    (forEach l (fun x s => bindRange x.plane (f x.plane) x.first length s) s).jobs = s.jobs :=
  forEach_keeps (P := fun t => t.jobs = s.jobs) l _ (fun _ _ _ ht => (storeChange_jobs _ _ _).trans ht) rfl

/-- The state of steps 1 to 3 of an activation, before its notice and before the heads are told (R36). -/
def bindRecord (r : JobRec) (t : Nat) (s : State) : State :=
  let a := s.activationOf r t
  let s := bindBank (s.setJobs (s.jobs.update r.id fun r => { r with active := some a }))
  let s := forEach r.planes (fun x s => bindRange x.plane (a.takersOf x.plane) x.first r.length s) s
  s.setJobs { s.jobs with lastT := some t, lastL := some r.length }

theorem activateRecord_eq (r : JobRec) (t : Nat) (s : State) : activateRecord r t s =
    handToHeads r.id (s.activationOf r t).heads (submit (.jobStarted r.id t s.banks.active r.tag) (bindRecord r t s)) := rfl

theorem bindRecord_jobs (r : JobRec) (t : Nat) (s : State) : (bindRecord r t s).jobs =
    { s.jobs.update r.id fun r' => { r' with active := some (s.activationOf r t) } with
      lastT := some t, lastL := some r.length } := by
  unfold bindRecord
  dsimp only
  rw [State.setJobs_jobs, bindRanges_jobs r.planes (s.activationOf r t).takersOf]
  rfl

theorem JobQueue.Distinct.ne_of_split {q : JobQueue} (hq : q.Distinct) (he : q.records = pre ++ r :: post) {x : JobRec}
    (hx : x ∈ pre ∨ x ∈ post) : x.id ≠ r.id := fun hi => by
  unfold JobQueue.Distinct at hq
  rw [he, List.map_append, List.map_cons] at hq
  rcases hx with hx | hx
  · exact (List.nodup_append.1 hq).2.2 x.id (List.mem_map_of_mem hx) r.id List.mem_cons_self hi
  · exact (List.nodup_cons.1 (List.nodup_append.1 hq).2.1).1 (hi ▸ List.mem_map_of_mem hx)

theorem bindRecord_records (hq : s.jobs.Distinct) (he : s.jobs.records = pre ++ r :: post) (t : Nat) :
    (bindRecord r t s).jobs.records = pre ++ { r with active := some (s.activationOf r t) } :: post := by
  rw [bindRecord_jobs]
  exact update_records (f := fun x => { x with active := some (s.activationOf r t) }) he rfl
    (fun x hx => hq.ne_of_split he (.inl hx)) fun x hx => hq.ne_of_split he (.inr hx)

/-- What an activation leaves QUEUED: the records behind the one that it makes ACTIVE. -/
theorem activateRecord_queued (hq : s.jobs.Distinct) (he : s.jobs.records = pre ++ r :: post)
    (hp : ∀ x ∈ pre, x.active.isSome = true) (t : Nat) : (activateRecord r t s).jobs.Distinct ∧
      (activateRecord r t s).jobs.queued = post.filter fun x => x.active.isNone := by
  have hrec := bindRecord_records hq he t
  have hd : (bindRecord r t s).jobs.Distinct := by
    unfold JobQueue.Distinct at hq ⊢
    rw [hrec]
    rw [he] at hq
    simpa using hq
  have hqueued : (bindRecord r t s).jobs.queued = post.filter fun x => x.active.isNone := by
    have hpre : pre.filter (fun x => x.active.isNone) = [] := List.filter_eq_nil_iff.2 fun x hx hn => by
      have := hp x hx
      rw [Option.isNone_iff_eq_none.1 hn] at this
      cases this
    rw [JobQueue.queued, hrec, List.filter_append, hpre, List.nil_append, List.filter_cons]
    rfl
  have ht : Thins (bindRecord r t s) (activateRecord r t s) :=
    (Thins.of_jobs (quiet_submit _ _).jobs).trans (thins_handToHeads r.id (s.activationOf r t).heads _)
  exact ⟨(ht hd).distinct hd, (ht hd).queued.trans hqueued⟩

end

theorem State.Inv.distinct {s : State} (hi : s.Inv) : s.jobs.Distinct := hi.jobs.ids

/-- The oldest QUEUED record, in its place. -/
theorem First.split {q : JobQueue} {id : Nat} (hw : q.Distinct) (hq : q.First id) : ∃ pre r post, q.records = pre ++ r :: post ∧
    r.id = id ∧ r.active = none ∧ (∀ x ∈ pre, x.active.isSome = true) ∧ q.find id = some r := by
  obtain ⟨r, ho, rfl⟩ := hq
  obtain ⟨hr, pre, post, he, hp⟩ := List.find?_eq_some_iff_append.1 ho
  exact ⟨pre, r, post, he, rfl, Option.isNone_iff_eq_none.1 hr, fun x hx => by simpa using hp x hx, hw.find_split he⟩

theorem queued_split {q : JobQueue} {pre post : List JobRec} {r : JobRec} (he : q.records = pre ++ r :: post)
    (hr : r.active = none) : (post.filter fun x => x.active.isNone).length < q.queued.length := by
  rw [JobQueue.queued, he, List.filter_append, List.filter_cons, if_pos (by rw [hr]; rfl), List.length_append,
    List.length_cons]
  omega

/-- Any two fuels that are not below the number of QUEUED records give the same chain of activations. -/
theorem activate_enough (k : Nat) : ∀ (j id t : Nat) (s : State), s.jobs.Distinct → s.jobs.First id →
    s.jobs.queued.length ≤ k → s.jobs.queued.length ≤ j → activate k id t s = activate j id t s := by
  induction k with
  | zero =>
    intro j id t s hd hf hk hj
    obtain ⟨pre, r, post, he, -, hr, -, -⟩ := First.split hd hf
    exact absurd (queued_split he hr) (by omega)
  | succ k ih =>
    intro j id t s hd hf hk hj
    obtain ⟨pre, r, post, he, hid, hr, hp, hfind⟩ := First.split hd hf
    have hlt := queued_split he hr
    obtain ⟨j, rfl⟩ := Nat.exists_eq_succ_of_ne_zero (show j ≠ 0 by omega)
    obtain ⟨hd', hq'⟩ := activateRecord_queued hd he hp t
    unfold activate
    rw [hfind]
    dsimp only
    cases hc : (activateRecord r t s).jobs.chainReady with
    | none => rfl
    | some x =>
      dsimp only
      rw [ih j x.1 x.2 _ hd' (chainReady_first hc) (by rw [hq']; omega) (by rw [hq']; omega)]

theorem queued_le (q : JobQueue) : q.queued.length ≤ q.records.length := List.length_filter_le _ _

/-- An activation of the oldest QUEUED record: the record, the chain behind it, and the retirement check. -/
theorem activate_first {s : State} {pre post : List JobRec} {r : JobRec} (hd : s.jobs.Distinct)
    (he : s.jobs.records = pre ++ r :: post) (hp : ∀ x ∈ pre, x.active.isSome = true) (hr : r.active = none) (t : Nat) :
    activate (s.jobs.records.length + 1) r.id t s = retireIfEmpty r.id (testChain (activateRecord r t s)) := by
  obtain ⟨hd', hq'⟩ := activateRecord_queued hd he hp t
  have hlt := queued_split he hr
  have hle := queued_le s.jobs
  rw [activate, hd.find_split he]
  dsimp only
  unfold testChain
  cases hc : (activateRecord r t s).jobs.chainReady with
  | none => rfl
  | some x =>
    dsimp only
    rw [activate_enough _ ((activateRecord r t s).jobs.records.length + 1) x.1 x.2 _ hd' (chainReady_first hc)
      (by rw [hq']; omega) ((queued_le _).trans (Nat.le_succ _))]

/-- Where no CHAINED record stands behind the one that activates, nothing follows it. -/
theorem testChain_activateRecord {s : State} {pre post : List JobRec} {r : JobRec} (hd : s.jobs.Distinct)
    (he : s.jobs.records = pre ++ r :: post) (hp : ∀ x ∈ pre, x.active.isSome = true)
    (hm : ∀ y ∈ (post.filter fun x => x.active.isNone).head?, y.mode = .triggered) (t : Nat) :
    testChain (activateRecord r t s) = activateRecord r t s := by
  obtain ⟨-, hq'⟩ := activateRecord_queued hd he hp t
  exact testChain_none (chainReady_triggered (by rw [hq']; exact hm))

/-- Behind a QUEUED record every record is QUEUED (R26). -/
theorem JobQueue.Wf.queued_behind {q : JobQueue} (hw : q.Wf) {pre post : List JobRec} {r : JobRec}
    (he : q.records = pre ++ r :: post) (hr : r.active = none) : post.filter (fun x => x.active.isNone) = post :=
  List.filter_eq_self.2 fun x hx => by
    have hord := hw.order
    rw [he] at hord
    rw [((List.pairwise_cons.1 (List.pairwise_append.1 hord).2.1).1 x hx).1 hr]
    rfl

theorem testChain_chained {s : State} {pre post : List JobRec} {b y : JobRec} {a : Activation} (hd : s.jobs.Distinct)
    (hq : s.jobs.print = true) (he : s.jobs.records = pre ++ b :: y :: post) (hp : ∀ x ∈ pre, x.active.isSome = true)
    (hb : b.active = some a) (hy : y.active = none) (hm : y.mode = .chained) :
    testChain s = retireIfEmpty y.id (testChain (activateRecord y (a.t + (b.length + y.gap) * 256) s)) := by
  have he' : s.jobs.records = (pre ++ [b]) ++ y :: post := by rw [he]; simp
  have hp' : ∀ x ∈ pre ++ [b], x.active.isSome = true := fun x hx => by
    rcases List.mem_append.1 hx with hx | hx
    · exact hp x hx
    · rw [List.mem_singleton.1 hx, hb]; rfl
  rw [← activate_first hd he' hp' hy, testChain, chainReady_split hq he hp hb hy hm]

end Sys2Proof.Machine
end

section
/-!
PROOFS. The statements on job frames, on Print On and Print Off and on Soft Trigger.
-/

namespace Sys2Proof.Machine

/-! ## Print On and Print Off (R30) -/

/-- Settles O28. -/
theorem printOnOff : Obligations.PrintOnOff := by
  intro tag s f rest
  refine ⟨fun ht => ht.exec_ok rfl rfl, fun ht => ⟨fun hp => ht.exec_ok rfl (congrArg (Reply.ok []) (if_pos hp)), ?_⟩⟩
  intro hp q
  have hx : exec (.printOn tag) s = .next (answered f .ok [] (testChain ((s.took rest).setJobs q))) :=
    ht.exec_ok rfl (congrArg (Reply.ok []) (if_neg (by simp [hp])))
  refine ⟨fun hu => ?_, fun pre b a r post hi he hpre hb hr hm => ?_⟩
  · rw [hx, testChain_none (chainReady_unchained (q := ((s.took rest).setJobs q).jobs) hu)]
  · intro v ok
    have hw : ((s.took rest).setJobs q).jobs.Wf := hi.jobs.printing true
    have hok : ok (testChain v) := hx.trans (congrArg (fun u => Host.Outcome.next (answered f .ok [] u))
      (testChain_chained (s := (s.took rest).setJobs q) hw.ids rfl he hpre hb hr hm))
    refine ⟨hok, fun hpost => ?_⟩
    have hpre' : ∀ x ∈ pre ++ [b], x.active.isSome = true := fun x hx => by
      rcases List.mem_append.1 hx with hx | hx
      · exact hpre x hx
      · rw [List.mem_singleton.1 hx, hb]; rfl
    have he' : ((s.took rest).setJobs q).jobs.records = (pre ++ [b]) ++ r :: post := by
      rw [List.append_assoc]
      exact he
    have hv : testChain v = v := testChain_activateRecord (s := (s.took rest).setJobs q) (pre := pre ++ [b]) hw.ids he' hpre'
      (by rw [hw.queued_behind he' hr]; exact hpost) _
    exact hv ▸ hok

/-! ## Job frames (R28, R29) -/

theorem jobInRange_iff {s : State} {j : JobFields} : jobInRange s j = true ↔
    ¬ (j.length = 0 ∨ 1048575 < j.length ∨ j.planes = [] ∨ (∃ p ∈ j.planes, (s.plane p).width = 0) ∨
      2 ≤ j.mode ∨ 65535 < j.gap ∨ 16777215 < j.delay ∨ ∃ p ∈ j.planes, 2 ^ 32 < s.jobs.next.get p + j.length) := by
  have hmode : (startMode j.mode).isSome = true ↔ ¬ 2 ≤ j.mode := by
    unfold startMode
    by_cases h0 : j.mode = 0
    · simp [h0]
    · by_cases h1 : j.mode = 1
      · simp [h1]
      · simp [h0, h1]
        omega
  unfold jobInRange
  simp only [Bool.and_eq_true, decide_eq_true_iff, Bool.not_eq_true', List.all_eq_true, hmode, List.isEmpty_eq_false_iff]
  simp only [not_or, not_exists, not_and, not_lt, not_le, ne_eq, Config.maxLength, Config.maxDelay, Config.lineLimit]
  constructor
  · rintro ⟨⟨⟨⟨⟨h1, h2⟩, h3⟩, h4⟩, h5, h6⟩, h7⟩
    exact ⟨by omega, h1.2, h2, h3, h4, h5, h6, h7⟩
  · rintro ⟨h0, h1, h2, h3, h4, h5, h6, h7⟩
    exact ⟨⟨⟨⟨⟨⟨by omega, h1⟩, h2⟩, h3⟩, h4⟩, h5, h6⟩, h7⟩

theorem append_newRecord {q : JobQueue} {j : JobFields} {r : JobRec} (hr : q.newRecord j = r) : q.append r = { q with
    records := q.records ++ [r]
    next := Vector.ofFn fun p => q.next.get p + if p ∈ j.planes then j.length else 0 } := by
  subst hr
  have hn : (q.append (q.newRecord j)).next =
      Vector.ofFn fun p => q.next.get p + if p ∈ j.planes then j.length else 0 := by
    refine congrArg Vector.ofFn (funext fun p => ?_)
    have hany : ((q.newRecord j).planes.any fun x => x.plane == p) = true ↔ p ∈ j.planes := by
      simp [JobQueue.newRecord]
    by_cases hp : p ∈ j.planes
    · rw [if_pos hp]
      exact if_pos (hany.2 hp)
    · rw [if_neg hp]
      exact if_neg (mt hany.1 hp)
  rw [← hn]
  rfl

/-- Settles O27. -/
theorem jobFrame : Obligations.JobFrame := by
  intro tag fields s f rest ht
  refine ⟨?_, ?_⟩
  · rintro rfl
    exact ht.exec_refuse rfl rfl
  · rintro j rfl dup bad r ok
    have hdup : (s.jobs.records.any fun r => r.id == j.id) = true ↔ dup := by simp [dup]
    refine ⟨fun hfull => ht.exec_refuse rfl (if_pos hfull), fun hroom hd => ht.exec_refuse rfl
      ((if_neg (not_le.2 hroom)).trans (if_pos (hdup.2 hd))), fun hroom hd hb => ht.exec_refuse rfl
      ((if_neg (not_le.2 hroom)).trans ((if_neg (mt hdup.1 hd)).trans (if_pos ?_))), fun hroom hd hb => ?_⟩
    · rw [Bool.not_eq_true', ← Bool.not_eq_true, jobInRange_iff, not_not]
      exact hb
    · have hrange : jobInRange (s.took rest) j = true := jobInRange_iff.2 hb
      have hmode : j.mode < 2 := not_le.1 fun h => hb (by simp [bad, h])
      have hr : s.jobs.newRecord j = r := by
        unfold JobQueue.newRecord
        congr 1
        obtain h0 | h1 : j.mode = 0 ∨ j.mode = 1 := by omega
        · rw [h0]; rfl
        · rw [h1]; rfl
      intro q hq
      rw [← append_newRecord hr] at hq
      have hx : ok (testChain ((s.took rest).setJobs q)) := by
        refine ht.exec_ok rfl (((if_neg (not_le.2 hroom)).trans ((if_neg (mt hdup.1 hd)).trans (if_neg ?_))).trans ?_)
        · rw [hrange]; decide
        · rw [State.took_jobs, hr, hq]
          refine congrArg (fun l => Reply.ok l _) ?_
          simp only [firstLines, r, List.length_map, List.flatMap_map]
          rfl
      refine ⟨fun hu => ?_, fun hi hp hm pre b a he hpre hb => ?_⟩
      · rw [testChain_none (chainReady_unchained (q := ((s.took rest).setJobs q).jobs) hu)] at hx
        exact hx
      · have hrec : ((s.took rest).setJobs q).jobs.records = s.jobs.records ++ [r] := by rw [State.setJobs_jobs, hq]; rfl
        have hd' : ((s.took rest).setJobs q).jobs.Distinct := by
          unfold JobQueue.Distinct
          rw [hrec, List.map_append, List.nodup_append]
          refine ⟨hi.jobs.ids, List.nodup_singleton _, fun x hx y hy hxy => hd ?_⟩
          obtain ⟨z, hz, rfl⟩ := List.mem_map.1 hx
          exact ⟨z, hz, hxy.trans (List.mem_singleton.1 hy)⟩
        have hprint : ((s.took rest).setJobs q).jobs.print = true := by rw [State.setJobs_jobs, hq]; exact hp
        have hpre' : ∀ x ∈ pre ++ [b], x.active.isSome = true := fun x hx => by
          rcases List.mem_append.1 hx with hx | hx
          · exact hpre x hx
          · rw [List.mem_singleton.1 hx, hb]; rfl
        have hmode : r.mode = .chained := by simp [r, hm]
        rw [testChain_chained hd' hprint (by rw [hrec, he, List.append_assoc]; rfl) hpre hb rfl hmode,
          testChain_activateRecord (pre := pre ++ [b]) (post := []) hd' (by rw [hrec, he]) hpre' (by simp)] at hx
        exact hx

/-! ## Soft Trigger (R31, R32, R46) -/

section
variable {s : State} {p : Nat} {pre post : List JobRec} {r : JobRec}

theorem triggerRuling_ignored (hp : s.jobs.print = false) (p : Nat) : s.triggerRuling p = .refused .ignored none :=
  if_pos (by simp [hp])

theorem triggerRuling_notTracking (hp : s.jobs.print = true) (ht : s.ptu.state ≠ .tracking) (p : Nat) :
    s.triggerRuling p = .refused .notTracking none := (if_neg (by simp [hp])).trans (if_pos ht)

theorem triggerRuling_empty (hp : s.jobs.print = true) (ht : s.ptu.state = .tracking)
    (hq : ∀ r ∈ s.jobs.records, r.active.isSome = true) (p : Nat) : s.triggerRuling p = .refused .orphan none := by
  have ho : s.jobs.oldestQueued = none := List.find?_eq_none.2 fun r hr hn => by
    have := hq r hr
    rw [Option.isNone_iff_eq_none.1 hn] at this
    cases this
  refine (if_neg (by simp [hp])).trans ((if_neg (not_not.2 ht)).trans ?_)
  rw [ho]

/-- With Print ON and the PTU in TRACKING, the oldest QUEUED record decides (R31, R32). -/
theorem triggerRuling_queued (hp : s.jobs.print = true) (ht : s.ptu.state = .tracking)
    (he : s.jobs.records = pre ++ r :: post) (hpre : ∀ x ∈ pre, x.active.isSome = true) (hr : r.active = none) (p : Nat) :
    s.triggerRuling p = if r.mode = .chained ∧ pre ≠ [] then .refused .orphan none
      else if s.jobs.spaced r (candidateT r p) then .activated r.id (candidateT r p)
      else .refused .early (some (r.id, candidateT r p)) := by
  have hpred : s.jobs.activePredecessor.isSome = true ↔ pre ≠ [] := by
    rw [activePredecessor_split he hpre hr]
    cases pre <;> simp
  refine (if_neg (by simp [hp])).trans ((if_neg (not_not.2 ht)).trans ?_)
  rw [oldestQueued_split he hpre hr]
  simp only [hpred]

theorem cmdSoftTrigger_refused {why : TrigRefusal} {early : Option (Nat × Nat)}
    (h : s.triggerRuling s.position = .refused why early) : cmdSoftTrigger s = Reply.ok (leBytes 6 s.position ++ [1, byte why.code])
      (submit (.triggerRefused why s.position early) (bump (.trigger why.counter) s)) := by
  unfold cmdSoftTrigger deliverTrigger
  rw [h]
  rfl

theorem cmdSoftTrigger_activated {id t : Nat} (h : s.triggerRuling s.position = .activated id t) : cmdSoftTrigger s =
    Reply.ok (leBytes 6 s.position ++ [0] ++ leBytes 2 id ++ leBytes 6 t)
      (activate (s.jobs.records.length + 1) id t (bump (.trigger .delivered) s)) := by
  unfold cmdSoftTrigger deliverTrigger
  rw [h]
  simp [softPayload, byte]

theorem spaced_late {q : JobQueue} {lt ll t : Nat} (h1 : q.lastT = some lt) (h2 : q.lastL = some ll) :
    q.spaced r t = decide (lt + (ll + r.gap) * 256 ≤ t) := by
  unfold JobQueue.spaced
  rw [h1, h2]

theorem spaced_first {q : JobQueue} (h : q.lastT = none) (t : Nat) : q.spaced r t = true := by
  unfold JobQueue.spaced
  rw [h]

end

/-- Settles O26. -/
theorem softTrigger : Obligations.SoftTrigger := by
  intro tag s f rest ht hi p refusedAs
  have hrefused {why : TrigRefusal} {early : Option (Nat × Nat)} (h : s.triggerRuling p = .refused why early) :
      refusedAs why why.counter early := ht.exec_ok rfl (cmdSoftTrigger_refused (s := s.took rest) h)
  refine ⟨fun hp => hrefused (triggerRuling_ignored hp p), fun hp hn => hrefused (triggerRuling_notTracking hp hn p),
    fun hp hst => ⟨fun hq => hrefused (triggerRuling_empty hp hst hq p), fun pre r post he hpre hr => ?_⟩⟩
  have hruling := triggerRuling_queued hp hst he hpre hr p
  refine ⟨fun hm hne => hrefused (hruling.trans (if_pos ⟨hm, hne⟩)), fun hm => ?_⟩
  intro t
  have hcand : candidateT r p = t := by
    unfold candidateT
    cases hmode : r.mode with
    | triggered => simp only [t, hmode]
    | chained => simp only [t, hmode]; rfl
  rw [if_neg (fun e => hm.elim (fun n => by rw [n] at e; exact absurd e.1 (by decide)) fun n => e.2 n), hcand] at hruling
  refine ⟨fun lt ll h1 h2 hlt => hrefused (hruling.trans (if_neg ?_)), fun hs => ?_⟩
  · rw [spaced_late h1 h2, decide_eq_true_eq, not_le]
    exact hlt
  · intro v ok
    have hspaced : s.jobs.spaced r t = true := by
      rcases hs with hs | ⟨lt, ll, h1, h2, hle⟩
      · exact spaced_first hs t
      · rw [spaced_late h1 h2]
        exact decide_eq_true hle
    have hx := ht.exec_ok (c := .softTrigger tag) rfl
      (cmdSoftTrigger_activated (s := s.took rest) (hruling.trans (if_pos hspaced)))
    have hj : (bump (.trigger .delivered) (s.took rest)).jobs = s.jobs := (quiet_bump _ _).jobs
    have hd : (bump (.trigger .delivered) (s.took rest)).jobs.Distinct := hj.symm ▸ hi.distinct
    have he' : (bump (.trigger .delivered) (s.took rest)).jobs.records = pre ++ r :: post := by rw [hj, he]
    have hok : ok (testChain v) := by
      have ha := activate_first hd he' hpre hr t
      rw [hj] at ha
      refine hx.trans ?_
      rw [State.took_jobs, ha]
      rfl
    refine ⟨hok, fun hpost => ?_⟩
    have hv : testChain v = v := testChain_activateRecord hd he' hpre
      (by rw [hi.jobs.queued_behind he hr]; exact hpost) t
    exact hv ▸ hok

end Sys2Proof.Machine
end

section
/-!
PROOFS. Activation: the record bound to its bank, the slots of its range bound to their takers, and the heads it is handed to.
The first part says what a change of a run of slots does, for activation and for giving lines up.
-/

namespace Sys2Proof.Machine

/-! ## A change of a run of slots (R60, R66) -/

section
variable {f : Slot → Slot} {x : PlaneStore} {first length n : Nat}

theorem changeRun_slot (f : Slot → Slot) (j : Nat) : ∀ (k n : Nat) (x : PlaneStore), sparseWf Slot.fresh x.slots →
    (changeRun f k n x).slot j = if n ≤ j ∧ j < n + k then f (x.slot j) else x.slot j
  | 0, n, x, _ => (if_neg (by omega)).symm
  | k + 1, n, x, hx => by
    rw [changeRun, changeRun_slot f j k (n + 1) _ (sparseWrite_wf _ _ hx), PlaneStore.slot_setSlot hx]
    by_cases hj : j = n
    · subst hj
      rw [if_neg (by omega), if_pos rfl, if_pos (by omega)]
    · rw [if_neg hj]
      exact if_congr (by omega) rfl rfl

theorem changeRun_base (f : Slot → Slot) (k n : Nat) (x : PlaneStore) : (changeRun f k n x).base = x.base := by
  induction k generalizing n x with
  | zero => rfl
  | succ k ih => exact (ih (n + 1) _).trans rfl

theorem changeRange_slot (hx : sparseWf Slot.fresh x.slots) (h1 : first ≤ n) (h2 : n < first + length) (hb : x.base ≤ n)
    (hd : n < x.base + x.depth) : (changeRange f first length x).slot n = f (x.slot n) := by
  unfold changeRange
  rw [changeRun_slot f n _ _ x hx, if_pos (by omega)]

/-- A line of a run that is changed: passed by the base line where the change left it SPENT, or as the change left it. -/
theorem changedPlane_range (q : JobQueue) (p : Plane) (hx : sparseWf Slot.fresh x.slots) (h1 : first ≤ n)
    (h2 : n < first + length) (hb : x.base ≤ n) (hd : n < x.base + x.depth) :
    n < (changedPlane q p (changeRange f first length) x).base ∧ (f (x.slot n)).state = .spent ∨
      (changedPlane q p (changeRange f first length) x).base ≤ n ∧
        (changedPlane q p (changeRange f first length) x).slot n = f (x.slot n) := by
  have hbase : ((changeRange f first length x).watermark x.fill).base = x.base := by
    rw [PlaneStore.watermark_eq]; exact changeRun_base _ _ _ _
  have hdepth : ((changeRange f first length x).watermark x.fill).depth = x.depth := by
    rw [PlaneStore.watermark_eq]; exact changeRun_depth _ _ _ _
  have h := advanceBase_slot q p (q.next.get p - ((changeRange f first length x).watermark x.fill).base)
    ((changeRange f first length x).watermark x.fill) (hbase ▸ hb) (by rw [hbase, hdepth]; exact hd)
  rwa [PlaneStore.watermark_slot, changeRange_slot hx h1 h2 hb hd] at h

end

/-! ## A change of every plane of a record -/

section
variable {l : List JobPlane} (g : JobPlane → PlaneStore → PlaneStore) {p : Plane}

theorem forEach_storeChange_other (s : State) (hp : ∀ x ∈ l, x.plane ≠ p) :
    (forEach l (fun x s => storeChange x.plane (g x) s) s).plane p = s.plane p :=
  forEach_keeps (P := fun t => t.plane p = s.plane p) l _
    (fun x hx _ ht => (storeChange_plane_ne (hp x hx).symm _ _).trans ht) rfl

theorem forEach_storeChange_plane (s : State) (hl : (l.map JobPlane.plane).Nodup) {x : JobPlane} (hx : x ∈ l) :
    (forEach l (fun x s => storeChange x.plane (g x) s) s).plane x.plane =
      changedPlane s.jobs x.plane (g x) (s.plane x.plane) := by
  induction l generalizing s with
  | nil => cases hx
  | cons y l ih =>
    obtain ⟨hy, hl⟩ := List.nodup_cons.1 hl
    rw [forEach_cons]
    rcases List.mem_cons.1 hx with rfl | hx
    · have hne : ∀ z ∈ l, z.plane ≠ x.plane := fun z hz e => hy (e ▸ List.mem_map_of_mem (f := JobPlane.plane) hz)
      rw [forEach_storeChange_other g _ hne, storeChange_plane]
    · have hne : x.plane ≠ y.plane := fun e => hy (e ▸ List.mem_map_of_mem hx)
      rw [ih (storeChange y.plane (g y) s) hl hx, storeChange_plane_ne hne, storeChange_jobs]

end

/-! ## Steps 1 to 3 of an activation (R35, R36, R60) -/

section
variable {s : State} {r : JobRec} {t : Nat}

theorem takersFor_eq (s : State) (p : Plane) : s.takersFor p = allHeads.filter fun h =>
    ((s.banks.tables s.banks.active).head h).plane == some p && (s.head h).enabled := by
  unfold State.takersFor Tables.assigned
  rw [List.filter_filter]
  exact List.filter_congr fun h _ => Bool.and_comm _ _

theorem activationOf_takersOf {x : JobPlane} (hx : x ∈ r.planes) :
    (s.activationOf r t).takersOf x.plane = s.takersFor x.plane := by
  unfold Activation.takersOf State.activationOf
  dsimp only
  rw [List.find?_map]
  cases hf : r.planes.find? ((fun y : Plane × List Head => y.1 == x.plane) ∘ fun x => (x.plane, s.takersFor x.plane)) with
  | none => exact absurd (List.find?_eq_none.1 hf x hx) (by simp)
  | some y =>
    have hy : y.plane = x.plane := by simpa using List.find?_some hf
    simp [hy]

theorem activationOf_heads (s : State) (r : JobRec) (t : Nat) : (s.activationOf r t).heads =
    allHeads.filter fun h => r.planes.any fun x => (s.takersFor x.plane).contains h := by
  unfold Activation.heads State.activationOf
  simp only [List.any_map, Function.comp_def]

/-- What the binding of a record leaves unchanged. -/
theorem bindRecord_others (s : State) (r : JobRec) (t : Nat) :
    (bindRecord r t s).banks = s.banks.setBound s.banks.active (s.banks.bound s.banks.active + 1) ∧
      (bindRecord r t s).heads = s.heads ∧ (bindRecord r t s).lanes = s.lanes ∧ (bindRecord r t s).ptu = s.ptu ∧
      (bindRecord r t s).trig = s.trig ∧ (bindRecord r t s).notices = s.notices := by
  unfold bindRecord
  dsimp only
  simp only [State.setJobs_banks, State.setJobs_heads, State.setJobs_lanes, State.setJobs_ptu, State.setJobs_trig,
    State.setJobs_notices]
  refine forEach_keeps (P := fun u => u.banks = _ ∧ u.heads = s.heads ∧ u.lanes = s.lanes ∧ u.ptu = s.ptu ∧
    u.trig = s.trig ∧ u.notices = s.notices) r.planes _ (fun x _ u hu => ?_) ⟨rfl, rfl, rfl, rfl, rfl, rfl⟩
  unfold bindRange
  rw [storeChange_banks, storeChange_heads, storeChange_lanes, storeChange_ptu, storeChange_trig, storeChange_notices]
  exact hu

theorem bindRecord_plane_other {p : Plane} (hp : ∀ x ∈ r.planes, x.plane ≠ p) :
    (bindRecord r t s).plane p = s.plane p :=
  forEach_storeChange_other (fun x => changeRange (bindSlot ((s.activationOf r t).takersOf x.plane)) x.first r.length) _ hp

theorem bindRecord_plane (hr : (r.planes.map JobPlane.plane).Nodup) {x : JobPlane} (hx : x ∈ r.planes) : ∃ q,
    (bindRecord r t s).plane x.plane =
      changedPlane q x.plane (changeRange (bindSlot (s.takersFor x.plane)) x.first r.length) (s.plane x.plane) := by
  rw [← activationOf_takersOf (t := t) hx]
  exact ⟨_, forEach_storeChange_plane
    (fun x => changeRange (bindSlot ((s.activationOf r t).takersOf x.plane)) x.first r.length) _ hr hx⟩

/-- The first part of R36, over a record in its place in the queue. -/
theorem bindRecord_lines (hi : s.Inv) (hr : r ∈ s.jobs.records) {x : JobPlane} (hx : x ∈ r.planes) {n : Nat}
    (h1 : x.first ≤ n) (h2 : n < x.first + r.length) (hb : (s.plane x.plane).base ≤ n)
    (hd : n < (s.plane x.plane).base + (s.plane x.plane).depth) :
    (s.takersFor x.plane ≠ [] → ((s.plane x.plane).slot n).state ≠ .spent →
      ((bindRecord r t s).plane x.plane).slot n =
        { (s.plane x.plane).slot n with takers := some (s.takersFor x.plane) }) ∧
    (s.takersFor x.plane = [] → n < ((bindRecord r t s).plane x.plane).base ∨
      (((bindRecord r t s).plane x.plane).slot n).state = .spent) := by
  obtain ⟨q, hq⟩ := bindRecord_plane (s := s) (t := t) (hi.jobs.records r hr).planes.2 hx
  have hline := changedPlane_range (f := bindSlot (s.takersFor x.plane)) q x.plane (hi.store x.plane).canonical h1 h2 hb hd
  rw [← hq] at hline
  refine ⟨fun hts hv => ?_, fun hts => ?_⟩
  · have hkeep : bindSlot (s.takersFor x.plane) ((s.plane x.plane).slot n) =
        { (s.plane x.plane).slot n with takers := some (s.takersFor x.plane) } := by
      simp [bindSlot, hts]
    rw [hkeep] at hline
    exact (hline.resolve_left fun h => hv h.2).2
  · have hspent : (bindSlot (s.takersFor x.plane) ((s.plane x.plane).slot n)).state = .spent := by simp [bindSlot, hts]
    exact hline.imp And.left fun h => by rw [h.2]; exact hspent

end

/-! ## A line that a head waits for, while other heads take lines -/

/-- A line of the window that is READY for a head which has still to take it. -/
structure PlaneStore.Held (x : PlaneStore) (n : Nat) (px : List Dot) (h : Head) : Prop where
  base : x.base ≤ n
  top : n < x.base + x.depth
  ready : (x.slot n).state = .ready px
  taker : ∃ ts, (x.slot n).takers = some ts ∧ h ∈ ts

theorem PlaneStore.Held.takenLine {x : PlaneStore} {n m : Nat} {px : List Dot} {g h : Head} {r : Bool}
    (hx : x.Held n px h) (hg : g ≠ h) : (takenLine g m r x).Held n px h := by
  obtain ⟨hb, ht, hs, ts, hts, hmem⟩ := hx
  unfold Machine.takenLine
  dsimp only
  split
  · by_cases hm : n = m
    · subst hm
      have hleft : h ∈ ts.filter fun i => i != g := List.mem_filter.2 ⟨hmem, by simpa using hg.symm⟩
      have hne : ts.filter (fun i => i != g) ≠ [] := List.ne_nil_of_mem hleft
      have htake := takeSlot_takers (h := g) (r := r) hts
      rw [if_neg hne] at htake
      have hslot : ∀ y : PlaneStore, (y.setSlot n (takeSlot g r (x.slot n))).slot n = takeSlot g r (x.slot n) := fun y => by
        rw [htake]
        unfold PlaneStore.slot PlaneStore.setSlot sparseWrite
        rw [if_neg (by simp [Slot.fresh]), sparseRead_insert, if_pos rfl]
      refine ⟨hb, ht, ?_, ?_⟩
      · refine (congrArg Slot.state (hslot _)).trans ?_
        rw [htake]
        exact hs
      · refine ⟨_, (congrArg Slot.takers (hslot _)).trans ?_, hleft⟩
        rw [htake]
    · have hslot : ∀ (y : PlaneStore) (v : Slot), (y.setSlot m v).slot n = y.slot n := fun y v =>
        PlaneStore.slot_setSlot_ne y hm v
      exact ⟨hb, ht, (congrArg Slot.state (hslot _ _)).trans hs, ts, (congrArg Slot.takers (hslot _ _)).trans hts, hmem⟩
  · exact ⟨hb, ht, hs, ts, hts, hmem⟩

theorem PlaneStore.Held.changed {x : PlaneStore} {n : Nat} {px : List Dot} {h : Head} {f : PlaneStore → PlaneStore}
    (hf : (f x).Held n px h) (q : JobQueue) (p : Plane) : (changedPlane q p f x).Held n px h := by
  obtain ⟨hb, ht, hs, ts, hts, hmem⟩ := hf
  have hslots := advanceBase_slot q p (q.next.get p - ((f x).watermark x.fill).base) ((f x).watermark x.fill) (n := n)
    (by rw [PlaneStore.watermark_eq]; exact hb) (by rw [PlaneStore.watermark_eq]; exact ht)
  rw [PlaneStore.watermark_slot] at hslots
  obtain ⟨hbase, hslot⟩ := hslots.resolve_left fun h => by rw [hs] at h; cases h.2
  have hup := advanceBase_up q p (q.next.get p - ((f x).watermark x.fill).base) ((f x).watermark x.fill)
  have hdepth := advanceBase_depth q p (q.next.get p - ((f x).watermark x.fill).base) ((f x).watermark x.fill)
  have hw : ((f x).watermark x.fill).base = (f x).base ∧ ((f x).watermark x.fill).depth = (f x).depth := by
    rw [PlaneStore.watermark_eq]; exact ⟨rfl, rfl⟩
  refine ⟨hbase, ?_, (congrArg Slot.state hslot).trans hs, ts, (congrArg Slot.takers hslot).trans hts, hmem⟩
  unfold changedPlane
  omega

theorem PlaneStore.Held.takeLine {s : State} {p q : Plane} {n m : Nat} {px : List Dot} {g h : Head} {r : Bool}
    (hx : (s.plane p).Held n px h) (hg : g ≠ h) : ((takeLine g q m r s).plane p).Held n px h := by
  rw [takeLine_eq]
  by_cases hp : p = q
  · subst hp
    rw [storeChange_plane]
    exact (hx.takenLine hg).changed _ _
  · rw [storeChange_plane_ne hp]
    exact hx

theorem PlaneStore.Held.readyData {x : PlaneStore} {n : Nat} {px : List Dot} {h : Head} (hx : x.Held n px h) :
    x.readyData n = some px := by
  have hw : x.inWindow n = true := decide_eq_true ⟨hx.base, hx.top⟩
  unfold PlaneStore.readyData Slot.data
  rw [if_pos hw, hx.ready]

/-! ## A head that comes to a line (R75) -/

section
variable {s : State} {h : Head} {x : HeadRec} {c : Cursor}

/-- What coming to a line can be. -/
inductive Comes (s : State) (h : Head) (x : HeadRec) (c : Cursor) (t : State) : Prop where
  | sending (f : InFlight) (hf : x.inFlight = some f) (ht : t = s.setHead h { x with cursor := some c, state := .discarding })
  | waits (hf : x.inFlight = none) (hn : (s.lane h).takesPreload = false ∨ s.cursorData h c = none)
      (ht : t = s.setHead h { x with cursor := some c, state := .waitingLine })
  | starts (v : JobView) (px : List Dot) (hf : x.inFlight = none) (hl : (s.lane h).takesPreload = true)
      (hd : s.cursorData h c = some (v, px)) (ht : t = s.preloading h x c v px)

theorem arriveOn_comes (s : State) (h : Head) (x : HeadRec) (c : Cursor) : Comes s h x c (arriveOn h x c s) := by
  cases hf : x.inFlight with
  | some f => exact .sending f hf (arriveOn_sending hf c s)
  | none =>
    by_cases hn : (s.lane h).takesPreload = false ∨ s.cursorData h c = none
    · exact .waits hf hn (arriveOn_waits hf hn)
    · obtain ⟨hl, hd⟩ := not_or.1 hn
      obtain ⟨⟨v, px⟩, hd⟩ := Option.ne_none_iff_exists'.1 hd
      exact .starts v px hf (Bool.of_not_eq_false hl) hd (arriveOn_starts hf (Bool.of_not_eq_false hl) hd)

theorem arriveOn_head_ne {i : Head} (hi : i ≠ h) : (arriveOn h x c s).head i = s.head i := by
  rcases arriveOn_comes s h x c with ⟨f, hf, ht⟩ | ⟨hf, hn, ht⟩ | ⟨v, px, hf, hl, hd, ht⟩ <;> rw [ht]
  · exact State.setHead_head_ne _ _ hi.symm
  · exact State.setHead_head_ne _ _ hi.symm
  · exact preloading_head_ne hi

theorem arriveOn_lane_ne {i : Head} (hi : i ≠ h) : (arriveOn h x c s).lane i = s.lane i := by
  rcases arriveOn_comes s h x c with ⟨f, hf, ht⟩ | ⟨hf, hn, ht⟩ | ⟨v, px, hf, hl, hd, ht⟩ <;> rw [ht]
  · rfl
  · rfl
  · exact preloading_lane_ne hi

theorem arriveOn_not_idle : ((arriveOn h x c s).head h).state ≠ .idle := by
  rcases arriveOn_comes s h x c with ⟨f, hf, ht⟩ | ⟨hf, hn, ht⟩ | ⟨v, px, hf, hl, hd, ht⟩ <;> rw [ht]
  · rw [State.setHead_head]; exact HeadState.noConfusion
  · rw [State.setHead_head]; exact HeadState.noConfusion
  · rw [preloading_head]; exact HeadState.noConfusion

theorem arriveOn_held {i : Head} {p : Plane} {n : Nat} {px : List Dot} (hi : h ≠ i) (hx : (s.plane p).Held n px i) :
    ((arriveOn h x c s).plane p).Held n px i := by
  rcases arriveOn_comes s h x c with ⟨f, hf, ht⟩ | ⟨hf, hn, ht⟩ | ⟨v, px', hf, hl, hd, ht⟩ <;> rw [ht]
  · exact hx
  · exact hx
  · unfold State.plane
    rw [preloading_store]
    exact hx.takeLine hi

end

/-! ## The heads that an activation is handed to (R36 step 4) -/

section
variable {s t : State} {id : Nat} {g h : Head}

/-- State t has head h of state s come to line 0 of a job. -/
structure State.Handed (s t : State) (id : Nat) (h : Head) : Prop where
  sending : ∀ z, (s.head h).inFlight = some z → t.lane h = s.lane h ∧
    t.head h = { s.head h with cursor := some ⟨id, 0⟩, state := .discarding }
  free : (s.head h).inFlight = none →
    (t.lane h = s.lane h ∧ t.head h = { s.head h with cursor := some ⟨id, 0⟩, state := .waitingLine }) ∨
      ((s.lane h).state = .up ∧ (s.lane h).hold.seen = false ∧ t.head h =
        { s.head h with cursor := some ⟨id, 0⟩, state := .loading, inFlight := some ⟨⟨id, 0⟩, .keep⟩ })
  starts : (s.head h).inFlight = none → ∀ v px, s.jobView h id = some v → (s.lane h).takesPreload = true →
    (s.plane v.plane).Held v.first px h →
    (t.head h).state = .loading ∧ t.lane h = (s.lane h).send (.fire (fireRecord h v 0 px (s.lane h).band))

theorem arriveOn_handed (s : State) (id : Nat) (h : Head) : s.Handed (arriveOn h (s.head h) ⟨id, 0⟩ s) id h where
  sending := fun z hz => by rw [arriveOn_sending hz]; exact ⟨rfl, State.setHead_head _ _ _⟩
  free := fun hz => by
    rcases arriveOn_comes s h (s.head h) ⟨id, 0⟩ with ⟨f, hf, ht⟩ | ⟨hf, hn, ht⟩ | ⟨v, px, hf, hl, hd, ht⟩
    · rw [hz] at hf; cases hf
    · rw [ht]; exact .inl ⟨rfl, State.setHead_head _ _ _⟩
    · rw [ht]
      exact .inr ⟨(takesPreload_iff.1 hl).1, (takesPreload_iff.1 hl).2, preloading_head s⟩
  starts := fun hz v px hv hl hx => by
    have hd : s.cursorData h ⟨id, 0⟩ = some (v, px) := by
      rw [cursorData_of_view (c := ⟨id, 0⟩) hv, show v.line (Cursor.mk id 0).index = v.first from rfl, hx.readyData]
      rfl
    rw [arriveOn_starts hz hl hd]
    exact ⟨by rw [preloading_head], preloading_lane s⟩

/-- Of a head that nothing has changed in between, but the lines that other heads have taken. -/
theorem State.Handed.of_later {u : State} (ht : u.Handed t id h) (hh : u.head h = s.head h) (hl : u.lane h = s.lane h)
    (hv : u.jobView h id = s.jobView h id)
    (hx : ∀ p n px, (s.plane p).Held n px h → (u.plane p).Held n px h) : s.Handed t id h where
  sending := by rw [← hh, ← hl]; exact ht.sending
  free := by rw [← hh, ← hl]; exact ht.free
  starts := by
    rw [← hh, ← hl, ← hv]
    exact fun hz v px hw hp hheld => ht.starts hz v px hw hp (hx _ _ _ hheld)

/-- The job handed to a list of heads, where line 0 lies ahead for each of them. -/
theorem handToHeads_ahead (hs : List Head) : ∀ s : State,
    (∀ h v, h ∈ hs → s.jobView h id = some v → s.position < v.due h 0) →
    ((handToHeads id hs s).jobs = s.jobs ∧ (handToHeads id hs s).banks = s.banks ∧
      (handToHeads id hs s).notices = s.notices ∧ (handToHeads id hs s).ptu = s.ptu) ∧
    ∀ h, (h ∉ hs ∨ (s.head h).state ≠ .idle →
        (handToHeads id hs s).head h = s.head h ∧ (handToHeads id hs s).lane h = s.lane h) ∧
      (h ∈ hs → (s.head h).state = .idle → s.Handed (handToHeads id hs s) id h) := by
  induction hs with
  | nil => exact fun s _ => ⟨⟨rfl, rfl, rfl, rfl⟩, fun h => ⟨fun _ => ⟨rfl, rfl⟩, fun hh => absurd hh List.not_mem_nil⟩⟩
  | cons g hs ih =>
    intro s hd
    by_cases hg : (s.head g).state = .idle
    · have harr : arrive g (s.head g) ⟨id, 0⟩ s = arriveOn g (s.head g) ⟨id, 0⟩ s :=
        arrive_ahead (fun v hv => hd g v List.mem_cons_self hv) _
      have hstep : handToHeads id (g :: hs) s = handToHeads id hs (arriveOn g (s.head g) ⟨id, 0⟩ s) := by
        rw [← harr]; exact congrArg (forEach hs _) (if_pos hg)
      obtain ⟨-, hj, hb, hp⟩ := arriveOn_cursor g (s.head g) ⟨id, 0⟩ s
      have hview : ∀ i, (arriveOn g (s.head g) ⟨id, 0⟩ s).jobView i id = s.jobView i id := fun i =>
        jobView_congr (by rw [hj]) (fun k => by rw [hb]) i id
      obtain ⟨⟨hj', hb', hn', hp'⟩, hheads⟩ := ih (arriveOn g (s.head g) ⟨id, 0⟩ s) fun i v hi hv => by
        rw [State.position, hp]
        exact hd i v (List.mem_cons_of_mem _ hi) (hview i ▸ hv)
      rw [hstep]
      refine ⟨⟨hj'.trans hj, hb'.trans hb, hn'.trans (arriveOn_notices _ _ _ _), hp'.trans hp⟩, fun i => ?_⟩
      by_cases hi : i = g
      · subst hi
        obtain ⟨hhead, hlane⟩ := (hheads i).1 (.inr arriveOn_not_idle)
        refine ⟨fun h => (h.elim (fun h => h List.mem_cons_self) fun h => h hg).elim, fun _ _ => ?_⟩
        obtain ⟨h1, h2, h3⟩ := arriveOn_handed s id i
        exact ⟨by rw [hhead, hlane]; exact h1, by rw [hhead, hlane]; exact h2, by rw [hhead, hlane]; exact h3⟩
      · have hhead : (arriveOn g (s.head g) ⟨id, 0⟩ s).head i = s.head i := arriveOn_head_ne hi
        have hlane : (arriveOn g (s.head g) ⟨id, 0⟩ s).lane i = s.lane i := arriveOn_lane_ne hi
        refine ⟨fun h => ?_, fun hm hidle => ?_⟩
        · rw [← hhead, ← hlane]
          exact (hheads i).1 (h.imp (fun h hm => h (List.mem_cons_of_mem _ hm)) fun h => by rwa [hhead])
        · exact ((hheads i).2 ((List.mem_cons.1 hm).resolve_left hi) (by rwa [hhead])).of_later hhead hlane (hview i)
            fun p n px hx => arriveOn_held (Ne.symm hi) hx
    · have hstep : handToHeads id (g :: hs) s = handToHeads id hs s := congrArg (forEach hs _) (if_neg hg)
      obtain ⟨hframe, hheads⟩ := ih s fun i v hi hv => hd i v (List.mem_cons_of_mem _ hi) hv
      rw [hstep]
      refine ⟨hframe, fun i => ⟨fun h => ?_, fun hm hidle => ?_⟩⟩
      · exact (hheads i).1 (h.imp (fun h hm => h (List.mem_cons_of_mem _ hm)) fun h => h)
      · exact (hheads i).2 ((List.mem_cons.1 hm).resolve_left fun e => hg (e ▸ hidle)) hidle

end

/-- Settles O45. -/
theorem recordActivates : Obligations.RecordActivates := by
  refine ⟨fun s pre post r start hi he _ => ?_, fun s id hs hd => ?_, fun s => ⟨fun hu => ?_, ?_⟩⟩
  · have hmem : r ∈ s.jobs.records := he ▸ List.mem_append_right pre List.mem_cons_self
    have htakers := takersFor_eq s
    have hact : s.activationOf r start = {
        t := start, bank := s.banks.active, takers := r.planes.map fun x => (x.plane, s.takersFor x.plane)
        progress := (r.planes.map fun x => (s.takersFor x.plane).length).sum, fired := 0, shortfall := 0 } := by
      unfold State.activationOf
      simp only [List.map_map, Function.comp_def]
    obtain ⟨hbanks, hheads, hlanes, hptu, htrig, hnotices⟩ := bindRecord_others s r start
    simp only [← htakers]
    refine ⟨bindRecord r start s, ?_, ?_, ?_, ?_, fun i => ⟨?_, ?_⟩, hheads, hlanes, hptu, htrig, hnotices,
      fun p => bindRecord_plane_other, fun x hx n h1 h2 hb hd' => bindRecord_lines hi hmem hx h1 h2 hb hd'⟩
    · rw [activateRecord_eq, activationOf_heads]
    · rw [← hact, ← bindRecord_records hi.distinct he start, bindRecord_jobs]
      rfl
    · rw [hbanks]; rfl
    · rw [hbanks]; rfl
    · rw [hbanks, setBound_tables]
    · rw [hbanks, setBound_bound]
      split
      · next h => rw [h]
      · rfl
  · obtain ⟨⟨hj, hb, hn, hp⟩, hheads⟩ := handToHeads_ahead (id := id) hs s hd
    refine ⟨hj, hb, hn, hp, fun h => ⟨(hheads h).1, fun hm hidle => ?_⟩⟩
    obtain ⟨hsend, hfree, hstart⟩ := (hheads h).2 hm hidle
    exact ⟨hsend, fun hz => ⟨hfree hz, fun v px ts hv hup hhold hbase htop hready hts hmem =>
      hstart hz v px hv (takesPreload_iff.2 ⟨hup, hhold⟩) ⟨hbase, htop, hready, ts, hts, hmem⟩⟩⟩
  · exact testChain_none (chainReady_unchained hu)
  · exact fun pre b a y post hi hq he hp hb hy hm => testChain_chained hi.distinct hq he hp hb hy hm

end Sys2Proof.Machine
end

section
/-!
PROOFS. Dues at an advance: what the records leave of a head's dues as other heads report to them, why a run of dues comes to
its end, and the advance that one head alone has a due at.
-/

namespace Sys2Proof.Machine

/-! ## A record in a thinned queue -/

/-- Where a list holds x once, what stands behind x in a sublist stood behind x. -/
theorem sublist_behind {α : Type} {x y : α} {l b : List α} : ∀ {a k : List α}, (k ++ x :: l).Sublist (a ++ y :: b) →
    x ∉ a → x ∉ b → x = y ∧ l.Sublist b
  | [], k, h, _, hb => by
    rcases List.sublist_cons_iff.1 h with h | ⟨m, hm, hs⟩
    · exact absurd (h.subset (List.mem_append_right k List.mem_cons_self)) hb
    · cases k with
      | nil =>
        obtain ⟨rfl, rfl⟩ := List.cons.inj hm
        exact ⟨rfl, hs⟩
      | cons z k =>
        obtain ⟨-, rfl⟩ := List.cons.inj hm
        exact absurd (hs.subset (List.mem_append_right k List.mem_cons_self)) hb
  | z :: a, k, h, ha, hb => by
    obtain ⟨hz, ha⟩ := not_or.1 fun e => ha (List.mem_cons.2 e)
    rcases List.sublist_cons_iff.1 h with h | ⟨m, hm, hs⟩
    · exact sublist_behind h ha hb
    · cases k with
      | nil => exact absurd (List.cons.inj hm).1 hz
      | cons w k =>
        obtain ⟨-, rfl⟩ := List.cons.inj hm
        exact sublist_behind hs ha hb

section
variable {q q' : JobQueue} {pre post : List JobRec} {r r' : JobRec} {id : Nat}

/-- What records of one outline have in common. -/
theorem outline_fields (ho : r'.outline = r.outline) : r'.id = r.id ∧ r'.length = r.length ∧ r'.planes = r.planes := by
  have hid := congrArg JobRec.id ho
  have hlength := congrArg JobRec.length ho
  have hplanes := congrArg JobRec.planes ho
  exact ⟨hid, hlength, hplanes⟩

/-- Of activations that differ in their progress and totals alone. -/
theorem outline_active {a a' : Activation} (ho : r'.outline = r.outline) (ha' : r'.active = some a')
    (ha : r.active = some a) : a'.bank = a.bank ∧ a'.t = a.t := by
  have hact := congrArg JobRec.active ho
  rw [JobRec.outline, JobRec.outline, ha, ha'] at hact
  have hact := Option.some.inj hact
  have hbank := congrArg (fun x : Activation => x.bank) hact
  have hstart := congrArg (fun x : Activation => x.t) hact
  exact ⟨hbank, hstart⟩

/-- A record that a thinned queue still holds: as it was but for the totals, with no record behind it that did not stand
there before. -/
theorem Thinned.behind (ht : Thinned q q') (hq : q.Distinct) (he : q.records = pre ++ r :: post)
    (hf : q'.find r.id = some r') : r'.outline = r.outline ∧ ∃ pre' post', q'.records = pre' ++ r' :: post' ∧
      (post'.map JobRec.outline).Sublist (post.map JobRec.outline) := by
  obtain ⟨-, pre', post', he', -⟩ := List.find?_eq_some_iff_append.1 hf
  have hid : r'.id = r.id := JobQueue.find_id hf
  have hnotin {l : List JobRec} (hl : ∀ x ∈ l, x ∈ pre ∨ x ∈ post) : r'.outline ∉ l.map JobRec.outline := fun hm => by
    obtain ⟨x, hx, e⟩ := List.mem_map.1 hm
    exact hq.ne_of_split he (hl x hx) ((outline_fields e).1.trans hid)
  have hsub := ht.outlines
  rw [he, he', List.map_append, List.map_append, List.map_cons, List.map_cons] at hsub
  obtain ⟨ho, hs⟩ := sublist_behind hsub (hnotin fun _ => .inl) (hnotin fun _ => .inr)
  exact ⟨ho, pre', post', he', hs⟩

theorem Thinned.found (ht : Thinned q q') (hq : q.Distinct) (hf : q'.find id = some r') :
    ∃ r, q.find id = some r ∧ r'.outline = r.outline := by
  have hmem : r'.outline ∈ q.records.map JobRec.outline :=
    ht.outlines.subset (List.mem_map_of_mem (JobQueue.find_mem hf))
  obtain ⟨r, hr, ho⟩ := List.mem_map.1 hmem
  obtain ⟨pre, post, he⟩ := List.append_of_mem hr
  have hid : r.id = id := (outline_fields ho).1.trans (JobQueue.find_id hf)
  exact ⟨r, hid ▸ hq.find_split he, ho.symm⟩

theorem after_split (hq : q.Distinct) (he : q.records = pre ++ r :: post) : q.after r.id = post := by
  have hpre : pre.dropWhile (fun x => x.id != r.id) = [] := List.dropWhile_eq_nil_iff.2 fun x hx => by
    simpa using hq.ne_of_split he (.inl hx)
  unfold JobQueue.after
  rw [he, List.dropWhile_append, hpre]
  simp

end

/-! ## A head's dues while others report (R73, R76) -/

section
variable {s t : State} {h : Head} {id : Nat} {v : JobView}

/-- What a head reads of a job, item by item. -/
theorem jobView_eq_some : s.jobView h id = some v ↔ s.jobs.find id = some v.job ∧ v.job.active = some v.act ∧
    v.tables = s.banks.tables v.act.bank ∧ (v.tables.head h).plane = some v.plane ∧
      ∃ x, (v.job.planes.find? fun x => x.plane == v.plane) = some x ∧ v.first = x.first := by
  unfold State.jobView
  constructor
  · intro hv
    cases hf : s.jobs.find id with
    | none => rw [hf] at hv; cases hv
    | some r =>
      rw [hf] at hv
      dsimp only at hv
      cases ha : r.active with
      | none => rw [ha] at hv; cases hv
      | some a =>
        rw [ha] at hv
        dsimp only at hv
        cases hp : ((s.banks.tables a.bank).head h).plane with
        | none => rw [hp] at hv; cases hv
        | some p =>
          rw [hp] at hv
          obtain ⟨x, hx, rfl⟩ := Option.map_eq_some_iff.1 hv
          exact ⟨rfl, ha, rfl, hp, x, hx, rfl⟩
  · rintro ⟨hf, ha, ht, hp, x, hx, hfirst⟩
    rw [hf]
    dsimp only
    rw [ha]
    dsimp only
    rw [← ht, hp]
    dsimp only
    rw [hx, Option.map_some, ← hfirst]

theorem jobView_find (hv : s.jobView h id = some v) : s.jobs.find id = some v.job := (jobView_eq_some.1 hv).1

theorem jobView_active (hv : s.jobView h id = some v) : v.job.active = some v.act := (jobView_eq_some.1 hv).2.1

/-- What a head reads of a job: the same job, plane and due positions, however the job has been reported to. -/
theorem jobView_thinned (ht : Thinned s.jobs t.jobs) (hq : s.jobs.Distinct) (hb : ∀ i, t.banks.tables i = s.banks.tables i)
    (hv : t.jobView h id = some v) : ∃ w, s.jobView h id = some w ∧ v.plane = w.plane ∧ v.first = w.first ∧
      v.job.outline = w.job.outline ∧ ∀ n, v.due h n = w.due h n := by
  obtain ⟨hf', ha', htab, hp, x, hx, hfirst⟩ := jobView_eq_some.1 hv
  obtain ⟨r, hf, ho⟩ := ht.found hq hf'
  obtain ⟨-, -, hplanes⟩ := outline_fields ho
  have hactive : v.job.active.isSome = r.active.isSome := by
    have h := congrArg (fun x : JobRec => x.active.isSome) ho
    simpa [JobRec.outline] using h
  obtain ⟨a, ha⟩ := Option.isSome_iff_exists.1 (hactive ▸ ha' ▸ rfl : r.active.isSome = true)
  obtain ⟨hbank, hstart⟩ := outline_active ho ha' ha
  rw [hb, hbank] at htab
  refine ⟨⟨r, a, v.tables, v.plane, v.first⟩, jobView_eq_some.2 ⟨hf, ha, htab, hp, x, hplanes ▸ hx, hfirst⟩, rfl, rfl, ho,
    fun n => ?_⟩
  simp only [JobView.due, hstart]

/-- Reports of other heads bring a head no due. -/
theorem reachedDue_none_thinned (ht : Thinned s.jobs t.jobs) (hq : s.jobs.Distinct)
    (hb : ∀ i, t.banks.tables i = s.banks.tables i) (hp : t.position = s.position) (hc : (t.head h).cursor = (s.head h).cursor)
    (hn : s.reachedDue h = none) : t.reachedDue h = none := by
  rw [Option.eq_none_iff_forall_ne_some]
  intro c hd
  obtain ⟨hcur, v, hv, hdue⟩ := reachedDue_eq_some.1 hd
  obtain ⟨w, hw, -, -, -, hsame⟩ := jobView_thinned ht hq hb hv
  have hs : s.reachedDue h = some c := reachedDue_eq_some.2 ⟨hc ▸ hcur, w, hw, by rw [← hsame, ← hp]; exact hdue⟩
  rw [hn] at hs
  cases hs

theorem runDues_still {i : Head} (hq : s.jobs.Distinct) (hi : i ≠ h) (k : Nat) (hn : s.reachedDue i = none) :
    (runDues h k s).reachedDue i = none :=
  have hw := within_runDues (P := (· = h)) s rfl k
  reachedDue_none_thinned (thins_runDues h k s hq) hq hw.tables hw.position (by rw [hw.head_ne hi]) hn

end

/-! ## A run of dues comes to its end (R76) -/

section
variable {s : State} {h : Head} {q q' : JobQueue} {c : Cursor}

/-- No two records have the same id, and no record is without lines. -/
structure JobQueue.Lined (q : JobQueue) : Prop where
  distinct : q.Distinct
  lined : ∀ r ∈ q.records, 1 ≤ r.length

/-- A bound on the due events a head can have from a cursor line on: the lines of the cursor job that are left, at least one,
and the lines of the jobs behind it. -/
def JobQueue.ahead (q : JobQueue) (c : Cursor) : Nat :=
  max (q.lengthOf c.job - c.index) 1 + ((q.after c.job).map JobRec.length).sum

theorem JobQueue.Lined.thinned (hq : q.Lined) (ht : Thinned q q') : q'.Lined where
  distinct := ht.distinct hq.distinct
  lined := fun r hr => by
    obtain ⟨x, hx, ho⟩ := List.mem_map.1 (ht.outlines.subset (List.mem_map_of_mem (f := JobRec.outline) hr))
    exact (hq.lined x hx).trans (outline_fields ho).2.1.le

theorem lengthOf_split {pre post : List JobRec} {r : JobRec} (hq : q.Distinct) (he : q.records = pre ++ r :: post) :
    q.lengthOf r.id = r.length := by
  unfold JobQueue.lengthOf
  rw [hq.find_split he]

theorem ahead_split {pre post : List JobRec} {r : JobRec} (hq : q.Distinct) (he : q.records = pre ++ r :: post) (n : Nat) :
    q.ahead ⟨r.id, n⟩ = max (r.length - n) 1 + (post.map JobRec.length).sum := by
  unfold JobQueue.ahead
  rw [lengthOf_split hq he, after_split hq he]

theorem ahead_of_none (hf : q.find c.job = none) : q.ahead c = 1 := by
  have hafter : q.after c.job = [] := by
    unfold JobQueue.after
    rw [List.dropWhile_eq_nil_iff.2 fun x hx => by simpa using List.find?_eq_none.1 hf x hx]
    rfl
  unfold JobQueue.ahead JobQueue.lengthOf
  rw [hf, hafter]
  simp

/-- Reports bring a head nearer to the end, or leave it where it is. -/
theorem Thinned.ahead_le (ht : Thinned q q') (hq : q.Distinct) (c : Cursor) : q'.ahead c ≤ q.ahead c := by
  cases hf' : q'.find c.job with
  | none =>
    rw [ahead_of_none hf', JobQueue.ahead]
    omega
  | some r' =>
    obtain ⟨r, hf, -⟩ := ht.found hq hf'
    obtain ⟨hr, pre, post, he, -⟩ := List.find?_eq_some_iff_append.1 hf
    obtain ⟨id, n⟩ := c
    obtain rfl : r.id = id := JobQueue.find_id hf
    obtain ⟨ho, pre', post', he', hs⟩ := ht.behind hq he hf'
    obtain ⟨hid, hlen, -⟩ := outline_fields ho
    have hlens (l : List JobRec) : l.map JobRec.length = (l.map JobRec.outline).map JobRec.length := by
      rw [List.map_map]; rfl
    have hsum : (post'.map JobRec.length).sum ≤ (post.map JobRec.length).sum := by
      rw [hlens post', hlens post]
      exact (hs.map JobRec.length).sum_le_sum fun _ _ => Nat.zero_le _
    rw [ahead_split hq he, ← hid, ahead_split (ht.distinct hq) he', hlen]
    omega

/-- On the next line a head is nearer to the end. -/
theorem ahead_nextLine {d : Cursor} (hq : s.jobs.Lined) (hf : s.jobs.find c.job ≠ none) (hd : s.nextLine h c = some d) :
    s.jobs.ahead d < s.jobs.ahead c := by
  obtain ⟨r, hf⟩ := Option.ne_none_iff_exists'.1 hf
  obtain ⟨-, pre, post, he, -⟩ := List.find?_eq_some_iff_append.1 hf
  obtain ⟨id, n⟩ := c
  obtain rfl : r.id = id := JobQueue.find_id hf
  unfold State.nextLine at hd
  rw [hf] at hd
  dsimp only at hd
  rw [ahead_split hq.distinct he]
  split at hd
  · next hn =>
    cases hd
    rw [ahead_split hq.distinct he]
    omega
  · unfold State.nextJob at hd
    rw [after_split hq.distinct he] at hd
    obtain ⟨r', hr', rfl⟩ := Option.map_eq_some_iff.1 hd
    obtain ⟨-, mid, last, hpost, -⟩ := List.find?_eq_some_iff_append.1 hr'
    have he' : s.jobs.records = (pre ++ r :: mid) ++ r' :: last := by rw [he, hpost]; simp
    have hlen := hq.lined r' (by rw [he']; simp)
    rw [ahead_split hq.distinct he', hpost, List.map_append, List.sum_append, List.map_cons, List.sum_cons]
    omega

theorem downshifted_head (h : Head) (s : State) : (s.downshifted h).head h = { s.head h with inFlight := none } := by
  unfold State.downshifted
  rw [(quiet_submit _ _).head, State.setLane_head, (quiet_submit _ _).head, State.setHead_head]

theorem becomeIdle_cursor (h : Head) (x : HeadRec) (s : State) : ((becomeIdle h x s).head h).cursor = none := by
  unfold becomeIdle
  have hc : ((s.setHead h { x with cursor := none, state := .idle }).head h).cursor = none := by rw [State.setHead_head]
  generalize s.setHead h { x with cursor := none, state := .idle } = u at hc
  by_cases hd : (u.lane h).downshift = true ∧ (u.lane h).state = .up ∧ (u.head h).state = .idle
  · rw [testDownshift_due hd.1 hd.2.1 hd.2.2, downshifted_head, hc]
  · rw [testDownshift_void hd, hc]

theorem goTo_cursor (h : Head) (x : HeadRec) (c : Option Cursor) (s : State) : ((goTo h x c s).head h).cursor = c := by
  cases c with
  | none => exact becomeIdle_cursor h x s
  | some c => exact (arriveOn_cursor h x c s).1

theorem dueEvent_cursor (h : Head) (c : Cursor) (s : State) : ((dueEvent h c s).head h).cursor = s.nextLine h c :=
  goTo_cursor h _ _ _

/-- As many due events as the bound says leave no due reached. -/
theorem runDues_done (k : Nat) : ∀ s : State, s.jobs.Lined → (∀ c, (s.head h).cursor = some c → s.jobs.ahead c ≤ k) →
    (runDues h k s).reachedDue h = none := by
  induction k with
  | zero =>
    intro s hq hk
    refine reachedDue_none fun c v hc _ => ?_
    have := hk c hc
    unfold JobQueue.ahead at this
    omega
  | succ k ih =>
    intro s hq hk
    unfold runDues
    cases hd : s.reachedDue h with
    | none => exact hd
    | some c =>
      obtain ⟨hc, v, hv, -⟩ := reachedDue_eq_some.1 hd
      have ht := thins_dueEvent h c s hq.distinct
      refine ih (dueEvent h c s) (hq.thinned ht) fun d hcur => ?_
      rw [dueEvent_cursor] at hcur
      have hlt := ahead_nextLine hq (by rw [jobView_find hv]; exact Option.some_ne_none _) hcur
      have hle := ht.ahead_le hq.distinct d
      have := hk c hc
      omega

theorem ahead_le_dueBound (hq : s.jobs.Lined) (c : Cursor) : s.jobs.ahead c ≤ s.dueBound := by
  show _ ≤ (s.jobs.records.map JobRec.length).sum + 1
  cases hf : s.jobs.find c.job with
  | none =>
    rw [ahead_of_none hf]
    omega
  | some r =>
    obtain ⟨-, pre, post, he, -⟩ := List.find?_eq_some_iff_append.1 hf
    obtain ⟨id, n⟩ := c
    obtain rfl : r.id = id := JobQueue.find_id hf
    have hr := hq.lined r (JobQueue.find_mem hf)
    rw [ahead_split hq.distinct he, he, List.map_append, List.sum_append, List.map_cons, List.sum_cons]
    omega

theorem State.Inv.lined (hi : s.Inv) : s.jobs.Lined := ⟨hi.distinct, fun r hr => (hi.jobs.records r hr).length.1⟩

/-! ## The advance (R9, R76) -/

/-- A run of dues for each head of a list leaves none of them, and no head that had none, a due reached. -/
theorem forEach_runDues_none (l : List Head) : ∀ s : State, s.jobs.Lined → ∀ i, i ∈ l ∨ s.reachedDue i = none →
    (forEach l (fun h s => runDues h s.dueBound s) s).reachedDue i = none := by
  induction l with
  | nil => exact fun s _ i hi => hi.resolve_left List.not_mem_nil
  | cons h l ih =>
    intro s hq i hi
    have hdone : (runDues h s.dueBound s).reachedDue h = none :=
      runDues_done s.dueBound s hq fun c _ => ahead_le_dueBound hq c
    refine ih (runDues h s.dueBound s) (hq.thinned (thins_runDues h _ s hq.distinct)) i ?_
    by_cases hh : i = h
    · exact .inr (hh ▸ hdone)
    · exact hi.imp (fun hm => (List.mem_cons.1 hm).resolve_left hh) (runDues_still hq.distinct hh _)

/-- Where one head alone has a due reached, the runs of the heads are its run. -/
theorem forEach_runDues_one {h : Head} (l : List Head) (hl : l.Nodup) : ∀ s : State, s.jobs.Distinct → h ∈ l →
    (∀ i, i ≠ h → s.reachedDue i = none) →
    forEach l (fun h s => runDues h s.dueBound s) s = runDues h s.dueBound s := by
  induction l with
  | nil => exact fun _ _ hh => absurd hh List.not_mem_nil
  | cons g l ih =>
    intro s hq hh hn
    obtain ⟨hg, hl⟩ := List.nodup_cons.1 hl
    rw [forEach_cons]
    by_cases hgh : g = h
    · subst hgh
      refine forEach_fix fun i hi => ?_
      have hne : i ≠ g := fun e => hg (e ▸ hi)
      exact runDues_none (runDues_still hq hne _ (hn i hne)) _
    · rw [runDues_none (hn g hgh)]
      exact ih hl s hq ((List.mem_cons.1 hh).resolve_left (Ne.symm hgh)) hn

/-- The position an advance presents, before any due event. -/
def State.presenting (s : State) : State := s.setPtu { s.ptu with presented := s.position }

theorem presentAdvance_one {h : Head} (hq : s.jobs.Distinct) (hn : ∀ i, i ≠ h → s.reachedDue i = none) :
    presentAdvance s = runDues h s.dueBound s.presenting :=
  forEach_runDues_one allHeads (by decide) s.presenting hq (mem_allHeads h) hn

theorem runDues_once {h : Head} {c : Cursor} {t : State} (hc : s.reachedDue h = some c) (ht : dueEvent h c s = t)
    (hn : t.reachedDue h = none) (k : Nat) : runDues h (k + 1) s = t := by
  rw [runDues, hc, ← ht]
  exact runDues_none (ht ▸ hn) k

theorem exec_advance_due (hs : s.ptu.state ≠ .off) (hp : s.ptu.presented < s.ptu.s / 2 ^ 24) :
    exec .advance s = .next (presentAdvance s) :=
  congrArg Host.Outcome.next (if_pos ⟨hs, hp⟩)

/-- Settles O18. -/
theorem advanceTakesEveryReachedDue : Obligations.AdvanceTakesEveryReachedDue := by
  refine fun s hi => ⟨fun hs hp => ⟨_, exec_advance_due hs hp, presentAdvance_ptu s, fun h => ?_⟩, fun hn => ?_⟩
  · exact forEach_runDues_none allHeads s.presenting hi.lined h (.inl (mem_allHeads h))
  · exact congrArg Host.Outcome.next (if_neg fun h => hn.elim h.1 h.2.not_ge)

end

end Sys2Proof.Machine
end

section
/-!
PROOFS. Reports and retirement, and the advance at which the last taker of a job meets its last due.
-/

namespace Sys2Proof.Machine

variable {s t : State} {pre post : List JobRec} {r : JobRec} {a : Activation} {h : Head} {c : Cursor}

/-! ## A job unbound from its bank (R142, R150) -/

/-- Banks x with one job fewer bound to bank i: a DRAINING bank that was bound to it alone begins its copy. -/
structure Unbound (x : Banks) (i : BankId) (b : Banks) : Prop where
  active : b.active = x.active
  other : b.other = if x.other = .draining ∧ i = x.otherId ∧ x.bound i = 1 then .copying 0 else x.other
  tables : ∀ j, b.tables j = x.tables j ∧ b.bound j = x.bound j - if j = i then 1 else 0

theorem unbindBank_unbound {i : BankId} (hb : 0 < s.banks.bound i) :
    ∃ b, Unbound s.banks i b ∧ unbindBank i s = s.setBanks b := by
  have hbound (j : BankId) : (s.banks.setBound i (s.banks.bound i - 1)).bound j =
      s.banks.bound j - if j = i then 1 else 0 := by
    rw [setBound_bound]
    split
    · next h => rw [h]
    · rfl
  have hone : (s.banks.setBound i (s.banks.bound i - 1)).bound i = 0 ↔ s.banks.bound i = 1 := by
    rw [hbound, if_pos rfl]
    omega
  refine ⟨_, ⟨?_, ?_, fun j => ⟨?_, ?_⟩⟩, rfl⟩
  · split <;> rfl
  · rw [setBound_other, setBound_otherId]
    by_cases hd : s.banks.other = .draining ∧ i = s.banks.otherId ∧ s.banks.bound i = 1
    · rw [if_pos hd, if_pos ⟨hd.1, hd.2.1, hone.2 hd.2.2⟩]
    · rw [if_neg hd, if_neg fun h => hd ⟨h.1, h.2.1, hone.1 h.2.2⟩]
      rfl
  · split <;> exact setBound_tables _ _ _ _
  · split <;> exact hbound j

/-! ## A report and a retirement, of a record in its place (R37, R38) -/

/-- State s with an ACTIVE record retired: it has left the queue and its bank, and JOB_DONE is submitted with its totals. -/
def State.Retired (s : State) (pre : List JobRec) (r : JobRec) (post : List JobRec) (i : BankId) (fired shortfall : Nat)
    (t : State) : Prop :=
  ∃ b, Unbound s.banks i b ∧ t = submit (.jobDone r.id fired shortfall r.tag)
    ((s.setJobs { s.jobs with records := pre ++ post }).setBanks b)

/-- State s with the activation of a record replaced. -/
def State.told (s : State) (pre : List JobRec) (r : JobRec) (post : List JobRec) (a : Activation) : State :=
  s.setJobs { s.jobs with records := pre ++ { r with active := some a } :: post }

theorem update_split (hq : s.jobs.Distinct) (he : s.jobs.records = pre ++ r :: post) (b : Activation) :
    s.setJobs (s.jobs.update r.id fun x => { x with active := some b }) = s.told pre r post b := by
  have hrec := update_records (f := fun x => { x with active := some b }) he rfl
    (fun x hx => hq.ne_of_split he (.inl hx)) fun x hx => hq.ne_of_split he (.inr hx)
  exact congrArg (fun l => s.setJobs { s.jobs with records := l }) hrec

theorem told_distinct (hq : s.jobs.Distinct) (he : s.jobs.records = pre ++ r :: post) (b : Activation) :
    (s.told pre r post b).jobs.Distinct := by
  unfold JobQueue.Distinct State.told at *
  rw [he] at hq
  simpa using hq

theorem retire_split (hq : s.jobs.Distinct) (he : s.jobs.records = pre ++ r :: post) (ha : r.active = some a)
    (hb : 0 < s.banks.bound a.bank) : s.Retired pre r post a.bank a.fired a.shortfall (retire r.id s) := by
  have hrec := remove_records he rfl (fun x hx => hq.ne_of_split he (.inl hx)) fun x hx => hq.ne_of_split he (.inr hx)
  have hjobs : s.jobs.remove r.id = { s.jobs with records := pre ++ post } :=
    congrArg (fun l => { s.jobs with records := l }) hrec
  obtain ⟨b, hub, hun⟩ := unbindBank_unbound (s := s.setJobs { s.jobs with records := pre ++ post }) (i := a.bank) hb
  refine ⟨b, hub, ?_⟩
  unfold retire
  rw [hq.find_split he]
  dsimp only
  rw [ha]
  dsimp only
  rw [hjobs, hun]

theorem retireIfEmpty_split (hq : s.jobs.Distinct) (he : s.jobs.records = pre ++ r :: post) (ha : r.active = some a) :
    retireIfEmpty r.id s = if a.progress = 0 then retire r.id s else s := by
  unfold retireIfEmpty
  rw [hq.find_split he]
  dsimp only
  rw [ha]

theorem report_split (hq : s.jobs.Distinct) (he : s.jobs.records = pre ++ r :: post) (ha : r.active = some a) (n : Nat)
    (fired retires : Bool) : report r.id n fired retires s =
      if ((n + 1 == r.length) && (a.reported fired (n + 1 == r.length)).progress == 0 && retires) = true then
        retire r.id (s.told pre r post (a.reported fired (n + 1 == r.length)))
      else s.told pre r post (a.reported fired (n + 1 == r.length)) := by
  unfold report
  rw [hq.find_split he]
  dsimp only
  rw [ha]
  dsimp only
  rw [update_split hq he]

/-- A report of a line that is not the last. -/
theorem report_line (hq : s.jobs.Distinct) (he : s.jobs.records = pre ++ r :: post) (ha : r.active = some a) {n : Nat}
    (hn : n + 1 ≠ r.length) (fired retires : Bool) :
    report r.id n fired retires s = s.told pre r post (a.reported fired false) := by
  rw [report_split hq he ha, beq_false_of_ne hn]
  exact if_neg (by simp)

/-- A report of the last line, while other takers have theirs still ahead. -/
theorem report_last (hq : s.jobs.Distinct) (he : s.jobs.records = pre ++ r :: post) (ha : r.active = some a) {n : Nat}
    (hn : n + 1 = r.length) (hp : 1 < a.progress) (fired retires : Bool) :
    report r.id n fired retires s = s.told pre r post (a.reported fired true) := by
  rw [report_split hq he ha, hn, beq_self_eq_true]
  have hne : a.progress - 1 ≠ 0 := by omega
  exact if_neg (by simp [Activation.reported, hne])

/-- The report of the last line of the last taker. -/
theorem report_retires (hq : s.jobs.Distinct) (he : s.jobs.records = pre ++ r :: post) (ha : r.active = some a)
    (hb : 0 < s.banks.bound a.bank) {n : Nat} (hn : n + 1 = r.length) (hp : a.progress ≤ 1) (fired : Bool) :
    s.Retired pre r post a.bank (a.fired + if fired then 1 else 0) (a.shortfall + if fired then 0 else 1)
      (report r.id n fired true s) := by
  rw [report_split hq he ha, hn, beq_self_eq_true]
  have hz : a.progress - 1 = 0 := by omega
  have hcond : (true && (a.reported fired true).progress == 0 && true) = true := by simp [Activation.reported, hz]
  rw [if_pos hcond]
  exact retire_split (s := s.told pre r post (a.reported fired true)) (r := { r with active := some (a.reported fired true) })
    (told_distinct hq he _) rfl rfl hb

theorem report_gone {id n : Nat} {fired retires : Bool} (hn : ∀ r ∈ s.jobs.records, r.id ≠ id) :
    report id n fired retires s = s := by
  have hf : s.jobs.find id = none := List.find?_eq_none.2 fun r hr => by simpa using hn r hr
  unfold report
  rw [hf]

/-- The bank of an ACTIVE record has a job bound to it (R142). -/
theorem State.Inv.bound_pos (hi : s.Inv) (he : s.jobs.records = pre ++ r :: post) (ha : r.active = some a) :
    0 < s.banks.bound a.bank := by
  rw [hi.banks.bound, he, boundTo_split, boundTo_single ha, if_pos rfl]
  exact Nat.succ_pos _

/-! ## The due event of a head -/

/-- A due event up to its report: the outcome is counted, and the line taken unless it was rendered (R82, R84). -/
def State.metDue (s : State) (h : Head) (c : Cursor) : State :=
  let t := countOutcome h (dueOutcome (s.lane h) (s.head h).state) c s
  if (s.head h).state.unrendered then takeOf h c false t else t

/-- A due event up to the head's going on: the report, and the strobe of a line that fires (R37, R85). -/
def State.reportedDue (s : State) (h : Head) (c : Cursor) : State :=
  let o := dueOutcome (s.lane h) (s.head h).state
  let t := report c.job c.index (o == .fired) true (s.metDue h c)
  if o = .fired then changeLane h Lane.strobe t else t

theorem dueEvent_eq (h : Head) (c : Cursor) (s : State) : dueEvent h c s =
    goTo h ((s.reportedDue h c).head h).leaveLine (s.nextLine h c) (s.reportedDue h c) := rfl

theorem countOutcome_quiet (h : Head) (o : DueOutcome) (c : Cursor) (s : State) : Quiet s (countOutcome h o c s) := by
  unfold countOutcome
  dsimp only
  split
  · exact quiet_bump _ s
  · exact (quiet_bump _ s).trans (quiet_submitCondition _ _ _)

theorem takeOf_banks (h : Head) (c : Cursor) (b : Bool) (s : State) : (takeOf h c b s).banks = s.banks := by
  unfold takeOf
  split
  · rfl
  · exact storeChange_banks _ _ _

theorem takeOf_head (h i : Head) (c : Cursor) (b : Bool) (s : State) : (takeOf h c b s).head i = s.head i :=
  (within_takeOf c s (fun _ => False) h b).heads i id

theorem takeOf_lane (h i : Head) (c : Cursor) (b : Bool) (s : State) : (takeOf h c b s).lane i = s.lane i :=
  (within_takeOf c s (fun _ => False) h b).lanes i id

/-- A due event up to its report leaves the records, the banks, the heads and the lanes. -/
theorem metDue_kept (s : State) (h : Head) (c : Cursor) : (s.metDue h c).jobs = s.jobs ∧ (s.metDue h c).banks = s.banks ∧
    (∀ i, (s.metDue h c).head i = s.head i) ∧ ∀ i, (s.metDue h c).lane i = s.lane i := by
  have hq := countOutcome_quiet h (dueOutcome (s.lane h) (s.head h).state) c s
  unfold State.metDue
  dsimp only
  split
  · exact ⟨(takeOf_jobs _ _ _ _).trans hq.jobs, (takeOf_banks _ _ _ _).trans hq.banks,
      fun i => (takeOf_head _ _ _ _ _).trans (hq.head i), fun i => (takeOf_lane _ _ _ _ _).trans (hq.lane i)⟩
  · exact ⟨hq.jobs, hq.banks, hq.head, hq.lane⟩

theorem strobe_downshift (l : Lane) : l.strobe.downshift = l.downshift := by
  unfold Lane.strobe
  split <;> rfl

/-- A head without a line to go to, where no downshift is pending. -/
theorem goTo_none (hd : (s.lane h).downshift = false) (x : HeadRec) :
    goTo h x none s = s.setHead h { x with cursor := none, state := .idle } := by
  refine testDownshift_void fun hn => ?_
  rw [State.setHead_lane, hd] at hn
  cases hn.1

theorem nextLine_none (hq : s.jobs.Distinct) (he : s.jobs.records = pre ++ r :: post) (hc : c.job = r.id)
    (hn : c.index + 1 = r.length) (hp : ∀ y ∈ post, y.takenBy h = false) : s.nextLine h c = none := by
  have hnext : s.nextJob h r.id = none := by
    unfold State.nextJob
    rw [after_split hq he, List.find?_eq_none.2 fun y hy => by rw [hp y hy]; decide]
    rfl
  unfold State.nextLine
  rw [hc, hq.find_split he]
  dsimp only
  rw [if_neg (by omega), hnext]

/-- The last due of the last taker. -/
theorem dueEvent_retires (hq : s.jobs.Distinct) (he : s.jobs.records = pre ++ r :: post) (ha : r.active = some a)
    (hb : 0 < s.banks.bound a.bank) (hc : c.job = r.id) (hn : c.index + 1 = r.length) (hp : a.progress ≤ 1)
    (hpost : ∀ y ∈ post, y.takenBy h = false) (hd : (s.lane h).downshift = false) :
    (dueEvent h c s).jobs = { s.jobs with records := pre ++ post } ∧ Unbound s.banks a.bank (dueEvent h c s).banks ∧
      ((dueEvent h c s).head h).cursor = none ∧ ((dueEvent h c s).head h).state = .idle := by
  obtain ⟨hjobs, hbanks, -, hlanes⟩ := metDue_kept s h c
  obtain ⟨b, hub, hrep⟩ := report_retires (s := s.metDue h c) (by rw [hjobs]; exact hq) (by rw [hjobs]; exact he) ha
    (by rw [hbanks]; exact hb) hn hp (dueOutcome (s.lane h) (s.head h).state == .fired)
  rw [hbanks] at hub
  have hkept : (s.reportedDue h c).jobs = { s.jobs with records := pre ++ post } ∧ (s.reportedDue h c).banks = b ∧
      ((s.reportedDue h c).lane h).downshift = false := by
    unfold State.reportedDue
    dsimp only
    rw [hc, hrep]
    have hquiet := quiet_submit (.jobDone r.id (a.fired + if dueOutcome (s.lane h) (s.head h).state == .fired then 1 else 0)
      (a.shortfall + if dueOutcome (s.lane h) (s.head h).state == .fired then 0 else 1) r.tag)
      (((s.metDue h c).setJobs { (s.metDue h c).jobs with records := pre ++ post }).setBanks b)
    split
    · refine ⟨hquiet.jobs.trans (by rw [hjobs]; rfl), hquiet.banks, ?_⟩
      rw [changeLane, State.setLane_lane, strobe_downshift, hquiet.lane]
      exact (congrArg Lane.downshift (hlanes h)).trans hd
    · refine ⟨hquiet.jobs.trans (by rw [hjobs]; rfl), hquiet.banks, ?_⟩
      rw [hquiet.lane]
      exact (congrArg Lane.downshift (hlanes h)).trans hd
  obtain ⟨hj, hbk, hdown⟩ := hkept
  rw [dueEvent_eq, nextLine_none hq he hc hn hpost, goTo_none hdown, State.setHead_head]
  exact ⟨hj, hbk ▸ hub, rfl, rfl⟩

/-- Settles O50. -/
theorem recordRetires : Obligations.RecordRetires := by
  refine ⟨fun s id n fired hn => report_gone hn, fun s pre post r a hi he ha => ?_⟩
  have hq := hi.distinct
  have hb := hi.bound_pos he ha
  intro unbound left retired
  have hret {f m : Nat} {t : State} (h : s.Retired pre r post a.bank f m t) : retired f m t := by
    obtain ⟨b, ⟨h1, h2, h3⟩, ht⟩ := h
    exact ⟨b, ⟨h1, h2, h3⟩, ht⟩
  refine ⟨fun hp => ?_, fun hp => ?_, fun n fired => ?_, ?_⟩
  · rw [retireIfEmpty_split hq he ha, if_neg hp.ne']
  · rw [retireIfEmpty_split hq he ha, if_pos hp]
    exact hret (retire_split hq he ha hb)
  · exact ⟨fun hn => report_line hq he ha hn fired true, fun hn hp => report_last hq he ha hn hp fired true,
      fun hn hp => hret (report_retires hq he ha hb hn hp fired)⟩
  · intro h c v hs hp hc hj hv hdue hlen hprog hpost hdown hothers
    have hone : presentAdvance s = dueEvent h c s.presenting := by
      have hnone (u : State) (i : Head) (hu : (u.head i).cursor = none) : u.reachedDue i = none :=
        reachedDue_none fun d _ hd => by rw [hu] at hd; cases hd
      rw [presentAdvance_one hq fun i hi => hnone s i (hothers i hi)]
      have hreach : s.presenting.reachedDue h = some c := reachedDue_eq_some.2 ⟨hc, v, by rw [hj]; exact hv, hdue⟩
      refine runDues_once hreach rfl (hnone _ h ?_) _
      rw [dueEvent_cursor]
      exact nextLine_none (s := s.presenting) hq he hj hlen hpost
    obtain ⟨hjobs, hub, hcur, hidle⟩ := dueEvent_retires (s := s.presenting) hq he ha hb hj hlen hprog.le hpost hdown
    refine ⟨_, (exec_advance_due hs hp).trans (congrArg _ hone), hjobs, ⟨hub.active, hub.other, hub.tables⟩, hcur, hidle⟩

end Sys2Proof.Machine
end

section
/-!
PROOFS. A due that a head misses, as the state it leaves; and the end of a fire record's transmission.
-/

namespace Sys2Proof.Machine

variable {s t : State} {h : Head} {c : Cursor} {v : JobView} {o : DueOutcome} {x : HeadRec}

/-! ## A missed due (R37, R74, R82, R84) -/

theorem loaded_of_dueOutcome_fired {l : Lane} {st : HeadState} (ho : dueOutcome l st = .fired) : st = .loaded := by
  obtain ⟨hs, hf, hh⟩ := up_of_dueOutcome_fired ho
  by_contra hst
  have hother : dueOutcome l st = .late ∨ dueOutcome l st = .underrun := by
    cases st with
    | loaded => exact absurd rfl hst
    | waitingLine => exact .inr (dueOutcome_underrun hs hf hh rfl)
    | idle => exact .inr (by simp [dueOutcome, hs, hf, hh])
    | loading => exact .inl (dueOutcome_late hs hf hh (.inl rfl))
    | discarding => exact .inl (dueOutcome_late hs hf hh (.inr (.inl rfl)))
    | void => exact .inl (dueOutcome_late hs hf hh (.inr (.inr rfl)))
  rw [ho] at hother
  exact hother.elim DueOutcome.noConfusion DueOutcome.noConfusion

/-- The records of a queue with one more result of a line that is not the last in a job's totals. -/
def JobQueue.passed (q : JobQueue) (id : Nat) (fired : Bool) : JobQueue :=
  { q with records := q.records.map fun r => if r.id = id then
    { r with active := r.active.map fun a => a.reported fired false } else r }

/-- A shortfall of a job counted, in the words of the statements. -/
def JobQueue.shorted (q : JobQueue) (id : Nat) : JobQueue :=
  { q with records := q.records.map fun r => if r.id = id then
    { r with active := r.active.map fun a => { a with shortfall := a.shortfall + 1 } } else r }

theorem report_passed (hq : s.jobs.Distinct) (hv : s.jobView h c.job = some v) (hn : c.index + 1 < v.job.length)
    (fired : Bool) : report c.job c.index fired true s = s.setJobs (s.jobs.passed c.job fired) := by
  have hf := jobView_find hv
  obtain ⟨-, pre, post, he, -⟩ := List.find?_eq_some_iff_append.1 hf
  have hid : v.job.id = c.job := JobQueue.find_id hf
  have ha := jobView_active hv
  rw [← hid, report_line hq he ha hn.ne]
  have hrec := update_records (f := fun r => { r with active := r.active.map fun a => a.reported fired false })
    he rfl (fun x hx => hq.ne_of_split he (.inl hx)) fun x hx => hq.ne_of_split he (.inr hx)
  rw [ha] at hrec
  exact congrArg (fun l => s.setJobs { s.jobs with records := l }) hrec.symm

theorem report_shorts (hq : s.jobs.Distinct) (hv : s.jobView h c.job = some v) (hn : c.index + 1 < v.job.length) :
    report c.job c.index false true s = s.setJobs (s.jobs.shorted c.job) := report_passed hq hv hn false

/-- The state in which a due is missed and its outcome counted (R84). -/
def State.missed (s : State) (h : Head) (c : Cursor) (o : DueOutcome) : State :=
  submitCondition (.shortfall h) (.shortfall h o c.job c.index) (bump (.head o.counter h) s)

theorem missed_quiet (s : State) (h : Head) (c : Cursor) (o : DueOutcome) : Quiet s (s.missed h c o) :=
  (quiet_bump _ s).trans (quiet_submitCondition _ _ _)

/-- The state in which a due is missed and reported, the head not yet gone on. -/
def State.shortOf (s : State) (h : Head) (c : Cursor) (v : JobView) (o : DueOutcome) : State :=
  let taken := if (s.head h).state = .waitingLine ∨ (s.head h).state = .discarding then
    takeLine h v.plane (v.first + c.index) false (s.missed h c o) else s.missed h c o
  taken.setJobs (s.jobs.shorted c.job)

theorem reportedDue_missed (hq : s.jobs.Distinct) (ho : dueOutcome (s.lane h) (s.head h).state = o) (hne : o ≠ .fired)
    (hv : s.jobView h c.job = some v) (hn : c.index + 1 < v.job.length) : s.reportedDue h c = s.shortOf h c v o := by
  obtain ⟨hjobs, hbanks, -, -⟩ := metDue_kept s h c
  have hview : (s.metDue h c).jobView h c.job = some v :=
    (jobView_congr (by rw [hjobs]) (fun i => by rw [hbanks]) _ _).trans hv
  have hmet : s.metDue h c = if (s.head h).state = .waitingLine ∨ (s.head h).state = .discarding then
      takeLine h v.plane (v.first + c.index) false (s.missed h c o) else s.missed h c o := by
    have hcount : countOutcome h o c s = s.missed h c o := if_neg hne
    have hquiet := countOutcome_quiet h o c s
    have hcv : (countOutcome h o c s).jobView h c.job = some v :=
      (jobView_congr (by rw [hquiet.jobs]) (fun i => by rw [hquiet.banks]) _ _).trans hv
    have htake := takeOf_view hcv false
    rw [hcount] at htake
    unfold State.metDue
    rw [ho, hcount]
    dsimp only
    rw [htake]
    refine if_congr ?_ rfl rfl
    cases (s.head h).state <;> decide
  unfold State.reportedDue
  dsimp only
  rw [ho, if_neg hne, beq_false_of_ne hne, report_shorts (by rw [hjobs]; exact hq) hview hn, hjobs, hmet]
  rfl

theorem shortOf_kept (s : State) (h : Head) (c : Cursor) (v : JobView) (o : DueOutcome) :
    (∀ i, (s.shortOf h c v o).head i = s.head i) ∧ (∀ i, (s.shortOf h c v o).lane i = s.lane i) ∧
      (s.shortOf h c v o).ptu = s.ptu ∧ (s.shortOf h c v o).banks = s.banks := by
  have hquiet := missed_quiet s h c o
  unfold State.shortOf State.head State.lane
  dsimp only
  simp only [State.setJobs_heads, State.setJobs_lanes, State.setJobs_ptu, State.setJobs_banks]
  split
  · rw [takeLine_eq, storeChange_ptu, storeChange_banks, storeChange_heads, storeChange_lanes]
    exact ⟨hquiet.head, hquiet.lane, hquiet.ptu, hquiet.banks⟩
  · exact ⟨hquiet.head, hquiet.lane, hquiet.ptu, hquiet.banks⟩

theorem shortOf_lanes (s : State) (h : Head) (c : Cursor) (v : JobView) (o : DueOutcome) :
    (s.shortOf h c v o).lanes = s.lanes := by
  unfold State.shortOf
  dsimp only
  rw [State.setJobs_lanes]
  split
  · rw [takeLine_eq, storeChange_lanes]
    exact (missed_quiet s h c o).lanes
  · exact (missed_quiet s h c o).lanes

theorem shortOf_notices (s : State) (h : Head) (c : Cursor) (v : JobView) (o : DueOutcome) :
    (s.shortOf h c v o).notices = (s.missed h c o).notices := by
  unfold State.shortOf
  dsimp only
  rw [State.setJobs_notices]
  split
  · exact takeLine_notices _ _ _ _ _
  · rfl

theorem shortOf_jobs (s : State) (h : Head) (c : Cursor) (v : JobView) (o : DueOutcome) :
    (s.shortOf h c v o).jobs = s.jobs.shorted c.job := rfl

/-- The planes after a due missed by a head that had not rendered its line. -/
theorem shortOf_plane (hs : (s.head h).state = .waitingLine ∨ (s.head h).state = .discarding) (c : Cursor) (v : JobView)
    (o : DueOutcome) (p : Plane) : (s.shortOf h c v o).plane p =
      if p = v.plane then changedPlane s.jobs p (takenLine h (v.first + c.index) false) (s.plane p) else s.plane p := by
  have hquiet := missed_quiet s h c o
  unfold State.shortOf State.plane
  dsimp only
  rw [if_pos hs, State.setJobs_store, takeLine_eq, ← hquiet.jobs, ← hquiet.store]
  split
  · next hp =>
    subst hp
    exact storeChange_plane _ _ _
  · next hp => exact storeChange_plane_ne hp _ _

theorem nextLine_same (hv : s.jobView h c.job = some v) (hn : c.index + 1 < v.job.length) :
    s.nextLine h c = some { c with index := c.index + 1 } := by
  unfold State.nextLine
  rw [jobView_find hv]
  exact if_pos hn

/-- A due that is missed, the head going on to the next line of the same job. -/
theorem dueEvent_missed (hq : s.jobs.Distinct) (ho : dueOutcome (s.lane h) (s.head h).state = o) (hne : o ≠ .fired)
    (hv : s.jobView h c.job = some v) (hn : c.index + 1 < v.job.length) : dueEvent h c s =
      arriveOn h (s.head h).leaveLine { c with index := c.index + 1 } (s.shortOf h c v o) := by
  rw [dueEvent_eq, reportedDue_missed hq ho hne hv hn, nextLine_same hv hn, (shortOf_kept s h c v o).1]
  rfl

theorem HeadRec.leaveLine_free (hf : x.inFlight = none) : x.leaveLine = x := by
  obtain ⟨e, c, st, f⟩ := x
  subst hf
  cases st <;> rfl

/-- A transmission in flight at a due is a DISCARD from then on (R82). -/
theorem HeadRec.Wf.leaveLine_sending (hx : x.Wf) {z : InFlight} (hz : x.inFlight = some z) (hc : x.cursor.isSome = true) :
    x.leaveLine = { x with inFlight := some { z with fate := .discard } } := by
  obtain ⟨e, c, st, f⟩ := x
  subst hz
  cases st with
  | idle => exact absurd rfl (hx.cursor.1 hc)
  | loading => rfl
  | discarding =>
    obtain ⟨d, hd⟩ := hx.flight
    cases hd
    rfl
  | waitingLine | loaded | void => cases hx.flight

theorem dueEvent_misses (hq : s.jobs.Distinct) (hx : (s.head h).Wf) (hc : (s.head h).cursor = some c)
    (ho : dueOutcome (s.lane h) (s.head h).state = o) (hne : o ≠ .fired) (hv : s.jobView h c.job = some v)
    (hn : c.index + 1 < v.job.length) : s.Misses (dueEvent h c s) h c v o := by
  obtain ⟨-, hlane, -, -⟩ := shortOf_kept s h c v o
  rw [dueEvent_missed hq ho hne hv hn]
  unfold State.Misses
  intro x counted taken reported c' waits
  have hrep : reported = s.shortOf h c v o := rfl
  have hdata : waits.cursorData h c' = (s.shortOf h c v o).cursorData h c' :=
    cursorData_congr rfl (fun _ => rfl) rfl h c'
  refine ⟨fun z hz => ?_, fun hz => ⟨fun hw => ?_, fun w px hup hhold hd => ?_⟩⟩
  · rw [hx.leaveLine_sending hz (by rw [hc]; rfl), arriveOn_sending rfl]
    rfl
  · have hstay : ((s.shortOf h c v o).lane h).takesPreload = false ∨ (s.shortOf h c v o).cursorData h c' = none := by
      rw [hlane, takesPreload_false_iff, ← hdata, or_assoc]
      exact hw
    rw [HeadRec.leaveLine_free hz, arriveOn_waits hz hstay]
    rfl
  · rw [HeadRec.leaveLine_free hz, arriveOn_starts hz (by rw [hlane]; exact takesPreload_iff.2 ⟨hup, hhold⟩) (hdata ▸ hd)]
    have hhead : waits.head h = { x with cursor := some c', state := .waitingLine } := State.setHead_head _ _ _
    have hpre := preloads_of_preloading (s := waits) (u := s.shortOf h c v o) (h := h) (c := c') (v := w) (px := px)
      (by rw [hhead]) (hlane h) rfl rfl
    rw [hhead] at hpre
    exact hpre

/-- A head that arrives on a line whose due is reached, and the next one is not: the due is met at once (R75). -/
theorem runDues_misses {k : Nat} (hq : s.jobs.Distinct) (hx : (s.head h).Wf) (hc : (s.head h).cursor = some c)
    (ho : dueOutcome (s.lane h) (s.head h).state = o) (hne : o ≠ .fired) (hv : s.jobView h c.job = some v)
    (hdue : v.due h c.index ≤ s.position) (hn : c.index + 1 < v.job.length) (hnext : s.position < v.due h (c.index + 1)) :
    s.Misses (runDues h (k + 1) s) h c v o := by
  have hreach : s.reachedDue h = some c := reachedDue_eq_some.2 ⟨hc, v, hv, hdue⟩
  have hw := within_dueEvent (P := (· = h)) c s rfl
  have hstop : (dueEvent h c s).reachedDue h = none := by
    refine reachedDue_none fun d w hd hview => ?_
    rw [dueEvent_cursor, nextLine_same hv hn] at hd
    cases hd
    obtain ⟨w', hw', -, -, -, hsame⟩ := jobView_thinned (thins_dueEvent h c s hq) hq hw.tables hview
    rw [show w' = v from Option.some.inj (hw'.symm.trans hv)] at hsame
    rw [hw.position, hsame]
    exact hnext
  rw [runDues_once hreach rfl hstop]
  exact dueEvent_misses hq hx hc ho hne hv hn

theorem arrive_misses {u : State} (harr : arriveOn h x c s = u) (hq : u.jobs.Distinct) (hx : (u.head h).Wf)
    (ho : dueOutcome (u.lane h) (u.head h).state = o) (hne : o ≠ .fired) (hv : u.jobView h c.job = some v)
    (hdue : v.due h c.index ≤ u.position) (hn : c.index + 1 < v.job.length) (hnext : u.position < v.due h (c.index + 1)) :
    u.Misses (arrive h x c s) h c v o := by
  have hc : (u.head h).cursor = some c := harr ▸ (arriveOn_cursor h x c s).1
  have hrun : arrive h x c s = runDues h u.dueBound u := by rw [← harr]; rfl
  rw [hrun]
  exact runDues_misses hq hx hc ho hne hv hdue hn hnext

/-- What a lane sends has no part in a due outcome (R81). -/
theorem dueOutcome_send (l : Lane) (r : LaneRecord) (st : HeadState) : dueOutcome (l.send r) st = dueOutcome l st := by
  unfold Lane.send
  split <;> rfl

/-! ## The end of a fire record's transmission (R79, R117) -/

theorem fireSentEvent_void (hn : ∀ r, (s.lane h).tx = some r → 0 < r.remaining ∨ ∀ z, r.record ≠ .fire z) :
    fireSentEvent h s = s := by
  unfold fireSentEvent
  split
  · next z hs =>
    obtain ⟨x, h1, h2, h3⟩ := Lane.sent_eq_some.1 hs
    exact (((hn x h1).elim (fun h => h.ne' h2)) fun h => h z h3).elim
  all_goals rfl

theorem fireSentEvent_sent {r : LaneTx} {z : FireRecord} (ht : (s.lane h).tx = some r) (h0 : r.remaining = 0)
    (hr : r.record = .fire z) (hw : (s.lane h).waiting = none) :
    fireSentEvent h s = transmissionEnded h (s.setLane h { s.lane h with tx := none }) := by
  have hs : (s.lane h).sent = some (.fire z) := Lane.sent_eq_some.2 ⟨r, ht, h0, hr⟩
  have hended : (s.lane h).ended = { s.lane h with tx := none } := by
    rw [Lane.ended_idle hw, ← hw]
  unfold fireSentEvent
  rw [hs]
  show transmissionEnded h (s.setLane h (s.lane h).ended) = _
  rw [hended]

theorem transmissionEnded_discarding {f : InFlight} (hf : (s.head h).inFlight = some f) (hd : f.fate = .discard)
    (hs : (s.head h).state = .discarding) (hc : (s.head h).cursor = some c) :
    transmissionEnded h s = arrive h { s.head h with inFlight := none } c s := by
  unfold transmissionEnded
  dsimp only
  rw [hf]
  dsimp only
  rw [hd, hs, hc]

/-- Settles O37. -/
theorem transmissionEnd : Obligations.TransmissionEnd := by
  intro s h l x sent
  refine ⟨fun hn => congrArg Host.Outcome.next (fireSentEvent_void hn), fun r z htx h0 hr hw => ?_⟩
  have hexec : exec (.transmissionEnd h) s = .next (transmissionEnded h sent) :=
    congrArg Host.Outcome.next (fireSentEvent_sent htx h0 hr hw)
  rw [hexec]
  have hlane : sent.lane h = { l with tx := none } := State.setLane_lane _ _ _
  have hx : sent.head h = x := rfl
  refine ⟨fun c hs hf => ?_, fun c hs hf => ?_, fun c c' hs hf hc => ?_⟩
  · unfold transmissionEnded
    dsimp only
    rw [hx, hf, hs]
  · unfold transmissionEnded
    dsimp only
    rw [hx, hf, hs]
  · intro free waits takes
    have harr : transmissionEnded h sent = arrive h { x with inFlight := none } c' sent :=
      transmissionEnded_discarding hf rfl hs hc
    have hview : ∀ i, sent.jobView h i = s.jobView h i := fun i => rfl
    have hdata : sent.cursorData h c' = s.cursorData h c' := rfl
    have htakes : takes ↔ (sent.lane h).takesPreload = true := by rw [hlane]; exact takesPreload_iff.symm
    have hwaits : ¬ takes ∨ s.cursorData h c' = none → arriveOn h { x with inFlight := none } c' sent = waits := fun hn => by
      have hstay : (sent.lane h).takesPreload = false ∨ sent.cursorData h c' = none :=
        hn.imp (fun h => Bool.eq_false_iff.2 fun e => h (htakes.2 e)) fun h => h
      rw [arriveOn_waits rfl hstay, ← hc]
    have hstarts : ∀ w px, takes → s.cursorData h c' = some (w, px) →
        arriveOn h { x with inFlight := none } c' sent = sent.preloading h { x with inFlight := none } c' w px :=
      fun w px ht hd => arriveOn_starts rfl (htakes.1 ht) hd
    have hpre : ∀ w px, free.Preloads (sent.preloading h { x with inFlight := none } c' w px) h { l with tx := none } c' w px :=
      fun w px => by
        have hhead : free.head h = { x with inFlight := none } := State.setHead_head _ _ _
        have := preloads_of_preloading (s := free) (u := sent) (h := h) (c := c') (v := w) (px := px) (by rw [hhead]; exact hc)
          hlane rfl rfl
        rwa [hhead] at this
    have hmiss : ∀ st, dueOutcome l st = .fired → st = .loaded := fun st => loaded_of_dueOutcome_fired
    refine ⟨fun hahead => ⟨fun hn => ?_, fun v px ht hd => ?_⟩, fun v hi hv hdue hlen hnext => ⟨fun hn => ?_, fun w px ht hd => ?_⟩⟩
    · rw [harr, arrive_ahead (s := sent) hahead, hwaits hn]
    · have hgo : arrive h { x with inFlight := none } c' sent = _ :=
        (arrive_ahead (s := sent) hahead _).trans (hstarts v px ht hd)
      exact ⟨_, congrArg _ (harr.trans hgo), hpre v px, preloading_jobs sent, preloading_notices sent, preloading_ptu sent⟩
    · have hhead : waits.head h = { x with state := .waitingLine, inFlight := none } := State.setHead_head _ _ _
      refine ⟨_, congrArg _ harr, arrive_misses (hwaits hn) hi.distinct ?_ ?_ ?_ hv hdue hlen hnext⟩
      · rw [hhead]
        exact ⟨by simp [hc], rfl⟩
      · rw [hhead, show waits.lane h = { l with tx := none } from hlane]
        rfl
      · exact fun e => HeadState.noConfusion (hmiss _ e)
    · obtain ⟨m, hm⟩ : ∃ m, m = sent.preloading h { x with inFlight := none } c' w px := ⟨_, rfl⟩
      have hgo := hstarts w px ht hd
      have hfree := hpre w px
      have hj : m.jobs = s.jobs := by rw [hm]; exact preloading_jobs sent
      have hb : m.banks = s.banks := by rw [hm]; exact preloading_banks sent
      have hp : m.ptu = s.ptu := by rw [hm]; exact preloading_ptu sent
      have hn : m.notices = s.notices := by rw [hm]; exact preloading_notices sent
      have hhead : m.head h = { x with cursor := some c', state := .loading, inFlight := some ⟨c', .keep⟩ } := by
        rw [hm]; exact preloading_head sent
      rw [← hm] at hgo hfree
      refine ⟨m, _, congrArg _ harr, hfree, hj, hn, hp,
        arrive_misses hgo (by rw [hj]; exact hi.distinct) ?_ ?_ ?_ ?_ ?_ hlen ?_⟩
      · rw [hhead]
        exact ⟨by simp, c', rfl, rfl⟩
      · rw [hhead, hm, preloading_lane, dueOutcome_send, hlane]
        rfl
      · exact fun e => HeadState.noConfusion (hmiss _ e)
      · exact (jobView_congr (by rw [hj]) (fun i => by rw [hb]) h c'.job).trans hv
      · rw [State.position, hp]
        exact hdue
      · rw [State.position, hp]
        exact hnext

end Sys2Proof.Machine
end

section
/-!
PROOFS. Lines that a head has passed, in the slots of their plane; and heads that meet their dues at an advance: a head that
fires, a head that misses, and any number of heads that wait over lanes that take no preload.
-/

namespace Sys2Proof.Machine

/-! ## A line that a head has passed (R61, R62) -/

section
variable {next n m : Nat} {x : PlaneStore} {h g : Head} {r : Bool}

/-- Line n of a plane is behind head h: its reach is there or beyond, and the head is not among the takers of the slot. -/
structure PlaneStore.Past (x : PlaneStore) (h : Head) (n : Nat) : Prop where
  reach : reached n (x.reach.get h) = true
  takers : ∀ ts, (x.slot n).takers = some ts → h ∉ ts

theorem changedPlane_reach (q : JobQueue) (p : Plane) (f : PlaneStore → PlaneStore) (x : PlaneStore) :
    (changedPlane q p f x).reach = (f x).reach := by
  unfold changedPlane
  rw [advanceBase_kept, PlaneStore.watermark_eq]

/-- A slot re-formed for a line that a head has passed does not get the head back. -/
theorem reformSlot_takers (q : JobQueue) (p : Plane) (hr : reached n (x.reach.get h) = true) (ts : List Head)
    (ht : (reformSlot q p x n).takers = some ts) : h ∉ ts := by
  unfold reformSlot at ht
  split at ht
  · cases ht
  · split at ht
    · cases ht
    · split at ht
      · cases ht
      · obtain rfl := Option.some.inj ht
        intro hm
        have := (List.mem_filter.1 hm).2
        rw [hr] at this
        cases this

theorem PlaneStore.Past.baseStep (hp : x.Past h n) (hx : sparseWf Slot.fresh x.slots) (q : JobQueue) (p : Plane) :
    (baseStep q p x).Past h n := by
  refine ⟨hp.reach, fun ts ht => ?_⟩
  have hslot : (Machine.baseStep q p x).slot n = if n = x.base + x.depth then reformSlot q p x (x.base + x.depth)
      else if n = x.base then Slot.fresh else x.slot n := by
    refine (PlaneStore.slot_setSlot (x := { x with base := x.base + 1, slots := sparseErase x.slots x.base })
      (sparseErase_wf _ hx) _ _ _).trans (if_congr Iff.rfl rfl (sparseRead_erase _ _ _ hx))
  rw [hslot] at ht
  split at ht
  · next hn => exact reformSlot_takers q p (hn ▸ hp.reach) ts ht
  · split at ht
    · cases ht
    · exact hp.takers ts ht

theorem PlaneStore.Past.advanceBase {q : JobQueue} {p : Plane} (k : Nat) (hp : x.Past h n) (hx : x.Wf (q.next.get p)) :
    (advanceBase q p k x).Past h n := by
  induction k generalizing x with
  | zero => exact hp
  | succ k ih =>
    unfold Machine.advanceBase
    split
    · next hc => exact ih (hp.baseStep hx.canonical q p) (hx.baseStep hc.2)
    · exact hp

theorem PlaneStore.Past.changed {q : JobQueue} {p : Plane} {f : PlaneStore → PlaneStore} (hp : (f x).Past h n)
    (hx : (f x).Wf (q.next.get p)) : (changedPlane q p f x).Past h n := by
  have hw : ((f x).watermark x.fill).Past h n :=
    ⟨by rw [PlaneStore.watermark_eq]; exact hp.reach, by rw [PlaneStore.watermark_slot]; exact hp.takers⟩
  exact hw.advanceBase _ (hx.watermark _)

theorem takeSlot_subset {v : Slot} {ts : List Head} (ht : (takeSlot g r v).takers = some ts) :
    ∃ us, v.takers = some us ∧ ts = us.filter fun i => i != g := by
  cases hv : v.takers with
  | none => simp [takeSlot, hv] at ht
  | some us =>
    rw [takeSlot_takers hv] at ht
    exact ⟨us, rfl, (Option.some.inj ht).symm⟩

theorem takenLine_slot (hx : sparseWf Slot.fresh x.slots) (j : Nat) : (takenLine g m r x).slot j =
    if x.inWindow m = true ∧ j = m then takeSlot g r (x.slot m) else x.slot j := by
  unfold takenLine
  dsimp only
  by_cases hw : x.inWindow m = true
  · rw [if_pos (show ({ x with reach := put x.reach g (some m) } : PlaneStore).inWindow m = true from hw)]
    refine (PlaneStore.slot_setSlot (x := { x with reach := put x.reach g (some m) }) hx _ _ _).trans ?_
    exact if_congr (by simp [hw]) rfl rfl
  · rw [if_neg (show ¬ ({ x with reach := put x.reach g (some m) } : PlaneStore).inWindow m = true from hw), if_neg (by simp [hw])]
    rfl

/-- Another take leaves a line behind, where it is another head's, or of a later line. -/
theorem PlaneStore.Past.takenLine (hp : x.Past h n) (hx : sparseWf Slot.fresh x.slots) (hg : g = h → n ≤ m) :
    (takenLine g m r x).Past h n := by
  refine ⟨?_, fun ts ht => ?_⟩
  · rw [takenLine_reach, get_put_if]
    split
    · next e => exact decide_eq_true (hg e.symm)
    · exact hp.reach
  · rw [takenLine_slot hx] at ht
    split at ht
    · next hc =>
      obtain ⟨us, hus, rfl⟩ := takeSlot_subset ht
      exact fun hm => hp.takers us (hc.2 ▸ hus) (List.mem_filter.1 hm).1
    · exact hp.takers ts ht

/-- A head has passed a line that it has taken. -/
theorem PlaneStore.Wf.takenLine_past (hx : x.Wf next) : (Machine.takenLine h n r x).Past h n := by
  refine ⟨?_, fun ts ht => ?_⟩
  · rw [takenLine_reach, get_put]
    exact decide_eq_true le_rfl
  · rw [Machine.takenLine_slot hx.canonical] at ht
    split at ht
    · obtain ⟨us, -, rfl⟩ := takeSlot_subset ht
      intro hm
      simpa using (List.mem_filter.1 hm).2
    · next hc =>
      have hw : x.slot n = Slot.fresh := by
        by_contra hf
        obtain ⟨h1, h2, -⟩ := hx.slot_fresh hf
        exact hc ⟨decide_eq_true ⟨h1, h2⟩, rfl⟩
      rw [hw] at ht
      cases ht

/-- A take of any line of a plane, without a render. -/
theorem PlaneStore.Wf.skipped (hx : x.Wf next) : (Machine.takenLine h n false x).Wf next := by
  unfold Machine.takenLine
  dsimp only
  split
  · refine (hx.reach _).change (takeSlot h false) (takeSlot_ready h false) fun hne => hx.slot_fresh fun hf => hne ?_
    rw [show ({ x with reach := put x.reach h (some n) } : PlaneStore).slot n = x.slot n from rfl, hf]
    rfl
  · exact hx.reach _

end

/-! ## A job's totals under reports -/

section
variable {s t : State} {h : Head} {c : Cursor} {v : JobView} {o : DueOutcome}

/-- What a head reads of a job whose activation has been changed in its totals. -/
theorem jobView_totals {g : JobRec → Activation → Activation} (hg : ∀ r a, (g r a).bank = a.bank ∧ (g r a).t = a.t)
    (hr : t.jobs.records = s.jobs.records.map fun r => { r with active := r.active.map (g r) })
    (hb : ∀ i, t.banks.tables i = s.banks.tables i) {id : Nat} (hv : s.jobView h id = some v) :
    ∃ w, t.jobView h id = some w ∧ w.plane = v.plane ∧ w.first = v.first ∧ w.job.length = v.job.length ∧
      ∀ n, w.due h n = v.due h n := by
  obtain ⟨hf, ha, htab, hp, x, hx, hfirst⟩ := jobView_eq_some.1 hv
  have hfind : t.jobs.find id = some { v.job with active := some (g v.job v.act) } := by
    have hsame : (s.jobs.records.find? ((fun r => r.id == id) ∘ fun r => { r with active := r.active.map (g r) })) =
        some v.job := hf
    unfold JobQueue.find
    rw [hr, List.find?_map, hsame, Option.map_some, ha]
    rfl
  refine ⟨⟨_, g v.job v.act, v.tables, v.plane, v.first⟩, jobView_eq_some.2 ⟨hfind, rfl, ?_, hp, x, hx, hfirst⟩, rfl, rfl, rfl,
    fun n => ?_⟩
  · rw [hb, (hg v.job v.act).1]
    exact htab
  · simp only [JobView.due, (hg v.job v.act).2]

/-! ## The condition flags (R179) -/

theorem offer_conditions (n : Notice) (s : State) : (offer n s).notices.conditions = s.notices.conditions := by
  unfold offer
  dsimp only
  split
  · rw [(testRelease_same _).conditions, State.setNotices_notices]
    unfold NoticeUnit.startIdle
    split <;> rfl
  · rfl

theorem submit_conditions (n : Notice) (s : State) : (submit n s).notices.conditions = s.notices.conditions := by
  unfold submit
  split
  · rfl
  · exact offer_conditions n s

theorem submitCondition_condition (c d : CondName) (n : Notice) (s : State) :
    (submitCondition c n s).condition d = (s.condition d || d == c) := by
  unfold submitCondition
  by_cases hd : d = c
  · subst hd
    split
    · next h => rw [h]; rfl
    · rw [State.condition, submit_conditions, beq_self_eq_true, Bool.or_true]
      exact get_put _ _ _
  · rw [beq_false_of_ne hd, Bool.or_false]
    split
    · rfl
    · rw [State.condition, submit_conditions]
      exact get_put_ne _ _ fun e => hd (CondName.index_inj e).symm

/-! ## A head that fires (R82, R85) -/

/-- A head that fires and goes on to the next line of the same job. -/
theorem dueEvent_fires (hq : s.jobs.Distinct) (hs : (s.head h).state = .loaded) (hx : (s.head h).Wf)
    (ho : dueOutcome (s.lane h) .loaded = .fired) (hv : s.jobView h c.job = some v) (hn : c.index + 1 < v.job.length) :
    dueEvent h c s = arriveOn h (s.head h) { c with index := c.index + 1 }
      (changeLane h Lane.strobe ((bump (.head .fired h) s).setJobs (s.jobs.passed c.job true))) := by
  have hmet : s.metDue h c = bump (.head .fired h) s := by
    unfold State.metDue
    dsimp only
    rw [hs, ho]
    rfl
  have hfree : (s.head h).inFlight = none := by
    have := hx.flight
    rwa [hs] at this
  have hrep := report_passed (s := bump (.head .fired h) s) hq (c := c) (h := h) (v := v) hv hn true
  have hrd : s.reportedDue h c = changeLane h Lane.strobe ((bump (.head .fired h) s).setJobs (s.jobs.passed c.job true)) := by
    unfold State.reportedDue
    dsimp only
    rw [hmet, hs, ho, beq_self_eq_true, hrep]
    rfl
  rw [dueEvent_eq, hrd, nextLine_same hv hn]
  show arriveOn h (s.head h).leaveLine _ _ = _
  rw [HeadRec.leaveLine_free hfree]

theorem Lane.send_fire (l : Lane) (r : LaneRecord) : (l.send r).fire = l.fire := by
  unfold Lane.send
  split <;> rfl

theorem arriveOn_fire (x : HeadRec) : ((arriveOn h x c s).lane h).fire = (s.lane h).fire := by
  rcases arriveOn_comes s h x c with ⟨f, hf, ht⟩ | ⟨hf, hn, ht⟩ | ⟨v, px, hf, hl, hd, ht⟩ <;> rw [ht]
  · rfl
  · rfl
  · rw [preloading_lane, Lane.send_fire]

theorem arriveOn_free_state {x : HeadRec} (hf : x.inFlight = none) : ((arriveOn h x c s).head h).state = .waitingLine ∨
    ((arriveOn h x c s).head h).state = .loading := by
  rcases arriveOn_comes s h x c with ⟨f, hf', ht⟩ | ⟨-, hn, ht⟩ | ⟨v, px, -, hl, hd, ht⟩
  · rw [hf] at hf'; cases hf'
  · rw [ht, State.setHead_head]; exact .inl rfl
  · rw [ht, preloading_head]; exact .inr rfl

/-- Where every other head's due lies ahead, and so does the next due of the head that meets one, that is all there is to an
advance. -/
theorem presentAdvance_due (hq : s.jobs.Distinct) (hc : (s.head h).cursor = some c) (hv : s.jobView h c.job = some v)
    (hdue : v.due h c.index ≤ s.position) (hn : c.index + 1 < v.job.length) (hnext : s.position < v.due h (c.index + 1))
    (ho : ∀ i, i ≠ h → ∀ c v, (s.head i).cursor = some c → s.jobView i c.job = some v → s.position < v.due i c.index) :
    presentAdvance s = dueEvent h c s.presenting := by
  rw [presentAdvance_one hq fun i hi => reachedDue_none (ho i hi)]
  have hw := within_dueEvent (P := (· = h)) c s.presenting rfl
  refine runDues_once (s := s.presenting) (reachedDue_eq_some.2 ⟨hc, v, hv, hdue⟩) rfl (reachedDue_none fun d w hd hview => ?_) _
  rw [dueEvent_cursor, nextLine_same (s := s.presenting) hv hn] at hd
  cases hd
  obtain ⟨w', hw', -, -, -, hsame⟩ := jobView_thinned (thins_dueEvent h c s.presenting hq) hq hw.tables hview
  rw [show w' = v from Option.some.inj (hw'.symm.trans hv)] at hsame
  rw [hw.position, hsame]
  exact hnext

end

end Sys2Proof.Machine
end

section
/-!
PROOFS. Any number of heads that meet any number of dues at an advance, each waiting over a lane that takes no preload; and the
statement on heads that meet their dues.
-/

namespace Sys2Proof.Machine

/-! ## Many dues at once (R76) -/

section
variable {s t : State} {n : Head → Nat} {h : Head} {c : Cursor} {v : JobView}

/-- The shortfalls of a job that n dues of each head bring. -/
def State.shortfalls (s : State) (n : Head → Nat) (id : Nat) : Nat :=
  (allHeads.map fun h => if (s.head h).cursor.map Cursor.job = some id then n h else 0).sum

/-- One due more of a head. -/
def oneMore (n : Head → Nat) (h : Head) (i : Head) : Nat := if i = h then n i + 1 else n i

theorem sum_oneMore (P : Head → Prop) [DecidablePred P] (n : Head → Nat) (h : Head) (l : List Head) (hl : l.Nodup)
    (hh : h ∈ l) : (l.map fun i => if P i then oneMore n h i else 0).sum =
      (l.map fun i => if P i then n i else 0).sum + if P h then 1 else 0 := by
  induction l with
  | nil => cases hh
  | cons g l ih =>
    obtain ⟨hg, hl⟩ := List.nodup_cons.1 hl
    rw [List.map_cons, List.sum_cons, List.map_cons, List.sum_cons]
    by_cases hgh : g = h
    · subst hgh
      have hrest : (l.map fun i => if P i then oneMore n g i else 0) = l.map fun i => if P i then n i else 0 :=
        List.map_congr_left fun i hi => by
          have hne : i ≠ g := fun e => hg (e ▸ hi)
          rw [oneMore, if_neg hne]
      rw [hrest, oneMore, if_pos rfl]
      split <;> omega
    · rw [ih hl ((List.mem_cons.1 hh).resolve_left (Ne.symm hgh)), oneMore, if_neg hgh]
      omega

theorem shortfalls_oneMore (s : State) (n : Head → Nat) (h : Head) (id : Nat) : s.shortfalls (oneMore n h) id =
    s.shortfalls n id + if (s.head h).cursor.map Cursor.job = some id then 1 else 0 :=
  sum_oneMore (fun i => (s.head i).cursor.map Cursor.job = some id) n h allHeads (by decide) (mem_allHeads h)

theorem bump_outcome (o d : DueOutcome) (h i : Head) (s : State) :
    (bump (.head o.counter h) s).counter (.head d.counter i) = if i = h ∧ d = o
      then min Config.counterMax (s.counter (.head d.counter i) + 1) else s.counter (.head d.counter i) := by
  split
  · next hid =>
    obtain ⟨rfl, rfl⟩ := hid
    exact bump_counter _ s
  · next hid =>
    refine bump_counter_ne (fun e => hid ?_) s
    obtain ⟨hd, hi⟩ := CounterName.head.inj e
    exact ⟨hi, DueOutcome.counter_inj.1 hd⟩

/-- A queue with shortfalls added to the totals of its jobs. -/
def JobQueue.shortedBy (q : JobQueue) (k : Nat → Nat) : JobQueue :=
  { q with records := q.records.map fun r => { r with active := r.active.map fun a =>
    { a with shortfall := a.shortfall + k r.id } } }

theorem shortedBy_zero (q : JobQueue) : q.shortedBy (fun _ => 0) = q := by
  have hrec : (q.records.map fun r => { r with active := r.active.map fun a => { a with shortfall := a.shortfall + 0 } }) =
      q.records := by simp
  exact congrArg (fun l => { q with records := l }) hrec

theorem shortedBy_shorted (q : JobQueue) {k k' : Nat → Nat} {id : Nat} (hk : ∀ i, k' i = k i + if i = id then 1 else 0) :
    (q.shortedBy k).shorted id = q.shortedBy k' := by
  unfold JobQueue.shorted JobQueue.shortedBy
  dsimp only
  rw [List.map_map]
  refine congrArg (fun l => { q with records := l }) (List.map_congr_left fun r _ => ?_)
  obtain ⟨id', l, p, m, d, g, u, act⟩ := r
  simp only [Function.comp, hk]
  cases act with
  | none => simp
  | some a => split <;> rfl

/-- State t is what state s becomes when each head h has met n h dues, always waiting over a lane that takes no preload. -/
structure Ran (s : State) (n : Head → Nat) (t : State) : Prop where
  inv : t.Inv
  ptu : t.ptu = s.ptu
  lanes : t.lanes = s.lanes
  tables : ∀ i, t.banks.tables i = s.banks.tables i
  jobs : t.jobs = s.jobs.shortedBy (s.shortfalls n)
  head : ∀ h, t.head h = { s.head h with cursor := (s.head h).cursor.map fun c => { c with index := c.index + n h } }
  counter : ∀ h (d : DueOutcome), t.counter (.head d.counter h) = min Config.counterMax (s.counter (.head d.counter h) +
    if d = dueOutcome (s.lane h) .waitingLine then n h else 0)
  condition : ∀ h, 0 < n h → t.condition (.shortfall h) = true
  reach : ∀ h c v, (s.head h).cursor = some c → s.jobView h c.job = some v → 0 < n h →
    (t.plane v.plane).reach.get h = some (v.first + c.index + n h - 1)
  past : ∀ h c v, (s.head h).cursor = some c → s.jobView h c.job = some v → ∀ j, j < n h →
    (t.plane v.plane).Past h (v.first + c.index + j)

theorem Ran.start (hi : s.Inv) : Ran s (fun _ => 0) s where
  inv := hi
  ptu := rfl
  lanes := rfl
  tables := fun _ => rfl
  jobs := by
    have hz : s.shortfalls (fun _ => 0) = fun _ => 0 := funext fun id => by simp [State.shortfalls]
    rw [hz, shortedBy_zero]
  head := fun h => by simp
  counter := fun h d => by
    have := hi.notices.counters (CounterName.head d.counter h).index
    rw [ite_self, Nat.add_zero]
    exact (min_eq_right this).symm
  condition := fun h hn => absurd hn (lt_irrefl 0)
  reach := fun _ _ _ _ _ hn => absurd hn (lt_irrefl 0)
  past := fun _ _ _ _ _ j hj => absurd hj (Nat.not_lt_zero j)

/-- A head of state s waits over a lane that takes no preload, its line of the cursor job named. -/
structure State.Waits (s : State) (h : Head) (c : Cursor) (v : JobView) : Prop where
  cursor : (s.head h).cursor = some c
  state : (s.head h).state = .waitingLine
  lane : (s.lane h).takesPreload = false
  view : s.jobView h c.job = some v

theorem Ran.view (hr : Ran s n t) {id : Nat} (hv : s.jobView h id = some v) : ∃ w, t.jobView h id = some w ∧
    w.plane = v.plane ∧ w.first = v.first ∧ w.job.length = v.job.length ∧ ∀ k, w.due h k = v.due h k :=
  jobView_totals (g := fun r a => { a with shortfall := a.shortfall + s.shortfalls n r.id }) (fun _ _ => ⟨rfl, rfl⟩)
    (by rw [hr.jobs]; rfl) hr.tables hv

theorem Ran.cursor (hr : Ran s n t) (hc : (s.head h).cursor = some c) :
    (t.head h).cursor = some { c with index := c.index + n h } := by
  rw [hr.head, hc]
  rfl

/-- The next due of a head. -/
theorem Ran.next (hr : Ran s n t) (hw : s.Waits h c v) (hn : c.index + n h + 1 < v.job.length) :
    Ran s (oneMore n h) (dueEvent h { c with index := c.index + n h } t) := by
  obtain ⟨w, hview, hplane, hfirst, hlength, hdue⟩ := hr.view hw.view
  have hlane : t.lane h = s.lane h := congrArg (fun l => l.get h) hr.lanes
  have hcur := hr.cursor hw.cursor
  have hstate : (t.head h).state = .waitingLine := by rw [hr.head]; exact hw.state
  have hfree : (t.head h).inFlight = none := by
    have := (hr.inv.heads h).flight
    rwa [hstate] at this
  have ho : dueOutcome (t.lane h) (t.head h).state = dueOutcome (s.lane h) .waitingLine := by rw [hlane, hstate]
  have hne : dueOutcome (s.lane h) .waitingLine ≠ .fired := fun e =>
    HeadState.noConfusion (loaded_of_dueOutcome_fired e)
  generalize hog : dueOutcome (s.lane h) .waitingLine = o at ho hne
  obtain ⟨hheads, hlanes, hptu, hbanks⟩ := shortOf_kept t h { c with index := c.index + n h } w o
  have hev := dueEvent_missed (c := { c with index := c.index + n h }) hr.inv.distinct ho hne hview (by rw [hlength]; exact hn)
  rw [HeadRec.leaveLine_free hfree, arriveOn_waits hfree (.inl (by rw [hlanes, hlane]; exact hw.lane))] at hev
  have hinv : (dueEvent h { c with index := c.index + n h } t).Inv := (hr.inv.kept.dueEvent h _).inv
  have hcount := dueEvent_counters h { c with index := c.index + n h } t
  rw [ho] at hcount
  have hplanes : ∀ p, (dueEvent h { c with index := c.index + n h } t).plane p = if p = v.plane then
      changedPlane t.jobs p (takenLine h (v.first + c.index + n h) false) (t.plane p) else t.plane p := fun p => by
    have := shortOf_plane (s := t) (.inl hstate) { c with index := c.index + n h } w o p
    rw [hplane, hfirst, ← Nat.add_assoc] at this
    rw [hev]
    exact this
  refine ⟨hinv, ?_, ?_, fun i => ?_, ?_, fun i => ?_, fun i d => ?_, fun i hi => ?_, fun i d u hd hu hi => ?_,
    fun i d u hd hu j hj => ?_⟩
  · rw [hev]
    exact hptu.trans hr.ptu
  · rw [hev]
    exact (shortOf_lanes t h _ w o).trans hr.lanes
  · rw [hev]
    exact (congrArg (fun b : Banks => b.tables i) hbanks).trans (hr.tables i)
  · rw [hev, State.setHead_jobs, shortOf_jobs, hr.jobs]
    refine shortedBy_shorted _ fun id => ?_
    rw [shortfalls_oneMore, hw.cursor, Option.map_some]
    exact congrArg _ (if_congr (by rw [Option.some.injEq, eq_comm]) rfl rfl)
  · rw [hev]
    by_cases hi : i = h
    · subst hi
      rw [State.setHead_head, hr.head, hw.cursor, oneMore, if_pos rfl, ← hw.state]
      rfl
    · rw [State.setHead_head_ne _ _ (Ne.symm hi), hheads, hr.head, oneMore, if_neg hi]
  · rw [State.counter_congr hcount, bump_outcome, hr.counter]
    by_cases hi : i = h
    · subst hi
      rw [hog, oneMore, if_pos rfl]
      by_cases hd : d = o
      · rw [if_pos ⟨rfl, hd⟩, if_pos hd, if_pos hd]
        omega
      · rw [if_neg fun e => hd e.2, if_neg hd, if_neg hd]
    · rw [if_neg fun e => hi e.1, oneMore, if_neg hi]
  · rw [hev]
    show (t.shortOf h _ w o).condition _ = true
    rw [State.condition, shortOf_notices]
    show (t.missed h _ o).condition _ = true
    unfold State.missed
    rw [submitCondition_condition]
    by_cases hh : i = h
    · rw [hh, beq_self_eq_true, Bool.or_true]
    · rw [oneMore, if_neg hh] at hi
      rw [show (bump (.head o.counter h) t).condition (.shortfall i) = t.condition (.shortfall i) from rfl, hr.condition i hi]
      rfl
  · rw [hplanes]
    by_cases hih : i = h
    · subst hih
      obtain rfl : d = c := Option.some.inj (hd.symm.trans hw.cursor)
      obtain rfl : u = v := Option.some.inj (hu.symm.trans hw.view)
      rw [if_pos rfl, changedPlane_reach, takenLine_reach, get_put, oneMore, if_pos rfl, ← Nat.add_assoc, Nat.add_sub_cancel]
    · rw [oneMore, if_neg hih] at hi ⊢
      have hkept := hr.reach i d u hd hu hi
      split
      · rw [changedPlane_reach, takenLine_reach, get_put_ne _ _ (Ne.symm hih)]
        exact hkept
      · exact hkept
  · rw [hplanes]
    have hwf := hr.inv.store u.plane
    by_cases hih : i = h
    · subst hih
      obtain rfl : d = c := Option.some.inj (hd.symm.trans hw.cursor)
      obtain rfl : u = v := Option.some.inj (hu.symm.trans hw.view)
      rw [if_pos rfl]
      refine PlaneStore.Past.changed ?_ hwf.skipped
      rw [oneMore, if_pos rfl] at hj
      rcases Nat.lt_succ_iff_lt_or_eq.1 hj with hj | rfl
      · exact (hr.past i d u hd hu j hj).takenLine hwf.canonical fun _ => by omega
      · exact hwf.takenLine_past
    · rw [oneMore, if_neg hih] at hj
      have hkept := hr.past i d u hd hu j hj
      split
      · exact (hkept.takenLine hwf.canonical fun e => absurd e.symm hih).changed hwf.skipped
      · exact hkept

/-- A head's run of dues takes it no further than to the first line that is not yet due. -/
theorem Ran.run (hw : s.Waits h c v) {m : Nat} (hm : c.index + m < v.job.length)
    (hahead : s.position < v.due h (c.index + m)) (k : Nat) : ∀ (n : Head → Nat) (t : State), Ran s n t → n h ≤ m →
    ∃ n', Ran s n' (runDues h k t) ∧ n' h ≤ m ∧ ∀ i, i ≠ h → n' i = n i := by
  induction k with
  | zero => exact fun n t hr hn => ⟨n, hr, hn, fun _ _ => rfl⟩
  | succ k ih =>
    intro n t hr hn
    unfold runDues
    cases hd : t.reachedDue h with
    | none => exact ⟨n, hr, hn, fun _ _ => rfl⟩
    | some d =>
      obtain ⟨hcur, w, hview, hdue⟩ := reachedDue_eq_some.1 hd
      rw [hr.cursor hw.cursor] at hcur
      obtain rfl := (Option.some.inj hcur).symm
      obtain ⟨w', hview', -, -, -, hsame⟩ := hr.view hw.view
      obtain rfl : w = w' := Option.some.inj (hview.symm.trans hview')
      have hne : n h ≠ m := fun e => by
        rw [hsame, State.position, hr.ptu] at hdue
        exact absurd hdue (not_le.2 (e ▸ hahead))
      obtain ⟨n', hr', hn', hothers⟩ := ih _ _ (hr.next hw (by omega)) (by rw [oneMore, if_pos rfl]; omega)
      exact ⟨n', hr', hn', fun i hi => (hothers i hi).trans (if_neg hi)⟩

/-- The runs of the heads of a list. -/
theorem Ran.runs {dues : Head → Nat} (hd : ∀ h c, (s.head h).cursor = some c → ∃ v, s.Waits h c v ∧
    c.index + dues h < v.job.length ∧ s.position < v.due h (c.index + dues h)) (l : List Head) :
    ∀ (n : Head → Nat) (t : State), Ran s n t → (∀ h, n h ≤ dues h) →
    ∃ n', Ran s n' (forEach l (fun h s => runDues h s.dueBound s) t) ∧ ∀ h, n' h ≤ dues h := by
  induction l with
  | nil => exact fun n t hr hn => ⟨n, hr, hn⟩
  | cons h l ih =>
    intro n t hr hn
    rw [forEach_cons]
    cases hc : (s.head h).cursor with
    | none =>
      have hnone : (t.head h).cursor = none := by rw [hr.head, hc]; rfl
      rw [runDues_none (reachedDue_none fun c _ hcur => by rw [hnone] at hcur; cases hcur)]
      exact ih n t hr hn
    | some c =>
      obtain ⟨v, hw, hm, hahead⟩ := hd h c hc
      obtain ⟨n', hr', hn', hothers⟩ := Ran.run hw hm hahead t.dueBound n t hr (hn h)
      refine ih n' _ hr' fun i => ?_
      by_cases hi : i = h
      · rw [hi]; exact hn'
      · rw [hothers i hi]; exact hn i

/-- The advance: each head has met the dues that were reached, and no other. -/
theorem Ran.advance {dues : Head → Nat} (hi : s.presenting.Inv)
    (hd : ∀ h c, (s.head h).cursor = some c → ∃ v, s.Waits h c v ∧ c.index + dues h < v.job.length ∧
      (∀ j, j < dues h → v.due h (c.index + j) ≤ s.position) ∧ s.position < v.due h (c.index + dues h))
    (hz : ∀ h, (s.head h).cursor = none → dues h = 0) : Ran s.presenting dues (presentAdvance s) := by
  obtain ⟨n, hr, hn⟩ := Ran.runs (s := s.presenting) (dues := dues) (fun h c hc => by
    obtain ⟨v, hw, hm, -, hahead⟩ := hd h c hc
    exact ⟨v, ⟨hw.cursor, hw.state, hw.lane, hw.view⟩, hm, hahead⟩) allHeads (fun _ => 0) s.presenting (Ran.start hi)
    fun h => Nat.zero_le _
  have hall : n = dues := funext fun h => by
    refine Nat.le_antisymm (hn h) (not_lt.1 fun hlt => ?_)
    cases hc : (s.head h).cursor with
    | none => exact absurd (hz h hc) (by omega)
    | some c =>
      obtain ⟨v, hw, -, hreached, -⟩ := hd h c hc
      obtain ⟨w, hview, -, -, -, hsame⟩ := hr.view (v := v) (h := h) (id := c.job) hw.view
      have hdone := forEach_runDues_none allHeads s.presenting hi.lined h (.inl (mem_allHeads h))
      have hsome := reachedDue_eq_some.2 ⟨hr.cursor (h := h) (c := c) hc, w, hview, by
        rw [hsame, State.position, hr.ptu]
        exact hreached _ hlt⟩
      rw [hdone] at hsome
      cases hsome
  exact hall ▸ hr

theorem State.Inv.presenting (hi : s.Inv) : s.presenting.Inv :=
  (hi.kept.setPtu hi.ptu.present (Nat.le_refl _) fun hl => (hi.loading hl).1).inv

end

/-- Settles O39. -/
theorem headMeetsDue : Obligations.HeadMeetsDue := by
  refine ⟨fun s h c v hi hs hp hst hc hup hhold hfault hv hdue hn hnext ho => ?_,
    fun s h c v o hi hs hp hc hout hne hv hdue hn hnext ho => ?_, fun s dues hi hs hp hd hz => ?_⟩
  · have hout : dueOutcome (s.lane h) .loaded = .fired := dueOutcome_fired hup hfault hhold rfl
    have hfree : (s.head h).inFlight = none := by
      have := (hi.heads h).flight
      rwa [hst] at this
    have hone := presentAdvance_due hi.distinct hc hv hdue hn hnext ho
    have hfires := dueEvent_fires (s := s.presenting) (c := c) hi.distinct hst (hi.heads h) hout hv hn
    have hcount := dueEvent_counters h c s.presenting
    refine ⟨_, (exec_advance_due hs hp).trans (congrArg _ hone), ?_, ?_, ?_, ?_, ?_, ?_, ?_⟩
    · rw [State.counter_congr hcount]
      have ho' : dueOutcome (s.presenting.lane h) (s.presenting.head h).state = .fired := by
        show dueOutcome (s.lane h) (s.head h).state = _
        rw [hst, hout]
      rw [ho']
      exact bump_counter _ _
    · rw [hfires, arriveOn_fire, changeLane, State.setLane_lane]
      rfl
    · rw [dueEvent_cursor, nextLine_same (s := s.presenting) hv hn]
    · rw [hfires]
      exact arriveOn_free_state hfree
    · rw [hfires, (arriveOn_cursor _ _ _ _).2.1]
      rfl
    · rw [hfires, arriveOn_notices]
      rfl
    · rw [hfires, (arriveOn_cursor _ _ _ _).2.2.2]
      rfl
  · have hone := presentAdvance_due hi.distinct hc hv hdue hn hnext ho
    exact ⟨_, (exec_advance_due hs hp).trans (congrArg _ hone),
      dueEvent_misses (s := s.presenting) hi.distinct (hi.heads h) hc hout hne hv hn⟩
  · have hr := Ran.advance (dues := dues) hi.presenting (fun h c hc => by
      obtain ⟨hst, hlane, v, hv, hm, hreached, hahead⟩ := hd h c hc
      exact ⟨v, ⟨hc, hst, takesPreload_false_iff.2 hlane, hv⟩, hm, hreached, hahead⟩) hz
    refine ⟨_, exec_advance_due hs hp, hr.ptu, hr.lanes, hr.jobs, fun h => ⟨hr.head h, hr.counter h, hr.condition h,
      fun c v hc hv => ⟨hr.reach h c v hc hv, fun j ts hj => (hr.past h c v hc hv j hj).takers ts⟩⟩⟩

end Sys2Proof.Machine
end

section
/-!
PROOFS. Skips: what a run of skipped lines leaves of the counters, the heads and the lanes; and Head Off.
-/

namespace Sys2Proof.Machine

section
variable {s t : State} {h : Head}

/-! ## Counters under skips (R84, R89) -/

theorem skipLine_counters (h : Head) (c : Cursor) (taken retires : Bool) (s : State) :
    (skipLine h c taken retires s).notices.counters = (bump (.head .skipped h) s).notices.counters := by
  unfold skipLine
  dsimp only
  rw [report_counters]
  split
  · rw [takeOf_notices]
  · rfl

/-- A counter of head h raised by k, under the bound of R185. -/
def State.Raised (s : State) (h : Head) (k : Nat) (t : State) : Prop :=
  t.counter (.head .skipped h) = min Config.counterMax (s.counter (.head .skipped h) + k)

theorem raised_zero (hb : s.counter (.head .skipped h) ≤ Config.counterMax) : s.Raised h 0 s := (min_eq_right hb).symm

theorem State.Raised.trans {u : State} {j k : Nat} (a : s.Raised h j t) (b : t.Raised h k u) : s.Raised h (j + k) u := by
  unfold State.Raised at *
  rw [b, a]
  omega

theorem State.Raised.bound {k : Nat} (a : s.Raised h k t) : t.counter (.head .skipped h) ≤ Config.counterMax := by
  rw [a]
  exact min_le_left _ _

theorem skipLine_raised (h : Head) (c : Cursor) (taken retires : Bool) (s : State) :
    s.Raised h 1 (skipLine h c taken retires s) :=
  (State.counter_congr (skipLine_counters h c taken retires s) _).trans (bump_counter _ s)

theorem skipRun_raised (retires : Bool) (k : Nat) : ∀ (c : Cursor) (taken : Bool) (s : State),
    s.counter (.head .skipped h) ≤ Config.counterMax → s.Raised h k (skipRun h retires k c taken s) := by
  induction k with
  | zero => exact fun _ _ _ hb => raised_zero hb
  | succ k ih =>
    intro c taken s hb
    have h1 := skipLine_raised h c taken retires s
    have h2 := h1.trans (ih { c with index := c.index + 1 } true _ h1.bound)
    rwa [Nat.add_comm] at h2

theorem skipJobs_raised (retires : Bool) (l : List (Nat × Nat)) : ∀ s : State,
    s.counter (.head .skipped h) ≤ Config.counterMax →
    s.Raised h (l.map Prod.snd).sum (forEach l (fun j s => skipJob h j.1 j.2 retires s) s) := by
  induction l with
  | nil => exact fun _ hb => raised_zero hb
  | cons j l ih =>
    intro s hb
    have h1 : s.Raised h j.2 (skipJob h j.1 j.2 retires s) := skipRun_raised retires j.2 _ _ s hb
    rw [List.map_cons, List.sum_cons]
    exact h1.trans (ih _ h1.bound)

theorem State.lanes_ext (hl : ∀ i, t.lane i = s.lane i) : t.lanes = s.lanes := Vector.ext fun i hi => hl ⟨i, hi⟩

/-! ## Head Off (R89) -/

/-- The state in which a head has skipped the lines it had left. -/
def State.skippedAll (s : State) (h : Head) (c : Cursor) : State :=
  forEach (s.laterJobs h c.job) (fun j s => skipJob h j.1 j.2 true s) (skipCursorJob h c (s.jobs.lengthOf c.job) true s)

theorem giveUpHead_none (hc : (s.head h).cursor = none) : giveUpHead h s = s := by
  unfold giveUpHead
  rw [hc]

theorem giveUpHead_some {c : Cursor} (hc : (s.head h).cursor = some c) :
    giveUpHead h s = becomeIdle h ((s.skippedAll h c).head h).discarded (s.skippedAll h c) := by
  unfold giveUpHead
  rw [hc]
  rfl

theorem within_skippedAll (P : Head → Prop) (s : State) (h : Head) (c : Cursor) : Within P s (s.skippedAll h c) :=
  (within_skipRun _ s P h true _ _).trans (within_forEach (fun _ _ t => within_skipRun _ t P h true _ _) _)

theorem skippedAll_raised (c : Cursor) (hb : s.counter (.head .skipped h) ≤ Config.counterMax) :
    s.Raised h ((s.jobs.lengthOf c.job - c.index) + ((s.laterJobs h c.job).map Prod.snd).sum) (s.skippedAll h c) := by
  have h1 : s.Raised h (s.jobs.lengthOf c.job - c.index) (skipCursorJob h c (s.jobs.lengthOf c.job) true s) :=
    skipRun_raised true _ _ _ s hb
  exact h1.trans (skipJobs_raised true _ _ h1.bound)

/-- A head that is IDLE, reported to its lane (R136). -/
theorem becomeIdle_eq (hw : (s.lane h).Wf) (x : HeadRec) : becomeIdle h x s =
    if (s.lane h).downshift = true then (s.setHead h { x with cursor := none, state := .idle }).downshifted h
    else s.setHead h { x with cursor := none, state := .idle } := by
  unfold becomeIdle
  split
  · next hd => exact testDownshift_due hd (hw.downshift hd).1 (by rw [State.setHead_head])
  · next hd => exact testDownshift_void fun hn => hd hn.1

theorem laterJobs_lengths {pre post : List JobRec} {r : JobRec} (hq : s.jobs.Distinct)
    (he : s.jobs.records = pre ++ r :: post) (h : Head) :
    (s.laterJobs h r.id).map Prod.snd = (post.filter fun x => x.takenBy h).map fun x => x.length := by
  unfold State.laterJobs
  rw [after_split hq he, List.map_map]
  rfl

end

section
variable {tag : Byte} {s : State} {f : Frame} {rest : List Frame}

theorem cmdHeadOff_val (h : Head) (s : State) : cmdHeadOff h.val s =
    Reply.ok (leBytes 4 (s.linesLeft h)) (giveUpHead h (s.setHead h { s.head h with enabled := false })) :=
  withHead_val _ h s

theorem cmdHeadOff_refuses {n : Nat} (hn : 16 ≤ n) (s : State) : cmdHeadOff n s = Reply.refuse .badValue s :=
  withHead_refuses _ hn s

end

/-- Settles O36. -/
theorem headOff : Obligations.HeadOff := by
  refine fun tag n s f rest ht => ⟨fun hn => ht.exec_refuse rfl (cmdHeadOff_refuses hn _), ?_⟩
  rintro h rfl
  have hcmd : exec (.headOff tag h.val) s = _ := ht.exec_ok rfl (cmdHeadOff_val h (s.took rest))
  refine ⟨fun hc => ?_, fun c pre r post hi hc he hr => ?_⟩
  · have hleft : (s.took rest).linesLeft h = 0 := by
      unfold State.linesLeft
      rw [show ((s.took rest).head h).cursor = none from hc]
    have hgive : giveUpHead h ((s.took rest).setHead h { s.head h with enabled := false }) =
        (s.took rest).setHead h { s.head h with enabled := false } := giveUpHead_none (by rw [State.setHead_head]; exact hc)
    rw [hcmd, hleft, show (s.took rest).head h = s.head h from rfl, hgive]
    rfl
  · intro skipped
    have hq := hi.distinct
    generalize ho : (s.took rest).setHead h { s.head h with enabled := false } = o
    have hhead : o.head h = { s.head h with enabled := false } := by rw [← ho, State.setHead_head]
    have hjobs : o.jobs = s.jobs := by rw [← ho]; rfl
    have hcount : o.counter (.head .skipped h) = s.counter (.head .skipped h) := by rw [← ho]; rfl
    have hw := within_skippedAll (fun _ => False) o h c
    have hlane (i : Head) : (o.skippedAll h c).lane i = s.lane i := by
      rw [hw.lanes i id, ← ho]
      rfl
    have hlen : o.jobs.lengthOf c.job = r.length := by rw [hjobs, ← hr, lengthOf_split hq he]
    have hsum : ((o.laterJobs h c.job).map Prod.snd).sum = ((post.filter fun x => x.takenBy h).map fun x => x.length).sum := by
      rw [← hr, laterJobs_lengths (s := o) (by rw [hjobs]; exact hq) (by rw [hjobs]; exact he)]
    have hleft : (s.took rest).linesLeft h = skipped := by
      unfold State.linesLeft
      rw [show ((s.took rest).head h).cursor = some c from hc]
      dsimp only
      rw [show (s.took rest).laterJobs h c.job = s.laterJobs h c.job from rfl,
        show (s.took rest).jobs.lengthOf c.job = s.jobs.lengthOf c.job from rfl, ← hr, lengthOf_split hq he, hr, ← hr,
        laterJobs_lengths hq he]
    refine ⟨(o.skippedAll h c).setHead h { ((o.skippedAll h c).head h).discarded with cursor := none, state := .idle },
      ?_, ?_, ?_, fun i hne => ?_, ?_, ?_, ?_, ?_⟩
    · rw [hcmd, hleft, show (s.took rest).head h = s.head h from rfl, ho, giveUpHead_some (c := c) (by rw [hhead]; exact hc),
        becomeIdle_eq (by rw [hlane]; exact hi.lanes h), hlane]
    · rw [State.setHead_head, hw.heads h id, hhead]
      rfl
    · have hraise := skippedAll_raised (s := o) (h := h) c (by rw [hcount]; exact hi.notices.counters _)
      unfold State.Raised at hraise
      rw [hlen, hsum, hcount] at hraise
      exact hraise
    · rw [State.setHead_head_ne _ _ (Ne.symm hne), hw.heads i id, ← ho, State.setHead_head_ne _ _ (Ne.symm hne)]
      rfl
    · exact State.lanes_ext hlane
    · rw [State.setHead_ptu, hw.ptu, ← ho]
      rfl
    · rw [State.setHead_trig, hw.trig, ← ho]
      rfl
    · rw [State.setHead_link, hw.answers, ← ho]
      rfl

end Sys2Proof.Machine
end

section
/-!
PROOFS. A board status record: the band index as the bands and the hysteresis give it, the order of the notices, and the
downshift that follows the record.
-/

namespace Sys2Proof.Machine

/-! ## The band index (R133) -/

section
variable {bands : List Band} {temp hyst : Nat}

/-- The bound of band k. -/
def boundOf (bands : List Band) (k : Nat) : Nat := (bands.getD k ⟨255, 0⟩).bound

theorem boundOf_getElem? {k : Nat} {b : Band} (hb : bands[k]? = some b) : boundOf bands k = b.bound := by
  unfold boundOf
  rw [List.getD_eq_getElem?_getD, hb]
  rfl

/-- The first place of a list at which a test fails. -/
theorem takeWhile_first {α : Type} (p : α → Bool) (d : α) (l : List α) :
    (∀ k, k < (l.takeWhile p).length → p (l.getD k d) = true) ∧
      ((l.takeWhile p).length < l.length → p (l.getD (l.takeWhile p).length d) = false) := by
  induction l with
  | nil => exact ⟨fun k hk => absurd hk (Nat.not_lt_zero k), fun h => absurd h (lt_irrefl _)⟩
  | cons a l ih =>
    by_cases ha : p a = true
    · rw [List.takeWhile_cons_of_pos ha]
      refine ⟨fun k hk => ?_, fun h => ih.2 (Nat.lt_of_succ_lt_succ h)⟩
      cases k with
      | zero => exact ha
      | succ k => exact ih.1 k (Nat.lt_of_succ_lt_succ hk)
    · rw [List.takeWhile_cons_of_neg ha]
      exact ⟨fun k hk => absurd hk (Nat.not_lt_zero k), fun _ => Bool.eq_false_iff.2 ha⟩

theorem bandUp_spec (bands : List Band) (temp : Nat) (k : Nat) : ∀ i, i < bands.length →
    i ≤ bandUp bands temp k i ∧ bandUp bands temp k i < bands.length ∧
      (∀ m, i ≤ m → m < bandUp bands temp k i → boundOf bands m < temp) ∧
      (bands.length ≤ i + k → bandUp bands temp k i + 1 < bands.length → temp ≤ boundOf bands (bandUp bands temp k i)) := by
  induction k with
  | zero => exact fun i hi => ⟨le_rfl, hi, fun m h1 h2 => absurd (Nat.lt_of_le_of_lt h1 h2) (lt_irrefl i), fun h => absurd hi (not_lt.2 h)⟩
  | succ k ih =>
    intro i hi
    have hb : bands[i]? = some bands[i] := List.getElem?_eq_getElem hi
    unfold bandUp
    rw [hb]
    dsimp only
    split
    · next hc =>
      obtain ⟨h1, h2, h3, h4⟩ := ih (i + 1) hc.1
      refine ⟨Nat.le_of_succ_le h1, h2, fun m hm hm' => ?_, fun hk => h4 (by omega)⟩
      rcases Nat.eq_or_lt_of_le hm with rfl | hm
      · rw [boundOf_getElem? hb]; exact hc.2
      · exact h3 m hm hm'
    · next hc =>
      refine ⟨le_rfl, hi, fun m h1 h2 => absurd (Nat.lt_of_le_of_lt h1 h2) (lt_irrefl i), fun _ hlast => ?_⟩
      rw [boundOf_getElem? hb]
      exact not_lt.1 fun h => hc ⟨hlast, h⟩

theorem bandDown_spec (bands : List Band) (temp hyst : Nat) : ∀ i, i < bands.length →
    bandDown bands temp hyst i ≤ i ∧ (∀ k, bandDown bands temp hyst i ≤ k → k < i → temp + hyst ≤ boundOf bands k) ∧
      (0 < bandDown bands temp hyst i → boundOf bands (bandDown bands temp hyst i - 1) < temp + hyst)
  | 0, _ => ⟨le_rfl, fun k _ hk => absurd hk (Nat.not_lt_zero k), fun h => absurd h (lt_irrefl 0)⟩
  | i + 1, hi => by
    have hb : bands[i]? = some bands[i] := List.getElem?_eq_getElem (by omega)
    unfold bandDown
    rw [hb]
    dsimp only
    split
    · next hc =>
      obtain ⟨h1, h2, h3⟩ := bandDown_spec bands temp hyst i (by omega)
      refine ⟨Nat.le_succ_of_le h1, fun k hk hk' => ?_, h3⟩
      rcases Nat.eq_or_lt_of_le (Nat.le_of_lt_succ hk') with rfl | hk'
      · rw [boundOf_getElem? hb]; exact hc
      · exact h2 k hk hk'
    · next hc =>
      refine ⟨le_rfl, fun k h1 h2 => absurd (Nat.lt_of_le_of_lt h1 h2) (lt_irrefl _), fun _ => ?_⟩
      rw [Nat.add_sub_cancel, boundOf_getElem? hb]
      exact not_le.1 hc

theorem bandUp_moves {k i : Nat} (hi : i < bands.length) (hk : 0 < k) :
    i < bandUp bands temp k i ↔ i + 1 < bands.length ∧ boundOf bands i < temp := by
  obtain ⟨k, rfl⟩ := Nat.exists_eq_succ_of_ne_zero hk.ne'
  have hb : bands[i]? = some bands[i] := List.getElem?_eq_getElem hi
  rw [boundOf_getElem? hb]
  unfold bandUp
  rw [hb]
  dsimp only
  split
  · next hc => exact iff_of_true (Nat.lt_of_succ_le (bandUp_spec bands temp k (i + 1) hc.1).1) hc
  · next hc => exact iff_of_false (lt_irrefl i) hc

end

/-! ## The next grade down (R136) -/

theorem head?_greatest {l : List Grade} (hl : l.Pairwise fun x y => y.code < x.code) {y : Grade} :
    l.head? = some y ↔ y ∈ l ∧ ∀ z ∈ l, z.code ≤ y.code := by
  cases l with
  | nil => simp
  | cons x l =>
    obtain ⟨ha, -⟩ := List.pairwise_cons.1 hl
    rw [List.head?_cons, Option.some.injEq]
    constructor
    · rintro rfl
      refine ⟨List.mem_cons_self, fun z hz => ?_⟩
      rcases List.mem_cons.1 hz with rfl | hz
      · exact le_rfl
      · exact (ha z hz).le
    · rintro ⟨hy, hmax⟩
      rcases List.mem_cons.1 hy with rfl | hy
      · rfl
      · exact absurd (ha y hy) (not_lt.2 (hmax x List.mem_cons_self))

theorem nextLower_eq_some {l : Lane} {set : List Grade} {g y : Grade} (hs : l.gradeSet = some set) (hg : l.grade = some g) :
    l.nextLower = some y ↔ y ∈ set ∧ y.code < g.code ∧ ∀ z ∈ set, z.code < g.code → z.code ≤ y.code := by
  have hsorted : allGrades.reverse.Pairwise fun x y => y.code < x.code := by decide
  unfold Lane.nextLower
  rw [hs, hg]
  refine (head?_greatest (hsorted.filter _)).trans ?_
  simp only [List.mem_filter, List.mem_reverse, mem_allGrades, true_and, decide_eq_true_eq, and_assoc, and_imp]

/-! ## Notices and lanes are apart -/

/-- A change of the state that a submission neither sees nor touches. -/
structure Unseen (f : State → State) : Prop where
  notices : ∀ s, (f s).notices = s.notices
  link : ∀ s, (f s).link = s.link
  stamp : ∀ s, (f s).linePosition = s.linePosition
  outbound : ∀ s, (f s).nextOutbound = s.nextOutbound
  setNotices : ∀ s u, (f s).setNotices u = f (s.setNotices u)
  setLink : ∀ s k, (f s).setLink k = f (s.setLink k)

section
variable {f : State → State}

theorem Unseen.arbitrate (hf : Unseen f) (s : State) : arbitrate (f s) = f (arbitrate s) := by
  unfold Machine.arbitrate
  rw [hf.link, hf.outbound]
  split
  · cases h : s.nextOutbound with
    | none => rfl
    | some o => exact hf.setLink s _
  · rfl

theorem Unseen.testRelease (hf : Unseen f) (s : State) : testRelease (f s) = f (testRelease s) := by
  unfold Machine.testRelease
  rw [hf.notices]
  split
  · rw [releaseBatch_eq, releaseBatch_eq, ← hf.arbitrate, ← hf.setLink, ← hf.setNotices, hf.notices, hf.link]
  · rfl

theorem Unseen.submit (hf : Unseen f) (n : Notice) (s : State) : submit n (f s) = f (submit n s) := by
  unfold Machine.submit
  rw [hf.notices]
  split
  · rfl
  · unfold offer
    dsimp only
    rw [hf.notices, hf.stamp]
    split
    · rw [hf.setNotices, hf.testRelease]
    · rw [hf.setNotices]

theorem Unseen.submitCondition (hf : Unseen f) (c : CondName) (n : Notice) (s : State) :
    submitCondition c n (f s) = f (submitCondition c n s) := by
  have hc : (f s).condition c = s.condition c := congrArg (fun u : NoticeUnit => u.conditions.get c.index) (hf.notices s)
  unfold Machine.submitCondition
  rw [hc]
  split
  · rfl
  · rw [hf.notices, hf.setNotices, hf.submit]

end

theorem unseen_setLanes (w : Vector Lane 16) : Unseen fun s => s.setLanes w :=
  ⟨fun _ => rfl, fun _ => rfl, fun _ => rfl, fun _ => rfl, fun _ _ => rfl, fun _ _ => rfl⟩

section
variable {s : State} {h : Head}

theorem submit_setLane (n : Notice) (s : State) (h : Head) (l : Lane) :
    submit n (s.setLane h l) = (submit n s).setLane h l :=
  ((unseen_setLanes _).submit n s).trans (by rw [State.setLane, (quiet_submit n s).lanes])

theorem submitCondition_setLane (c : CondName) (n : Notice) (s : State) (h : Head) (l : Lane) :
    submitCondition c n (s.setLane h l) = (submitCondition c n s).setLane h l :=
  ((unseen_setLanes _).submitCondition c n s).trans (by rw [State.setLane, (quiet_submitCondition c n s).lanes])

/-! ## The record (R134 to R137) -/

/-- The number of bad records that a count brings beyond the threshold, if it does (R135). -/
def Lane.degradedBy (l : Lane) (count : Nat) : Option Nat :=
  (l.badCount.map fun old => (count + 65536 - old) % 65536).filter fun d =>
    decide (l.settings.degrade ≠ 0 ∧ l.settings.degrade ≤ d)

/-- Whether a count leaves a downshift pending (R136). -/
def Lane.downs (l : Lane) (count : Nat) : Bool :=
  l.downshift || ((l.degradedBy count).isSome &&
    decide (l.state = .up ∧ l.settings.autoDown = true ∧ l.nextLower.isSome = true))

/-- DEGRADED, where a count brings it. -/
def tellDegraded (h : Head) (d : Option Nat) (g : Option Grade) (s : State) : State :=
  d.elim s fun d => submitCondition (.degraded h) (.degraded h d g) s

/-- BOARD_CODE, where a code is new (R137). -/
def tellCode (h : Head) (old : Option Nat) (code : Nat) (s : State) : State :=
  if old ≠ some code ∧ ¬ (old = none ∧ code = 0) then submit (.boardCode h old code) s else s

theorem tellDegraded_setLane (d : Option Nat) (g : Option Grade) (s : State) (l : Lane) :
    tellDegraded h d g (s.setLane h l) = (tellDegraded h d g s).setLane h l := by
  cases d with
  | none => rfl
  | some d => exact submitCondition_setLane _ _ s h l

theorem tellDegraded_quiet (d : Option Nat) (g : Option Grade) (s : State) : Quiet s (tellDegraded h d g s) := by
  cases d with
  | none => exact .refl s
  | some d => exact quiet_submitCondition _ _ s

theorem tellCode_setLane (old : Option Nat) (code : Nat) (s : State) (l : Lane) :
    tellCode h old code (s.setLane h l) = (tellCode h old code s).setLane h l := by
  unfold tellCode
  split
  · exact submit_setLane _ s h l
  · rfl

theorem tellCode_quiet (old : Option Nat) (code : Nat) (s : State) : Quiet s (tellCode h old code s) := by
  unfold tellCode
  split
  · exact quiet_submit _ s
  · exact .refl s

theorem takeCount_eq (count : Nat) : takeCount h count s = tellDegraded h ((s.lane h).degradedBy count) (s.lane h).grade
    (s.setLane h { s.lane h with badCount := some count, downshift := (s.lane h).downs count }) := by
  generalize hl : s.lane h = l
  unfold takeCount Lane.downs Lane.degradedBy
  dsimp only
  rw [hl]
  cases hb : l.badCount with
  | none => simp [tellDegraded]
  | some old =>
    dsimp only
    by_cases hd : l.settings.degrade ≠ 0 ∧ l.settings.degrade ≤ (count + 65536 - old) % 65536
    · rw [if_pos hd, Option.map_some, Option.filter_some, if_pos (decide_eq_true hd)]
      have hq := quiet_submitCondition (.degraded h) (.degraded h ((count + 65536 - old) % 65536) l.grade)
        (s.setLane h { l with badCount := some count })
      show _ = submitCondition _ _ _
      by_cases hdown : l.state = .up ∧ l.settings.autoDown = true ∧ l.nextLower.isSome = true
      · rw [if_pos hdown, changeLane, hq.lane, State.setLane_lane, submitCondition_setLane, State.setLane_setLane,
          submitCondition_setLane, decide_eq_true hdown]
        simp
      · rw [if_neg hdown, decide_eq_false hdown]
        simp
    · rw [if_neg hd, Option.map_some, Option.filter_some, if_neg (by simpa using hd)]
      simp [tellDegraded]

theorem takeCode_eq (code : Nat) : takeCode h code s = tellCode h (s.lane h).faultCode code
    (s.setLane h { s.lane h with faultCode := some code }) := by
  rw [tellCode_setLane]
  unfold takeCode
  dsimp only
  cases hf : (s.lane h).faultCode with
  | none =>
    have hsame : tellCode h none code s = if (code != 0) = true then submit (.boardCode h none code) s else s :=
      if_congr (by simp) rfl rfl
    dsimp only
    rw [← hsame, changeLane, (tellCode_quiet _ _ _).lane]
  | some x =>
    have hsame : tellCode h (some x) code s = if (x != code) = true then submit (.boardCode h (some x) code) s else s :=
      if_congr (by simp) rfl rfl
    dsimp only
    rw [← hsame, changeLane, (tellCode_quiet _ _ _).lane]

/-- The lane after a status record. -/
def Lane.reportedStatus (l : Lane) (bands : List Band) (temp count code : Nat) : Lane :=
  { l with
    band := some (moveBand bands temp l.settings.hyst l.band)
    status := if l.state = .up then some 0 else l.status, badCount := some count, faultCode := some code
    downshift := l.downs count }

theorem takeStatus_eq (hs : (s.lane h).state = .up ∨ (s.lane h).state = .faulted) (temp count code : Nat) :
    takeStatus h temp count code s = testDownshift h (tellCode h (s.lane h).faultCode code
      (tellDegraded h ((s.lane h).degradedBy count) (s.lane h).grade (s.setLane h ((s.lane h).reportedStatus
        ((s.banks.tables s.banks.active).head h).bands temp count code)))) := by
  refine (if_neg fun hn => hs.elim hn.1 hn.2).trans (congrArg (testDownshift h) ?_)
  rw [takeCount_eq, takeCode_eq, (tellDegraded_quiet _ _ _).lane, State.setLane_lane, State.setLane_lane]
  rw [State.setLane_setLane, tellDegraded_setLane, State.setLane_setLane, tellDegraded_setLane]
  rfl

end

section
variable {s : State} {h : Head} {d : LaneDelivery} {temp count code : Nat}

theorem boardRecord_status (hd : LaneDelivery.read d = .status temp count code) :
    boardRecord h d s = takeStatus h temp count code s := by
  unfold boardRecord
  rw [hd]

theorem degradedBy_eq_some {l : Lane} {x : Nat} : l.degradedBy count = some x ↔ ∃ old, l.badCount = some old ∧
    x = (count + 65536 - old) % 65536 ∧ l.settings.degrade ≠ 0 ∧ l.settings.degrade ≤ x := by
  unfold Lane.degradedBy
  rw [Option.filter_eq_some_iff]
  constructor
  · rintro ⟨hx, hp⟩
    obtain ⟨old, ho, rfl⟩ := Option.map_eq_some_iff.1 hx
    exact ⟨old, ho, rfl, of_decide_eq_true hp⟩
  · rintro ⟨old, ho, rfl, hp⟩
    exact ⟨by rw [ho]; rfl, decide_eq_true hp⟩

theorem downs_iff {l : Lane} : l.downs count = true ↔ l.downshift = true ∨ ∃ old, l.badCount = some old ∧
    (l.settings.degrade ≠ 0 ∧ l.settings.degrade ≤ (count + 65536 - old) % 65536) ∧ l.state = .up ∧
      l.settings.autoDown = true ∧ l.nextLower ≠ none := by
  unfold Lane.downs
  rw [Bool.or_eq_true, Bool.and_eq_true, decide_eq_true_iff, Option.isSome_iff_exists, Option.isSome_iff_ne_none]
  refine or_congr Iff.rfl ⟨?_, ?_⟩
  · rintro ⟨⟨x, hx⟩, hrest⟩
    obtain ⟨old, ho, rfl, hp⟩ := degradedBy_eq_some.1 hx
    exact ⟨old, ho, hp, hrest⟩
  · rintro ⟨old, ho, hp, hrest⟩
    exact ⟨⟨_, degradedBy_eq_some.2 ⟨old, ho, rfl, hp⟩⟩, hrest⟩

end

theorem moveBand_first {bands : List Band} {temp : Nat} (hlast : bands.getLast?.map Band.bound = some 255) (ht : temp ≤ 255)
    (hyst : Nat) : moveBand bands temp hyst none ≤ bands.length - 1 ∧
      temp ≤ boundOf bands (moveBand bands temp hyst none) ∧
        ∀ k, k < moveBand bands temp hyst none → boundOf bands k < temp := by
  obtain ⟨z, hz, hz'⟩ := Option.map_eq_some_iff.1 hlast
  have hlt := takeWhile_lt (fun b : Band => decide (b.bound < temp)) bands z hz (by simp [hz']; omega)
  obtain ⟨hbelow, hstop⟩ := takeWhile_first (fun b : Band => decide (b.bound < temp)) ⟨255, 0⟩ bands
  exact ⟨Nat.le_sub_one_of_lt hlt, not_lt.1 (of_decide_eq_false (hstop hlt)), fun k hk => of_decide_eq_true (hbelow k hk)⟩

theorem moveBand_known {bands : List Band} (hne : bands ≠ []) (temp hyst i : Nat) :
    (min i (bands.length - 1) < bands.length - 1 ∧ boundOf bands (min i (bands.length - 1)) < temp →
      min i (bands.length - 1) < moveBand bands temp hyst (some i) ∧ moveBand bands temp hyst (some i) ≤ bands.length - 1 ∧
        (∀ k, min i (bands.length - 1) ≤ k → k < moveBand bands temp hyst (some i) → boundOf bands k < temp) ∧
        (moveBand bands temp hyst (some i) < bands.length - 1 → temp ≤ boundOf bands (moveBand bands temp hyst (some i)))) ∧
    (¬ (min i (bands.length - 1) < bands.length - 1 ∧ boundOf bands (min i (bands.length - 1)) < temp) →
      moveBand bands temp hyst (some i) ≤ min i (bands.length - 1) ∧
        (∀ k, moveBand bands temp hyst (some i) ≤ k → k < min i (bands.length - 1) → temp + hyst ≤ boundOf bands k) ∧
        (0 < moveBand bands temp hyst (some i) → boundOf bands (moveBand bands temp hyst (some i) - 1) < temp + hyst)) := by
  have hlen : 0 < bands.length := List.length_pos_iff.2 hne
  have hi : min i (bands.length - 1) < bands.length := by omega
  generalize hj : min i (bands.length - 1) = j at hi
  have hmove : moveBand bands temp hyst (some i) = if j < bandUp bands temp bands.length j then
      bandUp bands temp bands.length j else bandDown bands temp hyst j := by rw [← hj]; rfl
  have hiff := bandUp_moves (temp := temp) hi hlen
  refine ⟨fun hup => ?_, fun hup => ?_⟩
  · have hlt := hiff.2 ⟨by omega, hup.2⟩
    obtain ⟨-, h2, h3, h4⟩ := bandUp_spec bands temp bands.length j hi
    rw [hmove, if_pos hlt]
    exact ⟨hlt, Nat.le_sub_one_of_lt h2, h3, fun hl => h4 (Nat.le_add_left _ _) (by omega)⟩
  · rw [hmove, if_neg fun hlt => hup ⟨by have := (hiff.1 hlt).1; omega, (hiff.1 hlt).2⟩]
    exact bandDown_spec bands temp hyst j hi

/-- Settles O51. -/
theorem boardStatus : Obligations.BoardStatus := by
  refine ⟨fun bands temp hyst hlast ht => ?_, fun s h d temp count code hd => ?_⟩
  · have hne : bands ≠ [] := by
      rintro rfl
      cases hlast
    exact ⟨moveBand_first hlast ht hyst, moveBand_known hne temp hyst⟩
  intro l
  refine ⟨fun h1 h2 => ?_, fun hs => ?_, fun set g y hset hg => nextLower_eq_some hset hg⟩
  · exact congrArg Host.Outcome.next ((boardRecord_status hd).trans (if_pos ⟨h1, h2⟩))
  · intro delta degraded newCode down m t u hm hdown ht1 ht2 hu1 hu2
    have hm' : m = l.reportedStatus ((s.banks.tables s.banks.active).head h).bands temp count code := by
      have hpend : m.downshift = l.downs count := Bool.eq_iff_iff.2 (hdown.trans downs_iff.symm)
      rw [hm, hpend]
      rfl
    have ht : t = tellDegraded h (l.degradedBy count) l.grade (s.setLane h m) := by
      cases hx : l.degradedBy count with
      | none =>
        refine ht1 fun old ho hdeg => ?_
        rw [degradedBy_eq_some.2 ⟨old, ho, rfl, hdeg⟩] at hx
        cases hx
      | some x =>
        obtain ⟨old, ho, rfl, hdeg⟩ := degradedBy_eq_some.1 hx
        exact ht2 old ho hdeg
    have hu : u = tellCode h l.faultCode code t := by
      unfold tellCode
      split
      · next hc => exact hu1 hc
      · next hc => exact hu2 hc
    have hquiet : Quiet (s.setLane h m) u := by
      rw [hu, ht]
      exact (tellDegraded_quiet _ _ _).trans (tellCode_quiet _ _ _)
    have hlane : u.lane h = m := hquiet.lane h ▸ State.setLane_lane _ _ _
    have hhead : u.head h = s.head h := hquiet.head h
    have hexec : exec (.boardStatusRecord h d) s = .next (testDownshift h u) := by
      refine congrArg Host.Outcome.next ((boardRecord_status hd).trans ?_)
      rw [takeStatus_eq hs, ← hm', hu, ht]
    have hpend : m.downshift = true ↔ down := hdown
    have hstate : m.state = l.state := by rw [hm']; rfl
    have hlower : m.nextLower = l.nextLower := by rw [hm']; rfl
    refine ⟨fun hn => ?_, fun hdn hup hidle => ?_⟩
    · rw [hexec, testDownshift_void]
      rw [hlane, hhead, hpend, hstate]
      exact hn
    · intro x v
      rw [hexec, testDownshift_due (by rw [hlane]; exact hpend.2 hdn) (by rw [hlane, hstate]; exact hup) (by rw [hhead]; exact hidle)]
      unfold State.downshifted
      rw [hlane, hhead, hlower]

end Sys2Proof.Machine
end

section
/-!
PROOFS. The completion of loading: what each step of R171 leaves behind and what it does not touch, and the completion with the
defaults.
-/

namespace Sys2Proof.Machine

section
variable {s t u : State} {h : Head} {e : Nat} {cause : LoadCause}

/-! ## The notice settings (R184) -/

theorem offer_settings (n : Notice) (s : State) : (offer n s).notices.mask = s.notices.mask ∧
    (offer n s).notices.level = s.notices.level ∧ (offer n s).notices.idle = s.notices.idle := by
  unfold offer
  dsimp only
  split
  · have hs := testRelease_same (s.setNotices (NoticeUnit.startIdle { s.notices with
      queue := s.notices.queue ++ [⟨n, s.linePosition, if s.notices.lost = 0 then none else some s.notices.lost⟩], lost := 0 }))
    exact ⟨hs.mask, hs.level, hs.idle⟩
  · exact ⟨rfl, rfl, rfl⟩

theorem submit_settings (n : Notice) (s : State) : (submit n s).notices.mask = s.notices.mask ∧
    (submit n s).notices.level = s.notices.level ∧ (submit n s).notices.idle = s.notices.idle := by
  unfold submit
  split
  · exact ⟨rfl, rfl, rfl⟩
  · exact offer_settings n s

theorem submitCondition_settings (c : CondName) (n : Notice) (s : State) :
    (submitCondition c n s).notices.mask = s.notices.mask ∧ (submitCondition c n s).notices.level = s.notices.level ∧
      (submitCondition c n s).notices.idle = s.notices.idle := by
  unfold submitCondition
  split
  · exact ⟨rfl, rfl, rfl⟩
  · exact submit_settings n _

theorem loadNotices_same (m : List NoticeKind) (level idle : Nat) (s : State) :
    ({ s.notices with mask := m, level := roundLevel level, idle := min idle 255 } : NoticeUnit).Same
      (loadNotices m level idle s).notices := by
  have hl := takeLevel_same level (takeMask m s)
  have hi := takeIdle_same idle (takeLevel level (takeMask m s))
  exact ⟨hi.mask.trans hl.mask, hi.level.trans hl.level, hi.idle, hi.conditions.trans hl.conditions,
    hi.counters.trans hl.counters, hi.lost.trans hl.lost⟩

/-- New settings over an empty queue release nothing and send nothing. -/
theorem loadNotices_empty (hw : s.notices.Wf) (hq : s.notices.queue = []) (m : List NoticeKind) (level idle : Nat) :
    (loadNotices m level idle s).notices.queue = [] ∧ (loadNotices m level idle s).link = s.link := by
  have ht : s.notices.idleTimer = none := Option.not_isSome_iff_eq_none.1 fun h => (hw.idleTimer h).1 hq
  have hl : takeLevel level (takeMask m s) =
      s.setNotices { s.notices with mask := m, level := roundLevel level } := by
    unfold takeLevel testRelease
    refine if_neg ?_
    show ¬ ((_ && _ && !s.notices.queue.isEmpty) = true)
    rw [hq]
    simp
  unfold loadNotices
  rw [hl]
  unfold takeIdle
  simp only [State.setNotices_notices, ht, hq, List.isEmpty_nil, if_true]
  split <;> exact ⟨rfl, rfl⟩

/-! ## One lane (R138) -/

/-- A lane as step 6 of R171 leaves it. -/
def Lane.loadedWith (q : LaneSettings) (enable : Bool) (l : Lane) : Lane :=
  let z := { l.withSettings q with
    enable := enable, status := l.status.bind fun n => if q.timeout * 25000 ≤ n then none else some n }
  if l.state = .down ∧ enable = true then
    Lane.send { z with state := .negotiating, grade := none, gradeSet := none, timer := none } .capsQuery
  else z

theorem withSettings_kept (l : Lane) (q : LaneSettings) : (l.withSettings q).settings = q ∧
    (l.withSettings q).state = l.state ∧ (l.withSettings q).status = l.status ∧ (l.withSettings q).ceiling = l.ceiling := by
  rw [Lane.withSettings_eq]
  exact ⟨rfl, rfl, rfl, rfl⟩

theorem loadedWith_settings (q : LaneSettings) (enable : Bool) (l : Lane) : (l.loadedWith q enable).settings = q := by
  unfold Lane.loadedWith
  dsimp only
  split
  · rw [Lane.send_settings]; exact (withSettings_kept l q).1
  · exact (withSettings_kept l q).1

@[simp] theorem Lane.send_enable (l : Lane) (r : LaneRecord) : (l.send r).enable = l.enable := by
  unfold Lane.send; split <;> rfl

@[simp] theorem Lane.send_ceiling (l : Lane) (r : LaneRecord) : (l.send r).ceiling = l.ceiling := by
  unfold Lane.send; split <;> rfl

theorem loadedWith_enable (q : LaneSettings) (enable : Bool) (l : Lane) : (l.loadedWith q enable).enable = enable := by
  unfold Lane.loadedWith
  dsimp only
  split
  · rw [Lane.send_enable]
  · rfl

theorem loadedWith_ceiling (q : LaneSettings) (enable : Bool) (l : Lane) :
    (l.loadedWith q enable).ceiling = l.ceiling := by
  unfold Lane.loadedWith
  dsimp only
  split
  · rw [Lane.send_ceiling]; exact (withSettings_kept l q).2.2.2
  · exact (withSettings_kept l q).2.2.2

theorem loadedWith_state (q : LaneSettings) (enable : Bool) (l : Lane) :
    (l.loadedWith q enable).state = if l.state = .down ∧ enable = true then .negotiating else l.state := by
  unfold Lane.loadedWith
  dsimp only
  split
  · rw [send_state]
  · exact (withSettings_kept l q).2.1

theorem Quiet.withLanes (q : Quiet s t) (v : Vector Lane 16) : Quiet { s with lanes := v } { t with lanes := v } :=
  ⟨by rw [q.rest]; rfl, q.up, q.inbound, q.answers, q.loader⟩

theorem Quiet.setLane (q : Quiet s t) (h : Head) (l : Lane) : Quiet (s.setLane h l) (t.setLane h l) := by
  have hw := q.withLanes (put s.lanes h l)
  rw [State.setLane, State.setLane, q.lanes]
  exact hw

theorem quiet_takeSettings (h : Head) (q : LaneSettings) (s : State) :
    Quiet (s.setLane h { (s.lane h).withSettings q with
      status := (s.lane h).status.bind fun n => if q.timeout * 25000 ≤ n then none else some n }) (takeSettings h q true s) := by
  rw [takeSettings_eq]
  split
  · next hd =>
    obtain ⟨-, n, hn, hle⟩ := hd
    rw [hn, Option.bind_some, if_pos hle]
    exact quiet_submitCondition _ _ _
  · next hd =>
    have hs : ((s.lane h).status.bind fun n => if q.timeout * 25000 ≤ n then none else some n) =
        ((s.lane h).withSettings q).status := by
      rw [(withSettings_kept _ q).2.2.1]
      cases hn : (s.lane h).status with
      | none => rfl
      | some n => exact if_neg fun hle => hd ⟨rfl, n, hn, hle⟩
    rw [hs]
    exact .refl _

theorem takeSettings_lane (h : Head) (q : LaneSettings) (s : State) : (takeSettings h q true s).lane h =
    { (s.lane h).withSettings q with
      status := (s.lane h).status.bind fun n => if q.timeout * 25000 ≤ n then none else some n } := by
  rw [(quiet_takeSettings h q s).lane, State.setLane_lane]

theorem quiet_loadLane (h : Head) (q : LaneSettings) (enable : Bool) (s : State) :
    Quiet (s.setLane h ((s.lane h).loadedWith q enable)) (loadLane h q enable s) := by
  have hq := quiet_takeSettings h q s
  have hl := takeSettings_lane h q s
  unfold loadLane Lane.loadedWith changeLane
  dsimp only
  rw [State.setLane_lane, hl]
  have hst := (withSettings_kept (s.lane h) q).2.1
  by_cases hc : (s.lane h).state = .down ∧ enable = true
  · rw [if_pos hc, if_pos ⟨hst.trans hc.1, hc.2⟩, enterNegotiating_eq, State.setLane_lane, State.setLane_setLane]
    have hs := hq.setLane h (Lane.send { (s.lane h).withSettings q with
      enable := enable, state := .negotiating, grade := none, gradeSet := none, timer := none
      status := (s.lane h).status.bind fun n => if q.timeout * 25000 ≤ n then none else some n } .capsQuery)
    rw [State.setLane_setLane] at hs
    exact hs.trans (quiet_submit _ _)
  · rw [if_neg hc, if_neg fun h' => hc ⟨hst.symm.trans h'.1, h'.2⟩]
    have hs := hq.setLane h { (s.lane h).withSettings q with
      enable := enable
      status := (s.lane h).status.bind fun n => if q.timeout * 25000 ≤ n then none else some n }
    rw [State.setLane_setLane] at hs
    exact hs

theorem loadLane_lane (h : Head) (q : LaneSettings) (enable : Bool) (s : State) :
    (loadLane h q enable s).lane h = (s.lane h).loadedWith q enable := by
  rw [(quiet_loadLane h q enable s).lane, State.setLane_lane]

theorem loadLane_lane_ne {i : Head} (hi : i ≠ h) (q : LaneSettings) (enable : Bool) (s : State) :
    (loadLane h q enable s).lane i = s.lane i := by
  rw [(quiet_loadLane h q enable s).lane, State.setLane_lane_ne _ _ (Ne.symm hi)]

/-! ## All the lanes -/

/-- What step 6 of R171 keeps: everything but the lanes, the notice queue and what leaves from it. -/
structure LoadsLanes (s t : State) : Prop where
  rest : Quiet { s with lanes := t.lanes } t
  mask : t.notices.mask = s.notices.mask
  level : t.notices.level = s.notices.level
  idle : t.notices.idle = s.notices.idle

theorem LoadsLanes.refl (s : State) : LoadsLanes s s := ⟨.refl s, rfl, rfl, rfl⟩

theorem LoadsLanes.trans (a : LoadsLanes s t) (b : LoadsLanes t u) : LoadsLanes s u :=
  ⟨(a.rest.withLanes u.lanes).trans b.rest, b.mask.trans a.mask, b.level.trans a.level, b.idle.trans a.idle⟩

theorem loadsLanes_setLane (h : Head) (l : Lane) (s : State) : LoadsLanes s (s.setLane h l) := ⟨.refl _, rfl, rfl, rfl⟩

theorem loadsLanes_submit (n : Notice) (s : State) : LoadsLanes s (submit n s) :=
  ⟨by rw [(quiet_submit n s).lanes]; exact quiet_submit n s, (submit_settings n s).1, (submit_settings n s).2.1,
    (submit_settings n s).2.2⟩

theorem loadsLanes_submitCondition (c : CondName) (n : Notice) (s : State) : LoadsLanes s (submitCondition c n s) :=
  ⟨by rw [(quiet_submitCondition c n s).lanes]; exact quiet_submitCondition c n s,
    (submitCondition_settings c n s).1, (submitCondition_settings c n s).2.1, (submitCondition_settings c n s).2.2⟩

theorem loadsLanes_loadLane (h : Head) (q : LaneSettings) (enable : Bool) (s : State) :
    LoadsLanes s (loadLane h q enable s) := by
  have ht : LoadsLanes s (takeSettings h q true s) := by
    rw [takeSettings_eq]
    split
    · exact (loadsLanes_setLane h _ s).trans (loadsLanes_submitCondition _ _ _)
    · exact loadsLanes_setLane h _ s
  unfold loadLane changeLane
  dsimp only
  split
  · rw [enterNegotiating_eq]
    exact ((ht.trans (loadsLanes_setLane h _ _)).trans (loadsLanes_setLane h _ _)).trans (loadsLanes_submit _ _)
  · exact ht.trans (loadsLanes_setLane h _ _)

theorem submit_condition (n : Notice) (s : State) (c : CondName) : (submit n s).condition c = s.condition c :=
  congrArg (·.get c.index) (submit_conditions n s)

theorem loadLane_defaulted (h : Head) (q : LaneSettings) (enable : Bool) (s : State) :
    (loadLane h q enable s).condition .configDefaulted = s.condition .configDefaulted := by
  have ht : (takeSettings h q true s).condition .configDefaulted = s.condition .configDefaulted := by
    rw [takeSettings_eq]
    split
    · exact (submitCondition_condition _ _ _ _).trans (Bool.or_false _)
    · rfl
  unfold loadLane changeLane
  dsimp only
  split
  · rw [enterNegotiating_eq, submit_condition]
    exact ht
  · exact ht

/-- A run over the heads, each of which changes its own lane alone. -/
theorem forEach_ownLanes {f : Head → State → State}
    (hown : ∀ i j x, j ≠ i → (f i x).lane j = x.lane j) (hs : ∀ i x y, x.lane i = y.lane i → (f i x).lane i = (f i y).lane i)
    (s : State) (h : Head) : (forEach allHeads f s).lane h = (f h s).lane h := by
  have hrun : ∀ l : List Head, l.Nodup → ∀ x, (forEach l f x).lane h = if h ∈ l then (f h x).lane h else x.lane h := by
    intro l
    induction l with
    | nil => exact fun _ x => (if_neg List.not_mem_nil).symm
    | cons i l ih =>
      intro hn x
      obtain ⟨hi, hn⟩ := List.nodup_cons.1 hn
      rw [forEach_cons, ih hn]
      by_cases hhi : h = i
      · subst hhi
        rw [if_neg hi, if_pos List.mem_cons_self]
      · by_cases hl : h ∈ l
        · rw [if_pos hl, if_pos (List.mem_cons_of_mem _ hl)]
          exact hs h _ _ (hown i h x hhi)
        · rw [if_neg hl, if_neg fun hm => (List.mem_cons.1 hm).elim hhi hl, hown i h x hhi]
  rw [hrun allHeads (by decide), if_pos (mem_allHeads h)]

theorem loadsLanes_forEach {f : Head → State → State} (hf : ∀ i x, LoadsLanes x (f i x)) (l : List Head) (s : State) :
    LoadsLanes s (forEach l f s) :=
  forEach_keeps (P := LoadsLanes s) l f (fun i _ x hx => hx.trans (hf i x)) (.refl s)

/-! ## The blocks before the lanes (R51, R53, R153, R24, R48) -/

/-- The PTU's parameters that a position section gives, adjusted. -/
def PtuParams.loadedWith (q : PtuParams) (a : PositionArgs) : PtuParams :=
  let ratio := match a.lineRatio with
    | some r => if ratioOk r then r else 65536
    | none => 65536
  let p := q.adjusted { a with lineRatio := some ratio }
  { p with invert := match a.invert with
    | some x => imageFlag Config.imageInvert x
    | none => p.invert }

theorem loadPosition_eq (hs : s.ptu.stall = none) (a : PositionArgs) :
    loadPosition a s = s.setPtu (s.ptu.withParams (s.ptu.params.loadedWith a) a) :=
  takeParams_timely fun ⟨_, _, he, _⟩ => absurd (he.symm.trans hs) (Option.some_ne_none _)

/-- Steps 1 to 5 of R171. -/
def State.loadedBlocks (s : State) (mask : List NoticeKind) (level idle : Nat) (args : List PlaneArgs) (x : Tables)
    (a : PositionArgs) (q : TrigParams) : State :=
  loadTrigger q (loadPosition a (loadTables x
    ((loadNotices mask level idle s).setStore (loadPlanes args (loadNotices mask level idle s).store))))

theorem loadedBlocks_eq (hs : s.ptu.stall = none) (mask : List NoticeKind) (level idle : Nat) (args : List PlaneArgs)
    (x : Tables) (a : PositionArgs) (q : TrigParams) : s.loadedBlocks mask level idle args x a q = { s with
      notices := (loadNotices mask level idle s).notices, link := (loadNotices mask level idle s).link
      store := loadPlanes args s.store, banks := loadBanks x s.banks
      ptu := s.ptu.withParams (s.ptu.params.loadedWith a) a, trig := { s.trig with newParams := some q } } := by
  have hq := quiet_loadNotices mask level idle s
  have hn : loadNotices mask level idle s =
      (s.setNotices (loadNotices mask level idle s).notices).setLink (loadNotices mask level idle s).link := hq.rest
  unfold State.loadedBlocks
  rw [loadPosition_eq]
  · rw [hq.store]
    generalize loadNotices mask level idle s = n at hn
    rw [hn]
    rfl
  · show (loadNotices mask level idle s).ptu.stall = none
    rw [hq.ptu]; exact hs

theorem State.Inv.loading_stall (hi : s.Inv) (hl : s.link.loader = .loading cause e) : s.loading = true ∧
    s.ptu.state = .off ∧ s.ptu.stall = none ∧ s.banks.other = .shadow := by
  have hload : s.loading = true := by unfold State.loading; rw [hl]
  obtain ⟨hoff, -, hother⟩ := hi.loading hload
  refine ⟨hload, hoff, hi.ptu.stall_none ?_ ?_, hother⟩ <;> rw [hoff] <;> decide

theorem loadBanks_get (x : Tables) (b : Banks) (i : Fin 2) :
    (loadBanks x b).tables i = x ∧ (loadBanks x b).bound i = 0 := by
  have h : (loadBanks x b).banks.get i = { tables := x, bound := 0 } := get_replicate _ _
  exact ⟨by rw [Banks.tables, h], by rw [Banks.bound, h]⟩

/-- State t has the sections' values in every block, and of the lanes, the notice queue and the link whatever they hold. -/
structure State.LoadedFrom (s : State) (mask : List NoticeKind) (level idle : Nat) (args : List PlaneArgs) (x : Tables)
    (a : PositionArgs) (q : TrigParams) (t : State) : Prop where
  mask : t.notices.mask = mask
  level : t.notices.level = roundLevel level
  idle : t.notices.idle = min idle 255
  store : t.store = loadPlanes args s.store
  banks : t.banks = loadBanks x s.banks
  params : t.ptu.params = s.ptu.params.loadedWith a
  off : t.ptu.state = .off
  position : t.ptu.s = s.ptu.s
  measured : t.ptu.m = s.ptu.m
  trig : t.trig = { s.trig with newParams := some q }
  jobs : t.jobs = s.jobs
  heads : t.heads = s.heads
  now : t.now = s.now

section
variable {mask : List NoticeKind} {level idle : Nat} {args : List PlaneArgs} {x : Tables} {a : PositionArgs} {q : TrigParams}

theorem LoadsLanes.loadedFrom (hi : s.Inv) (hl : s.link.loader = .loading cause e)
    (ht : LoadsLanes (s.loadedBlocks mask level idle args x a q) t) : s.LoadedFrom mask level idle args x a q t := by
  obtain ⟨-, hoff, hstall, -⟩ := hi.loading_stall hl
  have hn := loadNotices_same mask level idle s
  rw [loadedBlocks_eq hstall, Ptu.withParams_eq] at ht
  have hr := ht.rest
  exact ⟨ht.mask.trans hn.mask, ht.level.trans hn.level, ht.idle.trans hn.idle, hr.store, hr.banks, by rw [hr.ptu],
    by rw [hr.ptu]; exact hoff, by rw [hr.ptu], by rw [hr.ptu], hr.trig, hr.jobs, hr.heads, hr.now⟩

theorem loadedBlocks_loader (hi : s.Inv) (hl : s.link.loader = .loading cause e)
    (ht : LoadsLanes (s.loadedBlocks mask level idle args x a q) t) : t.link.loader = .loading cause e := by
  obtain ⟨-, -, hstall, -⟩ := hi.loading_stall hl
  rw [loadedBlocks_eq hstall] at ht
  exact (ht.rest.loader.trans (quiet_loadNotices mask level idle s).loader).trans hl

/-- The loader's end changes the link alone. -/
theorem State.LoadedFrom.setLink (ht : s.LoadedFrom mask level idle args x a q t) (k : LinkPort) :
    s.LoadedFrom mask level idle args x a q (t.setLink k) :=
  ⟨ht.mask, ht.level, ht.idle, ht.store, ht.banks, ht.params, ht.off, ht.position, ht.measured, ht.trig, ht.jobs, ht.heads,
    ht.now⟩

end

/-! ## The completion (R171, R172) -/

theorem finishLoading_usable (hl : s.link.loader = .loading cause e) (check : Option Failure) :
    finishLoading none check s = (submit (.configLoaded cause true check) s).setLink
      { (submit (.configLoaded cause true check) s).link with loader := .idle } := by
  unfold finishLoading
  rw [hl]
  rfl

theorem finishLoading_defaults (hl : s.link.loader = .loading cause e) (why : DefaultReason) (check : Option Failure) :
    finishLoading (some why) check s =
      (submit (.configLoaded cause false check) (submitCondition .configDefaulted (.configDefaulted why) s)).setLink
        { (submit (.configLoaded cause false check) (submitCondition .configDefaulted (.configDefaulted why) s)).link with
          loader := .idle } := by
  unfold finishLoading
  rw [hl]
  rfl

theorem completeLoading_error (hl : s.loading = true) (why : DefaultReason) :
    completeLoading (.error why) s = applyDefaults why s := if_pos hl

theorem completeLoading_ok (hl : s.loading = true) (i : Image) : completeLoading (.ok i) s = applyImage i s := if_pos hl

theorem loaderDue_iff (hl : s.link.loader = .loading cause e) (n : Nat) : s.loaderDue n = true ↔ n ≤ e := by
  unfold State.loaderDue State.loadElapsed
  rw [hl]
  exact decide_eq_true_iff

/-! ## The defaults -/

theorem loadPlanes_default (v : Vector PlaneStore 4) (p : Plane) :
    (loadPlanes [] v).get p = loadPlane defaultPlaneArgs (v.get p) := by
  unfold loadPlanes
  dsimp only
  split
  · rw [get_mapAll]; rfl
  · rw [get_mapAll]; rfl

/-- The completion with the defaults, as steps 1 to 5, the lanes, and the two notices. -/
theorem applyDefaults_eq (why : DefaultReason) (s : State) : ∃ check, applyDefaults why s = finishLoading (some why) check
    (forEach allHeads (fun h x => loadLane h LaneSettings.default false x)
      (s.loadedBlocks [.glitch] 8 20 [] Tables.default defaultPosition TrigParams.default)) := by
  unfold applyDefaults State.loadedBlocks
  dsimp only
  exact ⟨_, rfl⟩

theorem applyDefaults_spec (hi : s.Inv) (hl : s.link.loader = .loading cause e) (why : DefaultReason) :
    (applyDefaults why s).link.loader = .idle ∧ (applyDefaults why s).condition .configDefaulted = true ∧
      (∀ h, (applyDefaults why s).lane h = (s.lane h).loadedWith LaneSettings.default false) ∧
      s.LoadedFrom [.glitch] 8 20 [] Tables.default defaultPosition TrigParams.default (applyDefaults why s) := by
  obtain ⟨check, ht⟩ := applyDefaults_eq why s
  have hrun : LoadsLanes (s.loadedBlocks [.glitch] 8 20 [] Tables.default defaultPosition TrigParams.default)
      (forEach allHeads (fun h x => loadLane h LaneSettings.default false x)
        (s.loadedBlocks [.glitch] 8 20 [] Tables.default defaultPosition TrigParams.default)) :=
    loadsLanes_forEach (fun i x => loadsLanes_loadLane i _ _ x) allHeads _
  have hlane : ∀ h, (forEach allHeads (fun h x => loadLane h LaneSettings.default false x)
      (s.loadedBlocks [.glitch] 8 20 [] Tables.default defaultPosition TrigParams.default)).lane h =
        (s.lane h).loadedWith LaneSettings.default false := fun h => by
    rw [forEach_ownLanes (fun i j x hj => loadLane_lane_ne hj _ _ x)
      (fun i x y hxy => by rw [loadLane_lane, loadLane_lane, hxy]), loadLane_lane, loadedBlocks_eq (hi.loading_stall hl).2.2.1]
    rfl
  obtain ⟨w, hw⟩ : ∃ w, w = forEach allHeads (fun h x => loadLane h LaneSettings.default false x)
      (s.loadedBlocks [.glitch] 8 20 [] Tables.default defaultPosition TrigParams.default) := ⟨_, rfl⟩
  rw [← hw] at hrun hlane ht
  rw [finishLoading_defaults (loadedBlocks_loader hi hl hrun)] at ht
  have hnotices := (hrun.trans (loadsLanes_submitCondition .configDefaulted (.configDefaulted why) w)).trans
    (loadsLanes_submit (.configLoaded cause false check) _)
  have hflag : (submit (.configLoaded cause false check)
      (submitCondition .configDefaulted (.configDefaulted why) w)).condition .configDefaulted = true := by
    rw [submit_condition, submitCondition_condition, beq_self_eq_true, Bool.or_true]
  have hlanes : ∀ h, (submit (.configLoaded cause false check)
      (submitCondition .configDefaulted (.configDefaulted why) w)).lane h = w.lane h := fun h => by
    rw [(quiet_submit _ _).lane, (quiet_submitCondition _ _ _).lane]
  rw [ht]
  exact ⟨rfl, hflag, fun h => (hlanes h).trans (hlane h), (hnotices.loadedFrom hi hl).setLink _⟩

theorem default_params (q : PtuParams) : q.loadedWith defaultPosition = {
    lineRatio := 65536, avgExp := 3, encFilter := 2, invert := false, kp := 256, ki := 16, ilim := 1048576
    vmax := 2147483648, slip := 262144, stallTimeout := 2500000 } := rfl

/-- Settles O10. -/
theorem unusableImageTakesDefaults : Obligations.UnusableImageTakesDefaults := by
  intro s c cause e hi hl
  obtain ⟨hload, -, -, hother⟩ := hi.loading_stall hl
  have hearly : s.loaderDue Config.noMemoryTicks = true ↔ 25000 ≤ e := loaderDue_iff hl _
  have hlate : s.loaderDue Config.loaderDeadline = true ↔ 6250000 ≤ e := loaderDue_iff hl _
  have hmemory : exec .noMemoryTimeout s =
      .next (if s.loaderDue Config.noMemoryTicks then completeLoading (.error .noMemory) s else s) := rfl
  have hdeadline : exec .loaderDeadlineExpiry s =
      .next (if s.loaderDue Config.loaderDeadline then completeLoading (.error .badCheck) s else s) := rfl
  have hcomplete : ∀ bs, exec (.loadingComplete bs) s =
      .next (if bs.isEmpty then s else completeLoading (loadImage bs) s) := fun _ => rfl
  refine ⟨fun he => ?_, fun he => ?_, fun hc => ?_⟩
  · rw [hmemory, if_neg fun h => absurd (hearly.1 h) (not_le.2 he)]
  · rw [hdeadline, if_neg fun h => absurd (hlate.1 h) (not_le.2 he)]
  · have hexec : ∃ why, exec c s = .next (applyDefaults why s) := by
      rcases hc with ⟨rfl, he⟩ | ⟨rfl, he⟩ | ⟨bs, why, rfl, hbs, hbad⟩
      · exact ⟨.noMemory, by rw [hmemory, if_pos (hearly.2 he), completeLoading_error hload]⟩
      · exact ⟨.badCheck, by rw [hdeadline, if_pos (hlate.2 he), completeLoading_error hload]⟩
      · exact ⟨why, by
          rw [hcomplete, if_neg fun h => hbs (List.isEmpty_iff.1 h), hbad, completeLoading_error hload]⟩
    obtain ⟨why, hexec⟩ := hexec
    obtain ⟨hidle, hflag, hlanes, ht⟩ := applyDefaults_spec hi hl why
    refine ⟨_, hexec, hidle, hflag, ht.mask, ht.level, ht.idle, fun p => ?_, fun b => ?_, ?_, ?_, ht.params.trans (default_params _),
      ht.off, ht.position, ht.measured, ht.trig, fun h => ?_, ht.jobs, ht.heads, ht.now⟩
    · rw [State.plane, ht.store, loadPlanes_default]
      exact ⟨rfl, rfl, rfl, rfl, rfl, rfl⟩
    · rw [ht.banks]; exact loadBanks_get _ _ b
    · rw [ht.banks]; rfl
    · rw [ht.banks]; exact hother
    · rw [hlanes]
      refine ⟨loadedWith_settings _ _ _, loadedWith_enable _ _ _, ?_, loadedWith_ceiling _ _ _⟩
      rw [loadedWith_state, if_neg fun h => Bool.false_ne_true h.2]

end

end Sys2Proof.Machine
end

section
/-!
PROOFS. The completion of loading with a usable image: each section as it is adjusted, and the lanes one after the other.
-/

namespace Sys2Proof.Machine

section
variable {s t u : State} {h : Head} {e : Nat} {cause : LoadCause}

/-! ## The sections as adjusted -/

theorem imageSettings_eq (l : ImageLane) : imageSettings LaneSettings.default l =
    let a := l.settings
    let codes := a.mask.getD []
    { mask := if ∀ c ∈ codes, 1 ≤ c ∧ c ≤ 6 then allGrades.filter fun g => codes.contains g.code
        else allGrades.filter (Config.imageGrade codes)
      pulse := (a.pulse.map fun x => max 1 (min x 16)).getD 4
      filter := (a.filter.map fun x => if x = 0 then 0 else if x ≤ 4 then 4 else if x ≤ 8 then 8 else 16).getD 4
      latch := (a.mode.map (· != 0)).getD true
      degrade := (a.degrade.map (min · 255)).getD 0
      autoDown := (a.autoDown.map fun x =>
        if x = 0 then true else if x = 1 then false else Config.imageAutoDownshift x).getD false
      timeout := (a.timeout.map fun x => max 1 (min x 255)).getD 20
      hyst := (a.hyst.map (min · 7)).getD 2 } := by
  have hmode : ∀ x : Nat, ((if x = 0 then 0 else 1) == 1) = (x != 0) := fun x => by
    by_cases hx : x = 0
    · rw [if_pos hx, hx]; rfl
    · rw [if_neg hx, bne_iff_ne.2 hx]; rfl
  unfold imageSettings LaneSettings.adjusted
  dsimp only
  rw [gradesOfCodes_eq]
  have hmask : ((if ∀ c ∈ l.settings.mask.getD [], 1 ≤ c ∧ c ≤ 6 then
      some (allGrades.filter fun g => (l.settings.mask.getD []).contains g.code) else none).getD
        (allGrades.filter (Config.imageGrade (l.settings.mask.getD [])))) =
      if ∀ c ∈ l.settings.mask.getD [], 1 ≤ c ∧ c ≤ 6 then
        allGrades.filter fun g => (l.settings.mask.getD []).contains g.code
      else allGrades.filter (Config.imageGrade (l.settings.mask.getD [])) := by split <;> rfl
  rw [hmask]
  have hlatch : (Option.map (fun x : Nat => x == 1) (Option.map (fun x => if x = 0 then 0 else 1) l.settings.mode)) =
      l.settings.mode.map (· != 0) := by
    rw [Option.map_map]
    exact congrArg (fun f => Option.map f l.settings.mode) (funext hmode)
  rw [hlatch]
  rfl

theorem PtuParams.loadedWith_eq (p : PtuParams) (a : PositionArgs) : p.loadedWith a = {
    lineRatio := match a.lineRatio with
      | some r => if 256 ≤ r ∧ r ≤ 4194304 then r else 65536
      | none => 65536
    avgExp := (a.avgExp.map (min · 5)).getD p.avgExp
    encFilter := (a.encFilter.map fun x =>
      if x = 0 then 0 else if x ≤ 2 then 2 else if x ≤ 4 then 4 else if x ≤ 8 then 8 else 16).getD p.encFilter
    invert := (a.invert.map fun x =>
      if x = 0 then true else if x = 1 then false else Config.imageInvert x).getD p.invert
    kp := (a.kp.map (min · 65535)).getD p.kp
    ki := (a.ki.map (min · 65535)).getD p.ki
    ilim := (a.ilim.map (min · (2 ^ 31 - 1))).getD p.ilim
    vmax := (a.vmax.map fun x => max 1 (min x (2 ^ 32 - 1))).getD p.vmax
    slip := (a.slip.map fun x => max 65536 (min x 16777216)).getD p.slip
    stallTimeout := (a.stall.map fun x => max 25000 (min x 16777215)).getD p.stallTimeout } := by
  have hratio : ∀ r, (ratioOk r = true) = (256 ≤ r ∧ r ≤ 4194304) := fun r => by
    unfold ratioOk; simp
  unfold PtuParams.loadedWith
  dsimp only
  rw [PtuParams.adjusted_eq]
  cases hr : a.lineRatio <;> cases hv : a.invert <;> simp only [hratio] <;> rfl

/-- The depth that an image asks for a plane, as the clamps leave it. -/
def askedDepth (args : List PlaneArgs) (v : Vector PlaneStore 4) (p : Plane) : Nat :=
  match args[p.val]? with
  | some a => (a.depth.map fun v => max 16 (min v 16384)).getD (v.get p).depth
  | none => 8192

/-- The depths of an image sum to no more than the store. -/
abbrev DepthsFit (args : List PlaneArgs) (v : Vector PlaneStore 4) : Prop := (allPlanes.map (askedDepth args v)).sum ≤ 32768

theorem loadPlane_depth (args : List PlaneArgs) (v : Vector PlaneStore 4) (p : Plane) :
    (loadPlane (args.getD p.val defaultPlaneArgs) (v.get p)).depth = askedDepth args v p := by
  unfold loadPlane askedDepth
  rw [PlaneStore.adjusted_eq, List.getD_eq_getElem?_getD]
  cases args[p.val]? <;> rfl

theorem depthSum_loadPlane (args : List PlaneArgs) (v : Vector PlaneStore 4) :
    depthSum (mapAll (fun p x => loadPlane (args.getD p.val defaultPlaneArgs) x) v) =
      (allPlanes.map (askedDepth args v)).sum :=
  congrArg List.sum (List.map_congr_left fun p _ => by rw [get_mapAll, loadPlane_depth])

theorem loadPlanes_fit {args : List PlaneArgs} {v : Vector PlaneStore 4} (hf : DepthsFit args v) (p : Plane) :
    (loadPlanes args v).get p = loadPlane (args.getD p.val defaultPlaneArgs) (v.get p) := by
  have hsum : depthSum (mapAll (fun p x => loadPlane (args.getD p.val defaultPlaneArgs) x) v) ≤ Config.storeDepth :=
    (depthSum_loadPlane args v).trans_le hf
  unfold loadPlanes
  dsimp only
  rw [if_pos hsum, get_mapAll]

theorem loadPlanes_unfit {args : List PlaneArgs} {v : Vector PlaneStore 4} (hf : ¬ DepthsFit args v) (p : Plane) :
    (loadPlanes args v).get p =
      loadPlane { args.getD p.val defaultPlaneArgs with depth := some 8192 } (v.get p) := by
  have hsum : ¬ depthSum (mapAll (fun p x => loadPlane (args.getD p.val defaultPlaneArgs) x) v) ≤ Config.storeDepth :=
    fun h => hf ((depthSum_loadPlane args v).symm.trans_le h)
  unfold loadPlanes
  dsimp only
  rw [if_neg hsum, get_mapAll]
  rfl

theorem sparseRead_sparseOfList {α : Type} [DecidableEq α] (d : α) (l : List α) (n j : Nat) :
    sparseRead d (sparseOfList d n l) (n + j) = l.getD j d := by
  have habove : ∀ (l : List α) (n k : Nat), k < n → sparseRead d (sparseOfList d n l) k = d := by
    intro l
    induction l with
    | nil => exact fun _ _ _ => rfl
    | cons x l ih =>
      intro n k hk
      unfold sparseOfList
      split
      · exact ih _ _ (Nat.lt_succ_of_lt hk)
      · exact (if_neg hk.ne').trans (ih _ _ (Nat.lt_succ_of_lt hk))
  induction l generalizing n j with
  | nil => rfl
  | cons x l ih =>
    unfold sparseOfList
    cases j with
    | zero =>
      split
      · next hx => rw [habove l (n + 1) (n + 0) (Nat.lt_succ_self n), List.getD_cons_zero, hx]
      · exact if_pos rfl
    | succ j =>
      have hj : n + (j + 1) = n + 1 + j := by omega
      rw [List.getD_cons_succ, hj]
      split
      · exact ih _ _
      · exact (if_neg (by omega)).trans (ih _ _)

theorem imageHead_entry (x : ImageHead) (j : Nat) :
    x.tables.entry j = ((x.entries[j]?).bind entryOfWord).getD .off := by
  have hread := sparseRead_sparseOfList NozzleEntry.off (x.entries.map fun w => (entryOfWord w).getD .off) 0 j
  rw [Nat.zero_add, List.getD_eq_getElem?_getD, List.getElem?_map] at hread
  refine hread.trans ?_
  cases x.entries[j]? <;> rfl

theorem imageHead_bands (x : ImageHead) (hc : 1 ≤ x.bandCount ∧ x.bandCount ≤ 4) :
    x.tables.bands.length = (x.bands.take x.bandCount).length ∧
      ∀ (k : Nat) w, (x.bands.take x.bandCount)[k]? = some w → x.tables.bands[k]? =
        some (⟨if k + 1 = (x.bands.take x.bandCount).length then 255 else w.1,
          if w.2 < 16 then w.2 else (Config.imageWaveform w.2).val⟩ : Band) := by
  have hb : x.tables.bands = closeBands ((x.bands.take x.bandCount).map fun y =>
      { bound := y.1, waveform := imageWaveformId y.2 }) := if_pos hc
  rw [hb, closeBands_length, List.length_map]
  refine ⟨rfl, fun k w hw => ?_⟩
  have hget : ((x.bands.take x.bandCount).map fun y => ({ bound := y.1, waveform := imageWaveformId y.2 } : Band))[k]? =
      some { bound := w.1, waveform := imageWaveformId w.2 } := by
    rw [List.getElem?_map, hw]; rfl
  rw [closeBands_getElem hget, List.length_map]
  rfl

theorem Image.tables_head {i : Image} {x : ImageHead} (hx : i.heads[h.val]? = some x) : i.tables.head h = x.tables := by
  have hget : i.tables.head h = match i.heads[h.val]? with
      | some x => x.tables
      | none => HeadTables.default := get_ofFn _ _
  rw [hget, hx]

theorem Image.tables_drop (i : Image) (p : Plane) (v : Dot) {l : List Nat} {n : Nat} (hl : i.drops[p.val]? = some l)
    (hn : l[v.val]? = some n) : (i.tables.drops.get p).get v = imageDropValue n := by
  have hp : i.tables.drops.get p = Vector.ofFn fun k => imageDropValue ((i.drops.getD p.val []).getD k.val 0) := get_ofFn _ _
  rw [hp, get_ofFn, List.getD_eq_getElem?_getD, List.getD_eq_getElem?_getD, hl, Option.getD_some, hn, Option.getD_some]

/-! ## The lanes -/

theorem takeSettings_elim (h : Head) (q : LaneSettings) (x : State) : takeSettings h q true x =
    match (x.lane h).status with
    | some n => if q.timeout * 25000 ≤ n then
        submitCondition (.statusLost h) (.statusLost h (x.lane h).band)
          (x.setLane h { (x.lane h).withSettings q with status := none })
      else x.setLane h ((x.lane h).withSettings q)
    | none => x.setLane h ((x.lane h).withSettings q) := by
  rw [takeSettings_eq]
  cases (x.lane h).status with
  | none => exact if_neg fun ⟨_, _, hn, _⟩ => Option.some_ne_none _ hn.symm
  | some n => simp

/-- Step 6 of R171 for one lane, with what a send does written out (log 13). -/
theorem loadLane_eq (h : Head) (q : LaneSettings) (enable : Bool) (x : State) :
    let y := x.lane h
    let moved := q.filter ≠ y.settings.filter
    let m := { y with
      settings := q
      hold := if moved then { y.hold with progress := 0 } else y.hold
      fault := if moved then { y.fault with progress := 0 } else y.fault
      downshift := y.downshift && q.autoDown }
    let w := match y.status with
      | some n => if q.timeout * 25000 ≤ n then
          submitCondition (.statusLost h) (.statusLost h y.band) (x.setLane h { m with status := none })
        else x.setLane h m
      | none => x.setLane h m
    let z := { w.lane h with enable := enable }
    let up := { z with state := .negotiating, grade := none, gradeSet := none, timer := none }
    loadLane h q enable x = if y.state = .down ∧ enable = true then
      submit (.laneState h .negotiating none .config) (w.setLane h (match y.tx with
        | none => { up with tx := some { record := .capsQuery, bytes := LaneRecord.capsQuery.bytes, remaining := 64 } }
        | some _ => { up with waiting := some .capsQuery }))
    else w.setLane h z := by
  intro y moved m w z up
  have hm : (x.lane h).withSettings q = m := Lane.withSettings_eq _ q
  have hw : takeSettings h q true x = w := by rw [takeSettings_elim, hm]
  have hlane : w.lane h = { m with status := y.status.bind fun n => if q.timeout * 25000 ≤ n then none else some n } := by
    rw [← hw, takeSettings_lane, hm]
  have hwstate := congrArg Lane.state hlane
  have hwtx := congrArg Lane.tx hlane
  have hstate : z.state = y.state := hwstate
  have htx : up.tx = y.tx := hwtx
  unfold loadLane changeLane
  dsimp only
  rw [hw, State.setLane_lane]
  by_cases hc : y.state = .down ∧ enable = true
  · have hsend : Lane.send up .capsQuery = match y.tx with
        | none => { up with tx := some { record := .capsQuery, bytes := LaneRecord.capsQuery.bytes, remaining := 64 } }
        | some _ => { up with waiting := some .capsQuery } := by
      cases ht : y.tx with
      | none => exact (Lane.send_free (l := up) (htx.trans ht) _).trans (Lane.begin_capsQuery up)
      | some r => exact Lane.send_waits (l := up) (htx.trans ht) _
    rw [if_pos hc, if_pos ⟨hstate.trans hc.1, hc.2⟩, enterNegotiating_eq, State.setLane_lane, State.setLane_setLane, ← hsend]
  · rw [if_neg hc, if_neg fun h' => hc ⟨hstate.symm.trans h'.1, h'.2⟩]

/-- Step 6 of R171: the lane section of the image, where it has one. -/
def imageLane (i : Image) (h : Head) (x : State) : State :=
  (i.lanes[h.val]?).elim x fun l => loadLane h (imageSettings LaneSettings.default l) (imageEnable l.enable) x

variable {i : Image}

theorem imageLane_some {l : ImageLane} (hl : i.lanes[h.val]? = some l) (x : State) :
    imageLane i h x = loadLane h (imageSettings LaneSettings.default l) (imageEnable l.enable) x := by
  unfold imageLane; rw [hl]; rfl

theorem imageLane_none (hl : i.lanes[h.val]? = none) (x : State) : imageLane i h x = x := by
  unfold imageLane; rw [hl]; rfl

theorem loadsLanes_imageLane (i : Image) (h : Head) (x : State) : LoadsLanes x (imageLane i h x) := by
  cases hl : i.lanes[h.val]? with
  | none => rw [imageLane_none hl]; exact .refl x
  | some l => rw [imageLane_some hl]; exact loadsLanes_loadLane h _ _ x

theorem imageLane_defaulted (i : Image) (h : Head) (x : State) :
    (imageLane i h x).condition .configDefaulted = x.condition .configDefaulted := by
  cases hl : i.lanes[h.val]? with
  | none => rw [imageLane_none hl]
  | some l => rw [imageLane_some hl, loadLane_defaulted]

theorem imageLane_lane_ne (i : Image) {g : Head} (hg : g ≠ h) (x : State) : (imageLane i h x).lane g = x.lane g := by
  cases hl : i.lanes[h.val]? with
  | none => rw [imageLane_none hl]
  | some l => rw [imageLane_some hl, loadLane_lane_ne hg]

theorem imageLane_own (i : Image) {x y : State} (hxy : x.lane h = y.lane h) :
    (imageLane i h x).lane h = (imageLane i h y).lane h := by
  cases hl : i.lanes[h.val]? with
  | none => rw [imageLane_none hl, imageLane_none hl, hxy]
  | some l => rw [imageLane_some hl, imageLane_some hl, loadLane_lane, loadLane_lane, hxy]

theorem forEach_imageLane_lane {l : ImageLane} (hl : i.lanes[h.val]? = some l) (s : State) :
    (forEach allHeads (imageLane i) s).lane h =
      (s.lane h).loadedWith (imageSettings LaneSettings.default l) (imageEnable l.enable) := by
  rw [forEach_ownLanes (fun g k x hk => imageLane_lane_ne i hk x) (fun g x y hxy => imageLane_own i hxy), imageLane_some hl,
    loadLane_lane]

theorem forEach_imageLane_defaulted (i : Image) (s : State) :
    (forEach allHeads (imageLane i) s).condition .configDefaulted = s.condition .configDefaulted :=
  forEach_keeps (P := fun t => t.condition .configDefaulted = s.condition .configDefaulted) allHeads (imageLane i)
    (fun h _ x hx => (imageLane_defaulted i h x).trans hx) rfl

/-! ## The completion -/

/-- The state before the lanes of a usable image. -/
def State.imageBlocks (s : State) (i : Image) : State :=
  s.loadedBlocks (kindsOf i.mask) i.level i.idle i.planes i.tables i.position (TrigParams.default.adjusted i.trigger)

theorem applyImage_eq (i : Image) (s : State) : applyImage i s = finishLoading none
    (((loadNotices (kindsOf i.mask) i.level i.idle s).setStore
      (loadPlanes i.planes (loadNotices (kindsOf i.mask) i.level i.idle s).store) |> loadTables i.tables).bankCheck)
    (forEach allHeads (imageLane i) (s.imageBlocks i)) := by
  have hf : imageLane i = fun h x => match i.lanes[h.val]? with
      | some l => loadLane h (imageSettings LaneSettings.default l) (imageEnable l.enable) x
      | none => x := by
    funext h x
    unfold imageLane
    cases i.lanes[h.val]? <;> rfl
  rw [hf]
  unfold applyImage State.imageBlocks State.loadedBlocks
  rfl

/-- The state of a usable image's completion before the loader is IDLE (R171, step 9). -/
def State.imageNoticed (s : State) (i : Image) (cause : LoadCause) : State :=
  submit (.configLoaded cause true (validate (loadPlanes i.planes s.store) i.tables s.banks.active))
    (forEach allHeads (imageLane i) (s.imageBlocks i))

theorem loadsLanes_imageNoticed (s : State) (i : Image) (cause : LoadCause) :
    LoadsLanes (s.imageBlocks i) (s.imageNoticed i cause) :=
  (loadsLanes_forEach (loadsLanes_imageLane i) allHeads _).trans (loadsLanes_submit _ _)

theorem applyImage_noticed (hi : s.Inv) (hl : s.link.loader = .loading cause e) (i : Image) : applyImage i s =
    (s.imageNoticed i cause).setLink { (s.imageNoticed i cause).link with loader := .idle } := by
  have hrun : LoadsLanes (s.imageBlocks i) (forEach allHeads (imageLane i) (s.imageBlocks i)) :=
    loadsLanes_forEach (loadsLanes_imageLane i) allHeads _
  have hq := quiet_loadNotices (kindsOf i.mask) i.level i.idle s
  have hcheck : ((loadNotices (kindsOf i.mask) i.level i.idle s).setStore
      (loadPlanes i.planes (loadNotices (kindsOf i.mask) i.level i.idle s).store) |> loadTables i.tables).bankCheck =
      validate (loadPlanes i.planes s.store) i.tables s.banks.active := by
    show validate (loadPlanes i.planes (loadNotices (kindsOf i.mask) i.level i.idle s).store)
      ((loadBanks i.tables (loadNotices (kindsOf i.mask) i.level i.idle s).banks).tables
        (loadNotices (kindsOf i.mask) i.level i.idle s).banks.active)
      (loadNotices (kindsOf i.mask) i.level i.idle s).banks.active = _
    rw [(loadBanks_get _ _ _).1, hq.store, hq.banks]
  rw [applyImage_eq, hcheck, finishLoading_usable (loadedBlocks_loader hi hl hrun)]
  rfl

theorem imageNoticed_lane (hi : s.Inv) (hl : s.link.loader = .loading cause e) {l : ImageLane}
    (hx : i.lanes[h.val]? = some l) : (s.imageNoticed i cause).lane h =
      (s.lane h).loadedWith (imageSettings LaneSettings.default l) (imageEnable l.enable) := by
  rw [State.imageNoticed, (quiet_submit _ _).lane, forEach_imageLane_lane hx, State.imageBlocks,
    loadedBlocks_eq (hi.loading_stall hl).2.2.1]
  rfl

theorem imageNoticed_defaulted (hi : s.Inv) (hl : s.link.loader = .loading cause e) :
    (s.imageNoticed i cause).condition .configDefaulted = s.condition .configDefaulted := by
  rw [State.imageNoticed, submit_condition, forEach_imageLane_defaulted, State.imageBlocks,
    loadedBlocks_eq (hi.loading_stall hl).2.2.1]
  exact congrArg (·.get CondName.configDefaulted.index) (loadNotices_same (kindsOf i.mask) i.level i.idle s).conditions

theorem loadPlanes_some (v : Vector PlaneStore 4) {args : List PlaneArgs} {p : Plane} {a : PlaneArgs}
    (ha : args[p.val]? = some a) :
    let depth := if DepthsFit args v then askedDepth args v p else 8192
    let high := max 2 (min (a.high.getD (v.get p).high) depth)
    (loadPlanes args v).get p = { v.get p with
      width := (a.width.map fun v => min (v / 64 * 64) 16384).getD (v.get p).width, depth := depth, high := high
      low := max 1 (min (a.low.getD (v.get p).low) (high - 1)), slots := [] } := by
  have harg : args.getD p.val defaultPlaneArgs = a := by rw [List.getD_eq_getElem?_getD, ha]; rfl
  have hasked : askedDepth args v p = (a.depth.map fun v => max 16 (min v 16384)).getD (v.get p).depth := by
    unfold askedDepth; rw [ha]
  intro depth high
  by_cases hf : DepthsFit args v
  · have hd : depth = askedDepth args v p := if_pos hf
    rw [loadPlanes_fit hf, harg, loadPlane, PlaneStore.adjusted_eq, ← hasked, ← hd]
    rfl
  · have hd : depth = 8192 := if_neg hf
    rw [loadPlanes_unfit hf, harg, loadPlane, PlaneStore.adjusted_eq]
    unfold high
    rw [hd]
    rfl

theorem loadPlanes_reformed (args : List PlaneArgs) (v : Vector PlaneStore 4) (p : Plane) :
    ((loadPlanes args v).get p).slots = [] ∧ ((loadPlanes args v).get p).base = (v.get p).base := by
  by_cases hf : DepthsFit args v
  · rw [loadPlanes_fit hf]; exact ⟨rfl, rfl⟩
  · rw [loadPlanes_unfit hf]; exact ⟨rfl, rfl⟩

theorem loadImage_nonempty {bs : List Byte} (hb : loadImage bs = .ok i) : bs.isEmpty = false := by
  cases bs with
  | nil => cases hb
  | cons x bs => rfl

/-- Settles O11. -/
theorem usableImageApplied : Obligations.UsableImageApplied := by
  intro s bs i cause e hi hl hb enable settings loaded
  obtain ⟨hload, -, hstall, hother⟩ := hi.loading_stall hl
  have hrun := loadsLanes_imageNoticed s i cause
  have ht := (hrun.loadedFrom hi hl).setLink { (s.imageNoticed i cause).link with loader := .idle }
  have hset : ∀ l, imageSettings LaneSettings.default l = settings l := imageSettings_eq
  have hlane : ∀ (h : Head) (x : State), imageLane i h x = match i.lanes[h.val]? with
      | some l => loaded h l x
      | none => x := fun h x => by
    cases hx : i.lanes[h.val]? with
    | none => exact imageLane_none hx x
    | some l =>
      rw [imageLane_some hx, hset]
      exact loadLane_eq h (settings l) (enable l) x
  refine ⟨applyImage i s, ?_, ?_⟩
  · have hexec : exec (.loadingComplete bs) s = .next (if bs.isEmpty then s else completeLoading (loadImage bs) s) := rfl
    rw [hexec, hb, if_neg (Bool.eq_false_iff.1 (loadImage_nonempty hb)), completeLoading_ok hload]
  rw [applyImage_noticed hi hl]
  refine ⟨rfl, ht.mask, ht.level, ht.idle, ht.store, fun p => ?_, fun p a ha => ?_, fun b => ?_, fun p v l n hp hn => ?_,
    fun h x hx => ?_, ?_, ?_, ?_, ht.off, ht.position, ht.measured, ht.trig, fun h l hx => ?_, imageNoticed_defaulted hi hl,
    ht.jobs, ht.heads, ht.now, ?_⟩
  · rw [State.plane, ht.store]; exact loadPlanes_reformed _ _ p
  · have hplane := congrArg (fun v => v.get p) ht.store
    exact hplane.trans (loadPlanes_some s.store ha)
  · rw [ht.banks]; exact loadBanks_get _ _ b
  · exact Image.tables_drop i p v hp hn
  · rw [Image.tables_head hx]
    exact ⟨rfl, rfl, rfl, rfl, imageHead_entry x, imageHead_bands x, fun hc => if_neg hc⟩
  · rw [ht.banks]; rfl
  · rw [ht.banks]; exact hother
  · exact ht.params.trans (PtuParams.loadedWith_eq _ _)
  · have hgot : ((s.imageNoticed i cause).setLink { (s.imageNoticed i cause).link with loader := .idle }).lane h =
        (s.lane h).loadedWith (settings l) (enable l) := (imageNoticed_lane hi hl hx).trans (by rw [hset]; rfl)
    rw [hgot, loadedWith_settings, loadedWith_enable, loadedWith_state]
    exact ⟨rfl, rfl, rfl⟩
  · have hv := loadedBlocks_eq hstall (kindsOf i.mask) i.level i.idle i.planes i.tables i.position
      (TrigParams.default.adjusted i.trigger)
    have hn := loadNotices_same (kindsOf i.mask) i.level i.idle s
    refine ⟨s.imageBlocks i, s.imageNoticed i cause, ?_, ?_, hrun.mask.symm, hrun.level.symm, hrun.idle.symm, ?_, ?_, ?_,
      fun hq => ?_, ?_, rfl⟩
    · rw [State.imageBlocks, hv]
    · rw [State.imageBlocks, hv, Ptu.withParams_eq]
    · rw [State.imageBlocks, hv]; exact hn.lost
    · rw [State.imageBlocks, hv]; exact hn.conditions
    · rw [State.imageBlocks, hv]; exact hn.counters
    · rw [State.imageBlocks, hv]; exact loadNotices_empty hi.notices hq _ _ _
    · rw [ht.store]
      exact congrArg (fun f => submit
        (.configLoaded cause true (validate (loadPlanes i.planes s.store) i.tables s.banks.active))
        (forEach allHeads f (s.imageBlocks i))) (funext₂ hlane)

end

end Sys2Proof.Machine
end

section
/-!
PROOFS. A line frame: the rows of R56, the slot that a stored line fills, and the waiting heads that it wakes.
-/

namespace Sys2Proof.Machine

/-! ## The rows of R56 -/

section
variable {next : Nat} {x : PlaneStore} {n : Nat} {px : List Dot}

theorem rulingOf_malformed (h : x.width = 0 ∨ px.length ≠ x.width) : rulingOf next x n px = .refused .malformed := if_pos h

theorem rulingOf_formed (hw : x.width ≠ 0) (hl : px.length = x.width) : rulingOf next x n px =
    if next ≤ n then .refused .noJob
    else if n < x.base ∨ (x.inWindow n ∧ (x.slot n).state = .spent) then .refused .late
    else if x.base + x.depth ≤ n then .refused .ahead
    else (x.slot n).data.elim .stored fun _ => if (x.slot n).rendered then .refused .late else .replaced := by
  unfold rulingOf
  rw [if_neg (not_or.2 ⟨hw, not_not.2 hl⟩)]
  cases (x.slot n).data <;> rfl

theorem inWindow_iff : x.inWindow n = true ↔ x.base ≤ n ∧ n < x.base + x.depth := decide_eq_true_iff

theorem rulingOf_noJob (hw : x.width ≠ 0) (hl : px.length = x.width) (hn : next ≤ n) :
    rulingOf next x n px = .refused .noJob := by rw [rulingOf_formed hw hl, if_pos hn]

theorem rulingOf_late (hw : x.width ≠ 0) (hl : px.length = x.width) (hn : n < next)
    (h : n < x.base ∨ (n < x.base + x.depth ∧ (x.slot n).state = .spent)) : rulingOf next x n px = .refused .late := by
  rw [rulingOf_formed hw hl, if_neg (not_le.2 hn), if_pos]
  by_cases hb : n < x.base
  · exact .inl hb
  · obtain ⟨ht, hs⟩ := h.resolve_left hb
    exact .inr ⟨inWindow_iff.2 ⟨not_lt.1 hb, ht⟩, hs⟩

theorem rulingOf_ahead (hw : x.width ≠ 0) (hl : px.length = x.width) (hn : n < next) (h : x.base + x.depth ≤ n) :
    rulingOf next x n px = .refused .ahead := by
  have hlate : ¬ (n < x.base ∨ (x.inWindow n ∧ (x.slot n).state = .spent)) := by
    rintro (hb | ⟨hb, -⟩)
    · omega
    · exact absurd (inWindow_iff.1 hb).2 (not_lt.2 h)
  rw [rulingOf_formed hw hl, if_neg (not_le.2 hn), if_neg hlate, if_pos h]

/-- The ruling on a line of the window that is not SPENT. -/
theorem rulingOf_window (hw : x.width ≠ 0) (hl : px.length = x.width) (hn : n < next) (hb : x.base ≤ n)
    (ht : n < x.base + x.depth) (hs : (x.slot n).state ≠ .spent) : rulingOf next x n px =
      (x.slot n).data.elim .stored fun _ => if (x.slot n).rendered then .refused .late else .replaced := by
  have hlate : ¬ (n < x.base ∨ (x.inWindow n ∧ (x.slot n).state = .spent)) := by
    rintro (h | ⟨-, h⟩)
    · omega
    · exact hs h
  rw [rulingOf_formed hw hl, if_neg (not_le.2 hn), if_neg hlate, if_neg (not_le.2 ht)]

end

/-! ## The slot filled (R57, R58, R67) -/

section
variable {s : State} {p : Plane} {n : Nat} {px : List Dot}

/-- The plane with a line's slot filled, before the watermark rule. -/
def PlaneStore.filled (x : PlaneStore) (n : Nat) (px : List Dot) : PlaneStore := x.setSlot n (fillSlot px (x.slot n))

theorem storeData_replaced (hw : sparseWf Slot.fresh (s.plane p).slots) (hd : ((s.plane p).slot n).data.isSome = true) :
    storeData p n px s = s.setPlane p ((s.plane p).filled n px) := by
  have hfill : ((s.plane p).filled n px).fill = (s.plane p).fill := by
    have h := PlaneStore.fill_setSlot hw n (fillSlot px ((s.plane p).slot n))
    rw [hd] at h
    exact Nat.add_right_cancel h
  have hmark : ((s.plane p).filled n px).watermark (s.plane p).fill = (s.plane p).filled n px := if_pos hfill
  show putPlane p (((s.plane p).filled n px).watermark (s.plane p).fill) s = _
  rw [hmark]
  exact if_pos rfl

/-- The state after a line is stored, with the paused flag and the flow frame as the watermark rule has them. -/
def State.stored (s : State) (p : Plane) (n : Nat) (px : List Dot) : State :=
  let x := s.plane p
  if x.paused = false ∧ x.high ≤ x.fill + 1 then setFlowPending (s.setPlane p { x.filled n px with paused := true })
  else if x.paused = true ∧ x.fill + 1 ≤ x.low then setFlowPending (s.setPlane p { x.filled n px with paused := false })
  else s.setPlane p (x.filled n px)

theorem storeData_stored (hw : sparseWf Slot.fresh (s.plane p).slots) (hd : ((s.plane p).slot n).data = none) :
    storeData p n px s = s.stored p n px := by
  have hfill : ((s.plane p).filled n px).fill = (s.plane p).fill + 1 := by
    have h := PlaneStore.fill_setSlot hw n (fillSlot px ((s.plane p).slot n))
    rw [hd] at h
    exact h
  have hpaused : ((s.plane p).filled n px).paused = (s.plane p).paused := rfl
  have hmark : ((s.plane p).filled n px).watermark (s.plane p).fill =
      if (s.plane p).paused = false ∧ (s.plane p).high ≤ (s.plane p).fill + 1 then
        { (s.plane p).filled n px with paused := true }
      else if (s.plane p).paused = true ∧ (s.plane p).fill + 1 ≤ (s.plane p).low then
        { (s.plane p).filled n px with paused := false }
      else (s.plane p).filled n px := by
    unfold PlaneStore.watermark
    rw [if_neg (by omega), hfill, hpaused]
    simp only [Bool.and_eq_true, Bool.not_eq_true', decide_eq_true_eq]
    rfl
  show putPlane p (((s.plane p).filled n px).watermark (s.plane p).fill) s = _
  rw [hmark, State.stored]
  dsimp only
  split
  · next h => exact if_neg fun he => Bool.false_ne_true (h.1.symm.trans he.symm)
  · split
    · next h => exact if_neg fun he => Bool.false_ne_true (he.trans h.1)
    · exact if_pos rfl

/-- A stored line's slot is READY with its takers, and of the rest of the state only the plane's flag moves. -/
theorem stored_kept (s : State) (p : Plane) (n : Nat) (px : List Dot) : ∃ b,
    (s.stored p n px).plane p = { (s.plane p).filled n px with paused := b } ∧ (s.stored p n px).jobs = s.jobs ∧
      (s.stored p n px).banks = s.banks ∧ (s.stored p n px).heads = s.heads ∧ (s.stored p n px).lanes = s.lanes := by
  have hflow : ∀ b, ((setFlowPending (s.setPlane p { (s.plane p).filled n px with paused := b })).plane p =
      { (s.plane p).filled n px with paused := b }) ∧ _ ∧ _ ∧ _ ∧ _ := fun b =>
    have hq := quiet_setFlowPending (s.setPlane p { (s.plane p).filled n px with paused := b })
    ⟨(congrArg (fun v => v.get p) hq.store).trans (get_put _ _ _), hq.jobs, hq.banks, hq.heads, hq.lanes⟩
  unfold State.stored
  dsimp only
  split
  · exact ⟨true, hflow true⟩
  · split
    · exact ⟨false, hflow false⟩
    · exact ⟨(s.plane p).paused, get_put _ _ _, rfl, rfl, rfl, rfl⟩

theorem filled_slot (hw : sparseWf Slot.fresh (s.plane p).slots) :
    ((s.plane p).filled n px).slot n = { (s.plane p).slot n with state := .ready px } :=
  (PlaneStore.slot_setSlot hw n n _).trans (if_pos rfl)

theorem stored_held (hw : sparseWf Slot.fresh (s.plane p).slots) (hb : (s.plane p).base ≤ n)
    (ht : n < (s.plane p).base + (s.plane p).depth) {ts : List Head} (hts : ((s.plane p).slot n).takers = some ts) {h : Head}
    (hh : h ∈ ts) : ((s.stored p n px).plane p).Held n px h := by
  obtain ⟨b, hp, -⟩ := stored_kept s p n px
  have hslot : ({ (s.plane p).filled n px with paused := b } : PlaneStore).slot n =
      { (s.plane p).slot n with state := .ready px } := filled_slot hw
  rw [hp]
  exact ⟨hb, ht, by rw [hslot], ts, by rw [hslot]; exact hts, hh⟩

end

/-! ## The heads that a line wakes (R57, R77) -/

section
variable {s : State} {p : Plane} {n : Nat} {px : List Dot} {g h : Head} {c : Cursor} {v : JobView}

/-- The Head Scheduler told of one taker that a line is ready. -/
def wakeFor (p : Plane) (n : Nat) (h : Head) (s : State) : State :=
  match (s.head h).cursor with
  | none => s
  | some c =>
    match s.jobView h c.job with
    | none => s
    | some v => if v.plane = p ∧ v.line c.index = n then tryPreload h s else s

theorem lineReady_eq (p : Plane) (n : Nat) (ts : List Head) (s : State) :
    lineReady p n ts s = forEach ts (wakeFor p n) s := rfl

/-- A head that waits for a line of a plane over a lane that takes its preload. -/
structure State.Wakes (s : State) (p : Plane) (n : Nat) (h : Head) (c : Cursor) (v : JobView) : Prop where
  state : (s.head h).state = .waitingLine
  cursor : (s.head h).cursor = some c
  view : s.jobView h c.job = some v
  plane : v.plane = p
  line : v.line c.index = n
  takes : (s.lane h).takesPreload = true

theorem wakeFor_still (hn : ∀ c v, ¬ s.Wakes p n h c v) : wakeFor p n h s = s := by
  unfold wakeFor
  cases hc : (s.head h).cursor with
  | none => rfl
  | some c =>
    cases hv : s.jobView h c.job with
    | none => dsimp only; rw [hv]
    | some v =>
      dsimp only
      rw [hv]
      dsimp only
      split
      · next hl =>
        by_cases hs : (s.head h).state = .waitingLine
        · refine tryPreload_lane (Bool.eq_false_iff.2 fun ht => hn c v ⟨hs, hc, hv, hl.1, hl.2, ht⟩)
        · exact tryPreload_of_ne hs
      · rfl

theorem wakeFor_tries (hw : s.Wakes p n h c v) : wakeFor p n h s = tryPreload h s := by
  unfold wakeFor
  rw [hw.cursor]
  dsimp only
  rw [hw.view]
  exact if_pos ⟨hw.plane, hw.line⟩

theorem wakeFor_wakes (hw : s.Wakes p n h c v) (hx : (s.plane p).Held n px h) :
    wakeFor p n h s = s.preloading h (s.head h) c v px := by
  have hdata : s.cursorData h c = some (v, px) := by
    rw [cursorData_of_view hw.view, hw.plane, hw.line, hx.readyData]
    rfl
  exact (wakeFor_tries hw).trans (tryPreload_starts hw.state hw.cursor hw.takes hdata)

/-- The wake of one head is nothing, or its preload. -/
theorem wakeFor_cases (p : Plane) (n : Nat) (h : Head) (s : State) : wakeFor p n h s = s ∨
    ∃ c v px, wakeFor p n h s = s.preloading h (s.head h) c v px := by
  by_cases hw : ∃ c v, s.Wakes p n h c v
  · obtain ⟨c, v, hw⟩ := hw
    rw [wakeFor_tries hw]
    cases hd : s.cursorData h c with
    | none =>
      refine .inl (tryPreload_nothing fun _ d hd' => ?_)
      cases hw.cursor.symm.trans hd'
      exact hd
    | some y => exact .inr ⟨c, y.1, y.2, tryPreload_starts hw.state hw.cursor hw.takes hd⟩
  · exact .inl (wakeFor_still fun c v h => hw ⟨c, v, h⟩)

/-- What the wake of one head leaves as it is. -/
structure WakeKeeps (g : Head) (s t : State) : Prop where
  jobs : t.jobs = s.jobs
  banks : t.banks = s.banks
  notices : t.notices = s.notices
  head : ∀ h, h ≠ g → t.head h = s.head h
  lane : ∀ h, h ≠ g → t.lane h = s.lane h
  held : ∀ h q m px, h ≠ g → (s.plane q).Held m px h → (t.plane q).Held m px h

theorem wakeKeeps_wakeFor (p : Plane) (n : Nat) (g : Head) (s : State) : WakeKeeps g s (wakeFor p n g s) := by
  rcases wakeFor_cases p n g s with hs | ⟨c, v, px, hs⟩ <;> rw [hs]
  · exact ⟨rfl, rfl, rfl, fun _ _ => rfl, fun _ _ => rfl, fun _ _ _ _ _ hx => hx⟩
  · refine ⟨preloading_jobs s, preloading_banks s, preloading_notices s, fun _ hh => preloading_head_ne hh,
      fun _ hh => preloading_lane_ne hh, fun h q m px' hh hx => ?_⟩
    unfold State.plane
    rw [preloading_store]
    exact hx.takeLine (Ne.symm hh)

theorem WakeKeeps.wakes {t : State} (k : WakeKeeps g s t) (hh : h ≠ g) : t.Wakes p n h c v ↔ s.Wakes p n h c v := by
  have hview : t.jobView h c.job = s.jobView h c.job := jobView_congr (by rw [k.jobs]) (fun i => by rw [k.banks]) h c.job
  constructor
  · rintro ⟨h1, h2, h3, h4, h5, h6⟩
    exact ⟨k.head h hh ▸ h1, k.head h hh ▸ h2, hview ▸ h3, h4, h5, k.lane h hh ▸ h6⟩
  · rintro ⟨h1, h2, h3, h4, h5, h6⟩
    exact ⟨(k.head h hh).symm ▸ h1, (k.head h hh).symm ▸ h2, hview.trans h3, h4, h5, (k.lane h hh).symm ▸ h6⟩

/-- The whole run: nothing of the jobs, the banks or the notices moves, a head that does not wait for the line stays as it
is, and each one that waits for it and is among its takers starts its preload. -/
theorem forEach_wakeFor (p : Plane) (n : Nat) (l : List Head) : ∀ s : State,
    (forEach l (wakeFor p n) s).jobs = s.jobs ∧ (forEach l (wakeFor p n) s).notices = s.notices ∧ ∀ h,
      ((h ∈ l → ∀ c v, ¬ s.Wakes p n h c v) → (forEach l (wakeFor p n) s).head h = s.head h ∧
        (forEach l (wakeFor p n) s).lane h = s.lane h) ∧
      ∀ c v px, h ∈ l → s.Wakes p n h c v → (s.plane p).Held n px h →
        (forEach l (wakeFor p n) s).head h = { s.head h with state := .loading, inFlight := some ⟨c, .keep⟩ } ∧
        (forEach l (wakeFor p n) s).lane h = (s.lane h).send (.fire (fireRecord h v c.index px (s.lane h).band)) := by
  induction l with
  | nil => exact fun s => ⟨rfl, rfl, fun h => ⟨fun _ => ⟨rfl, rfl⟩, fun _ _ _ hh => absurd hh List.not_mem_nil⟩⟩
  | cons g l ih =>
    intro s
    have hk := wakeKeeps_wakeFor p n g s
    obtain ⟨hj, hn, hheads⟩ := ih (wakeFor p n g s)
    rw [forEach_cons]
    refine ⟨hj.trans hk.jobs, hn.trans hk.notices, fun h => ?_⟩
    obtain ⟨hstill, hwakes⟩ := hheads h
    by_cases hh : h = g
    · subst hh
      refine ⟨fun hno => ?_, fun c v px _ hw hx => ?_⟩
      · have hs : wakeFor p n h s = s := wakeFor_still (hno List.mem_cons_self)
        rw [hs] at hstill ⊢
        exact hstill fun _ => hno List.mem_cons_self
      · have hs := wakeFor_wakes hw hx
        rw [hs] at hstill ⊢
        have hloading := preloading_head (x := s.head h) (c := c) (v := v) (px := px) (h := h) s
        obtain ⟨h1, h2⟩ := hstill fun _ c' v' hw' => by
          have hst := hw'.state
          rw [hloading] at hst
          cases hst
        refine ⟨h1.trans (hloading.trans ?_), h2.trans (preloading_lane s)⟩
        rw [← hw.cursor]
    · rw [hk.head h hh, hk.lane h hh] at hstill hwakes
      refine ⟨fun hno => hstill fun hm c v hw => hno (List.mem_cons_of_mem _ hm) c v ((hk.wakes hh).1 hw),
        fun c v px hm hw hx => hwakes c v px ((List.mem_cons.1 hm).resolve_left hh) ((hk.wakes hh).2 hw)
          (hk.held h p n px hh hx)⟩

/-- A run in which one head alone waits. -/
theorem forEach_wakeFor_one {l : List Head} (hone : ∀ g ∈ l, g ≠ h → (s.head g).state ≠ .waitingLine)
    (hw : s.Wakes p n h c v) (hx : (s.plane p).Held n px h) (hm : h ∈ l) :
    forEach l (wakeFor p n) s = s.preloading h (s.head h) c v px := by
  have hdone : ∀ l' : List Head, (∀ g ∈ l', g ∈ l) →
      forEach l' (wakeFor p n) (s.preloading h (s.head h) c v px) = s.preloading h (s.head h) c v px := fun l' hl' =>
    forEach_fix fun g hg => wakeFor_still fun c' v' hw' => by
      have hst := hw'.state
      by_cases hgh : g = h
      · rw [hgh, preloading_head] at hst
        cases hst
      · rw [preloading_head_ne hgh] at hst
        exact hone g (hl' g hg) hgh hst
  have hrun : ∀ l' : List Head, (∀ g ∈ l', g ∈ l) → h ∈ l' →
      forEach l' (wakeFor p n) s = s.preloading h (s.head h) c v px := by
    intro l'
    induction l' with
    | nil => exact fun _ hh => absurd hh List.not_mem_nil
    | cons g l' ih =>
      intro hl' hh
      have hrest : ∀ i ∈ l', i ∈ l := fun i hi => hl' i (List.mem_cons_of_mem _ hi)
      rw [forEach_cons]
      by_cases hgh : h = g
      · subst hgh
        rw [wakeFor_wakes hw hx]
        exact hdone l' hrest
      · rw [wakeFor_still fun c' v' hw' => hone g (hl' g List.mem_cons_self) (Ne.symm hgh) hw'.state]
        exact ih hrest ((List.mem_cons.1 hh).resolve_left hgh)
  exact hrun l (fun _ hg => hg) hm

end

/-! ## The frame (R56) -/

section
variable {s : State} {p : Plane} {n : Nat} {px : List Dot}

theorem lineFrame_refused {r : LineReason} (hr : rulingOf (s.jobs.next.get p) (s.plane p) n px = .refused r) :
    lineFrame p n px s = submitCondition (.lineRefused p) (.lineRefused p r n) (bump (.plane r.counter p) s) := by
  unfold lineFrame
  rw [hr]

theorem lineFrame_replaced (hr : rulingOf (s.jobs.next.get p) (s.plane p) n px = .replaced) :
    lineFrame p n px s = storeData p n px (bump (.plane .replaced p) s) := by
  unfold lineFrame
  rw [hr]

theorem lineFrame_stored (hr : rulingOf (s.jobs.next.get p) (s.plane p) n px = .stored) : lineFrame p n px s =
    ((((storeData p n px (bump (.plane .stored p) s)).plane p).slot n).takers.elim
      (storeData p n px (bump (.plane .stored p) s)) fun ts => lineReady p n ts (storeData p n px (bump (.plane .stored p) s))) := by
  unfold lineFrame
  rw [hr]
  dsimp only
  cases (((storeData p n px (bump (.plane .stored p) s)).plane p).slot n).takers <;> rfl

end

/-- Settles O31. -/
theorem lineFrameHolds : Obligations.LineFrame := by
  intro s d p n px hi hd x t refusedAs y
  have hexec : exec (.lineFrame d) s = .next (dispatch (.line p n px) t) := congrArg _ (receive_ok hd s)
  have hwf : x.Wf (s.jobs.next.get p) := hi.store p
  refine ⟨fun hl => ?_, fun hl => ?_⟩
  · rw [hexec]; exact congrArg _ (if_pos hl)
  have hrun : exec (.lineFrame d) s = .next (Machine.lineFrame p n px t) :=
    hexec.trans (congrArg _ (if_neg (Bool.eq_false_iff.1 hl)))
  have hrefuse : ∀ r, rulingOf (s.jobs.next.get p) x n px = .refused r → refusedAs r r.counter := fun r hr =>
    hrun.trans (congrArg _ (lineFrame_refused (s := t) hr))
  refine ⟨fun h => hrefuse _ (rulingOf_malformed h), fun hw hlen => ⟨fun hn => hrefuse _ (rulingOf_noJob hw hlen hn),
    fun hn => ⟨fun h => hrefuse _ (rulingOf_late hw hlen hn h), fun h => hrefuse _ (rulingOf_ahead hw hlen hn h),
      fun hb ht => ⟨fun q hq hr => ?_, fun q hq hr => ?_, fun he => ?_⟩⟩⟩⟩
  · have hns : (x.slot n).state ≠ .spent := fun h => by rw [hq] at h; cases h
    have hd : (x.slot n).data = some q := by unfold Slot.data; rw [hq]
    refine hrefuse .late ((rulingOf_window hw hlen hn hb ht hns).trans ?_)
    rw [hd]
    exact if_pos hr
  · have hns : (x.slot n).state ≠ .spent := fun h => by rw [hq] at h; cases h
    have hd : (x.slot n).data = some q := by unfold Slot.data; rw [hq]
    have hruling : rulingOf (s.jobs.next.get p) x n px = .replaced := by
      rw [rulingOf_window hw hlen hn hb ht hns, hd]
      exact if_neg (Bool.eq_false_iff.1 hr)
    exact hrun.trans (congrArg _ ((lineFrame_replaced (s := t) hruling).trans
      (storeData_replaced (s := bump (.plane .replaced p) t) hwf.canonical (Option.isSome_iff_exists.2 ⟨q, hd⟩))))
  · intro b u
    have hns : (x.slot n).state ≠ .spent := fun h => by rw [he] at h; cases h
    have hd : (x.slot n).data = none := by unfold Slot.data; rw [he]
    have hruling : rulingOf (s.jobs.next.get p) x n px = .stored := by
      rw [rulingOf_window hw hlen hn hb ht hns, hd]
      rfl
    have hu : storeData p n px b = u := storeData_stored (s := b) hwf.canonical hd
    have hstore : Machine.lineFrame p n px t = ((u.plane p).slot n).takers.elim u fun ts => lineReady p n ts u := by
      rw [← hu]; exact lineFrame_stored (s := t) hruling
    obtain ⟨flag, hplane, hjobs, hbanks, hheads, hlanes⟩ := stored_kept b p n px
    have htakers : ((u.plane p).slot n).takers = (x.slot n).takers := by
      have hslot : ((u.plane p).slot n) = { x.slot n with state := .ready px } :=
        (congrArg (fun z : PlaneStore => z.slot n) hplane).trans (filled_slot (s := b) hwf.canonical)
      rw [hslot]
    rw [hrun, hstore, htakers]
    refine ⟨fun hts => by rw [hts]; rfl, fun ts hts => ?_⟩
    rw [hts]
    have hready : ∀ h ∈ ts, (u.plane p).Held n px h := fun h hh =>
      stored_held (s := b) hwf.canonical hb ht hts hh
    have hhead : ∀ h, u.head h = s.head h := fun h => congrArg (·.get h) hheads
    have hlane : ∀ h, u.lane h = s.lane h := fun h => congrArg (·.get h) hlanes
    have hview : ∀ h id, u.jobView h id = s.jobView h id :=
      jobView_congr (t := u) (congrArg JobQueue.records hjobs) fun i => congrArg (·.tables i) hbanks
    obtain ⟨hrj, hrn, hrun'⟩ := forEach_wakeFor p n ts u
    refine ⟨rfl, fun hno => congrArg _ (forEach_fix fun h hh => wakeFor_still fun c v hw' => hno h hh (hhead h ▸ hw'.state)),
      ?_⟩
    intro starts
    have hstarts : ∀ h c v, starts h c v ↔ h ∈ ts ∧ u.Wakes p n h c v := fun h c v => by
      constructor
      · rintro ⟨hm, h1, h2, h3, h4, h5, h6, h7⟩
        exact ⟨hm, hhead h ▸ h1, hhead h ▸ h2, (hview h _).trans h3, h4, h5,
          takesPreload_iff.2 ⟨(congrArg Lane.state (hlane h)).trans h6, (congrArg (·.hold.seen) (hlane h)).trans h7⟩⟩
      · rintro ⟨hm, h1, h2, h3, h4, h5, h6⟩
        rw [hhead] at h1 h2
        rw [hlane] at h6
        exact ⟨hm, h1, h2, (hview h _).symm.trans h3, h4, h5, (takesPreload_iff.1 h6).1, (takesPreload_iff.1 h6).2⟩
    refine ⟨_, rfl, hrj.trans hjobs, hrn, fun h => ⟨fun hno => ?_, fun c v hst => ?_⟩⟩
    · obtain ⟨h1, h2⟩ := (hrun' h).1 fun hm c v hw' => hno c v ((hstarts h c v).2 ⟨hm, hw'⟩)
      exact ⟨h1.trans (hhead h), h2.trans (hlane h)⟩
    · obtain ⟨hm, hw'⟩ := (hstarts h c v).1 hst
      obtain ⟨h1, h2⟩ := (hrun' h).2 c v px hm hw' (hready h hm)
      rw [hhead] at h1
      rw [hlane] at h2
      refine ⟨h1, h2, fun hone => ?_⟩
      have hpre := forEach_wakeFor_one (fun g hg hgh => hhead g ▸ hone g hg hgh) hw' (hready h hm) hm
      show u.Preloads (forEach ts (wakeFor p n) u) h (s.lane h) c v px
      rw [hpre]
      exact preloads_of_preloading hw'.cursor (hlane h) rfl rfl

end Sys2Proof.Machine
end

section
/-!
PROOFS. What the operations of the Head Scheduler, the retirement of jobs and a chain of activations never undo: a line given
up, the base line, and the leaving of a record.
-/

namespace Sys2Proof.Machine

section
variable {s t u : State} {x y z : PlaneStore} {h : Head}

/-- Plane y comes of plane x by changes that raise the base line and keep every SPENT line of the window SPENT. -/
def PlaneStore.Onward (x y : PlaneStore) : Prop := sparseWf Slot.fresh x.slots → sparseWf Slot.fresh y.slots ∧
  x.base ≤ y.base ∧ y.depth = x.depth ∧ ∀ n, x.base ≤ n → n < x.base + x.depth → (x.slot n).state = .spent →
    n < y.base ∨ (y.slot n).state = .spent

theorem PlaneStore.Onward.refl (x : PlaneStore) : x.Onward x := fun hx => ⟨hx, le_rfl, rfl, fun _ _ _ hs => .inr hs⟩

theorem PlaneStore.Onward.trans (a : x.Onward y) (b : y.Onward z) : x.Onward z := fun hx => by
  obtain ⟨hy, hxy, hd, hs⟩ := a hx
  obtain ⟨hz, hyz, hd', hs'⟩ := b hy
  refine ⟨hz, hxy.trans hyz, hd'.trans hd, fun n h1 h2 hn => ?_⟩
  by_cases hb : n < y.base
  · exact .inl (hb.trans_le hyz)
  · exact hs' n (not_lt.1 hb) (by omega) ((hs n h1 h2 hn).resolve_left hb)

/-- State t comes of state s by such changes of the planes, without a new record in the queue. -/
structure Onward (s t : State) : Prop where
  planes : ∀ p, (s.plane p).Onward (t.plane p)
  ids : ∀ i, (∀ r ∈ s.jobs.records, r.id ≠ i) → ∀ r ∈ t.jobs.records, r.id ≠ i

theorem Onward.refl (s : State) : Onward s s := ⟨fun _ => .refl _, fun _ hi => hi⟩

theorem Onward.trans (a : Onward s t) (b : Onward t u) : Onward s u :=
  ⟨fun p => (a.planes p).trans (b.planes p), fun i hi => b.ids i (a.ids i hi)⟩

theorem Onward.of_eq (hs : t.store = s.store) (hj : t.jobs = s.jobs) : Onward s t :=
  ⟨fun p => by rw [State.plane, State.plane, hs]; exact .refl _, fun i hi => by rw [hj]; exact hi⟩

theorem Quiet.onward (q : Quiet s t) : Onward s t := .of_eq q.store q.jobs

theorem onward_setHead (h : Head) (x : HeadRec) (s : State) : Onward s (s.setHead h x) := .of_eq rfl rfl

theorem onward_setLane (h : Head) (l : Lane) (s : State) : Onward s (s.setLane h l) := .of_eq rfl rfl

theorem onward_forEach {α : Type} {l : List α} {f : α → State → State} (hf : ∀ a ∈ l, ∀ s, Onward s (f a s)) (s : State) :
    Onward s (forEach l f s) :=
  forEach_keeps (P := Onward s) l f (fun a ha _ hs => hs.trans (hf a ha _)) (.refl s)

/-! ## Changes of slots -/

theorem advanceBase_canonical (q : JobQueue) (p : Plane) (k : Nat) (hx : sparseWf Slot.fresh x.slots) :
    sparseWf Slot.fresh (advanceBase q p k x).slots := by
  induction k generalizing x with
  | zero => exact hx
  | succ k ih =>
    unfold advanceBase
    split
    · exact ih (sparseWrite_wf _ _ (sparseErase_wf _ hx))
    · exact hx

theorem PlaneStore.Onward.changed {f : PlaneStore → PlaneStore} (hf : x.Onward (f x)) (q : JobQueue) (p : Plane) :
    x.Onward (changedPlane q p f x) := by
  refine hf.trans fun hx => ?_
  have hw := PlaneStore.watermark_eq x.fill (f x)
  have hbase : ((f x).watermark x.fill).base = (f x).base := by rw [hw]
  have hdepth : ((f x).watermark x.fill).depth = (f x).depth := by rw [hw]
  have hslots : ((f x).watermark x.fill).slots = (f x).slots := by rw [hw]
  refine ⟨advanceBase_canonical q p _ (by rw [hslots]; exact hx), hbase ▸ advanceBase_up q p _ _,
    (advanceBase_depth q p _ _).trans hdepth, fun n h1 h2 hn => ?_⟩
  have hline := advanceBase_slot q p (q.next.get p - ((f x).watermark x.fill).base) ((f x).watermark x.fill) (n := n)
    (by rw [hbase]; exact h1) (by rw [hbase, hdepth]; exact h2)
  rw [PlaneStore.watermark_slot] at hline
  exact hline.imp And.left fun h => by
    have hslot := congrArg Slot.state h.2
    exact hslot.trans hn

theorem onward_storeChange {f : PlaneStore → PlaneStore} (hf : ∀ x : PlaneStore, x.Onward (f x)) (p : Plane) (s : State) :
    Onward s (storeChange p f s) := by
  refine ⟨fun i => ?_, fun i hi => by rw [storeChange_jobs]; exact hi⟩
  by_cases hip : i = p
  · subst hip
    rw [storeChange_plane]
    exact (hf _).changed _ _
  · rw [storeChange_plane_ne hip]
    exact .refl _

theorem changeRun_canonical (f : Slot → Slot) (k : Nat) : ∀ (n : Nat) (x : PlaneStore), sparseWf Slot.fresh x.slots →
    sparseWf Slot.fresh (changeRun f k n x).slots := by
  induction k with
  | zero => exact fun _ _ hx => hx
  | succ k ih => exact fun n x hx => ih (n + 1) _ (sparseWrite_wf _ _ hx)

theorem changeRange_onward {f : Slot → Slot} (hf : ∀ v, v.state = .spent → (f v).state = .spent) (first length : Nat)
    (x : PlaneStore) : x.Onward (changeRange f first length x) := by
  unfold changeRange
  dsimp only
  refine fun hx => ⟨changeRun_canonical f _ _ x hx, (changeRun_base f _ _ x).ge, changeRun_depth f _ _ x,
    fun n _ _ hn => .inr ?_⟩
  rw [changeRun_slot f n _ _ x hx]
  split
  · exact hf _ hn
  · exact hn

theorem bindSlot_spent (ts : List Head) (v : Slot) (hv : v.state = .spent) : (bindSlot ts v).state = .spent := by
  unfold bindSlot
  dsimp only
  split
  · rfl
  · exact hv

theorem takeSlot_spent (h : Head) (r : Bool) (v : Slot) (hv : v.state = .spent) : (takeSlot h r v).state = .spent := by
  unfold takeSlot
  dsimp only
  split
  · rfl
  · exact hv

theorem takenLine_onward (h : Head) (n : Nat) (r : Bool) (x : PlaneStore) : x.Onward (takenLine h n r x) := by
  refine fun hx => ⟨?_, takenLine_base.ge, ?_, fun j _ _ hj => .inr ?_⟩
  · unfold takenLine
    dsimp only
    split
    · exact sparseWrite_wf _ _ hx
    · exact hx
  · unfold takenLine
    dsimp only
    split <;> rfl
  · rw [takenLine_slot hx]
    split
    · next h => exact takeSlot_spent _ _ _ (h.2 ▸ hj)
    · exact hj

theorem onward_takeLine (h : Head) (p : Plane) (n : Nat) (r : Bool) (s : State) : Onward s (takeLine h p n r s) :=
  onward_storeChange (takenLine_onward h n r) p s

theorem onward_giveUpRecord (r : JobRec) (s : State) : Onward s (giveUpRecord r s) :=
  onward_forEach (fun x _ t => onward_storeChange (changeRange_onward (f := giveUpSlot) (fun _ _ => rfl) x.first r.length) x.plane t) s

/-! ## Records -/

theorem onward_update (id : Nat) (a : Activation) (s : State) :
    Onward s (s.setJobs (s.jobs.update id fun r => { r with active := some a })) := by
  refine ⟨fun _ => .refl _, fun i hi r hr => ?_⟩
  obtain ⟨x, hx, rfl⟩ := List.mem_map.1 hr
  split
  · exact hi x hx
  · exact hi x hx

theorem onward_setJobs {q : JobQueue} (hq : q.records = s.jobs.records) : Onward s (s.setJobs q) :=
  ⟨fun _ => .refl _, fun i hi => by
    rw [State.setJobs_jobs, hq]
    exact hi⟩

theorem onward_unbindBank (i : BankId) (s : State) : Onward s (unbindBank i s) := .of_eq rfl rfl

theorem onward_bindBank (s : State) : Onward s (bindBank s) := .of_eq rfl rfl

theorem onward_remove (id : Nat) (s : State) : Onward s (s.setJobs (s.jobs.remove id)) :=
  ⟨fun _ => .refl _, fun _ hi r hr => hi r (List.mem_filter.1 hr).1⟩

theorem onward_retire (id : Nat) (s : State) : Onward s (retire id s) := by
  unfold retire
  split
  · exact .refl s
  · split
    · exact .refl s
    · exact ((onward_remove id s).trans (onward_unbindBank _ _)).trans (quiet_submit _ _).onward

theorem onward_report (job n : Nat) (fired retires : Bool) (s : State) : Onward s (report job n fired retires s) := by
  unfold report
  split
  · exact .refl s
  · split
    · exact .refl s
    · dsimp only
      split
      · exact (onward_update job _ s).trans (onward_retire job _)
      · exact onward_update job _ s

/-! ## The operations of a head -/

theorem onward_takeOf (h : Head) (c : Cursor) (r : Bool) (s : State) : Onward s (takeOf h c r s) := by
  unfold takeOf
  split
  · exact .refl s
  · exact onward_takeLine h _ _ r s

theorem onward_preloading (h : Head) (x : HeadRec) (c : Cursor) (v : JobView) (px : List Dot) (s : State) :
    Onward s (s.preloading h x c v px) :=
  ((onward_takeLine h _ _ true s).trans (onward_setLane h _ _)).trans (onward_setHead h _ _)

theorem onward_arriveOn (h : Head) (x : HeadRec) (c : Cursor) (s : State) : Onward s (arriveOn h x c s) := by
  rcases arriveOn_comes s h x c with ⟨f, hf, ht⟩ | ⟨hf, hn, ht⟩ | ⟨v, px, hf, hl, hd, ht⟩ <;> rw [ht]
  · exact onward_setHead h _ s
  · exact onward_setHead h _ s
  · exact onward_preloading h x c v px s

theorem onward_testDownshift (h : Head) (s : State) : Onward s (testDownshift h s) := by
  unfold testDownshift
  dsimp only
  split
  · exact (((onward_setLane h _ s).trans (onward_setHead h _ _)).trans (quiet_laneNotice h _ _).onward).trans
      ((onward_setLane h _ _).trans (quiet_laneNotice h _ _).onward)
  · exact .refl s

theorem onward_goTo (h : Head) (x : HeadRec) (c : Option Cursor) (s : State) : Onward s (goTo h x c s) := by
  cases c with
  | none => exact (onward_setHead h _ s).trans (onward_testDownshift h _)
  | some c => exact onward_arriveOn h x c s

theorem onward_dueEvent (h : Head) (c : Cursor) (s : State) : Onward s (dueEvent h c s) := by
  have hmet : Onward s (s.metDue h c) := by
    unfold State.metDue
    dsimp only
    split
    · exact (countOutcome_quiet h _ c s).onward.trans (onward_takeOf h c false _)
    · exact (countOutcome_quiet h _ c s).onward
  have hreported : Onward s (s.reportedDue h c) := by
    unfold State.reportedDue
    dsimp only
    split
    · exact (hmet.trans (onward_report _ _ _ _ _)).trans (onward_setLane h _ _)
    · exact hmet.trans (onward_report _ _ _ _ _)
  rw [dueEvent_eq]
  exact hreported.trans (onward_goTo h _ _ _)

theorem onward_runDues (h : Head) (k : Nat) (s : State) : Onward s (runDues h k s) := by
  induction k generalizing s with
  | zero => exact .refl s
  | succ k ih =>
    unfold runDues
    split
    · exact .refl s
    · exact (onward_dueEvent h _ s).trans (ih _)

theorem onward_arrive (h : Head) (x : HeadRec) (c : Cursor) (s : State) : Onward s (arrive h x c s) :=
  (onward_arriveOn h x c s).trans (onward_runDues h _ _)

theorem onward_skipLine (h : Head) (c : Cursor) (taken retires : Bool) (s : State) :
    Onward s (skipLine h c taken retires s) := by
  unfold skipLine
  dsimp only
  split
  · exact ((quiet_bump _ s).onward.trans (onward_takeOf h c false _)).trans (onward_report _ _ _ _ _)
  · exact (quiet_bump _ s).onward.trans (onward_report _ _ _ _ _)

theorem onward_skipRun (h : Head) (retires : Bool) (k : Nat) (c : Cursor) (taken : Bool) (s : State) :
    Onward s (skipRun h retires k c taken s) := by
  induction k generalizing c taken s with
  | zero => exact .refl s
  | succ k ih => exact (onward_skipLine h c taken retires s).trans (ih _ _ _)

theorem onward_abortPart (h : Head) (id length : Nat) (s : State) : Onward s (abortPart h id length s) := by
  unfold abortPart
  split
  · exact .refl s
  · split
    · exact ((onward_skipRun h false _ _ _ s).trans (onward_goTo h _ _ _)).trans (onward_runDues h _ _)
    · split
      · exact onward_skipRun h false _ _ _ s
      · exact .refl s

/-! ## Activations -/

theorem onward_handToHeads (id : Nat) (hs : List Head) (s : State) : Onward s (handToHeads id hs s) := by
  refine onward_forEach (fun h _ t => ?_) s
  split
  · exact onward_arrive h _ _ t
  · exact .refl t

theorem bindRecord_ranges (r : JobRec) (t : Nat) (s : State) : ∃ u, Onward s u ∧
    bindRecord r t s = u.setJobs { u.jobs with lastT := some t, lastL := some r.length } := by
  have hranges : ∀ u, Onward u (forEach r.planes (fun x s' =>
      bindRange x.plane ((s.activationOf r t).takersOf x.plane) x.first r.length s') u) :=
    onward_forEach fun x _ u => onward_storeChange (changeRange_onward (bindSlot_spent _) x.first r.length) x.plane u
  exact ⟨_, ((onward_update r.id (s.activationOf r t) s).trans (onward_bindBank _)).trans (hranges _), rfl⟩

theorem onward_activateRecord (r : JobRec) (t : Nat) (s : State) : Onward s (activateRecord r t s) := by
  have hbind : Onward s (bindRecord r t s) := by
    obtain ⟨u, hu, hr⟩ := bindRecord_ranges r t s
    rw [hr]
    exact hu.trans (onward_setJobs rfl)
  rw [activateRecord_eq]
  exact (hbind.trans (quiet_submit _ _).onward).trans (onward_handToHeads _ _ _)

theorem onward_retireIfEmpty (id : Nat) (s : State) : Onward s (retireIfEmpty id s) := by
  unfold retireIfEmpty
  split
  · exact .refl s
  · split
    · exact .refl s
    · split
      · exact onward_retire id s
      · exact .refl s

theorem onward_activate (k : Nat) : ∀ (id t : Nat) (s : State), Onward s (activate k id t s) := by
  induction k with
  | zero => exact fun _ _ s => .refl s
  | succ k ih =>
    intro id t s
    unfold activate
    split
    · exact .refl s
    · dsimp only
      refine Onward.trans ?_ (onward_retireIfEmpty id _)
      split
      · exact (onward_activateRecord _ t s).trans (ih _ _ _)
      · exact onward_activateRecord _ t s

theorem onward_testChain (s : State) : Onward s (testChain s) := by
  unfold testChain
  split
  · exact onward_activate _ _ _ s
  · exact .refl s

end

end Sys2Proof.Machine
end

section
/-!
PROOFS. Abort Job: the lines given up, the skips of the takers with the totals that they leave, and the heads that go on.
-/

namespace Sys2Proof.Machine

section
variable {s t u : State} {pre post : List JobRec} {r : JobRec} {a : Activation} {g h : Head} {c : Cursor}

/-! ## The lines given up (R66) -/

theorem giveUpRecord_jobs (r : JobRec) (s : State) : (giveUpRecord r s).jobs = s.jobs :=
  forEach_keeps (P := fun t => t.jobs = s.jobs) r.planes _ (fun _ _ _ ht => (storeChange_jobs _ _ _).trans ht) rfl

theorem giveUpRecord_others (r : JobRec) (s : State) : (giveUpRecord r s).banks = s.banks ∧
    (giveUpRecord r s).heads = s.heads ∧ (giveUpRecord r s).lanes = s.lanes ∧ (giveUpRecord r s).ptu = s.ptu ∧
    (giveUpRecord r s).trig = s.trig ∧ (giveUpRecord r s).notices = s.notices := by
  refine forEach_keeps (P := fun u => u.banks = s.banks ∧ u.heads = s.heads ∧ u.lanes = s.lanes ∧ u.ptu = s.ptu ∧
    u.trig = s.trig ∧ u.notices = s.notices) r.planes _ (fun x _ u hu => ?_) ⟨rfl, rfl, rfl, rfl, rfl, rfl⟩
  rw [storeChange_banks, storeChange_heads, storeChange_lanes, storeChange_ptu, storeChange_trig, storeChange_notices]
  exact hu

/-- A line given up is SPENT, or the base line has passed it. -/
theorem giveUpRecord_lines (hr : (r.planes.map JobPlane.plane).Nodup) {x : JobPlane} (hx : x ∈ r.planes) {n : Nat}
    (hw : sparseWf Slot.fresh (s.plane x.plane).slots) (h1 : x.first ≤ n) (h2 : n < x.first + r.length)
    (hd : n < (s.plane x.plane).base + (s.plane x.plane).depth) :
    n < ((giveUpRecord r s).plane x.plane).base ∨ (((giveUpRecord r s).plane x.plane).slot n).state = .spent := by
  by_cases hb : n < (s.plane x.plane).base
  · exact .inl (hb.trans_le (((onward_giveUpRecord r s).planes x.plane) hw).2.1)
  · have hplane : (giveUpRecord r s).plane x.plane =
        changedPlane s.jobs x.plane (changeRange giveUpSlot x.first r.length) (s.plane x.plane) :=
      forEach_storeChange_plane (fun x => changeRange giveUpSlot x.first r.length) s hr hx
    rw [hplane]
    refine (changedPlane_range (f := giveUpSlot) s.jobs x.plane hw h1 h2 (not_lt.1 hb) hd).imp And.left fun h => ?_
    rw [h.2]
    rfl

/-- A line that is SPENT or passed stays so. -/
theorem Onward.line (ho : Onward s t) {p : Plane} {n : Nat} (hw : sparseWf Slot.fresh (s.plane p).slots)
    (hd : n < (s.plane p).base + (s.plane p).depth) (hn : n < (s.plane p).base ∨ ((s.plane p).slot n).state = .spent) :
    n < (t.plane p).base ∨ ((t.plane p).slot n).state = .spent := by
  obtain ⟨-, hup, -, hs⟩ := ho.planes p hw
  by_cases hb : n < (s.plane p).base
  · exact .inl (hb.trans_le hup)
  · exact hs n (not_lt.1 hb) hd (hn.resolve_left hb)

/-! ## The skips of an aborted job (R40, R83, log 23) -/

/-- An activation with skips added to its shortfall total. -/
def Activation.skipped (a : Activation) (k progress : Nat) : Activation :=
  { a with shortfall := a.shortfall + k, progress := progress }

/-- State t comes of state s by skips of lines of record r, k in all, n of them by each head. -/
structure Aborts (pre : List JobRec) (r : JobRec) (post : List JobRec) (a : Activation) (s t : State) (n : Head → Nat)
    (k : Nat) : Prop where
  jobs : ∃ p, t.jobs = { s.jobs with records := pre ++ { r with active := some (a.skipped k p) } :: post }
  banks : t.banks = s.banks
  notices : t.notices = { s.notices with counters := t.notices.counters }
  counts : ∀ g, s.counter (.head .skipped g) ≤ Config.counterMax →
    t.counter (.head .skipped g) = min Config.counterMax (s.counter (.head .skipped g) + n g)

theorem Aborts.refl (he : s.jobs.records = pre ++ r :: post) (ha : r.active = some a) :
    Aborts pre r post a s s (fun _ => 0) 0 := by
  refine ⟨⟨a.progress, ?_⟩, rfl, rfl, fun g hg => (min_eq_right hg).symm⟩
  have hr : { r with active := some (a.skipped 0 a.progress) : JobRec } = r :=
    show ({ r with active := some a } : JobRec) = r by rw [← ha]
  rw [hr, ← he]

theorem Aborts.trans {n m : Head → Nat} {j k : Nat} (h1 : Aborts pre r post a s t n j)
    (h2 : ∀ p, t.jobs.records = pre ++ { r with active := some (a.skipped j p) } :: post →
      Aborts pre { r with active := some (a.skipped j p) } post (a.skipped j p) t u m k) :
    Aborts pre r post a s u (fun g => n g + m g) (j + k) := by
  obtain ⟨p, hp⟩ := h1.jobs
  have h2 := h2 p (by rw [hp])
  obtain ⟨p', hp'⟩ := h2.jobs
  refine ⟨⟨p', ?_⟩, h2.banks.trans h1.banks, ?_, fun g hg => ?_⟩
  · rw [hp', hp]
    unfold Activation.skipped
    rw [Nat.add_assoc]
  · rw [h2.notices, h1.notices]
  · have ht := h1.counts g hg
    rw [h2.counts g (by rw [ht]; exact min_le_left _ _), ht]
    omega

/-- What moves neither the records, nor the banks, nor the notices adds nothing to the skips. -/
theorem Aborts.then {n : Head → Nat} {k : Nat} (h1 : Aborts pre r post a s t n k) (hj : u.jobs = t.jobs)
    (hb : u.banks = t.banks) (hn : u.notices = t.notices) : Aborts pre r post a s u n k :=
  ⟨by rw [hj]; exact h1.jobs, hb.trans h1.banks, by rw [hn]; exact h1.notices, fun g hg =>
    (State.counter_congr (congrArg NoticeUnit.counters hn) _).trans (h1.counts g hg)⟩

theorem report_keeps (hq : s.jobs.Distinct) (he : s.jobs.records = pre ++ r :: post) (ha : r.active = some a) (n : Nat) :
    report r.id n false false s = s.told pre r post (a.reported false (n + 1 == r.length)) := by
  rw [report_split hq he ha]
  exact if_neg (by simp)

theorem skipLine_aborts (hq : s.jobs.Distinct) (he : s.jobs.records = pre ++ r :: post) (ha : r.active = some a)
    (hc : c.job = r.id) (taken : Bool) :
    Aborts pre r post a s (skipLine h c taken false s) (fun g => if g = h then 1 else 0) 1 := by
  obtain ⟨b, hb⟩ : ∃ b, b = if taken = true then takeOf h c false (bump (.head .skipped h) s) else bump (.head .skipped h) s :=
    ⟨_, rfl⟩
  have hjobs : b.jobs = s.jobs := by
    rw [hb]
    split
    · exact takeOf_jobs _ _ _ _
    · rfl
  have hbanks : b.banks = s.banks := by
    rw [hb]
    split
    · exact takeOf_banks _ _ _ _
    · rfl
  have hnotices : b.notices = (bump (.head .skipped h) s).notices := by
    rw [hb]
    split
    · exact takeOf_notices _ _ _ _
    · rfl
  have hskip : skipLine h c taken false s = b.told pre r post (a.reported false (c.index + 1 == r.length)) := by
    rw [← report_keeps (by rw [hjobs]; exact hq) (by rw [hjobs]; exact he) ha, ← hc, hb]
    rfl
  rw [hskip]
  refine ⟨⟨(a.reported false (c.index + 1 == r.length)).progress, ?_⟩, hbanks, ?_, fun g hg => ?_⟩
  · rw [State.told, State.setJobs_jobs, hjobs]
    rfl
  · show b.notices = { s.notices with counters := b.notices.counters }
    rw [hnotices]
    rfl
  · refine (State.counter_congr (t := b) (s := bump (.head .skipped h) s) (by rw [hnotices]) _).trans ?_
    by_cases hgh : g = h
    · rw [if_pos hgh, hgh]
      exact bump_counter _ s
    · rw [if_neg hgh, bump_counter_ne (by simpa using hgh)]
      exact (min_eq_right hg).symm

theorem JobQueue.Distinct.replaced {q q' : JobQueue} (hq : q.Distinct) (he : q.records = pre ++ r :: post) {b : Option Activation}
    (he' : q'.records = pre ++ { r with active := b } :: post) : q'.Distinct := by
  unfold JobQueue.Distinct at *
  rw [he] at hq
  rw [he']
  simpa using hq

theorem skipRun_aborts (k : Nat) : ∀ {r : JobRec} {a : Activation} {s : State} {c : Cursor}, s.jobs.Distinct →
    s.jobs.records = pre ++ r :: post → r.active = some a → c.job = r.id → ∀ taken,
    Aborts pre r post a s (skipRun h false k c taken s) (fun g => if g = h then k else 0) k := by
  induction k with
  | zero =>
    intro r a s c hq he ha hc taken
    have h0 : (fun g => if g = h then 0 else 0) = fun _ : Head => 0 := funext fun g => ite_self 0
    rw [h0]
    exact .refl he ha
  | succ k ih =>
    intro r a s c hq he ha hc taken
    have hsum : (fun g => if g = h then k + 1 else 0) = fun g : Head => (if g = h then 1 else 0) + if g = h then k else 0 :=
      funext fun g => by split <;> omega
    have hrun := (skipLine_aborts (h := h) hq he ha hc taken).trans fun p hp =>
      ih (c := { c with index := c.index + 1 }) (JobQueue.Distinct.replaced hq he hp) hp rfl hc true
    rw [hsum]
    rw [Nat.add_comm 1 k] at hrun
    exact hrun

/-! ## A taker's part (R91) -/

/-- The lines that a head skips of an aborted record r, with the records `pre` before it in the queue. -/
def skipsOf (pre : List JobRec) (r : JobRec) (x : HeadRec) : Nat :=
  match x.cursor with
  | none => 0
  | some c => if c.job = r.id then r.length - c.index else if pre.any (fun y => y.id == c.job) then r.length else 0

/-- A head has its cursor on a line of a job. -/
def HeadRec.On (x : HeadRec) (id : Nat) : Prop := x.cursor.map Cursor.job = some id

/-- A head may leave its job for a later one, or for IDLE, without a downshift and without a due. -/
structure State.Leaves (s : State) (h : Head) (next : Option JobRec) : Prop where
  downshift : (s.lane h).downshift = false
  ahead : ∀ y v, next = some y → s.jobView h y.id = some v → s.position < v.due h 0

/-- State t has head h of state s gone on to line 0 of its next job, or IDLE, its transmission in flight DISCARD. -/
structure State.Left (s t : State) (h : Head) (next : Option JobRec) : Prop where
  idle : next = none → t.lane h = s.lane h ∧ t.head h = { s.head h with
    cursor := none, state := .idle, inFlight := (s.head h).inFlight.map fun z => { z with fate := .discard } }
  sending : ∀ y z, next = some y → (s.head h).inFlight = some z → t.lane h = s.lane h ∧ t.head h = { s.head h with
    cursor := some ⟨y.id, 0⟩, state := .discarding, inFlight := some { z with fate := .discard } }
  free : ∀ y, next = some y → (s.head h).inFlight = none →
    (t.lane h = s.lane h ∧ t.head h = { s.head h with cursor := some ⟨y.id, 0⟩, state := .waitingLine }) ∨
      ((s.lane h).state = .up ∧ (s.lane h).hold.seen = false ∧ t.head h =
        { s.head h with cursor := some ⟨y.id, 0⟩, state := .loading, inFlight := some ⟨⟨y.id, 0⟩, .keep⟩ })

theorem State.Left.of_earlier {next : Option JobRec} (ht : t.Left u h next) (hh : t.head h = s.head h)
    (hl : t.lane h = s.lane h) : s.Left u h next :=
  ⟨by rw [← hh, ← hl]; exact ht.idle, by rw [← hh, ← hl]; exact ht.sending, by rw [← hh, ← hl]; exact ht.free⟩

theorem State.Left.of_later {next : Option JobRec} (ht : s.Left t h next) (hh : u.head h = t.head h)
    (hl : u.lane h = t.lane h) : s.Left u h next :=
  ⟨by rw [hh, hl]; exact ht.idle, by rw [hh, hl]; exact ht.sending, by rw [hh, hl]; exact ht.free⟩

theorem before_split (hq : s.jobs.Distinct) (he : s.jobs.records = pre ++ r :: post) (i : Nat) :
    s.jobs.before i r.id = pre.any fun y => y.id == i := by
  have hpre : ∀ x ∈ pre, (x.id != r.id) = true := fun x hx => by simpa using hq.ne_of_split he (.inl hx)
  unfold JobQueue.before
  rw [he, List.takeWhile_append_of_pos hpre, List.takeWhile_cons_of_neg (by simp), List.append_nil]

theorem nextJob_split (hq : s.jobs.Distinct) (he : s.jobs.records = pre ++ r :: post) (h : Head) :
    s.nextJob h r.id = (post.find? fun y => y.takenBy h).map fun y => ⟨y.id, 0⟩ := by
  unfold State.nextJob
  rw [after_split hq he]

/-- What a head reads of another job does not depend on the totals of record r. -/
theorem jobView_replaced {b : Option Activation} (he : s.jobs.records = pre ++ r :: post)
    (he' : t.jobs.records = pre ++ { r with active := b } :: post) (hb : ∀ i, t.banks.tables i = s.banks.tables i) {i : Nat}
    (hi : i ≠ r.id) (h : Head) : t.jobView h i = s.jobView h i := by
  have hfind : t.jobs.find i = s.jobs.find i := by
    unfold JobQueue.find
    rw [he, he', List.find?_append, List.find?_append, List.find?_cons_of_neg (by simpa using hi.symm),
      List.find?_cons_of_neg (by simpa using hi.symm)]
  unfold State.jobView
  rw [hfind]
  simp only [hb]

theorem find_later_ne (hq : s.jobs.Distinct) (he : s.jobs.records = pre ++ r :: post) {f : JobRec → Bool} {y : JobRec}
    (hy : post.find? f = some y) : y.id ≠ r.id := hq.ne_of_split he (.inr (List.mem_of_find?_eq_some hy))

/-- A head goes to line 0 of a job, where that lies ahead. -/
theorem arriveOn_left (s : State) (h : Head) (y : JobRec) :
    s.Left (arriveOn h (s.head h).discarded ⟨y.id, 0⟩ s) h (some y) where
  idle := fun hn => by cases hn
  sending := fun y' z hy hz => by
    cases hy
    have hf : (s.head h).discarded.inFlight = some { z with fate := .discard } := by
      unfold HeadRec.discarded
      rw [hz]
      rfl
    rw [arriveOn_sending hf]
    refine ⟨rfl, (State.setHead_head _ _ _).trans ?_⟩
    unfold HeadRec.discarded
    rw [hz]
    rfl
  free := fun y' hy hz => by
    cases hy
    have hsame : (s.head h).discarded = s.head h := by
      unfold HeadRec.discarded
      rw [hz]
      show ({ s.head h with inFlight := none } : HeadRec) = s.head h
      rw [← hz]
    rw [hsame]
    exact (arriveOn_handed s y.id h).free hz

theorem abortPart_on (hc : (s.head h).cursor = some c) (hj : c.job = r.id) : abortPart h r.id r.length s =
    runDues h (goTo h ((skipCursorJob h c r.length false s).head h).discarded (s.nextJob h r.id)
      (skipCursorJob h c r.length false s)).dueBound
      (goTo h ((skipCursorJob h c r.length false s).head h).discarded (s.nextJob h r.id)
        (skipCursorJob h c r.length false s)) := by
  unfold abortPart
  rw [hc]
  exact if_pos hj

/-- The part of a head that is on the job. -/
theorem abortPart_leaves (hq : s.jobs.Distinct) (he : s.jobs.records = pre ++ r :: post) (ha : r.active = some a)
    (hc : (s.head h).cursor = some c) (hj : c.job = r.id) (hm : s.Leaves h (post.find? fun y => y.takenBy h)) :
    Aborts pre r post a s (abortPart h r.id r.length s) (fun g => if g = h then r.length - c.index else 0)
      (r.length - c.index) ∧ s.Left (abortPart h r.id r.length s) h (post.find? fun y => y.takenBy h) := by
  obtain ⟨m, hmdef⟩ : ∃ m, m = skipCursorJob h c r.length false s := ⟨_, rfl⟩
  have habort : Aborts pre r post a s m (fun g => if g = h then r.length - c.index else 0) (r.length - c.index) := by
    rw [hmdef]
    exact skipRun_aborts _ hq he ha hj _
  have hw : Within (fun _ => False) s m := by
    rw [hmdef]
    exact within_skipRun c s _ h false _ _
  have hhead : m.head h = s.head h := hw.heads h id
  have hlane : m.lane h = s.lane h := hw.lanes h id
  obtain ⟨p, hp⟩ := habort.jobs
  have hrec : m.jobs.records = pre ++ { r with active := some (a.skipped (r.length - c.index) p) } :: post := by rw [hp]
  rw [abortPart_on hc hj, ← hmdef, nextJob_split hq he]
  cases hy : post.find? fun y => y.takenBy h with
  | none =>
    have hgo : goTo h (m.head h).discarded none m =
        m.setHead h { (m.head h).discarded with cursor := none, state := .idle } :=
      goTo_none (by rw [hlane]; exact hm.downshift) _
    have hdone : (m.setHead h { (m.head h).discarded with cursor := none, state := .idle }).reachedDue h = none :=
      reachedDue_none fun d _ hd => by rw [State.setHead_head] at hd; cases hd
    rw [Option.map_none, hgo, runDues_none hdone]
    refine ⟨habort.then rfl rfl rfl, fun _ => ⟨hlane, ?_⟩, fun y z hn => (by cases hn), fun y hn => (by cases hn)⟩
    rw [State.setHead_head, hhead]
    rfl
  | some y =>
    have hview : m.jobView h y.id = s.jobView h y.id :=
      jobView_replaced he hrec (fun i => by rw [habort.banks]) (find_later_ne hq he hy) h
    have hgo : runDues h (goTo h (m.head h).discarded (some ⟨y.id, 0⟩) m).dueBound
        (goTo h (m.head h).discarded (some ⟨y.id, 0⟩) m) = arriveOn h (m.head h).discarded ⟨y.id, 0⟩ m := by
      refine arrive_ahead (c := ⟨y.id, 0⟩) (fun v hv => ?_) _
      rw [hw.position]
      exact hm.ahead y v hy (hview ▸ hv)
    obtain ⟨-, hj', hb', -⟩ := arriveOn_cursor h (m.head h).discarded ⟨y.id, 0⟩ m
    rw [Option.map_some, hgo]
    refine ⟨habort.then hj' hb' (arriveOn_notices _ _ _ _), ?_⟩
    obtain ⟨h1, h2, h3⟩ := arriveOn_left m h y
    rw [hhead, hlane] at *
    exact ⟨h1, h2, h3⟩

theorem skipJob_aborts (hq : s.jobs.Distinct) (he : s.jobs.records = pre ++ r :: post) (ha : r.active = some a) :
    Aborts pre r post a s (skipJob h r.id r.length false s) (fun g => if g = h then r.length else 0) r.length :=
  skipRun_aborts (c := ⟨r.id, 0⟩) r.length hq he ha rfl true

/-- The part of one taker. -/
theorem abortPart_step (hq : s.jobs.Distinct) (he : s.jobs.records = pre ++ r :: post) (ha : r.active = some a)
    (hm : (s.head h).On r.id → s.Leaves h (post.find? fun y => y.takenBy h)) :
    Aborts pre r post a s (abortPart h r.id r.length s) (fun g => if g = h then skipsOf pre r (s.head h) else 0)
        (skipsOf pre r (s.head h)) ∧
      Within (fun g => g = h ∧ (s.head h).On r.id) s (abortPart h r.id r.length s) ∧
      ((s.head h).On r.id → s.Left (abortPart h r.id r.length s) h (post.find? fun y => y.takenBy h)) := by
  have hnone : (fun g => if g = h then 0 else 0) = fun _ : Head => 0 := funext fun g => ite_self 0
  cases hc : (s.head h).cursor with
  | none =>
    have hpart : abortPart h r.id r.length s = s := by
      unfold abortPart
      rw [hc]
    have hskips : skipsOf pre r (s.head h) = 0 := by
      unfold skipsOf
      rw [hc]
    rw [hpart, hskips, hnone]
    exact ⟨.refl he ha, .refl _ s, fun hon => by unfold HeadRec.On at hon; rw [hc] at hon; cases hon⟩
  | some c =>
    by_cases hj : c.job = r.id
    · have hon : (s.head h).On r.id := by
        unfold HeadRec.On
        rw [hc, Option.map_some, hj]
      have hskips : skipsOf pre r (s.head h) = r.length - c.index := by
        unfold skipsOf
        rw [hc]
        exact if_pos hj
      obtain ⟨h1, h2⟩ := abortPart_leaves hq he ha hc hj (hm hon)
      rw [hskips]
      exact ⟨h1, within_abortPart (P := fun g => g = h ∧ (s.head h).On r.id) s ⟨rfl, hon⟩ _ _, fun _ => h2⟩
    · have hoff : ¬ (s.head h).On r.id := fun hon => by
        unfold HeadRec.On at hon
        rw [hc] at hon
        exact hj (Option.some.inj hon)
      have hpart : abortPart h r.id r.length s =
          if pre.any (fun y => y.id == c.job) then skipJob h r.id r.length false s else s := by
        rw [← before_split hq he]
        unfold abortPart
        rw [hc]
        exact if_neg hj
      have hskips : skipsOf pre r (s.head h) = if pre.any (fun y => y.id == c.job) then r.length else 0 := by
        unfold skipsOf
        rw [hc]
        exact if_neg hj
      rw [hpart, hskips]
      split
      · exact ⟨skipJob_aborts hq he ha, within_skipRun _ s _ h false _ _, fun hon => absurd hon hoff⟩
      · rw [hnone]
        exact ⟨.refl he ha, .refl _ s, fun hon => absurd hon hoff⟩

/-- All the parts, of takers that differ. -/
theorem forEach_abortPart (l : List Head) : l.Nodup → ∀ {r : JobRec} {a : Activation} {s : State}, s.jobs.Distinct →
    s.jobs.records = pre ++ r :: post → r.active = some a →
    (∀ h ∈ l, (s.head h).On r.id → s.Leaves h (post.find? fun y => y.takenBy h)) →
    Aborts pre r post a s (forEach l (fun h s => abortPart h r.id r.length s) s)
        (fun g => if g ∈ l then skipsOf pre r (s.head g) else 0) (l.map fun g => skipsOf pre r (s.head g)).sum ∧
      Within (fun g => g ∈ l ∧ (s.head g).On r.id) s (forEach l (fun h s => abortPart h r.id r.length s) s) ∧
      ∀ h ∈ l, (s.head h).On r.id →
        s.Left (forEach l (fun h s => abortPart h r.id r.length s) s) h (post.find? fun y => y.takenBy h) := by
  induction l with
  | nil =>
    intro _ r a s hq he ha _
    exact ⟨.refl he ha, .refl _ s, fun h hh => absurd hh List.not_mem_nil⟩
  | cons h l ih =>
    intro hn r a s hq he ha hm
    obtain ⟨hnot, hn⟩ := List.nodup_cons.1 hn
    obtain ⟨hab, hw, hleft⟩ := abortPart_step hq he ha (hm h List.mem_cons_self)
    have hne : ∀ g ∈ l, g ≠ h := fun g hg e => hnot (e ▸ hg)
    have hhead : ∀ g ∈ l, (abortPart h r.id r.length s).head g = s.head g := fun g hg => hw.heads g fun hp => hne g hg hp.1
    have hlane : ∀ g ∈ l, (abortPart h r.id r.length s).lane g = s.lane g := fun g hg => hw.lanes g fun hp => hne g hg hp.1
    have hrest : ∀ p, (abortPart h r.id r.length s).jobs.records =
        pre ++ { r with active := some (a.skipped (skipsOf pre r (s.head h)) p) } :: post → _ := fun p hp =>
      ih hn (r := { r with active := some (a.skipped (skipsOf pre r (s.head h)) p) }) (JobQueue.Distinct.replaced hq he hp) hp rfl
        fun g hg hon => by
          have hgo := hm g (List.mem_cons_of_mem _ hg) (by rw [← hhead g hg]; exact hon)
          refine ⟨by rw [hlane g hg]; exact hgo.downshift, fun y v hy hv => ?_⟩
          rw [hw.position]
          refine hgo.ahead y v hy ?_
          rwa [jobView_replaced he hp (fun i => by rw [hab.banks]) (find_later_ne hq he hy)] at hv
    obtain ⟨p, hp⟩ := hab.jobs
    obtain ⟨-, hw', hleft'⟩ := hrest p (by rw [hp])
    rw [forEach_cons]
    refine ⟨?_, ?_, fun g hg hon => ?_⟩
    · have hsum := hab.trans (u := forEach l (fun h s => abortPart h r.id r.length s) (abortPart h r.id r.length s))
        (m := fun g => if g ∈ l then skipsOf pre r ((abortPart h r.id r.length s).head g) else 0)
        (k := (l.map fun g => skipsOf pre r ((abortPart h r.id r.length s).head g)).sum) fun p hp => (hrest p hp).1
      have hcount : (fun g => (if g = h then skipsOf pre r (s.head h) else 0) +
          if g ∈ l then skipsOf pre r ((abortPart h r.id r.length s).head g) else 0) =
            fun g => if g ∈ h :: l then skipsOf pre r (s.head g) else 0 := funext fun g => by
        by_cases hgh : g = h
        · subst hgh
          rw [if_pos rfl, if_neg hnot, if_pos List.mem_cons_self, Nat.add_zero]
        · rw [if_neg hgh, Nat.zero_add]
          by_cases hg : g ∈ l
          · rw [if_pos hg, if_pos (List.mem_cons_of_mem _ hg), hhead g hg]
          · rw [if_neg hg, if_neg fun hm => (List.mem_cons.1 hm).elim hgh hg]
      have htotal : (l.map fun g => skipsOf pre r ((abortPart h r.id r.length s).head g)) =
          l.map fun g => skipsOf pre r (s.head g) := List.map_congr_left fun g hg => by rw [hhead g hg]
      rw [List.map_cons, List.sum_cons, ← hcount, ← htotal]
      exact hsum
    · refine (hw.mono fun g hg => ⟨hg.1 ▸ List.mem_cons_self, hg.1 ▸ hg.2⟩).trans (hw'.mono fun g hg => ?_)
      exact ⟨List.mem_cons_of_mem _ hg.1, hhead g hg.1 ▸ hg.2⟩
    · by_cases hgh : g = h
      · subst hgh
        exact (hleft hon).of_later (hw'.heads g fun h => hnot h.1) (hw'.lanes g fun h => hnot h.1)
      · have hg := (List.mem_cons.1 hg).resolve_left hgh
        exact (hleft' g hg (by rw [hhead g hg]; exact hon)).of_earlier (hhead g hg) (hlane g hg)

end

end Sys2Proof.Machine
end

section
/-!
PROOFS. The statement on Abort Job, of a QUEUED and of an ACTIVE record.
-/

namespace Sys2Proof.Machine

section
variable {s t : State} {pre post : List JobRec} {r : JobRec} {a : Activation}

theorem answered_store (f : Frame) (x : ResultCode) (p : List Byte) (s : State) : (answered f x p s).store = s.store := by
  have h := (quiet_arbitrate (s.setLink { s.link with answers := s.link.answers ++ [⟨f.tag, f.code, x, p⟩] })).store
  exact h

theorem answered_onward (f : Frame) (x : ResultCode) (p : List Byte) (s : State) : Onward s (answered f x p s) :=
  .of_eq (answered_store f x p s) (answered_jobs f x p s)

/-! ## The two commands (R39, R40) -/

theorem cmdAbortJob_queued (hf : s.jobs.find r.id = some r) (ha : r.active = none) :
    cmdAbortJob r.id s = Reply.ok [] (abortQueued r s) := by
  unfold cmdAbortJob
  rw [hf]
  dsimp only
  rw [ha]

theorem cmdAbortJob_active (hf : s.jobs.find r.id = some r) (ha : r.active = some a) :
    cmdAbortJob r.id s = Reply.ok [] (abortActive r a s) := by
  unfold cmdAbortJob
  rw [hf]
  dsimp only
  rw [ha]

theorem cmdAbortJob_none {id : Nat} (hn : ∀ r ∈ s.jobs.records, r.id ≠ id) :
    cmdAbortJob id s = Reply.refuse .noSuchJob s := by
  unfold cmdAbortJob
  rw [find_none hn]

/-- The end of an aborted job: its lines given up, and then the record gone with its totals. -/
theorem abortActive_end (ht : forEach a.heads (fun h s => abortPart h r.id r.length s) s = t)
    (hq : t.jobs.Distinct) {b : Activation} (he : t.jobs.records = pre ++ { r with active := some b } :: post) :
    abortActive r a s = submit (.jobAborted r.id true b.fired b.shortfall r.tag)
      (unbindBank b.bank ((giveUpRecord r t).setJobs { t.jobs with records := pre ++ post })) := by
  have hfind : (giveUpRecord r t).jobs.find r.id = some { r with active := some b } := by
    rw [giveUpRecord_jobs]
    exact hq.find_split he
  have hrec : t.jobs.remove r.id = { t.jobs with records := pre ++ post } :=
    congrArg (fun l => { t.jobs with records := l }) (remove_records he rfl (fun x hx => hq.ne_of_split he (.inl hx))
      fun x hx => hq.ne_of_split he (.inr hx))
  unfold abortActive
  rw [ht]
  dsimp only
  rw [hfind, Option.bind_some]
  dsimp only
  rw [giveUpRecord_jobs, hrec]

/-! ## What every abort leaves (R39, R40, R66) -/

/-- A later state in which a record has left the queue and every line of its range in the window is given up. -/
def State.GivenUp (s : State) (r : JobRec) (t : State) : Prop := (∀ x ∈ t.jobs.records, x.id ≠ r.id) ∧
  ∀ x ∈ r.planes, ∀ n, x.first ≤ n → n < x.first + r.length →
    (s.plane x.plane).base ≤ n → n < (s.plane x.plane).base + (s.plane x.plane).depth →
    n < (t.plane x.plane).base ∨ ((t.plane x.plane).slot n).state = .spent

/-- The lines given up at one time are given up for good. -/
theorem givenUp_of_giveUp {m : State} (hw : ∀ p, sparseWf Slot.fresh (s.plane p).slots)
    (hr : (r.planes.map JobPlane.plane).Nodup) (hm : Onward s m) (ht : Onward (giveUpRecord r m) t)
    (hids : ∀ x ∈ t.jobs.records, x.id ≠ r.id) : s.GivenUp r t := by
  refine ⟨hids, fun x hx n h1 h2 _ hd => ?_⟩
  obtain ⟨hwm, hup, hdepth, -⟩ := hm.planes x.plane (hw x.plane)
  obtain ⟨hwg, hup', hdepth', -⟩ := (onward_giveUpRecord r m).planes x.plane hwm
  exact ht.line hwg (by omega) (giveUpRecord_lines hr hx hwm h1 h2 (by omega))

theorem thins_skipRun (h : Head) (retires : Bool) (k : Nat) (c : Cursor) (taken : Bool) (s : State) :
    Thins s (skipRun h retires k c taken s) := by
  induction k generalizing c taken s with
  | zero => exact .refl s
  | succ k ih =>
    refine Thins.trans ?_ (ih { c with index := c.index + 1 } true (skipLine h c taken retires s))
    unfold skipLine
    dsimp only
    split
    · exact ((Thins.of_jobs (quiet_bump _ s).jobs).trans (.of_jobs (takeOf_jobs h c false _))).trans (thins_report _ _ _ _ _)
    · exact (Thins.of_jobs (quiet_bump _ s).jobs).trans (thins_report _ _ _ _ _)

theorem thins_abortPart (h : Head) (id length : Nat) (s : State) : Thins s (abortPart h id length s) := by
  unfold abortPart
  split
  · exact .refl s
  · split
    · exact ((thins_skipRun h false _ _ _ s).trans (thins_goTo h _ _ _)).trans (thins_runDues h _ _)
    · split
      · exact thins_skipRun h false _ _ _ s
      · exact .refl s

theorem abortActive_givenUp (hq : s.jobs.Distinct) (hw : ∀ p, sparseWf Slot.fresh (s.plane p).slots)
    (hr : (r.planes.map JobPlane.plane).Nodup) (hf : s.jobs.find r.id = some r) (ha : r.active = some a) :
    s.GivenUp r (abortActive r a s) := by
  obtain ⟨m, hm⟩ : ∃ m, m = forEach a.heads (fun h s => abortPart h r.id r.length s) s := ⟨_, rfl⟩
  have hon : Onward s m := by
    rw [hm]
    exact onward_forEach (fun h _ t => onward_abortPart h r.id r.length t) s
  have hthin : Thinned s.jobs m.jobs := by
    rw [hm]
    exact thins_forEach (fun h _ t => thins_abortPart h r.id r.length t) s hq
  unfold abortActive
  rw [← hm]
  dsimp only
  rw [giveUpRecord_jobs]
  cases hb : m.jobs.find r.id with
  | none =>
    rw [Option.bind_none]
    dsimp only
    refine givenUp_of_giveUp hw hr hon (.refl _) fun x hx hid => ?_
    rw [giveUpRecord_jobs] at hx
    exact List.find?_eq_none.1 hb x hx (by simpa using hid)
  | some r' =>
    obtain ⟨r₀, hf₀, ho⟩ := hthin.found hq hb
    obtain rfl : r = r₀ := Option.some.inj (hf.symm.trans hf₀)
    have hactive := congrArg JobRec.active ho
    rw [JobRec.outline, JobRec.outline, ha] at hactive
    cases hb' : r'.active with
    | none => rw [hb'] at hactive; cases hactive
    | some b =>
      rw [Option.bind_some, hb']
      dsimp only
      have hout : Onward (giveUpRecord r m) ((giveUpRecord r m).setJobs (m.jobs.remove r.id)) := by
        rw [← giveUpRecord_jobs r m]
        exact onward_remove r.id _
      refine givenUp_of_giveUp hw hr hon ((hout.trans (onward_unbindBank _ _)).trans (quiet_submit _ _).onward)
        fun x hx => ?_
      rw [(quiet_submit _ _).jobs, unbindBank_jobs] at hx
      simpa using (List.mem_filter.1 hx).2

theorem abortQueued_givenUp (hw : ∀ p, sparseWf Slot.fresh (s.plane p).slots) (hr : (r.planes.map JobPlane.plane).Nodup) :
    s.GivenUp r (abortQueued r s) := by
  have hrest := (quiet_submit (.jobAborted r.id false 0 0 r.tag) (giveUpRecord r (s.setJobs (s.jobs.remove r.id)))).onward.trans
    (onward_testChain _)
  refine givenUp_of_giveUp hw hr (onward_remove r.id s) hrest (hrest.ids r.id fun x hx => ?_)
  rw [giveUpRecord_jobs] at hx
  simpa using (List.mem_filter.1 hx).2

/-! ## The takers and their skips -/

theorem mem_activation_heads (ha : r.active = some a) (h : Head) : h ∈ a.heads ↔ r.takenBy h = true := by
  have ht : r.takenBy h = a.takers.any fun x => x.2.contains h := by
    unfold JobRec.takenBy
    rw [ha]
  unfold Activation.heads
  rw [List.mem_filter, ht]
  exact and_iff_right (mem_allHeads h)

theorem sum_filter_map {α : Type} (l : List α) (p : α → Bool) (f : α → Nat) :
    ((l.filter p).map f).sum = (l.map fun x => if p x = true then f x else 0).sum := by
  induction l with
  | nil => rfl
  | cons x l ih =>
    rw [List.filter_cons, List.map_cons, List.sum_cons, ← ih]
    split
    · rw [List.map_cons, List.sum_cons]
    · rw [Nat.zero_add]

/-- The skips of a head that may be a taker. -/
def takerSkips (pre : List JobRec) (r : JobRec) (x : HeadRec) (taken : Bool) : Nat := if taken then skipsOf pre r x else 0

theorem sum_takerSkips (ha : r.active = some a) (s : State) : (a.heads.map fun h => skipsOf pre r (s.head h)).sum =
    (allHeads.map fun h => takerSkips pre r (s.head h) (r.takenBy h)).sum := by
  have ht : a.heads = allHeads.filter fun h => r.takenBy h := by
    unfold Activation.heads JobRec.takenBy
    rw [ha]
  rw [ht, sum_filter_map]
  rfl

/-- The state of an ACTIVE record's abort before JOB_ABORTED (R40, R91). -/
structure State.Aborted (s : State) (pre : List JobRec) (r : JobRec) (post : List JobRec) (a : Activation) (u : State) :
    Prop where
  jobs : u.jobs = { s.jobs with records := pre ++ post }
  ptu : u.ptu = s.ptu
  trig : u.trig = s.trig
  notices : u.notices = { s.notices with counters := u.notices.counters }
  counts : ∀ h, u.counter (.head .skipped h) =
    min (2 ^ 32 - 1) (s.counter (.head .skipped h) + takerSkips pre r (s.head h) (r.takenBy h))
  banks : Unbound s.banks a.bank u.banks
  still : ∀ h, ¬ (r.takenBy h = true ∧ (s.head h).On r.id) → u.head h = s.head h ∧ u.lane h = s.lane h
  left : ∀ h, r.takenBy h = true → (s.head h).On r.id → s.Left u h (post.find? fun y => y.takenBy h)

theorem abortActive_aborted (hq : s.jobs.Distinct) (he : s.jobs.records = pre ++ r :: post) (ha : r.active = some a)
    (hb : 0 < s.banks.bound a.bank) (hc : ∀ h, s.counter (.head .skipped h) ≤ Config.counterMax)
    (hm : ∀ h, r.takenBy h = true → (s.head h).On r.id → s.Leaves h (post.find? fun y => y.takenBy h)) :
    ∃ u, s.Aborted pre r post a u ∧ abortActive r a s = submit (.jobAborted r.id true a.fired
      (a.shortfall + (allHeads.map fun h => takerSkips pre r (s.head h) (r.takenBy h)).sum) r.tag) u := by
  have hmem := mem_activation_heads ha
  have hnodup : a.heads.Nodup := List.Nodup.filter _ (by decide)
  obtain ⟨hab, hw, hleft⟩ := forEach_abortPart (pre := pre) (post := post) a.heads hnodup hq he ha
    fun h hh hon => hm h ((hmem h).1 hh) hon
  obtain ⟨m, hmdef⟩ : ∃ m, forEach a.heads (fun h s => abortPart h r.id r.length s) s = m := ⟨_, rfl⟩
  rw [hmdef] at hab hw hleft
  rw [sum_takerSkips ha] at hab
  obtain ⟨p, hp⟩ := hab.jobs
  obtain ⟨hgb, hgh, hgl, hgp, hgt, hgn⟩ := giveUpRecord_others r m
  have hend := abortActive_end hmdef (JobQueue.Distinct.replaced hq he (by rw [hp])) (by rw [hp])
  obtain ⟨b, hub, hun⟩ := unbindBank_unbound (i := a.bank)
    (s := (giveUpRecord r m).setJobs { m.jobs with records := pre ++ post }) (by rw [State.setJobs_banks, hgb, hab.banks]; exact hb)
  rw [State.setJobs_banks, hgb, hab.banks] at hub
  have hhead : ∀ h, (((giveUpRecord r m).setJobs { m.jobs with records := pre ++ post }).setBanks b).head h = m.head h :=
    fun h => congrArg (fun v => v.get h) hgh
  have hlane : ∀ h, (((giveUpRecord r m).setJobs { m.jobs with records := pre ++ post }).setBanks b).lane h = m.lane h :=
    fun h => congrArg (fun v => v.get h) hgl
  refine ⟨((giveUpRecord r m).setJobs { m.jobs with records := pre ++ post }).setBanks b,
    ⟨?_, hgp.trans hw.ptu, hgt.trans hw.trig, ?_, fun h => ?_, hub, fun h hno => ?_, fun h ht hon => ?_⟩, ?_⟩
  · rw [State.setBanks_jobs, State.setJobs_jobs, hp]
  · rw [State.setBanks_notices, State.setJobs_notices, hgn]
    exact hab.notices
  · have hcount := hab.counts h (hc h)
    have htaken : (if h ∈ a.heads then skipsOf pre r (s.head h) else 0) = takerSkips pre r (s.head h) (r.takenBy h) :=
      if_congr (hmem h) rfl rfl
    rw [htaken] at hcount
    exact (State.counter_congr (t := ((giveUpRecord r m).setJobs { m.jobs with records := pre ++ post }).setBanks b)
      (congrArg NoticeUnit.counters hgn) _).trans hcount
  · have hout : ¬ (h ∈ a.heads ∧ (s.head h).On r.id) := fun h' => hno ⟨(hmem h).1 h'.1, h'.2⟩
    exact ⟨(hhead h).trans (hw.heads h hout), (hlane h).trans (hw.lanes h hout)⟩
  · exact (hleft h ((hmem h).2 ht) hon).of_later (hhead h) (hlane h)
  · rw [hend, ← hun]
    rfl

end

/-- Settles O29. -/
theorem abortJob : Obligations.AbortJob := by
  intro tag id s f rest ht
  refine ⟨fun hn => ht.exec_refuse rfl (cmdAbortJob_none hn), fun hi r hr hid => ?_⟩
  subst hid
  intro q
  obtain ⟨l, l', hl⟩ := List.append_of_mem hr
  have hq := hi.distinct
  have hfind : (s.took rest).jobs.find r.id = some r := hq.find_split hl
  have hqueued : r.active = none → exec (.abortJob tag r.id) s = .next (answered f .ok [] (abortQueued r (s.took rest))) :=
    fun ha => ht.exec_ok rfl (cmdAbortJob_queued hfind ha)
  have hactive : ∀ a, r.active = some a →
      exec (.abortJob tag r.id) s = .next (answered f .ok [] (abortActive r a (s.took rest))) :=
    fun a ha => ht.exec_ok rfl (cmdAbortJob_active hfind ha)
  have hsplit : ∀ pre post, s.jobs.records = pre ++ r :: post → ({ s.jobs with records := pre ++ post } : JobQueue) = q :=
    fun pre post he => congrArg (fun l => ({ s.jobs with records := l } : JobQueue))
      (remove_records he rfl (fun x hx => hq.ne_of_split he (.inl hx)) fun x hx => hq.ne_of_split he (.inr hx)).symm
  have hw : ∀ p, sparseWf Slot.fresh ((s.took rest).plane p).slots := fun p => (hi.store p).canonical
  have hplanes : (r.planes.map JobPlane.plane).Nodup := (hi.jobs.records r hr).planes.2
  refine ⟨fun ha => ?_, fun a ha hnone => ?_, fun a pre post ha he => ?_, ?_⟩
  · intro v
    refine ⟨hqueued ha, fun hu => (hqueued ha).trans ?_⟩
    have hv : v.jobs = q := (quiet_submit _ _).jobs.trans (giveUpRecord_jobs r _)
    exact congrArg (fun u => Host.Outcome.next (answered f .ok [] u)) (testChain_none (chainReady_unchained (hv ▸ hu)))
  · have hstill : forEach a.heads (fun h s => abortPart h r.id r.length s) (s.took rest) = s.took rest :=
      forEach_fix fun h _ => by
        unfold abortPart
        rw [show ((s.took rest).head h).cursor = none from hnone h]
    have hsame : r = { r with active := some a } := by rw [← ha]
    have hrec : (s.took rest).jobs.records = l ++ { r with active := some a } :: l' := by rw [← hsame]; exact hl
    have hend := abortActive_end hstill hq hrec
    rw [hactive a ha, hend, ← hsplit l l' hl]
    rfl
  · intro onIt next skips hdown hahead
    have hskips : ∀ h, skips h = takerSkips pre r (s.head h) (r.takenBy h) := fun h => by
      unfold skips takerSkips skipsOf
      cases (s.head h).cursor with
      | none => exact (ite_self 0).symm
      | some c => cases r.takenBy h <;> rfl
    obtain ⟨u, hu, hend⟩ := abortActive_aborted (s := s.took rest) (pre := pre) (post := post) hq he ha (hi.bound_pos he ha)
      (fun h => hi.notices.counters _) fun h htaken hon =>
        ⟨hdown h ⟨htaken, hon⟩, fun y v hy hv => hahead h y v ⟨htaken, hon⟩ hy hv⟩
    have hsum : allHeads.map skips = allHeads.map fun h => takerSkips pre r (s.head h) (r.takenBy h) :=
      List.map_congr_left fun h _ => hskips h
    refine ⟨u, ?_, hu.jobs.trans (hsplit pre post he), hu.ptu, hu.trig, hu.notices, fun h => ?_, hu.banks.active,
      hu.banks.other, hu.banks.tables, fun h => ⟨fun hno => hu.still h hno, fun hon hnext => ?_, fun y hon hnext => ?_⟩⟩
    · rw [hactive a ha, hend, hsum]
      rfl
    · rw [hskips]
      exact hu.counts h
    · exact (hu.left h hon.1 hon.2).idle hnext
    · exact ⟨fun z hz => (hu.left h hon.1 hon.2).sending y z hnext hz, fun hz => (hu.left h hon.1 hon.2).free y hnext hz⟩
  · cases ha : r.active with
    | none =>
      obtain ⟨h1, h2⟩ := abortQueued_givenUp (r := r) hw hplanes
      refine ⟨_, hqueued ha, fun x hx => h1 x ?_, fun x hx n e1 e2 e3 e4 => ?_⟩
      · rwa [answered_jobs] at hx
      · have hline := h2 x hx n e1 e2 e3 e4
        rwa [State.plane, ← answered_store f .ok []] at hline
    | some a =>
      obtain ⟨h1, h2⟩ := abortActive_givenUp (s := s.took rest) hq hw hplanes hfind ha
      refine ⟨_, hactive a ha, fun x hx => h1 x ?_, fun x hx n e1 e2 e3 e4 => ?_⟩
      · rwa [answered_jobs] at hx
      · have hline := h2 x hx n e1 e2 e3 e4
        rwa [State.plane, ← answered_store f .ok []] at hline

end Sys2Proof.Machine
end
